-- ==== Sys2Proof/Word.lean ====
section
/-! DEFINITION. The word types of the LCIcoder CORE model. The block moves octets, characters and
packet bytes (8 bits each), 64-bit operands and responses, and physical values in the Q31.32 form
of spec/00_scope.md R9. -/

namespace Sys2Proof

/-- An octet of the wire record, a character code of the hex buffer (R21), or a byte of a packet. -/
abbrev Byte := BitVec 8

/-- A 64-bit operand or response value (spec/30_encoding.md R100, R101, R107). -/
abbrev Word64 := BitVec 64

/-- A physical value in the form of the command port: a two's-complement number `p` that stands for
the rational `p / 2^32` (spec/00_scope.md R9). The physical registers are held in this form too: by
spec/48_system.md R232 every value they can hold is exact in it. -/
abbrev Phys := BitVec 64

/-- One command packet: the bytes the host presents, the operation code first (R100). -/
abbrev Packet := List Byte

end Sys2Proof
end

