-- ==== Sys2Proof/Syntax.lean ====
section
/-! DEFINITION. The 36 commands of spec/30_encoding.md R102, one constructor per row of
spec/opcode_table.json, with the operand fields of their packet format (R101). -/

namespace Sys2Proof

/-- A command of the block. Operands have the widths of the packet formats F0 to F9 (R101); the
count `n` of a text operand is the length of the list. -/
inductive Instr where
  /-- 0x00, F0: do nothing (R230). -/
  | nop
  /-- 0x01, F0: go to the reset state (R231). -/
  | reset
  /-- 0x02, F1: make the buffer `a` octets of zero (R126). -/
  | bufz (a : BitVec 32)
  /-- 0x03, F9: load a hex string; `r` must be 0 (R127). -/
  | ldhex (r : BitVec 8) (text : List Byte)
  /-- 0x04, F1: read the character at index `a` (R128). -/
  | hxrd (a : BitVec 32)
  /-- 0x05, F2: overwrite the character at index `a` with `b` (R129). -/
  | hxwr (a : BitVec 32) (b : BitVec 8)
  /-- 0x08, F4: read the register numbered `r` (R232). -/
  | rrd (r : BitVec 8)
  /-- 0x09, F5: write `v` to the register numbered `r` (R233). -/
  | rwr (r : BitVec 8) (v : BitVec 64)
  /-- 0x0A, F0: clear the record (R234). -/
  | rclr
  /-- 0x0B, F1: read entry `a` of the unknown-subelement list (R235). -/
  | unkrd (a : BitVec 32)
  /-- 0x0C, F1: read entry `a` of the diagnostics list (R236). -/
  | dgrd (a : BitVec 32)
  /-- 0x10, F2: read `b` bits at bit offset `a` (R120). -/
  | rdbits (a : BitVec 32) (b : BitVec 8)
  /-- 0x11, F3: write the low `b` bits of `v` at bit offset `a` (R121). -/
  | wrbits (a : BitVec 32) (b : BitVec 8) (v : BitVec 64)
  /-- 0x12, F1: read octet `a` (R122). -/
  | rdoct (a : BitVec 32)
  /-- 0x13, F2: write octet `a` (R123). -/
  | wroct (a : BitVec 32) (b : BitVec 8)
  /-- 0x14, F2: read `b` octets at octet offset `a` as a big-endian integer (R124). -/
  | rdmoi (a : BitVec 32) (b : BitVec 8)
  /-- 0x15, F3: write the low `8 * b` bits of `v` big-endian at octet offset `a` (R125). -/
  | wrmoi (a : BitVec 32) (b : BitVec 8) (v : BitVec 64)
  /-- 0x20, F6: quantize the physical value `v` to `w` bits with `f` fraction bits (R144). -/
  | fxenc (w f : BitVec 8) (v : BitVec 64)
  /-- 0x21, F6: dequantize the raw field `v` of `w` bits with `f` fraction bits (R145). -/
  | fxdec (w f : BitVec 8) (v : BitVec 64)
  /-- 0x22, F7: encode the uncertainty `v`, offset `m`, largest code `x`, cfg `c` (R149). -/
  | uncenc (m x c : BitVec 8) (v : BitVec 64)
  /-- 0x23, F7: decode the uncertainty code `v`, offset `m`, largest code `x` (R150). -/
  | uncdec (m x c : BitVec 8) (v : BitVec 64)
  /-- 0x30, F0: one framer step (R162). -/
  | frnext
  /-- 0x31, F8: write the ID octet `b1` and the length octet `b2` at the cursor (R164). -/
  | frput (b1 b2 : BitVec 8)
  /-- 0x40, F2: decode a location payload of `b` octets at octet `a` (R171). -/
  | locdec (a : BitVec 32) (b : BitVec 8)
  /-- 0x41, F2: encode the location payload at octet `a`, cfg `b` (R173). -/
  | locenc (a : BitVec 32) (b : BitVec 8)
  /-- 0x42, F2: decode a floor payload of `b` octets at octet `a` (R181). -/
  | flrdec (a : BitVec 32) (b : BitVec 8)
  /-- 0x43, F2: encode the floor payload at octet `a`, cfg `b` (R183). -/
  | flrenc (a : BitVec 32) (b : BitVec 8)
  /-- 0x44, F2: decode a usage payload of `b` octets at octet `a` (R191). -/
  | usgdec (a : BitVec 32) (b : BitVec 8)
  /-- 0x45, F1: correct and encode the usage payload at octet `a` (R194). -/
  | usgenc (a : BitVec 32)
  /-- 0x46, F2: decode a BSSID payload of `b` octets at octet `a` (R201). -/
  | bssdec (a : BitVec 32) (b : BitVec 8)
  /-- 0x47, F2: encode the BSSID payload at octet `a`, cfg `b` (R203). -/
  | bssenc (a : BitVec 32) (b : BitVec 8)
  /-- 0x48, F9: parse a text address into slot `r` (R205). -/
  | macparse (r : BitVec 8) (text : List Byte)
  /-- 0x49, F4: read slot `r` as canonical text (R207). -/
  | macfmt (r : BitVec 8)
  /-- 0x50, F0: decode the buffer into the record (R216). -/
  | recdec
  /-- 0x51, F8: encode the record into the buffer, incl `b1`, cfg `b2` (R218). -/
  | recenc (b1 b2 : BitVec 8)
  /-- 0x52, F4: run the advisory check on the sub-records `r` selects (R220). -/
  | polchk (r : BitVec 8)
  deriving DecidableEq, Repr

end Sys2Proof
end

