-- ==== Sys2Proof/WellFormed.lean ====
section
/-! DEFINITION. Which instructions have a packet. Every operand of a fixed-width field fits its field
by its type; only the text of format F9 has a bound, since its count `n` is 16 bits wide
(spec/30_encoding.md R101). An operand outside the limits a command's rule states is still a command:
the block refuses it with INVALID when it runs (R104), so it is well formed here. -/

namespace Sys2Proof

/-- A text operand whose length fits the 16-bit count of format F9 (R101). -/
def textFits (text : List Byte) : Bool := decide (text.length < 65536)

/-- The instruction has a packet in its format. -/
def Instr.WellFormed : Instr → Bool
  | .ldhex _ text => textFits text
  | .macparse _ text => textFits text
  | .nop | .reset | .bufz _ | .hxrd _ | .hxwr _ _ | .rrd _ | .rwr _ _ | .rclr | .unkrd _
  | .dgrd _ | .rdbits _ _ | .wrbits _ _ _ | .rdoct _ | .wroct _ _ | .rdmoi _ _
  | .wrmoi _ _ _ | .fxenc _ _ _ | .fxdec _ _ _ | .uncenc _ _ _ _ | .uncdec _ _ _ _
  | .frnext | .frput _ _ | .locdec _ _ | .locenc _ _ | .flrdec _ _ | .flrenc _ _
  | .usgdec _ _ | .usgenc _ | .bssdec _ _ | .bssenc _ _ | .macfmt _ | .recdec
  | .recenc _ _ | .polchk _ => true

end Sys2Proof
end

