-- ==== Sys2Proof/Decode.lean ====
section
/-! DEFINITION. The command packets of spec/30_encoding.md R100 to R104: the decoder from packet
bytes to an instruction (total, every refusal named), the encoder from an instruction to its packet,
and the packet that the host's numbered table word stands for. Multi-byte operands are most
significant byte first (R100). -/

namespace Sys2Proof

/-- Why a packet is no command of the operation map. -/
inductive DecodeError where
  /-- The packet has no byte, so no operation code (R100). -/
  | empty
  /-- The operation code is not assigned (R104). -/
  | unassigned (op : Byte)
  /-- The packet is shorter or longer than the format of its operation code (R101). -/
  | badLength (op : Byte)
  deriving DecidableEq, Repr

/-- A 16-bit operand, most significant byte first (R100). -/
def be16 (b1 b0 : Byte) : BitVec 16 := b1 ++ b0

/-- A 32-bit operand, most significant byte first (R100). -/
def be32 (b3 b2 b1 b0 : Byte) : BitVec 32 := b3 ++ b2 ++ b1 ++ b0

/-- A 64-bit operand, most significant byte first (R100). -/
def be64 (b7 b6 b5 b4 b3 b2 b1 b0 : Byte) : BitVec 64 :=
  b7 ++ b6 ++ b5 ++ b4 ++ b3 ++ b2 ++ b1 ++ b0

/-- Format F0: `op` (R101). -/
def readF0 (op : Byte) (i : Instr) : List Byte → Except DecodeError Instr
  | [] => .ok i
  | _ => .error (.badLength op)

/-- Format F1: `op  a:32` (R101). -/
def readF1 (op : Byte) (mk : BitVec 32 → Instr) : List Byte → Except DecodeError Instr
  | [a3, a2, a1, a0] => .ok (mk (be32 a3 a2 a1 a0))
  | _ => .error (.badLength op)

/-- Format F2: `op  a:32  b:8` (R101). -/
def readF2 (op : Byte) (mk : BitVec 32 → BitVec 8 → Instr) : List Byte → Except DecodeError Instr
  | [a3, a2, a1, a0, b] => .ok (mk (be32 a3 a2 a1 a0) b)
  | _ => .error (.badLength op)

/-- Format F3: `op  a:32  b:8  v:64` (R101). -/
def readF3 (op : Byte) (mk : BitVec 32 → BitVec 8 → BitVec 64 → Instr) :
    List Byte → Except DecodeError Instr
  | [a3, a2, a1, a0, b, v7, v6, v5, v4, v3, v2, v1, v0] =>
    .ok (mk (be32 a3 a2 a1 a0) b (be64 v7 v6 v5 v4 v3 v2 v1 v0))
  | _ => .error (.badLength op)

/-- Format F4: `op  r:8` (R101). -/
def readF4 (op : Byte) (mk : BitVec 8 → Instr) : List Byte → Except DecodeError Instr
  | [r] => .ok (mk r)
  | _ => .error (.badLength op)

/-- Format F5: `op  r:8  v:64` (R101). -/
def readF5 (op : Byte) (mk : BitVec 8 → BitVec 64 → Instr) : List Byte → Except DecodeError Instr
  | [r, v7, v6, v5, v4, v3, v2, v1, v0] => .ok (mk r (be64 v7 v6 v5 v4 v3 v2 v1 v0))
  | _ => .error (.badLength op)

/-- Format F6: `op  w:8  f:8  v:64` (R101). -/
def readF6 (op : Byte) (mk : BitVec 8 → BitVec 8 → BitVec 64 → Instr) :
    List Byte → Except DecodeError Instr
  | [w, f, v7, v6, v5, v4, v3, v2, v1, v0] => .ok (mk w f (be64 v7 v6 v5 v4 v3 v2 v1 v0))
  | _ => .error (.badLength op)

/-- Format F7: `op  m:8  x:8  c:8  v:64` (R101). -/
def readF7 (op : Byte) (mk : BitVec 8 → BitVec 8 → BitVec 8 → BitVec 64 → Instr) :
    List Byte → Except DecodeError Instr
  | [m, x, c, v7, v6, v5, v4, v3, v2, v1, v0] => .ok (mk m x c (be64 v7 v6 v5 v4 v3 v2 v1 v0))
  | _ => .error (.badLength op)

/-- Format F8: `op  b1:8  b2:8` (R101). -/
def readF8 (op : Byte) (mk : BitVec 8 → BitVec 8 → Instr) : List Byte → Except DecodeError Instr
  | [b1, b2] => .ok (mk b1 b2)
  | _ => .error (.badLength op)

/-- Format F9: `op  r:8  n:16  text: n bytes`; the text has exactly `n` bytes (R101). -/
def readF9 (op : Byte) (mk : BitVec 8 → List Byte → Instr) : List Byte → Except DecodeError Instr
  | r :: n1 :: n0 :: text =>
    if text.length = (be16 n1 n0).toNat then .ok (mk r text) else .error (.badLength op)
  | _ => .error (.badLength op)

/-- The operation map (R102): the instruction of a packet, or the name of what is wrong with it. An
unassigned operation code is found whatever follows it, since it has no format (R104). -/
def decode : Packet → Except DecodeError Instr
  | [] => .error .empty
  | op :: rest =>
    match op.toNat with
    | 0x00 => readF0 op .nop rest
    | 0x01 => readF0 op .reset rest
    | 0x02 => readF1 op .bufz rest
    | 0x03 => readF9 op .ldhex rest
    | 0x04 => readF1 op .hxrd rest
    | 0x05 => readF2 op .hxwr rest
    | 0x08 => readF4 op .rrd rest
    | 0x09 => readF5 op .rwr rest
    | 0x0A => readF0 op .rclr rest
    | 0x0B => readF1 op .unkrd rest
    | 0x0C => readF1 op .dgrd rest
    | 0x10 => readF2 op .rdbits rest
    | 0x11 => readF3 op .wrbits rest
    | 0x12 => readF1 op .rdoct rest
    | 0x13 => readF2 op .wroct rest
    | 0x14 => readF2 op .rdmoi rest
    | 0x15 => readF3 op .wrmoi rest
    | 0x20 => readF6 op .fxenc rest
    | 0x21 => readF6 op .fxdec rest
    | 0x22 => readF7 op .uncenc rest
    | 0x23 => readF7 op .uncdec rest
    | 0x30 => readF0 op .frnext rest
    | 0x31 => readF8 op .frput rest
    | 0x40 => readF2 op .locdec rest
    | 0x41 => readF2 op .locenc rest
    | 0x42 => readF2 op .flrdec rest
    | 0x43 => readF2 op .flrenc rest
    | 0x44 => readF2 op .usgdec rest
    | 0x45 => readF1 op .usgenc rest
    | 0x46 => readF2 op .bssdec rest
    | 0x47 => readF2 op .bssenc rest
    | 0x48 => readF9 op .macparse rest
    | 0x49 => readF4 op .macfmt rest
    | 0x50 => readF0 op .recdec rest
    | 0x51 => readF8 op .recenc rest
    | 0x52 => readF4 op .polchk rest
    | _ => .error (.unassigned op)

/-! ## The encoder -/

/-- The two bytes of a 16-bit operand, most significant first (R100). -/
def bytes16 (a : BitVec 16) : List Byte := [a.extractLsb' 8 8, a.extractLsb' 0 8]

/-- The four bytes of a 32-bit operand, most significant first (R100). -/
def bytes32 (a : BitVec 32) : List Byte :=
  [a.extractLsb' 24 8, a.extractLsb' 16 8, a.extractLsb' 8 8, a.extractLsb' 0 8]

/-- The eight bytes of a 64-bit operand, most significant first (R100). -/
def bytes64 (a : BitVec 64) : List Byte :=
  [a.extractLsb' 56 8, a.extractLsb' 48 8, a.extractLsb' 40 8, a.extractLsb' 32 8,
   a.extractLsb' 24 8, a.extractLsb' 16 8, a.extractLsb' 8 8, a.extractLsb' 0 8]

/-- The operands of format F9: `r`, the 16-bit count, the text (R101). -/
def bytesF9 (r : BitVec 8) (text : List Byte) : List Byte :=
  r :: (bytes16 (BitVec.ofNat 16 text.length) ++ text)

/-- The packet of an instruction, from R101 and R102. -/
def encode : Instr → Packet
  | .nop => [0x00]
  | .reset => [0x01]
  | .bufz a => 0x02 :: bytes32 a
  | .ldhex r text => 0x03 :: bytesF9 r text
  | .hxrd a => 0x04 :: bytes32 a
  | .hxwr a b => 0x05 :: (bytes32 a ++ [b])
  | .rrd r => [0x08, r]
  | .rwr r v => 0x09 :: r :: bytes64 v
  | .rclr => [0x0A]
  | .unkrd a => 0x0B :: bytes32 a
  | .dgrd a => 0x0C :: bytes32 a
  | .rdbits a b => 0x10 :: (bytes32 a ++ [b])
  | .wrbits a b v => 0x11 :: (bytes32 a ++ b :: bytes64 v)
  | .rdoct a => 0x12 :: bytes32 a
  | .wroct a b => 0x13 :: (bytes32 a ++ [b])
  | .rdmoi a b => 0x14 :: (bytes32 a ++ [b])
  | .wrmoi a b v => 0x15 :: (bytes32 a ++ b :: bytes64 v)
  | .fxenc w f v => 0x20 :: w :: f :: bytes64 v
  | .fxdec w f v => 0x21 :: w :: f :: bytes64 v
  | .uncenc m x c v => 0x22 :: m :: x :: c :: bytes64 v
  | .uncdec m x c v => 0x23 :: m :: x :: c :: bytes64 v
  | .frnext => [0x30]
  | .frput b1 b2 => [0x31, b1, b2]
  | .locdec a b => 0x40 :: (bytes32 a ++ [b])
  | .locenc a b => 0x41 :: (bytes32 a ++ [b])
  | .flrdec a b => 0x42 :: (bytes32 a ++ [b])
  | .flrenc a b => 0x43 :: (bytes32 a ++ [b])
  | .usgdec a b => 0x44 :: (bytes32 a ++ [b])
  | .usgenc a => 0x45 :: bytes32 a
  | .bssdec a b => 0x46 :: (bytes32 a ++ [b])
  | .bssenc a b => 0x47 :: (bytes32 a ++ [b])
  | .macparse r text => 0x48 :: bytesF9 r text
  | .macfmt r => [0x49, r]
  | .recdec => [0x50]
  | .recenc b1 b2 => [0x51, b1, b2]
  | .polchk r => [0x52, r]

/-! ## The host's table word -/

/-- The length in bytes of the packet an operation code begins, `n` being the count of a text
operand (R101, R102); an unassigned code stands alone. -/
def packetLength (op n : Nat) : Nat :=
  match op with
  | 0x02 | 0x04 | 0x0B | 0x0C | 0x12 | 0x45 => 5
  | 0x05 | 0x10 | 0x13 | 0x14 | 0x40 | 0x41 | 0x42 | 0x43 | 0x44 | 0x46 | 0x47 => 6
  | 0x11 | 0x15 => 14
  | 0x08 | 0x49 | 0x52 => 2
  | 0x09 => 10
  | 0x20 | 0x21 => 11
  | 0x22 | 0x23 => 12
  | 0x31 | 0x51 => 3
  | 0x03 | 0x48 => 4 + n
  | _ => 1

/-- Byte `k` of a number whose byte 0 is the least significant one. -/
def byteOf (w k : Nat) : Byte := BitVec.ofNat 8 (w >>> (8 * k))

/-- The packet of a table word: the packet's first byte is the least significant byte of `w`, the
next bytes follow upwards, and every bit at and above `nbits` is 0. The packet has exactly the
length of its operation code's format. -/
def packetOfWord (nbits w : Nat) : Packet :=
  let v := w % 2 ^ nbits
  let n := (be16 (byteOf v 2) (byteOf v 3)).toNat
  (List.range (packetLength (byteOf v 0).toNat n)).map (byteOf v)

/-- The instruction the decoder reads from a table word, none where it refuses. -/
def decodeTableWord (nbits w : Nat) : Option Instr :=
  match decode (packetOfWord nbits w) with
  | .ok i => some i
  | .error _ => none

end Sys2Proof
end

