-- ==== Sys2Proof/Config.lean ====
section
/-! DEFINITION. The implementation parameters of spec/00_scope.md R5, each at the value this
hardware takes. They are fixed at build time and are not state (R33). EPS has no definition here:
with its value 0 the uncertainty encoder computes `clog2` exactly (spec/41_quantizers.md R147). -/

namespace Sys2Proof.Config

/-- HCAP: the capacity of the hex-character buffer, in characters (R5, R21). -/
@[simp] abbrev hcap : Nat := 1024

/-- PHYS_F: the fraction bits of a physical value at the command port (R5, R9). -/
@[simp] abbrev physFrac : Nat := 32

/-- MAXBITS: the largest bit count of one bit access (R5, R6). -/
@[simp] abbrev maxBits : Nat := 64

/-- MAXOCT: the largest octet count of one multi-octet access (R5). -/
@[simp] abbrev maxOct : Nat := 8

/-- BSS_CAP: the slots of the BSSID list (R5, R30). -/
@[simp] abbrev bssCap : Nat := 42

/-- UNK_CAP: the entries of the unknown-subelement list (R5, R31). -/
@[simp] abbrev unkCap : Nat := 256

/-- DIAG_CAP: the entries of the diagnostics list (R5, R32). -/
@[simp] abbrev diagCap : Nat := 1024

/-- IND_MODE: the BSSID indicator octet written when cfg bit IND is 0 (R5, R103). -/
def indMode : Byte := 0

/-- The two settings of ROUND_TIES that spec/92_eei_decisions.md D5 names. -/
inductive RoundTies where
  /-- A value halfway between two integers goes to the one farther from zero. -/
  | away
  /-- A value halfway between two integers goes to the even one. -/
  | even
  deriving DecidableEq, Repr

/-- ROUND_TIES: the tie rule of round-to-nearest, `AWAY` on this hardware (R5, R141). -/
def roundTies : RoundTies := .away

/-- The two settings of FLOOR_LAYOUT that spec/92_eei_decisions.md D20 names. -/
inductive FloorLayout where
  /-- Movement in bits 1:0 of the floor word, the floor number in bits 15:2. -/
  | moveLow
  /-- Movement in bits 15:14 of the floor word, the floor number in bits 13:0. -/
  | moveHigh
  deriving DecidableEq, Repr

/-- FLOOR_LAYOUT: the place of the movement bits, bits 1:0 on this hardware (R5, R85). -/
def floorLayout : FloorLayout := .moveLow

end Sys2Proof.Config
end

