-- ==== Sys2Proof/Machine/State.lean ====
section
/-! DEFINITION. The state of the block, all of it (spec/10_state.md R20 to R36): the hex buffer with
its length, the cursor, the status register, the record register file, the diagnostics list with
its overflow flag; and the model's own two fields for the command port (R100), the packets the host
will present and the response of the last command. -/

namespace Sys2Proof.Machine

/-- A statement of how the last non-observer command ended (R23, R250). -/
inductive Status where
  /-- 0: the command completed. -/
  | ok
  /-- 1: an access beyond the length of what is accessed (R251). -/
  | bounds
  /-- 2: an accessor command met a character that is not a hex digit (R252). -/
  | malformed
  /-- 3: the command itself is not acceptable (R253). -/
  | invalid
  deriving DecidableEq, Repr

/-- The five kinds of diagnostic (spec/60_exceptions.md R254). -/
inductive DiagKind where
  /-- 1 -/
  | malformedInput
  /-- 2 -/
  | rangeViolation
  /-- 3 -/
  | policyInconsistency
  /-- 4 -/
  | unknownSubelement
  /-- 5 -/
  | consumerIncompatibility
  deriving DecidableEq, Repr

/-- The causes of a diagnostic, all of them (spec/60_exceptions.md R256). -/
inductive Cause where
  /-- 0x10: a character that is not a hex digit. -/
  | hexDigit
  /-- 0x11: HLEN is odd. -/
  | oddLength
  /-- 0x12: header octet 0 is not 0x01. -/
  | hdrToken
  /-- 0x13: header octet 1 is not 0x00. -/
  | hdrMode
  /-- 0x14: header octet 2 is not 0x08. -/
  | hdrType
  /-- 0x15: a declared length exceeds the remaining buffer. -/
  | frameLength
  /-- 0x16: location payload length not 0 and not 16. -/
  | locLength
  /-- 0x17: floor payload length not 5 and not 6. -/
  | flrLength
  /-- 0x18: usage payload length not 1 and not 3. -/
  | usgLength
  /-- 0x19: BSSID payload length 0. -/
  | bssLength
  /-- 0x1A: octets left over after the last whole address. -/
  | bssResidue
  /-- 0x1B: usage payload of length 3 with expiration 0. -/
  | usgExpZero
  /-- 0x1C: the retention-expires-present flag disagrees with the payload length. -/
  | usgFlagLen
  /-- 0x1D: indicator neither 0 nor the count. -/
  | bssIndicator
  /-- 0x1E: a second subelement of an ID already decoded. -/
  | duplicate
  /-- 0x1F: address text in neither surface form. -/
  | macText
  /-- 0x20: an invalid slot was encoded as zeros. -/
  | macInvalidSlot
  /-- 0x30: a fixed-point value outside the field's range was clamped. -/
  | fixClamp
  /-- 0x31: an uncertainty code at or below 0 became 1. -/
  | uncLow
  /-- 0x32: an uncertainty code above the largest became the largest. -/
  | uncHigh
  /-- 0x33: a reserved uncertainty code was taken as the largest. -/
  | uncReserved
  /-- 0x34: a negative uncertainty was taken as 0. -/
  | uncNegative
  /-- 0x35: the version is not 1. -/
  | version
  /-- 0x40: nonzero expiration with the flag clear, corrected on encode. -/
  | expWithoutFlag
  /-- 0x41: flag set with expiration 0, corrected on encode. -/
  | flagWithoutExp
  /-- 0x50: an unrecognized subelement ID. -/
  | unknownId
  /-- 0x60: retransmission disallowed. -/
  | retransDisallowed
  /-- 0x61: retention expiration present. -/
  | retexpPresent
  /-- 0x62: nonzero expiration. -/
  | expNonzero
  /-- 0x63: movement flag set. -/
  | moveSet
  deriving DecidableEq, Repr

/-- One entry of the diagnostics list (R32, R255). Kind and cause are the named codes of R254 and
R256; the argument is 16 bits wide. -/
structure DiagEntry where
  kind : DiagKind
  cause : Cause
  arg : BitVec 16
  deriving DecidableEq, Repr

/-- A slot of the BSSID list (R30): the most significant octet of `addr` is the first on the wire. -/
structure Slot where
  addr : BitVec 48
  valid : BitVec 1
  deriving DecidableEq, Repr

/-- The content of a slot that holds no address (R30, R35). -/
def Slot.empty : Slot := { addr := 0, valid := 0 }

/-- An entry of the unknown-subelement list (R31): the ID octet, the octet offset of the payload in
the buffer, the declared length. -/
structure UnkEntry where
  id : BitVec 8
  pos : BitVec 32
  len : BitVec 8
  deriving DecidableEq, Repr

/-- The record register file R, the LocationRecord (R24 to R31). `R.UNK_N` is the length of `unk`. -/
structure Record where
  /-- R.GEO_P -/
  geoP : BitVec 1
  /-- R.LAT -/
  lat : Phys
  /-- R.LON -/
  lon : Phys
  /-- R.ALT -/
  alt : Phys
  /-- R.LATU -/
  latU : Phys
  /-- R.LONU -/
  lonU : Phys
  /-- R.ALTU -/
  altU : Phys
  /-- R.ALTTYPE -/
  altType : BitVec 4
  /-- R.DATUM -/
  datum : BitVec 3
  /-- R.REGLOC -/
  regLoc : BitVec 1
  /-- R.DSE -/
  dse : BitVec 1
  /-- R.DEPSTA -/
  depSta : BitVec 1
  /-- R.VER -/
  ver : BitVec 2
  /-- R.FLR_P -/
  flrP : BitVec 1
  /-- R.FLOOR -/
  floor : Phys
  /-- R.HEIGHT -/
  height : Phys
  /-- R.HEIGHTU -/
  heightU : Phys
  /-- R.MOVE -/
  move : BitVec 2
  /-- R.USG_P -/
  usgP : BitVec 1
  /-- R.RETRANS -/
  retrans : BitVec 1
  /-- R.RETEXP -/
  retExp : BitVec 1
  /-- R.LOCPOL -/
  locPol : BitVec 1
  /-- R.EXPIRE -/
  expire : BitVec 16
  /-- R.BSS_P -/
  bssP : BitVec 1
  /-- R.BSS_N, 0 to 42 -/
  bssN : BitVec 6
  /-- R.BSS_IND -/
  bssInd : BitVec 8
  /-- R.BSS[0..41] -/
  bss : Vector Slot Config.bssCap
  /-- R.UNK, in the order met -/
  unk : List UnkEntry
  deriving DecidableEq, Repr

/-- The record defaults (R35): everything 0 but the version, which is 1. -/
def Record.cleared : Record where
  geoP := 0
  lat := 0
  lon := 0
  alt := 0
  latU := 0
  lonU := 0
  altU := 0
  altType := 0
  datum := 0
  regLoc := 0
  dse := 0
  depSta := 0
  ver := 1
  flrP := 0
  floor := 0
  height := 0
  heightU := 0
  move := 0
  usgP := 0
  retrans := 0
  retExp := 0
  locPol := 0
  expire := 0
  bssP := 0
  bssN := 0
  bssInd := 0
  bss := Vector.replicate Config.bssCap Slot.empty
  unk := []

/-- The hex buffer's cells `HEX[0..HCAP-1]` (R21) as a list of (index, character) pairs in one
canonical form: indexes strictly rising, no cell that holds the character `0`. -/
abbrev Memory := List Host.Cell

/-- A response on the command port (R100): the status, the value, and for MACFMT the text. -/
structure Response where
  status : Status
  value : Word64
  text : Option (List Byte)
  deriving DecidableEq, Repr

/-- The whole state of the block (R20), and the model's command port. -/
structure State where
  /-- HEX (R21) -/
  hex : Memory
  /-- HLEN, the number of valid characters (R21) -/
  hlen : Nat
  /-- CUR, the octet offset of the next subelement (R22) -/
  cur : BitVec 32
  /-- STATUS (R23) -/
  status : Status
  /-- R (R24 to R31) -/
  record : Record
  /-- DIAG; DGN is its length (R32) -/
  diag : List DiagEntry
  /-- DGOVF (R32) -/
  dgovf : BitVec 1
  /-- The model's own: the packets the host presents, one after each response (R100, R285). -/
  pending : List Packet
  /-- The model's own: the response of the last command, none before the first (R100). -/
  resp : Option Response
  deriving DecidableEq, Repr

/-- The reset state (R36, R280); no command has been presented and none answered. -/
def State.reset : State where
  hex := []
  hlen := 0
  cur := 0
  status := .ok
  record := Record.cleared
  diag := []
  dgovf := 0
  pending := []
  resp := none

/-- Why the machine stops with a fault. -/
inductive Fault where
  /-- Raised by `step` when the host presents a packet with no byte at all: it has no operation code,
  so it is no command, and the spec leaves it unrepresented (R100, R101). Safe: the model stops
  where the spec says nothing. -/
  | emptyPacket
  deriving DecidableEq, Repr

/-- Why the machine has no meaning for what was presented. -/
inductive Refusal where
  /-- Raised by `exec` for an instruction that has no meaning yet, by its mnemonic. Safe: the model
  stops. No arm raises it now. -/
  | notModelled (mnemonic : String)
  /-- Raised by `step` when a packet is shorter or longer than the format of its assigned operation
  code: it "is not a command; the model need not represent it" (R101). Safe: the model stops. -/
  | packetLength (op : Byte)
  deriving DecidableEq, Repr

end Sys2Proof.Machine
end

