-- ==== Sys2Proof/Machine/Flags.lean ====
section
/-! DEFINITION. The codes of statuses and diagnostics, and the posting of diagnostics
(spec/60_exceptions.md R250 to R257). The block has no arithmetic flags; these are its condition
codes. -/

namespace Sys2Proof.Machine

/-- The status byte (R23, R250). -/
def Status.code : Status → Byte
  | .ok => 0
  | .bounds => 1
  | .malformed => 2
  | .invalid => 3

/-- The 3-bit kind code (R254). -/
def DiagKind.code : DiagKind → BitVec 3
  | .malformedInput => 1
  | .rangeViolation => 2
  | .policyInconsistency => 3
  | .unknownSubelement => 4
  | .consumerIncompatibility => 5

/-- The 8-bit cause code (R256). -/
def Cause.code : Cause → BitVec 8
  | .hexDigit => 0x10
  | .oddLength => 0x11
  | .hdrToken => 0x12
  | .hdrMode => 0x13
  | .hdrType => 0x14
  | .frameLength => 0x15
  | .locLength => 0x16
  | .flrLength => 0x17
  | .usgLength => 0x18
  | .bssLength => 0x19
  | .bssResidue => 0x1A
  | .usgExpZero => 0x1B
  | .usgFlagLen => 0x1C
  | .bssIndicator => 0x1D
  | .duplicate => 0x1E
  | .macText => 0x1F
  | .macInvalidSlot => 0x20
  | .fixClamp => 0x30
  | .uncLow => 0x31
  | .uncHigh => 0x32
  | .uncReserved => 0x33
  | .uncNegative => 0x34
  | .version => 0x35
  | .expWithoutFlag => 0x40
  | .flagWithoutExp => 0x41
  | .unknownId => 0x50
  | .retransDisallowed => 0x60
  | .retexpPresent => 0x61
  | .expNonzero => 0x62
  | .moveSet => 0x63

/-- The kind under which a cause is filed (the first column of R256). -/
def Cause.kind : Cause → DiagKind
  | .hexDigit | .oddLength | .hdrToken | .hdrMode | .hdrType | .frameLength | .locLength
  | .flrLength | .usgLength | .bssLength | .bssResidue | .usgExpZero | .usgFlagLen
  | .bssIndicator | .duplicate | .macText | .macInvalidSlot => .malformedInput
  | .fixClamp | .uncLow | .uncHigh | .uncReserved | .uncNegative | .version => .rangeViolation
  | .expWithoutFlag | .flagWithoutExp => .policyInconsistency
  | .unknownId => .unknownSubelement
  | .retransDisallowed | .retexpPresent | .expNonzero | .moveSet => .consumerIncompatibility

/-- The field identifiers that RangeViolation causes carry (R257). -/
inductive FieldId where
  /-- 0: the standalone quantizer commands. -/
  | none
  /-- 1 -/
  | latitude
  /-- 2 -/
  | longitude
  /-- 3 -/
  | altitude
  /-- 4 -/
  | floor
  /-- 5 -/
  | height
  deriving DecidableEq, Repr

/-- The number of a field identifier (R257). -/
def FieldId.code : FieldId → Nat
  | .none => 0
  | .latitude => 1
  | .longitude => 2
  | .altitude => 3
  | .floor => 4
  | .height => 5

/-- The entry a cause makes, its argument cut to 16 bits (R255, R256). -/
def note (c : Cause) (arg : Nat) : DiagEntry := { kind := c.kind, cause := c, arg := BitVec.ofNat 16 arg }

/-- `diag(kind, cause, arg)`: append an entry, or set the overflow flag when the list is full
(R255). -/
def State.postEntry (s : State) (e : DiagEntry) : State :=
  if s.diag.length < Config.diagCap then { s with diag := s.diag ++ [e] } else { s with dgovf := 1 }

/-- Post the entry of a cause (R255). -/
def State.post (s : State) (c : Cause) (arg : Nat) : State := s.postEntry (note c arg)

/-- Post entries in their order (R262). -/
def State.postAll (s : State) (es : List DiagEntry) : State := es.foldl State.postEntry s

/-- The entry of a cause, or no entry when its condition does not hold. -/
def noteIf (b : Bool) (c : Cause) (arg : Nat) : List DiagEntry := if b then [note c arg] else []

end Sys2Proof.Machine
end

