-- ==== Sys2Proof/Machine/Ops.lean ====
section
/-! DEFINITION. The shared operations: the cells of the hex buffer, hex digits, the six access
primitives of spec/20_memory.md R51 to R58, the command wrapper and what a failure leaves
(spec/60_exceptions.md R250 to R253, R260), and the command port (spec/30_encoding.md R100). -/

namespace Sys2Proof.Machine

/-! ## The cells of the hex buffer -/

/-- What a cell that is not listed reads as: the character `0` (R36). -/
def blank : Byte := 0x30

/-- The character in cell `a`. -/
def Memory.read : Memory → Nat → Byte
  | [], _ => blank
  | (a, b) :: m, c => if a = c then b else Memory.read m c

/-- Put a cell in front of the first cell of a higher index. -/
def Memory.insert : Memory → Nat → Byte → Memory
  | [], c, v => [(c, v)]
  | (a, b) :: m, c, v => if c < a then (c, v) :: (a, b) :: m else (a, b) :: Memory.insert m c v

/-- Store character `v` in cell `c`, keeping the canonical form. -/
def Memory.write (m : Memory) (c : Nat) (v : Byte) : Memory :=
  let rest : Memory := m.filter (fun cell => cell.1 ≠ c)
  if v = blank then rest else Memory.insert rest c v

/-- Store characters from cell `c` upwards. -/
def Memory.writeList (m : Memory) (c : Nat) : List Byte → Memory
  | [] => m
  | v :: vs => Memory.writeList (Memory.write m c v) (c + 1) vs

/-- The canonical form: indexes strictly rising, no listed cell equal to what an unlisted one reads
as. -/
def Memory.wf : Memory → Bool
  | [] => true
  | [(_, b)] => b != blank
  | (a, b) :: (a', b') :: m => b != blank && decide (a < a') && Memory.wf ((a', b') :: m)

/-- `HEX[c]` (R21). -/
def State.chr (s : State) (c : Nat) : Byte := Memory.read s.hex c

/-- `OLEN`, the number of whole octets (R21, R51). -/
def State.olen (s : State) : Nat := s.hlen / 2

/-! ## Hex digits -/

/-- `hexval(c)`: the value of a hex digit of either case, none for any other character (R52). -/
def hexval (c : Byte) : Option (BitVec 4) :=
  if 0x30 ≤ c ∧ c ≤ 0x39 then some ((c - 0x30).setWidth 4)
  else if 0x61 ≤ c ∧ c ≤ 0x66 then some ((c - 0x61 + 10).setWidth 4)
  else if 0x41 ≤ c ∧ c ≤ 0x46 then some ((c - 0x41 + 10).setWidth 4)
  else none

/-- `hexchar(n)`: the lowercase hex digit of `n` (R52). -/
def hexchar (n : BitVec 4) : Byte :=
  if n ≤ 9 then 0x30 + n.setWidth 8 else 0x61 + n.setWidth 8 - 10

/-! ## The access primitives -/

/-- What aborts a command (R250 to R253). -/
inductive Abort where
  /-- `raise Invalid` (R253). -/
  | invalid
  /-- `raise Bounds` (R251). -/
  | bounds
  /-- `raise Malformed(i)`: octet `i` holds a character that is no hex digit (R252). -/
  | malformed (i : Nat)
  deriving DecidableEq, Repr

/-- `OctRead(i)` (R53): the first character is the high nibble. -/
def octRead (s : State) (i : Nat) : Except Abort Byte :=
  if s.olen ≤ i then .error .bounds
  else
    match hexval (s.chr (2 * i)), hexval (s.chr (2 * i + 1)) with
    | some h, some l => .ok (h ++ l)
    | _, _ => .error (.malformed i)

/-- Store octet `i` as two lowercase hex characters, the high nibble first (R54). -/
def putOctet (s : State) (i : Nat) (v : Byte) : State :=
  { s with hex := Memory.writeList s.hex (2 * i) [hexchar (v.extractLsb' 4 4), hexchar (v.extractLsb' 0 4)] }

/-- `OctWrite(i, v)` (R54). -/
def octWrite (s : State) (i : Nat) (v : Byte) : Except Abort State :=
  if s.olen ≤ i then .error .bounds else .ok (putOctet s i v)

/-- Store octets from octet `i` upwards, the extent having been checked. -/
def putOctets (s : State) (i : Nat) : List Byte → State
  | [] => s
  | v :: vs => putOctets (putOctet s i v) (i + 1) vs

/-- `n` stream bits from bit `k` upwards, the bit at `k` least significant (R55). -/
def bitsFrom (s : State) (k : Nat) : Nat → Except Abort Nat
  | 0 => .ok 0
  | n + 1 => do
    let o ← octRead s (k / 8)
    let v ← bitsFrom s (k + 1) n
    .ok ((o.getLsbD (k % 8)).toNat + 2 * v)

/-- `BitRead(off, n)` (R55): the bounds are checked once, before any octet is read. -/
def bitRead (s : State) (off n : Nat) : Except Abort Nat :=
  if 8 * s.olen < off + n then .error .bounds else bitsFrom s off n

/-- The octet whose bit `b` is `f b`. -/
def octetOfBits (f : Nat → Bool) : Byte :=
  BitVec.ofNat 8 ((List.range 8).foldr (fun b acc => (f b).toNat * 2 ^ b + acc) 0)

/-- The new octet `j` of `BitWrite(off, n, v)`: bits inside the range come from `v`, the others from
the old octet (R56, phase 2). -/
def mergeOctet (off n : Nat) (v : Word64) (j : Nat) (old : Byte) : Byte :=
  octetOfBits fun b =>
    if off ≤ 8 * j + b ∧ 8 * j + b < off + n then v.getLsbD (8 * j + b - off) else old.getLsbD b

/-- The old octet `j` as `BitWrite` reads it: not read when the range covers it wholly (R56, phase
1). -/
def oldOctet (s : State) (off n j : Nat) : Except Abort Byte :=
  if off ≤ 8 * j ∧ 8 * j + 8 ≤ off + n then .ok 0 else octRead s j

/-- The new octets `j` to `j + k - 1` of `BitWrite`, read and merged in ascending order (R56). -/
def mergeOctets (s : State) (off n : Nat) (v : Word64) (j : Nat) : Nat → Except Abort (List Byte)
  | 0 => .ok []
  | k + 1 => do
    let old ← oldOctet s off n j
    let rest ← mergeOctets s off n v (j + 1) k
    .ok (mergeOctet off n v j old :: rest)

/-- `BitWrite(off, n, v)` (R56): every read comes before every write. -/
def bitWrite (s : State) (off n : Nat) (v : Word64) : Except Abort State :=
  if 8 * s.olen < off + n then .error .bounds
  else if n = 0 then .ok s
  else do
    let first := off / 8
    let last := (off + n - 1) / 8
    let octets ← mergeOctets s off n v first (last + 1 - first)
    .ok (putOctets s first octets)

/-- `n` octets from octet `addr` upwards folded into `acc`, the lowest offset most significant
(R57). -/
def octetsFrom (s : State) (addr acc : Nat) : Nat → Except Abort Nat
  | 0 => .ok acc
  | n + 1 => do
    let o ← octRead s addr
    octetsFrom s (addr + 1) (256 * acc + o.toNat) n

/-- `MemRead(addr, n)` (R57): the big-endian integer of `n` octets. -/
def memRead (s : State) (addr n : Nat) : Except Abort Nat :=
  if s.olen < addr + n then .error .bounds else octetsFrom s addr 0 n

/-- The low `n` octets of `v`, most significant first (R58). -/
def bigEndian (v : Nat) : Nat → List Byte
  | 0 => []
  | n + 1 => BitVec.ofNat 8 (v / 256 ^ n) :: bigEndian v n

/-- `MemWrite(addr, n, v)` (R58): the low `8 * n` bits of `v`, big-endian. -/
def memWrite (s : State) (addr n v : Nat) : Except Abort State :=
  if s.olen < addr + n then .error .bounds else .ok (putOctets s addr (bigEndian v n))

/-- The octets `p` to `p + n - 1`, read in ascending order: how a codec validates a payload before it
commits (R170, R180, R190). -/
def octetList (s : State) (p : Nat) : Nat → Except Abort (List Byte)
  | 0 => .ok []
  | n + 1 => do
    let o ← octRead s p
    let rest ← octetList s (p + 1) n
    .ok (o :: rest)

/-- Make the buffer `n` octets of the character `0` (R126, R217). -/
def zeroBuffer (s : State) (n : Nat) : State :=
  { s with hex := Memory.writeList s.hex 0 (List.replicate (2 * n) blank), hlen := 2 * n }

/-! ## The command wrapper, and what a failure leaves -/

/-- How the body of a command ends: completed with a value, or aborted. The state carries the work
done up to there (R260). -/
inductive Ended where
  | done (s : State) (value : Word64)
  | failed (s : State) (a : Abort)

/-- A body that only reads: its value, or the abort, the state as it is. -/
def answering (s : State) : Except Abort Word64 → Ended
  | .ok v => .done s v
  | .error a => .failed s a

/-- A body that writes the buffer and answers `value`; on an abort nothing has been written. -/
def storing (s : State) (value : Word64) : Except Abort State → Ended
  | .ok t => .done t value
  | .error a => .failed s a

/-- The start of a non-observer command: STATUS is OK, DIAG is empty, DGOVF is clear (R250). -/
def State.start (s : State) : State := { s with status := .ok, diag := [], dgovf := 0 }

/-- Put a response without text on the port (R100). -/
def State.respond (s : State) (st : Status) (v : Word64) : State :=
  { s with resp := some { status := st, value := v, text := none } }

/-- The end of a command by failure, the one exception entry of the block (R250, R260): STATUS takes
the failure's code, the response is that code with value 0, and a malformed digit is reported.
Nothing else is saved, no mode changes, and there is no handler and so no return (R261). -/
def State.fail (s : State) : Abort → State
  | .invalid => State.respond { s with status := .invalid } .invalid 0
  | .bounds => State.respond { s with status := .bounds } .bounds 0
  | .malformed i => State.respond { s.post .hexDigit i with status := .malformed } .malformed 0

/-- `run(command)` for a non-observer command (R250). -/
def runCommand (s : State) (body : State → Ended) : State :=
  match body s.start with
  | .done t v => t.respond .ok v
  | .failed t a => t.fail a

/-- An unassigned operation code (R104): as a non-observer command that is refused. -/
def rejectUnassigned (s : State) : State := runCommand s fun s => .failed s .invalid

/-- The bytes of a response (R100): the status, the value most significant byte first, and for a
response with text its count and its characters. -/
def Response.bytes (r : Response) : List Byte :=
  r.status.code :: bytes64 r.value ++
    match r.text with
    | none => []
    | some cs => BitVec.ofNat 8 cs.length :: cs

/-! ## The command port -/

/-- Take the next packet the host presents (R100, R285), none when it presents none. -/
def fetch (s : State) : Option (Packet × State) :=
  match s.pending with
  | [] => none
  | p :: rest => some (p, { s with pending := rest })

/-- The host presents packet `p` next. -/
def present (s : State) (p : Packet) : State := { s with pending := p :: s.pending }

end Sys2Proof.Machine
end

