-- ==== Sys2Proof/Machine/Operands.lean ====
section
/-! DEFINITION. The operand forms: the register numbers of spec/10_state.md R29 with what RRD reads
and RWR writes under each (spec/48_system.md R232, R233), and the configuration bytes of
spec/30_encoding.md R103. -/

namespace Sys2Proof.Machine

/-- The registers the host reaches by number (R29). -/
inductive Reg where
  | geoP | lat | lon | alt | latU | lonU | altU | altType | datum | regLoc | dse | depSta | ver
  | flrP | floor | height | heightU | move
  | usgP | retrans | retExp | locPol | expire
  | bssP | bssN | bssInd
  /-- R.BSS[i].ADDR -/
  | slotAddr (i : Fin Config.bssCap)
  /-- R.BSS[i].VALID -/
  | slotValid (i : Fin Config.bssCap)
  | status | cur | hlen | dgn | unkN | hcap | dgovf
  deriving DecidableEq, Repr

/-- The register a number names, none where it names no register (R29). -/
def regOf (r : BitVec 8) : Option Reg :=
  match r.toNat with
  | 0x00 => some .geoP
  | 0x01 => some .lat
  | 0x02 => some .lon
  | 0x03 => some .alt
  | 0x04 => some .latU
  | 0x05 => some .lonU
  | 0x06 => some .altU
  | 0x07 => some .altType
  | 0x08 => some .datum
  | 0x09 => some .regLoc
  | 0x0A => some .dse
  | 0x0B => some .depSta
  | 0x0C => some .ver
  | 0x10 => some .flrP
  | 0x11 => some .floor
  | 0x12 => some .height
  | 0x13 => some .heightU
  | 0x14 => some .move
  | 0x20 => some .usgP
  | 0x21 => some .retrans
  | 0x22 => some .retExp
  | 0x23 => some .locPol
  | 0x24 => some .expire
  | 0x30 => some .bssP
  | 0x31 => some .bssN
  | 0x32 => some .bssInd
  | 0xF0 => some .status
  | 0xF1 => some .cur
  | 0xF2 => some .hlen
  | 0xF3 => some .dgn
  | 0xF4 => some .unkN
  | 0xF5 => some .hcap
  | 0xF6 => some .dgovf
  | n =>
    if h : 0x40 ≤ n ∧ n - 0x40 < Config.bssCap then some (.slotAddr ⟨n - 0x40, h.2⟩)
    else if h : 0x80 ≤ n ∧ n - 0x80 < Config.bssCap then some (.slotValid ⟨n - 0x80, h.2⟩)
    else none

/-- Slot `i` of the BSSID list (R30); an index past the last slot names none and reads as empty. -/
def Record.slot (r : Record) (i : Nat) : Slot := (r.bss[i]?).getD Slot.empty

/-- Write slot `i` of the BSSID list (R30). -/
def Record.setSlot (r : Record) (i : Nat) (x : Slot) : Record :=
  { r with bss := r.bss.setIfInBounds i x }

/-- What RRD returns for a register (R232): a physical value in the port form, every other register
zero-extended. -/
def readReg (s : State) : Reg → Word64
  | .geoP => s.record.geoP.setWidth 64
  | .lat => s.record.lat
  | .lon => s.record.lon
  | .alt => s.record.alt
  | .latU => s.record.latU
  | .lonU => s.record.lonU
  | .altU => s.record.altU
  | .altType => s.record.altType.setWidth 64
  | .datum => s.record.datum.setWidth 64
  | .regLoc => s.record.regLoc.setWidth 64
  | .dse => s.record.dse.setWidth 64
  | .depSta => s.record.depSta.setWidth 64
  | .ver => s.record.ver.setWidth 64
  | .flrP => s.record.flrP.setWidth 64
  | .floor => s.record.floor
  | .height => s.record.height
  | .heightU => s.record.heightU
  | .move => s.record.move.setWidth 64
  | .usgP => s.record.usgP.setWidth 64
  | .retrans => s.record.retrans.setWidth 64
  | .retExp => s.record.retExp.setWidth 64
  | .locPol => s.record.locPol.setWidth 64
  | .expire => s.record.expire.setWidth 64
  | .bssP => s.record.bssP.setWidth 64
  | .bssN => s.record.bssN.setWidth 64
  | .bssInd => s.record.bssInd.setWidth 64
  | .slotAddr i => (s.record.slot i).addr.setWidth 64
  | .slotValid i => (s.record.slot i).valid.setWidth 64
  | .status => s.status.code.setWidth 64
  | .cur => s.cur.setWidth 64
  | .hlen => BitVec.ofNat 64 s.hlen
  | .dgn => BitVec.ofNat 64 s.diag.length
  | .unkN => BitVec.ofNat 64 s.record.unk.length
  | .hcap => BitVec.ofNat 64 Config.hcap
  | .dgovf => s.dgovf.setWidth 64

/-- What RWR writes (R233): the value cut to the register's width; none where the write is refused, a
read-only register or a slot count above 42. -/
def writeReg (s : State) (v : Word64) : Reg → Option State
  | .geoP => some { s with record := { s.record with geoP := v.setWidth 1 } }
  | .lat => some { s with record := { s.record with lat := v } }
  | .lon => some { s with record := { s.record with lon := v } }
  | .alt => some { s with record := { s.record with alt := v } }
  | .latU => some { s with record := { s.record with latU := v } }
  | .lonU => some { s with record := { s.record with lonU := v } }
  | .altU => some { s with record := { s.record with altU := v } }
  | .altType => some { s with record := { s.record with altType := v.setWidth 4 } }
  | .datum => some { s with record := { s.record with datum := v.setWidth 3 } }
  | .regLoc => some { s with record := { s.record with regLoc := v.setWidth 1 } }
  | .dse => some { s with record := { s.record with dse := v.setWidth 1 } }
  | .depSta => some { s with record := { s.record with depSta := v.setWidth 1 } }
  | .ver => some { s with record := { s.record with ver := v.setWidth 2 } }
  | .flrP => some { s with record := { s.record with flrP := v.setWidth 1 } }
  | .floor => some { s with record := { s.record with floor := v } }
  | .height => some { s with record := { s.record with height := v } }
  | .heightU => some { s with record := { s.record with heightU := v } }
  | .move => some { s with record := { s.record with move := v.setWidth 2 } }
  | .usgP => some { s with record := { s.record with usgP := v.setWidth 1 } }
  | .retrans => some { s with record := { s.record with retrans := v.setWidth 1 } }
  | .retExp => some { s with record := { s.record with retExp := v.setWidth 1 } }
  | .locPol => some { s with record := { s.record with locPol := v.setWidth 1 } }
  | .expire => some { s with record := { s.record with expire := v.setWidth 16 } }
  | .bssP => some { s with record := { s.record with bssP := v.setWidth 1 } }
  | .bssN =>
    if Config.bssCap < v.toNat then none
    else some { s with record := { s.record with bssN := v.setWidth 6 } }
  | .bssInd => some { s with record := { s.record with bssInd := v.setWidth 8 } }
  | .slotAddr i =>
    some { s with record := s.record.setSlot i { s.record.slot i with addr := v.setWidth 48 } }
  | .slotValid i =>
    some { s with record := s.record.setSlot i { s.record.slot i with valid := v.setWidth 1 } }
  | .cur => some { s with cur := v.setWidth 32 }
  | .status | .hlen | .dgn | .unkN | .hcap | .dgovf => none

/-- cfg bits 7:2 are not all 0 (R103). -/
def cfgReserved (cfg : BitVec 8) : Bool := cfg.extractLsb' 2 6 != 0

/-- cfg bit 0, ZS: the "zero = smallest" policy (R103). -/
def cfgZs (cfg : BitVec 8) : Bool := cfg.getLsbD 0

/-- cfg bit 1, IND: the BSSID indicator is written as the count (R103). -/
def cfgInd (cfg : BitVec 8) : Bool := cfg.getLsbD 1

/-- incl bits 7:5, and sel bits 7:5 of POLCHK, are not all 0 (R103, R220). -/
def inclReserved (incl : BitVec 8) : Bool := incl.extractLsb' 5 3 != 0

/-- incl bit 0, LOC (R103). -/
def inclLoc (incl : BitVec 8) : Bool := incl.getLsbD 0

/-- incl bit 1, FLOOR (R103). -/
def inclFloor (incl : BitVec 8) : Bool := incl.getLsbD 1

/-- incl bit 2, USAGE (R103). -/
def inclUsage (incl : BitVec 8) : Bool := incl.getLsbD 2

/-- incl bit 3, BSSID (R103). -/
def inclBssid (incl : BitVec 8) : Bool := incl.getLsbD 3

/-- incl bit 4, FORCE_LOC (R103). -/
def inclForceLoc (incl : BitVec 8) : Bool := incl.getLsbD 4

end Sys2Proof.Machine
end

