-- ==== Sys2Proof/Machine/Accessor.lean ====
section
/-! DEFINITION. The BitStream Accessor commands and the buffer commands (spec/40_bitstream.md R120 to
R129). -/

namespace Sys2Proof.Machine

/-- RDBITS off, n (R120). -/
def execRdbits (a : BitVec 32) (b : BitVec 8) (s : State) : Host.Outcome State Fault Refusal :=
  .next <| runCommand s fun s =>
    if Config.maxBits < b.toNat then .failed s .invalid
    else answering s ((bitRead s a.toNat b.toNat).map (BitVec.ofNat 64))

/-- WRBITS off, n, v (R121). -/
def execWrbits (a : BitVec 32) (b : BitVec 8) (v : BitVec 64) (s : State) :
    Host.Outcome State Fault Refusal :=
  .next <| runCommand s fun s =>
    if Config.maxBits < b.toNat then .failed s .invalid
    else storing s 0 (bitWrite s a.toNat b.toNat v)

/-- RDOCT i (R122). -/
def execRdoct (a : BitVec 32) (s : State) : Host.Outcome State Fault Refusal :=
  .next <| runCommand s fun s => answering s ((octRead s a.toNat).map (BitVec.setWidth 64))

/-- WROCT i, b (R123). -/
def execWroct (a : BitVec 32) (b : BitVec 8) (s : State) : Host.Outcome State Fault Refusal :=
  .next <| runCommand s fun s => storing s 0 (octWrite s a.toNat b)

/-- RDMOI off, cnt (R124). -/
def execRdmoi (a : BitVec 32) (b : BitVec 8) (s : State) : Host.Outcome State Fault Refusal :=
  .next <| runCommand s fun s =>
    if Config.maxOct < b.toNat then .failed s .invalid
    else answering s ((memRead s a.toNat b.toNat).map (BitVec.ofNat 64))

/-- WRMOI off, cnt, v (R125). -/
def execWrmoi (a : BitVec 32) (b : BitVec 8) (v : BitVec 64) (s : State) :
    Host.Outcome State Fault Refusal :=
  .next <| runCommand s fun s =>
    if Config.maxOct < b.toNat then .failed s .invalid
    else storing s 0 (memWrite s a.toNat b.toNat v.toNat)

/-- BUFZ n (R126). -/
def execBufz (a : BitVec 32) (s : State) : Host.Outcome State Fault Refusal :=
  .next <| runCommand s fun s =>
    if Config.hcap < 2 * a.toNat then .failed s .bounds else .done (zeroBuffer s a.toNat) 0

/-- LDHEX "text" (R127): the characters are stored as given. -/
def execLdhex (r : BitVec 8) (text : List Byte) (s : State) : Host.Outcome State Fault Refusal :=
  .next <| runCommand s fun s =>
    if r ≠ 0 then .failed s .invalid
    else if Config.hcap < text.length then .failed s .bounds
    else .done { s with hex := Memory.writeList s.hex 0 text, hlen := text.length } 0

/-- HXRD c, an observer (R128): it changes nothing but the response. -/
def execHxrd (a : BitVec 32) (s : State) : Host.Outcome State Fault Refusal :=
  .next <|
    if s.hlen ≤ a.toNat then s.respond .bounds 0
    else s.respond .ok ((s.chr a.toNat).setWidth 64)

/-- HXWR c, ch (R129). -/
def execHxwr (a : BitVec 32) (b : BitVec 8) (s : State) : Host.Outcome State Fault Refusal :=
  .next <| runCommand s fun s =>
    if s.hlen ≤ a.toNat then .failed s .bounds
    else .done { s with hex := Memory.write s.hex a.toNat b } 0

end Sys2Proof.Machine
end

