-- ==== Sys2Proof/Machine/Bssid.lean ====
section
/-! DEFINITION. The Colocated-BSSID Codec, ID 7, and the hardware-address text forms
(spec/46_bssid.md R200 to R207; layouts spec/30_encoding.md R88, R94). -/

namespace Sys2Proof.Machine

/-! ## Wire form -/

/-- Decode address `i` of the payload at `p` into slot `i`: a bad digit makes the slot invalid and is
reported, the other slots are kept (R200). A bounds abort cannot occur under the callers'
precondition. -/
def bssDecSlot (p : Nat) (s : State) (i : Nat) : State :=
  match memRead s (p + 1 + 6 * i) 6 with
  | .ok a => { s with record := s.record.setSlot i { addr := BitVec.ofNat 48 a, valid := 1 } }
  | .error (.malformed j) =>
    { s.post .hexDigit j with record := s.record.setSlot i Slot.empty }
  | .error _ => s

/-- The indicator octet, with whether it could be read; a bad digit is reported and the indicator is
taken as 0 (R200). -/
def readIndicator (s : State) (p : Nat) : Byte × Bool × List DiagEntry :=
  match octRead s p with
  | .ok o => (o, true, [])
  | .error (.malformed i) => (0, false, [note .hexDigit i])
  | .error _ => (0, false, [])

/-- `BssDec(p, len)` (R200): the count comes from the length, never from the indicator. -/
def bssDec (s : State) (p len : Nat) : State :=
  if len = 0 then s.post .bssLength 0
  else
    let (ind, indOk, indNotes) := readIndicator s p
    let n := (len - 1) / 6
    let r := (len - 1) % 6
    let s1 := s.postAll (indNotes ++ noteIf (s.record.bssP == 1) .duplicate 7)
    let s2 := (List.range n).foldl (bssDecSlot p) s1
    let s3 := s2.postAll
      (noteIf (r != 0) .bssResidue r
        ++ noteIf (indOk && ind != 0 && ind.toNat != n) .bssIndicator ind.toNat)
    { s3 with record := { s3.record with bssN := BitVec.ofNat 6 n, bssInd := ind, bssP := 1 } }

/-- The octets of slot `i` on the wire; an invalid slot is six zero octets (R202). -/
def slotOctets (r : Record) (i : Nat) : List Byte :=
  bigEndian (if (r.slot i).valid = 1 then (r.slot i).addr.toNat else 0) 6

/-- The payload of `BssEnc(p, ind)`: the indicator, then every slot in use (R202). -/
def bssPayload (r : Record) (ind : Bool) : List Byte :=
  (if ind then r.bssN.setWidth 8 else Config.indMode) ::
    (List.range r.bssN.toNat).flatMap (slotOctets r)

/-- The report of `BssEnc`: one entry for each invalid slot in use (R202). -/
def bssEncNotes (r : Record) : List DiagEntry :=
  (List.range r.bssN.toNat).flatMap fun i => noteIf ((r.slot i).valid != 1) .macInvalidSlot i

/-- `BssEnc(p, ind)` (R202), the extent having been checked. -/
def bssEnc (s : State) (p : Nat) (ind : Bool) : State :=
  putOctets (s.postAll (bssEncNotes s.record)) p (bssPayload s.record ind)

/-- BSSDEC p, len (R201). -/
def execBssdec (a : BitVec 32) (b : BitVec 8) (s : State) : Host.Outcome State Fault Refusal :=
  .next <| runCommand s fun s =>
    if s.olen < a.toNat + b.toNat then .failed s .bounds
    else
      let t := bssDec s a.toNat b.toNat
      .done t (t.record.bssN.setWidth 64)

/-- BSSENC p, cfg (R203): bit 0 of cfg is ignored. -/
def execBssenc (a : BitVec 32) (b : BitVec 8) (s : State) : Host.Outcome State Fault Refusal :=
  .next <| runCommand s fun s =>
    let len := 1 + 6 * s.record.bssN.toNat
    if cfgReserved b then .failed s .invalid
    else if s.olen < a.toNat + len then .failed s .bounds
    else .done (bssEnc s a.toNat (cfgInd b)) (BitVec.ofNat 64 len)

/-! ## Text form -/

/-- A separator of the separated form: `:`, `-` or `_` (R94). -/
def isSeparator (c : Byte) : Bool := c == 0x3A || c == 0x2D || c == 0x5F

/-- The octets of pairs of hex digits, none when a character is no digit or the count is odd (R204). -/
def hexPairs : List Byte → Option (List Byte)
  | [] => some []
  | h :: l :: rest =>
    match hexval h, hexval l, hexPairs rest with
    | some hi, some lo, some os => some ((hi ++ lo) :: os)
    | _, _, _ => none
  | [_] => none

/-- The digits of the separated form `XX?XX?…?XX`, each `?` a separator; none in another shape
(R94). -/
def dropSeparators : List Byte → Option (List Byte)
  | [a, b] => some [a, b]
  | a :: b :: c :: rest =>
    if isSeparator c then (dropSeparators rest).map fun ds => a :: b :: ds else none
  | _ => none

/-- The number whose octets are given, the first most significant (R204). -/
def addrOf (os : List Byte) : BitVec 48 :=
  BitVec.ofNat 48 (os.foldl (fun acc o => 256 * acc + o.toNat) 0)

/-- `MacParse(text, n)`: the address of a valid text, none for every other text (R204). -/
def macParse (text : List Byte) : Option (BitVec 48) :=
  if text.length = 12 then (hexPairs text).map addrOf
  else if text.length = 17 then ((dropSeparators text).bind hexPairs).map addrOf
  else none

/-- Octet `k` of an address as two lowercase digits (R206). -/
def octetText (addr : BitVec 48) (k : Nat) : List Byte :=
  let o := addr.extractLsb' (40 - 8 * k) 8
  [hexchar (o.extractLsb' 4 4), hexchar (o.extractLsb' 0 4)]

/-- `MacFmt(addr)`: the canonical 17 characters (R206). -/
def macFmt (addr : BitVec 48) : List Byte :=
  octetText addr 0 ++ (List.range 5).flatMap fun k => 0x3A :: octetText addr (k + 1)

/-- MACPARSE slot, "text" (R205). -/
def execMacparse (r : BitVec 8) (text : List Byte) (s : State) :
    Host.Outcome State Fault Refusal :=
  .next <| runCommand s fun s =>
    if Config.bssCap ≤ r.toNat then .failed s .invalid
    else
      match macParse text with
      | some a => .done { s with record := s.record.setSlot r.toNat { addr := a, valid := 1 } } 1
      | none =>
        .done { s.post .macText r.toNat with record := s.record.setSlot r.toNat Slot.empty } 0

/-- MACFMT slot, an observer (R207): its response carries the text, which is empty when the slot
number is refused. -/
def execMacfmt (r : BitVec 8) (s : State) : Host.Outcome State Fault Refusal :=
  .next <|
    if Config.bssCap ≤ r.toNat then
      { s with resp := some { status := .invalid, value := 0, text := some [] } }
    else
      let x := s.record.slot r.toNat
      { s with
        resp := some { status := .ok, value := x.valid.setWidth 64, text := some (macFmt x.addr) } }

end Sys2Proof.Machine
end

