-- ==== Sys2Proof/Machine/Quantizers.lean ====
section
/-! DEFINITION. The Fixed-Point Codec and the Uncertainty Quantizer (spec/41_quantizers.md R140 to
R154), and the commands FXENC, FXDEC, UNCENC, UNCDEC. A physical value is exact: it is held as the
integer `2^32` times the rational (spec/00_scope.md R9). Functions that post a diagnostic return it
beside their result, for the caller to post in the order of its pseudocode. -/

namespace Sys2Proof.Machine

/-! ## Fixed point -/

/-- The integer nearest to the nonnegative rational `a / d`, a tie going as `ties` says (R141). -/
def roundNat (ties : Config.RoundTies) (a d : Nat) : Nat :=
  let q := a / d
  let r := a % d
  if 2 * r < d then q
  else if d < 2 * r then q + 1
  else
    match ties with
    | .away => q + 1
    | .even => if q % 2 = 0 then q else q + 1

/-- `round(a / d)`: both tie rules are symmetric in sign (R141). -/
def roundDiv (a : Int) (d : Nat) : Int :=
  if a < 0 then -(roundNat Config.roundTies a.natAbs d : Int)
  else (roundNat Config.roundTies a.natAbs d : Int)

/-- `sext_w(r)` for `0 <= r < 2^w` (spec/00_scope.md R7). -/
def sext (w r : Nat) : Int := if r.testBit (w - 1) then (r : Int) - 2 ^ w else (r : Int)

/-- `FixEnc(v, w, f, fld)` (R142): scale, round once, clamp with a report, take the `w`-bit
two's-complement pattern. -/
def fixEnc (v : Phys) (w f : Nat) (fld : FieldId) : Nat × List DiagEntry :=
  let s := roundDiv (v.toInt * 2 ^ f) (2 ^ Config.physFrac)
  let lo : Int := -(2 ^ (w - 1))
  let hi : Int := 2 ^ (w - 1) - 1
  if s < lo then ((lo % 2 ^ w).toNat, [note .fixClamp fld.code])
  else if hi < s then ((hi % 2 ^ w).toNat, [note .fixClamp fld.code])
  else ((s % 2 ^ w).toNat, [])

/-- `FixDec(r, w, f)` (R143), as `2^32` times the rational `sext_w(r) / 2^f`; exact for `f <= 32`,
which every row of R140 and the limits of R145 meet. -/
def fixDec (r w f : Nat) : Int := sext w r * 2 ^ (Config.physFrac - f)

/-- `PHYS(q)`, from `2^32` times `q` (R145). -/
def physOf (n : Int) : Phys := BitVec.ofInt 64 n

/-! ## Uncertainty -/

/-- The least `k` with `n <= 2^k`, for `n >= 1`. -/
def clog2Nat (n : Nat) : Nat := if n ≤ 1 then 0 else (n - 1).log2 + 1

/-- `clog2(q)` for `q = n / 2^32 > 0` (R146). -/
def clog2 (n : Nat) : Int := (clog2Nat n : Int) - Config.physFrac

/-- `UncEnc(v, m, max, zs, fld)` with EPS = 0 (R147). -/
def uncEnc (v : Phys) (m : Int) (max : Nat) (zs : Bool) (fld : FieldId) : Nat × List DiagEntry :=
  let negative := decide (v.toInt < 0)
  if v.toInt ≤ 0 then (if zs then max else 0, noteIf negative .uncNegative fld.code)
  else
    let c := m - clog2 v.toNat
    if c ≤ 0 then (1, [note .uncLow fld.code])
    else if (max : Int) < c then (max, [note .uncHigh fld.code])
    else (c.toNat, [])

/-- `UncDec(c, m, max, fld)` (R148), as `2^32` times the rational; exact when `m - max >= -32`, which
every row of R140 and the limits of R150 meet. -/
def uncDec (c : Nat) (m : Int) (max : Nat) (fld : FieldId) : Int × List DiagEntry :=
  if c = 0 then (0, [])
  else
    let valid := min c max
    (2 ^ (m - valid + Config.physFrac).toNat, noteIf (decide (max < c)) .uncReserved fld.code)

/-! ## The field table (R140) -/

/-- Latitude and longitude: 34 bits, 25 fraction bits. -/
def encDegrees (v : Phys) (fld : FieldId) : Nat × List DiagEntry := fixEnc v 34 25 fld

/-- Latitude and longitude: 34 bits, 25 fraction bits. -/
def decDegrees (r : Nat) : Phys := physOf (fixDec r 34 25)

/-- Altitude: 30 bits, 8 fraction bits. -/
def encAltitude (v : Phys) : Nat × List DiagEntry := fixEnc v 30 8 .altitude

/-- Altitude: 30 bits, 8 fraction bits. -/
def decAltitude (r : Nat) : Phys := physOf (fixDec r 30 8)

/-- Floor: 14 bits, 4 fraction bits. -/
def encFloor (v : Phys) : Nat × List DiagEntry := fixEnc v 14 4 .floor

/-- Floor: 14 bits, 4 fraction bits. -/
def decFloor (r : Nat) : Phys := physOf (fixDec r 14 4)

/-- Height above floor: 24 bits, 12 fraction bits. -/
def encHeight (v : Phys) : Nat × List DiagEntry := fixEnc v 24 12 .height

/-- Height above floor: `w` = 24 bits, or 16 in the tolerant variant, 12 fraction bits. -/
def decHeight (w r : Nat) : Phys := physOf (fixDec r w 12)

/-- Latitude and longitude uncertainty: m = 8, largest code 34. -/
def encDegreesU (v : Phys) (zs : Bool) (fld : FieldId) : Nat × List DiagEntry := uncEnc v 8 34 zs fld

/-- Latitude and longitude uncertainty: m = 8, largest code 34. -/
def decDegreesU (c : Nat) (fld : FieldId) : Int × List DiagEntry := uncDec c 8 34 fld

/-- Altitude uncertainty: m = 21, largest code 34. -/
def encAltitudeU (v : Phys) (zs : Bool) : Nat × List DiagEntry := uncEnc v 21 34 zs .altitude

/-- Altitude uncertainty: m = 21, largest code 34. -/
def decAltitudeU (c : Nat) : Int × List DiagEntry := uncDec c 21 34 .altitude

/-- Height uncertainty: m = 11, largest code 24. -/
def encHeightU (v : Phys) (zs : Bool) : Nat × List DiagEntry := uncEnc v 11 24 zs .height

/-- Height uncertainty: m = 11, largest code 24. -/
def decHeightU (c : Nat) : Int × List DiagEntry := uncDec c 11 24 .height

/-! ## The commands -/

/-- FXENC w, f, v (R144). -/
def execFxenc (w f : BitVec 8) (v : BitVec 64) (s : State) : Host.Outcome State Fault Refusal :=
  .next <| runCommand s fun s =>
    if w.toNat < 1 ∨ 64 < w.toNat ∨ 63 < f.toNat then .failed s .invalid
    else
      let (raw, notes) := fixEnc v w.toNat f.toNat .none
      .done (s.postAll notes) (BitVec.ofNat 64 raw)

/-- FXDEC w, f, r (R145): only the low `w` bits of `r` are used. -/
def execFxdec (w f : BitVec 8) (v : BitVec 64) (s : State) : Host.Outcome State Fault Refusal :=
  .next <| runCommand s fun s =>
    if w.toNat < 1 ∨ 64 < w.toNat ∨ 32 < f.toNat ∨ f.toNat + 32 < w.toNat then .failed s .invalid
    else .done s (physOf (fixDec (v.toNat % 2 ^ w.toNat) w.toNat f.toNat))

/-- UNCENC m, max, cfg, v (R149): only bit 0 of cfg may be set. -/
def execUncenc (m x c : BitVec 8) (v : BitVec 64) (s : State) : Host.Outcome State Fault Refusal :=
  .next <| runCommand s fun s =>
    if x = 0 ∨ c.extractLsb' 1 7 ≠ 0 then .failed s .invalid
    else
      let (code, notes) := uncEnc v m.toInt x.toNat (cfgZs c) .none
      .done (s.postAll notes) (BitVec.ofNat 64 code)

/-- UNCDEC m, max, 0, c (R150). -/
def execUncdec (m x c : BitVec 8) (v : BitVec 64) (s : State) : Host.Outcome State Fault Refusal :=
  .next <| runCommand s fun s =>
    if x = 0 ∨ c ≠ 0 ∨ 255 < v.toNat ∨ 31 < m.toInt ∨ m.toInt - x.toNat < -32 then
      .failed s .invalid
    else
      let (value, notes) := uncDec v.toNat m.toInt x.toNat .none
      .done (s.postAll notes) (physOf value)

end Sys2Proof.Machine
end

