-- ==== Sys2Proof/Machine/Floor.lean ====
section
/-! DEFINITION. The Floor Subelement Codec, ID 4 (spec/44_floor.md R180 to R183; layout
spec/30_encoding.md R85, R86). -/

namespace Sys2Proof.Machine

/-- The movement bits of a floor word, where FLOOR_LAYOUT puts them (R85). -/
def wordMove (w : BitVec 16) : BitVec 2 :=
  match Config.floorLayout with
  | .moveLow => w.extractLsb' 0 2
  | .moveHigh => w.extractLsb' 14 2

/-- The 14-bit floor number of a floor word, where FLOOR_LAYOUT puts it (R85). -/
def wordFloor (w : BitVec 16) : BitVec 14 :=
  match Config.floorLayout with
  | .moveLow => w.extractLsb' 2 14
  | .moveHigh => w.extractLsb' 0 14

/-- The floor word of a floor number and a movement value (R85, R182). -/
def floorWord (floor : BitVec 14) (move : BitVec 2) : BitVec 16 :=
  match Config.floorLayout with
  | .moveLow => floor ++ move
  | .moveHigh => move ++ floor

/-- The raw fields of a floor payload; `heightW` is the width of its height field (R85, R86). -/
structure FlrRaw where
  word : BitVec 16
  heightW : Nat
  height : Nat
  heightU : Nat
  deriving DecidableEq, Repr

/-- Validate the `len` payload octets at `p`, then read the fields: 6 octets with a 24-bit height, 5
with a 16-bit one (R180). -/
def readFlr (s : State) (p len : Nat) : Except Abort FlrRaw := do
  let _ ← octetList s p len
  let w ← memRead s p 2
  if len = 6 then
    let h ← memRead s (p + 2) 3
    let u ← octRead s (p + 5)
    .ok { word := BitVec.ofNat 16 w, heightW := 24, height := h, heightU := u.toNat }
  else
    let h ← memRead s (p + 2) 2
    let u ← octRead s (p + 4)
    .ok { word := BitVec.ofNat 16 w, heightW := 16, height := h, heightU := u.toNat }

/-- The floor registers and R.FLR_P as a decoded payload leaves them (R180). -/
def commitFlr (r : Record) (f : FlrRaw) : Record :=
  { r with
    move := wordMove f.word
    floor := decFloor (wordFloor f.word).toNat
    height := decHeight f.heightW f.height
    heightU := physOf (decHeightU f.heightU).1
    flrP := 1 }

/-- The diagnostics of a decoded payload, in order (R180). -/
def flrNotes (r : Record) (f : FlrRaw) : List DiagEntry :=
  noteIf (r.flrP == 1) .duplicate 4 ++ (decHeightU f.heightU).2

/-- `FlrDec(p, len)` (R180): all five registers are written, or none. A bounds abort cannot occur
under the callers' precondition `p + len <= OLEN`; it would leave the state as it is. -/
def flrDec (s : State) (p len : Nat) : State :=
  if len ≠ 6 ∧ len ≠ 5 then s.post .flrLength len
  else
    match readFlr s p len with
    | .ok f => { s.postAll (flrNotes s.record f) with record := commitFlr s.record f }
    | .error (.malformed i) => s.post .hexDigit i
    | .error _ => s

/-- The 6 payload octets of R182 with the diagnostics of its fields in order. -/
def flrPayload (r : Record) (zs : Bool) : List Byte × List DiagEntry :=
  let fl := encFloor r.floor
  let h := encHeight r.height
  let u := encHeightU r.heightU zs
  let w := floorWord (BitVec.ofNat 14 fl.1) r.move
  (bigEndian w.toNat 2 ++ bigEndian h.1 3 ++ [BitVec.ofNat 8 u.1], fl.2 ++ h.2 ++ u.2)

/-- `FlrEnc(p, zs)` (R182), the extent having been checked. -/
def flrEnc (s : State) (p : Nat) (zs : Bool) : State :=
  let (payload, notes) := flrPayload s.record zs
  putOctets (s.postAll notes) p payload

/-- FLRDEC p, len (R181). -/
def execFlrdec (a : BitVec 32) (b : BitVec 8) (s : State) : Host.Outcome State Fault Refusal :=
  .next <| runCommand s fun s =>
    if s.olen < a.toNat + b.toNat then .failed s .bounds
    else
      let t := flrDec s a.toNat b.toNat
      .done t (t.record.flrP.setWidth 64)

/-- FLRENC p, cfg (R183): bit 1 of cfg is ignored. -/
def execFlrenc (a : BitVec 32) (b : BitVec 8) (s : State) : Host.Outcome State Fault Refusal :=
  .next <| runCommand s fun s =>
    if cfgReserved b then .failed s .invalid
    else if s.olen < a.toNat + 6 then .failed s .bounds
    else .done (flrEnc s a.toNat (cfgZs b)) 6

end Sys2Proof.Machine
end

