-- ==== Sys2Proof/Machine/Location.lean ====
section
/-! DEFINITION. The Location Subelement Codec, ID 0 (spec/43_location.md R170 to R174; layout
spec/30_encoding.md R84). -/

namespace Sys2Proof.Machine

/-- The twelve raw fields of a location payload, in wire order (R84). -/
structure LocRaw where
  latU : Nat
  lat : Nat
  lonU : Nat
  lon : Nat
  altType : Nat
  altU : Nat
  alt : Nat
  datum : Nat
  regLoc : Nat
  dse : Nat
  depSta : Nat
  ver : Nat
  deriving DecidableEq, Repr

/-- Validate the 16 payload octets at `p`, then read the twelve fields (R170, R84). -/
def readLoc (s : State) (p : Nat) : Except Abort LocRaw := do
  let _ ← octetList s p 16
  let b := 8 * p
  let lu ← bitRead s b 6
  let la ← bitRead s (b + 6) 34
  let ou ← bitRead s (b + 40) 6
  let lo ← bitRead s (b + 46) 34
  let at' ← bitRead s (b + 80) 4
  let au ← bitRead s (b + 84) 6
  let al ← bitRead s (b + 90) 30
  let da ← bitRead s (b + 120) 3
  let rg ← bitRead s (b + 123) 1
  let ds ← bitRead s (b + 124) 1
  let dp ← bitRead s (b + 125) 1
  let ve ← bitRead s (b + 126) 2
  .ok { latU := lu, lat := la, lonU := ou, lon := lo, altType := at', altU := au, alt := al,
        datum := da, regLoc := rg, dse := ds, depSta := dp, ver := ve }

/-- The geodetic registers and R.GEO_P as a decoded payload leaves them (R170). -/
def commitLoc (r : Record) (f : LocRaw) : Record :=
  { r with
    latU := physOf (decDegreesU f.latU .latitude).1
    lat := decDegrees f.lat
    lonU := physOf (decDegreesU f.lonU .longitude).1
    lon := decDegrees f.lon
    altType := BitVec.ofNat 4 f.altType
    altU := physOf (decAltitudeU f.altU).1
    alt := decAltitude f.alt
    datum := BitVec.ofNat 3 f.datum
    regLoc := BitVec.ofNat 1 f.regLoc
    dse := BitVec.ofNat 1 f.dse
    depSta := BitVec.ofNat 1 f.depSta
    ver := BitVec.ofNat 2 f.ver
    geoP := 1 }

/-- The diagnostics of a decoded payload, in order (R170). -/
def locNotes (r : Record) (f : LocRaw) : List DiagEntry :=
  noteIf (r.geoP == 1) .duplicate 0
    ++ (decDegreesU f.latU .latitude).2
    ++ (decDegreesU f.lonU .longitude).2
    ++ (decAltitudeU f.altU).2
    ++ noteIf (f.ver != 1) .version f.ver

/-- The geodetic registers at their defaults and the location absent: what a payload of length 0
decodes to (R170). -/
def clearLoc (r : Record) : Record :=
  { r with
    lat := 0, lon := 0, alt := 0, latU := 0, lonU := 0, altU := 0, altType := 0, datum := 0
    regLoc := 0, dse := 0, depSta := 0, ver := 1, geoP := 0 }

/-- `LocDec(p, len)` (R170): all thirteen registers and R.GEO_P are written, or none. A bounds abort
cannot occur under the callers' precondition `p + len <= OLEN`; it would leave the state as it is. -/
def locDec (s : State) (p len : Nat) : State :=
  if len = 0 then
    { s.postAll (noteIf (s.record.geoP == 1) .duplicate 0) with record := clearLoc s.record }
  else if len ≠ 16 then s.post .locLength len
  else
    match readLoc s p with
    | .ok f => { s.postAll (locNotes s.record f) with record := commitLoc s.record f }
    | .error (.malformed i) => s.post .hexDigit i
    | .error _ => s

/-- The 128-bit payload image of R172 with the diagnostics of its fields in order: bit `k` is payload
stream bit `k`, the field written last stands lowest. -/
def locImage (r : Record) (zs : Bool) : BitVec 128 × List DiagEntry :=
  let latU := encDegreesU r.latU zs .latitude
  let lat := encDegrees r.lat .latitude
  let lonU := encDegreesU r.lonU zs .longitude
  let lon := encDegrees r.lon .longitude
  let altU := encAltitudeU r.altU zs
  let alt := encAltitude r.alt
  (r.ver ++ r.depSta ++ r.dse ++ r.regLoc ++ r.datum
      ++ BitVec.ofNat 30 alt.1 ++ BitVec.ofNat 6 altU.1 ++ r.altType
      ++ BitVec.ofNat 34 lon.1 ++ BitVec.ofNat 6 lonU.1
      ++ BitVec.ofNat 34 lat.1 ++ BitVec.ofNat 6 latU.1,
    latU.2 ++ lat.2 ++ lonU.2 ++ lon.2 ++ altU.2 ++ alt.2
      ++ noteIf (r.ver != 1) .version r.ver.toNat)

/-- The 16 octets of a payload image: octet `j` is its bits `8j+7 : 8j` (R172). -/
def imageOctets (image : BitVec 128) : List Byte :=
  (List.range 16).map fun j => image.extractLsb' (8 * j) 8

/-- `LocEnc(p, zs)` (R172), the extent having been checked. -/
def locEnc (s : State) (p : Nat) (zs : Bool) : State :=
  let (image, notes) := locImage s.record zs
  putOctets (s.postAll notes) p (imageOctets image)

/-- `EmitLoc(incl)` (R174): the test is on the physical values, before quantization. -/
def emitLoc (r : Record) (incl : BitVec 8) : Bool :=
  inclLoc incl && (r.lat != 0 || r.lon != 0 || r.alt != 0 || inclForceLoc incl)

/-- LOCDEC p, len (R171). -/
def execLocdec (a : BitVec 32) (b : BitVec 8) (s : State) : Host.Outcome State Fault Refusal :=
  .next <| runCommand s fun s =>
    if s.olen < a.toNat + b.toNat then .failed s .bounds
    else
      let t := locDec s a.toNat b.toNat
      .done t (t.record.geoP.setWidth 64)

/-- LOCENC p, cfg (R173): bit 1 of cfg is ignored. -/
def execLocenc (a : BitVec 32) (b : BitVec 8) (s : State) : Host.Outcome State Fault Refusal :=
  .next <| runCommand s fun s =>
    if cfgReserved b then .failed s .invalid
    else if s.olen < a.toNat + 16 then .failed s .bounds
    else .done (locEnc s a.toNat (cfgZs b)) 16

end Sys2Proof.Machine
end

