-- ==== Sys2Proof/Machine/Usage.lean ====
section
/-! DEFINITION. The Usage Subelement Codec, ID 6 (spec/45_usage.md R190 to R194; layout
spec/30_encoding.md R87). -/

namespace Sys2Proof.Machine

/-- The raw fields of a usage payload; the expiration is there only in a payload of length 3 (R87). -/
structure UsgRaw where
  flags : Byte
  expire : Option Nat
  deriving DecidableEq, Repr

/-- Validate the `len` payload octets at `p`, then read the fields (R190). -/
def readUsg (s : State) (p len : Nat) : Except Abort UsgRaw := do
  let _ ← octetList s p len
  let fl ← octRead s p
  if len = 3 then
    let e ← memRead s (p + 1) 2
    .ok { flags := fl, expire := some e }
  else .ok { flags := fl, expire := none }

/-- The usage registers and R.USG_P as a decoded payload leaves them: bits 7:3 of the flags octet are
ignored, an absent expiration is 0 (R190). -/
def commitUsg (r : Record) (f : UsgRaw) : Record :=
  { r with
    retrans := f.flags.extractLsb' 0 1
    retExp := f.flags.extractLsb' 1 1
    locPol := f.flags.extractLsb' 2 1
    expire := BitVec.ofNat 16 (f.expire.getD 0)
    usgP := 1 }

/-- The diagnostics of a decoded payload, in order (R190). -/
def usgNotes (r : Record) (f : UsgRaw) : List DiagEntry :=
  noteIf (r.usgP == 1) .duplicate 6 ++
    match f.expire with
    | some e => noteIf (!f.flags.getLsbD 1) .usgFlagLen 3 ++ noteIf (e == 0) .usgExpZero 0
    | none => noteIf (f.flags.getLsbD 1) .usgFlagLen 1

/-- `UsgDec(p, len)` (R190): all five registers are written, or none. A bounds abort cannot occur
under the callers' precondition `p + len <= OLEN`; it would leave the state as it is. -/
def usgDec (s : State) (p len : Nat) : State :=
  if len ≠ 1 ∧ len ≠ 3 then s.post .usgLength len
  else
    match readUsg s p len with
    | .ok f => { s.postAll (usgNotes s.record f) with record := commitUsg s.record f }
    | .error (.malformed i) => s.post .hexDigit i
    | .error _ => s

/-- The retention-expires-present flag that `UsgFix` returns (R192). -/
def usgFlag (r : Record) : Bool :=
  if r.retExp = 0 ∧ r.expire ≠ 0 then true
  else if r.retExp = 1 ∧ r.expire = 0 then false
  else r.retExp == 1

/-- The report of `UsgFix(1)` (R192). -/
def usgFixNotes (r : Record) : List DiagEntry :=
  if r.retExp = 0 ∧ r.expire ≠ 0 then [note .expWithoutFlag r.expire.toNat]
  else if r.retExp = 1 ∧ r.expire = 0 then [note .flagWithoutExp 0]
  else []

/-- The payload of `UsgEnc(p, re)`: the flags octet, then the expiration when `re` is set (R193). -/
def usgPayload (r : Record) (re : Bool) : List Byte :=
  BitVec.ofNat 8 (r.retrans.toNat + 2 * re.toNat + 4 * r.locPol.toNat) ::
    if re then bigEndian r.expire.toNat 2 else []

/-- USGDEC p, len (R191). -/
def execUsgdec (a : BitVec 32) (b : BitVec 8) (s : State) : Host.Outcome State Fault Refusal :=
  .next <| runCommand s fun s =>
    if s.olen < a.toNat + b.toNat then .failed s .bounds
    else
      let t := usgDec s a.toNat b.toNat
      .done t (t.record.usgP.setWidth 64)

/-- USGENC p (R194): the length is that of the corrected payload. -/
def execUsgenc (a : BitVec 32) (s : State) : Host.Outcome State Fault Refusal :=
  .next <| runCommand s fun s =>
    let payload := usgPayload s.record (usgFlag s.record)
    if s.olen < a.toNat + payload.length then .failed s .bounds
    else
      .done (putOctets (s.postAll (usgFixNotes s.record)) a.toNat payload)
        (BitVec.ofNat 64 payload.length)

end Sys2Proof.Machine
end

