-- ==== Sys2Proof/Machine/Framer.lean ====
section
/-! DEFINITION. The Subelement Framer (spec/42_framer.md R160 to R165): one step of the walk, the
dispatch on the ID octet, and the commands FRNEXT and FRPUT. -/

namespace Sys2Proof.Machine

/-- How one framer step ends (R161). -/
inductive Frame where
  /-- END: the buffer is exhausted exactly. -/
  | exhausted
  /-- HALT: the framing cannot be trusted; it has been reported and the rest is consumed. -/
  | halted
  /-- SUB(id, len, p): a subelement, the cursor has moved past it. -/
  | sub (id len : Byte) (p : Nat)
  /-- Bounds: one octet is left, or the cursor is beyond the buffer. -/
  | outOfBounds
  deriving DecidableEq, Repr

/-- The HALT ending: report, and treat the rest of the buffer as consumed (R161). -/
def haltFrame (s : State) (c : Cause) (arg : Nat) : State × Frame :=
  ({ s.post c arg with cur := BitVec.ofNat 32 s.olen }, .halted)

/-- `FrNext()` (R161). -/
def frNext (s : State) : State × Frame :=
  let c := s.cur.toNat
  if s.olen < c then (s, .outOfBounds)
  else
    let rem := s.olen - c
    if rem = 0 then (s, .exhausted)
    else if rem = 1 then (s, .outOfBounds)
    else
      match octRead s c, octRead s (c + 1) with
      | .ok id, .ok len =>
        if rem - 2 < len.toNat then haltFrame s .frameLength (c % 2 ^ 16)
        else ({ s with cur := BitVec.ofNat 32 (c + 2 + len.toNat) }, .sub id len (c + 2))
      | .error (.malformed i), _ => haltFrame s .hexDigit i
      | .ok _, .error (.malformed i) => haltFrame s .hexDigit i
      | _, _ => (s, .outOfBounds)

/-- Add an entry to the unknown-subelement list while it has room (R163, R31). -/
def addUnknown (r : Record) (e : UnkEntry) : Record :=
  if r.unk.length < Config.unkCap then { r with unk := r.unk ++ [e] } else r

/-- `Dispatch(id, len, p)` (R163). -/
def dispatch (s : State) (id len : Byte) (p : Nat) : State :=
  match id.toNat with
  | 0 => locDec s p len.toNat
  | 4 => flrDec s p len.toNat
  | 6 => usgDec s p len.toNat
  | 7 => bssDec s p len.toNat
  | _ =>
    { s.post .unknownId id.toNat with
      record := addUnknown s.record { id := id, pos := BitVec.ofNat 32 p, len := len } }

/-- The packed value of a subelement: bit 56 set, the ID in bits 47:40, the length in bits 39:32, the
payload's octet offset in bits 31:0 (R162, R235). -/
def packSub (id len : Byte) (p : BitVec 32) : Word64 :=
  (0x0100 : BitVec 16) ++ id ++ len ++ p

/-- FRNEXT (R162): one framer step, without dispatch. -/
def execFrnext (s : State) : Host.Outcome State Fault Refusal :=
  .next <| runCommand s fun s =>
    match frNext s with
    | (t, .sub id len p) => .done t (packSub id len (BitVec.ofNat 32 p))
    | (t, .exhausted) => .done t 0
    | (t, .halted) => .done t 0
    | (t, .outOfBounds) => .failed t .bounds

/-- FRPUT id, len (R164). -/
def execFrput (b1 b2 : BitVec 8) (s : State) : Host.Outcome State Fault Refusal :=
  .next <| runCommand s fun s =>
    let c := s.cur.toNat
    if s.olen < c + 2 then .failed s .bounds
    else
      let t := { putOctets s c [b1, b2] with cur := BitVec.ofNat 32 (c + 2) }
      .done t (t.cur.setWidth 64)

end Sys2Proof.Machine
end

