-- ==== Sys2Proof/Machine/Record.lean ====
section
/-! DEFINITION. The Record Assembler/Parser and the advisory consumer check (spec/47_record.md R215 to
R221): RECDEC, RECENC, POLCHK. -/

namespace Sys2Proof.Machine

/-- `PolChk(useU, useF, re)`: the diagnostics it appends, in order (R219). -/
def polNotes (r : Record) (useU useF re : Bool) : List DiagEntry :=
  (if useU then
      noteIf (r.retrans == 0) .retransDisallowed 0
        ++ noteIf re .retexpPresent 0
        ++ noteIf (r.expire != 0) .expNonzero r.expire.toNat
    else [])
    ++ (if useF then noteIf (r.move != 0) .moveSet r.move.toNat else [])

/-! ## Decode -/

/-- Clear the record (R35). -/
def clearRecord (s : State) : State := { s with record := Record.cleared }

/-- Check header octet `i` against the value wanted; a difference or a bad digit is reported and
decoding goes on (R215). -/
def checkHeader (s : State) (i : Nat) (want : Byte) (c : Cause) : State :=
  match octRead s i with
  | .ok v => s.postAll (noteIf (v != want) c v.toNat)
  | .error (.malformed j) => s.post .hexDigit j
  | .error _ => s

/-- The most framer steps a walk takes from here (R160). -/
def walkBound (s : State) : Nat := (s.olen - s.cur.toNat) / 2 + 1

/-- The loop of `RecDec`: framer steps and dispatches until END or HALT, or until the framer raises
Bounds, which the second result tells (R215). The first argument bounds the steps; `walkBound` of
them always reach an ending (R160). -/
def walk : Nat → State → State × Bool
  | 0, s => (s, false)
  | n + 1, s =>
    match frNext s with
    | (t, .sub id len p) => walk n (dispatch t id len p)
    | (t, .exhausted) => (t, false)
    | (t, .halted) => (t, false)
    | (t, .outOfBounds) => (t, true)

/-- The present flags in the bit layout of incl (R215). -/
def presentMask (r : Record) : Word64 :=
  (r.bssP ++ r.usgP ++ r.flrP ++ r.geoP).setWidth 64

/-- `RecDec()` up to the header: the record is cleared, the cursor is 0, an odd length is reported
(R215). -/
def recDecStart (s : State) : State :=
  let s := { clearRecord s with cur := 0 }
  s.postAll (noteIf (s.hlen % 2 == 1) .oddLength (s.hlen % 2 ^ 16))

/-- The three header octets of `RecDec()`, after which the cursor is 3 (R215). -/
def recDecHeader (s : State) : State :=
  let s := checkHeader s 0 0x01 .hdrToken
  let s := checkHeader s 1 0x00 .hdrMode
  let s := checkHeader s 2 0x08 .hdrType
  { s with cur := 3 }

/-- `RecDec()` (R215): on a Bounds failure the work done so far is kept (R260). -/
def recDec (s : State) : Ended :=
  let s := recDecStart s
  if s.olen < 3 then .failed s .bounds
  else
    let s := recDecHeader s
    match walk (walkBound s) s with
    | (t, true) => .failed t .bounds
    | (t, false) =>
      .done (t.postAll (polNotes t.record (t.record.usgP == 1) (t.record.flrP == 1)
        (t.record.retExp == 1))) (presentMask t.record)

/-- RECDEC (R216). -/
def execRecdec (s : State) : Host.Outcome State Fault Refusal :=
  .next <| runCommand s recDec

/-! ## Encode -/

/-- The location subelement in the order of emission: octets and diagnostics, none when it is not
emitted (R217). -/
def emitLocation (r : Record) (incl cfg : BitVec 8) : List Byte × List DiagEntry :=
  if emitLoc r incl then
    let (image, notes) := locImage r (cfgZs cfg)
    (0 :: 16 :: imageOctets image, notes)
  else ([], [])

/-- The floor subelement (R217). -/
def emitFloor (r : Record) (incl cfg : BitVec 8) : List Byte × List DiagEntry :=
  if inclFloor incl then
    let (payload, notes) := flrPayload r (cfgZs cfg)
    (4 :: 6 :: payload, notes)
  else ([], [])

/-- The usage subelement, with the corrected flag (R217). -/
def emitUsage (r : Record) (incl : BitVec 8) : List Byte × List DiagEntry :=
  if inclUsage incl then
    let payload := usgPayload r (usgFlag r)
    (6 :: BitVec.ofNat 8 payload.length :: payload, usgFixNotes r)
  else ([], [])

/-- The BSSID subelement (R217). -/
def emitBssid (r : Record) (incl cfg : BitVec 8) : List Byte × List DiagEntry :=
  if inclBssid incl then
    (7 :: BitVec.ofNat 8 (1 + 6 * r.bssN.toNat) :: bssPayload r (cfgInd cfg), bssEncNotes r)
  else ([], [])

/-- The wire record of `RecEnc(incl, cfg)`: the header, then the selected subelements in ascending ID
order (R217, R165). -/
def recordOctets (r : Record) (incl cfg : BitVec 8) : List Byte :=
  [0x01, 0x00, 0x08] ++ (emitLocation r incl cfg).1 ++ (emitFloor r incl cfg).1
    ++ (emitUsage r incl).1 ++ (emitBssid r incl cfg).1

/-- The diagnostics of `RecEnc(incl, cfg)`, in order: those of each subelement emitted, then those of
the advisory check with the corrected flag (R217). -/
def recordNotes (r : Record) (incl cfg : BitVec 8) : List DiagEntry :=
  (emitLocation r incl cfg).2 ++ (emitFloor r incl cfg).2 ++ (emitUsage r incl).2
    ++ (emitBssid r incl cfg).2
    ++ polNotes r (inclUsage incl) (inclFloor incl) (usgFlag r)

/-- `RecEnc(incl, cfg)` (R217): the buffer is sized exactly, zeroed, and written; the cursor ends at
its end. -/
def recEnc (s : State) (incl cfg : BitVec 8) : Ended :=
  let octets := recordOctets s.record incl cfg
  let size := octets.length
  if Config.hcap < 2 * size then .failed s .bounds
  else
    let t := putOctets (zeroBuffer (s.postAll (recordNotes s.record incl cfg)) size) 0 octets
    .done { t with cur := BitVec.ofNat 32 size } (BitVec.ofNat 64 size)

/-- RECENC incl, cfg (R218). -/
def execRecenc (b1 b2 : BitVec 8) (s : State) : Host.Outcome State Fault Refusal :=
  .next <| runCommand s fun s =>
    if inclReserved b1 || cfgReserved b2 then .failed s .invalid else recEnc s b1 b2

/-! ## The advisory check -/

/-- POLCHK sel (R220): with the uncorrected flag; the value is the number of entries found. -/
def execPolchk (r : BitVec 8) (s : State) : Host.Outcome State Fault Refusal :=
  .next <| runCommand s fun s =>
    if inclReserved r then .failed s .invalid
    else
      let t := s.postAll
        (polNotes s.record (inclUsage r) (inclFloor r) (s.record.retExp == 1))
      .done t (BitVec.ofNat 64 t.diag.length)

end Sys2Proof.Machine
end

