-- ==== Sys2Proof/Machine/System.lean ====
section
/-! DEFINITION. The system commands (spec/48_system.md R230 to R236): NOP, RESET, RRD, RWR, RCLR,
UNKRD, DGRD. -/

namespace Sys2Proof.Machine

/-- NOP, an observer (R230). -/
def execNop (s : State) : Host.Outcome State Fault Refusal := .next (s.respond .ok 0)

/-- RESET (R231): the reset state of R36; the command port keeps what the host presents next. -/
def execReset (s : State) : Host.Outcome State Fault Refusal :=
  .next <| runCommand s fun s =>
    .done { clearRecord s with hex := [], hlen := 0, cur := 0 } 0

/-- RRD r, an observer (R232). -/
def execRrd (r : BitVec 8) (s : State) : Host.Outcome State Fault Refusal :=
  .next <|
    match regOf r with
    | none => s.respond .invalid 0
    | some x => s.respond .ok (readReg s x)

/-- RWR r, v (R233). -/
def execRwr (r : BitVec 8) (v : BitVec 64) (s : State) : Host.Outcome State Fault Refusal :=
  .next <| runCommand s fun s =>
    match (regOf r).bind (writeReg s v) with
    | none => .failed s .invalid
    | some t => .done t 0

/-- RCLR (R234). -/
def execRclr (s : State) : Host.Outcome State Fault Refusal :=
  .next <| runCommand s fun s => .done (clearRecord s) 0

/-- UNKRD j, an observer (R235). -/
def execUnkrd (a : BitVec 32) (s : State) : Host.Outcome State Fault Refusal :=
  .next <|
    match s.record.unk[a.toNat]? with
    | none => s.respond .bounds 0
    | some e => s.respond .ok (packSub e.id e.len e.pos)

/-- The value DGRD answers for an entry: kind * 2^24 + cause * 2^16 + arg (R236). -/
def packEntry (e : DiagEntry) : Word64 :=
  (e.kind.code.setWidth 40 : BitVec 40) ++ e.cause.code ++ e.arg

/-- DGRD j, an observer (R236). -/
def execDgrd (a : BitVec 32) (s : State) : Host.Outcome State Fault Refusal :=
  .next <|
    match s.diag[a.toNat]? with
    | none => s.respond .bounds 0
    | some e => s.respond .ok (packEntry e)

end Sys2Proof.Machine
end

