-- ==== Sys2Proof/Machine/Dispatch.lean ====
section
/-! DEFINITION. The dispatch: one arm per constructor of Instr, each the call of its meaning. -/

namespace Sys2Proof.Machine

def exec (i : Instr) (s : State) : Host.Outcome State Fault Refusal :=
  match i with
  | .nop => Sys2Proof.Machine.execNop s
  | .reset => Sys2Proof.Machine.execReset s
  | .bufz a => Sys2Proof.Machine.execBufz a s
  | .ldhex r text => Sys2Proof.Machine.execLdhex r text s
  | .hxrd a => Sys2Proof.Machine.execHxrd a s
  | .hxwr a b => Sys2Proof.Machine.execHxwr a b s
  | .rrd r => Sys2Proof.Machine.execRrd r s
  | .rwr r v => Sys2Proof.Machine.execRwr r v s
  | .rclr => Sys2Proof.Machine.execRclr s
  | .unkrd a => Sys2Proof.Machine.execUnkrd a s
  | .dgrd a => Sys2Proof.Machine.execDgrd a s
  | .rdbits a b => Sys2Proof.Machine.execRdbits a b s
  | .wrbits a b v => Sys2Proof.Machine.execWrbits a b v s
  | .rdoct a => Sys2Proof.Machine.execRdoct a s
  | .wroct a b => Sys2Proof.Machine.execWroct a b s
  | .rdmoi a b => Sys2Proof.Machine.execRdmoi a b s
  | .wrmoi a b v => Sys2Proof.Machine.execWrmoi a b v s
  | .fxenc w f v => Sys2Proof.Machine.execFxenc w f v s
  | .fxdec w f v => Sys2Proof.Machine.execFxdec w f v s
  | .uncenc m x c v => Sys2Proof.Machine.execUncenc m x c v s
  | .uncdec m x c v => Sys2Proof.Machine.execUncdec m x c v s
  | .frnext => Sys2Proof.Machine.execFrnext s
  | .frput b1 b2 => Sys2Proof.Machine.execFrput b1 b2 s
  | .locdec a b => Sys2Proof.Machine.execLocdec a b s
  | .locenc a b => Sys2Proof.Machine.execLocenc a b s
  | .flrdec a b => Sys2Proof.Machine.execFlrdec a b s
  | .flrenc a b => Sys2Proof.Machine.execFlrenc a b s
  | .usgdec a b => Sys2Proof.Machine.execUsgdec a b s
  | .usgenc a => Sys2Proof.Machine.execUsgenc a s
  | .bssdec a b => Sys2Proof.Machine.execBssdec a b s
  | .bssenc a b => Sys2Proof.Machine.execBssenc a b s
  | .macparse r text => Sys2Proof.Machine.execMacparse r text s
  | .macfmt r => Sys2Proof.Machine.execMacfmt r s
  | .recdec => Sys2Proof.Machine.execRecdec s
  | .recenc b1 b2 => Sys2Proof.Machine.execRecenc b1 b2 s
  | .polchk r => Sys2Proof.Machine.execPolchk r s

end Sys2Proof.Machine
end

