-- ==== Sys2Proof/Machine/Step.lean ====
section
/-! DEFINITION. One step: take the packet the host presents, decode it, run it
(spec/30_encoding.md R100; spec/70_reset_and_hazards.md R288). Between commands the block does
nothing (spec/60_exceptions.md R258). -/

namespace Sys2Proof.Machine

/-- One command, from its packet to its response. -/
def step (s : State) : Host.Outcome State Fault Refusal :=
  match fetch s with
  | none => .next s
  | some (p, t) =>
    match decode p with
    | .ok i => exec i t
    | .error (.unassigned _) => .next (rejectUnassigned t)
    | .error .empty => .fault .emptyPacket
    | .error (.badLength op) => .refused (.packetLength op)

/-- The state in which the host presents the packet of a table word next; what it would have
presented next stays behind it. -/
def State.withFetchWord (s : State) (nbits w : Nat) : State := present s (packetOfWord nbits w)

end Sys2Proof.Machine
end

