-- ==== Sys2Proof/Safety.lean ====
section
/-! DEFINITION. The terms in which statements about the block are made: what a command leaves when it
completes or fails, the octets of the buffer read straight off its characters, the numbers the wire
fields stand for as exact rationals, and the invariant of the block. Nothing here is used by the
machine; each definition follows the words of a rule of spec/, not the model's own functions. -/

namespace Sys2Proof.Machine

/-! ## What a command leaves -/

/-- `s` after a non-observer command that completed with the diagnostics `ds` and the response value
`v` (spec/60_exceptions.md R250): STATUS is OK, DGOVF is clear. -/
def State.answered (s : State) (ds : List DiagEntry) (v : Word64) : State :=
  { s with
    status := .ok, diag := ds, dgovf := 0
    resp := some { status := .ok, value := v, text := none } }

/-- `s` after a non-observer command that failed with status `st`: the response value is 0 (R250). -/
def State.rejected (s : State) (st : Status) (ds : List DiagEntry) : State :=
  { s with
    status := st, diag := ds, dgovf := 0
    resp := some { status := st, value := 0, text := none } }

/-- `s` after an observer command: nothing but the response (spec/30_encoding.md R100). -/
def State.observed (s : State) (st : Status) (v : Word64) : State :=
  { s with resp := some { status := st, value := v, text := none } }

/-- The observer commands (R100). -/
def Observes : Instr → Bool
  | .nop | .hxrd _ | .rrd _ | .unkrd _ | .dgrd _ | .macfmt _ => true
  | .reset | .bufz _ | .ldhex _ _ | .hxwr _ _ | .rwr _ _ | .rclr | .rdbits _ _ | .wrbits _ _ _
  | .rdoct _ | .wroct _ _ | .rdmoi _ _ | .wrmoi _ _ _ | .fxenc _ _ _ | .fxdec _ _ _
  | .uncenc _ _ _ _ | .uncdec _ _ _ _ | .frnext | .frput _ _ | .locdec _ _ | .locenc _ _
  | .flrdec _ _ | .flrenc _ _ | .usgdec _ _ | .usgenc _ | .bssdec _ _ | .bssenc _ _
  | .macparse _ _ | .recdec | .recenc _ _ | .polchk _ => false

/-- The commands that may change a character of HEX (spec/10_state.md R21). -/
def WritesBuffer : Instr → Bool
  | .reset | .bufz _ | .ldhex _ _ | .hxwr _ _ | .wrbits _ _ _ | .wroct _ _ | .wrmoi _ _ _
  | .frput _ _ | .locenc _ _ | .flrenc _ _ | .usgenc _ | .bssenc _ _ | .recenc _ _ => true
  | .nop | .hxrd _ | .rrd _ | .rwr _ _ | .rclr | .unkrd _ | .dgrd _ | .rdbits _ _ | .rdoct _
  | .rdmoi _ _ | .fxenc _ _ _ | .fxdec _ _ _ | .uncenc _ _ _ _ | .uncdec _ _ _ _ | .frnext
  | .locdec _ _ | .flrdec _ _ | .usgdec _ _ | .bssdec _ _ | .macparse _ _ | .macfmt _ | .recdec
  | .polchk _ => false

/-- The commands that may change HLEN: a write extends no buffer (spec/20_memory.md R54). -/
def WritesLength : Instr → Bool
  | .reset | .bufz _ | .ldhex _ _ | .recenc _ _ => true
  | .nop | .hxrd _ | .hxwr _ _ | .rrd _ | .rwr _ _ | .rclr | .unkrd _ | .dgrd _ | .rdbits _ _
  | .wrbits _ _ _ | .rdoct _ | .wroct _ _ | .rdmoi _ _ | .wrmoi _ _ _ | .fxenc _ _ _
  | .fxdec _ _ _ | .uncenc _ _ _ _ | .uncdec _ _ _ _ | .frnext | .frput _ _ | .locdec _ _
  | .locenc _ _ | .flrdec _ _ | .flrenc _ _ | .usgdec _ _ | .usgenc _ | .bssdec _ _ | .bssenc _ _
  | .macparse _ _ | .macfmt _ | .recdec | .polchk _ => false

/-- The commands that may change CUR (spec/10_state.md R22). -/
def WritesCursor : Instr → Bool
  | .frnext | .frput _ _ | .recdec | .recenc _ _ | .rwr _ _ | .reset => true
  | .nop | .bufz _ | .ldhex _ _ | .hxrd _ | .hxwr _ _ | .rrd _ | .rclr | .unkrd _ | .dgrd _
  | .rdbits _ _ | .wrbits _ _ _ | .rdoct _ | .wroct _ _ | .rdmoi _ _ | .wrmoi _ _ _
  | .fxenc _ _ _ | .fxdec _ _ _ | .uncenc _ _ _ _ | .uncdec _ _ _ _ | .locdec _ _ | .locenc _ _
  | .flrdec _ _ | .flrenc _ _ | .usgdec _ _ | .usgenc _ | .bssdec _ _ | .bssenc _ _
  | .macparse _ _ | .macfmt _ | .polchk _ => false

/-- The commands that may change a register of R: those that write the record (R24, R30, R35). -/
def WritesRecord : Instr → Bool
  | .reset | .rwr _ _ | .rclr | .locdec _ _ | .flrdec _ _ | .usgdec _ _ | .bssdec _ _
  | .macparse _ _ | .recdec => true
  | .nop | .bufz _ | .ldhex _ _ | .hxrd _ | .hxwr _ _ | .rrd _ | .unkrd _ | .dgrd _ | .rdbits _ _
  | .wrbits _ _ _ | .rdoct _ | .wroct _ _ | .rdmoi _ _ | .wrmoi _ _ _ | .fxenc _ _ _
  | .fxdec _ _ _ | .uncenc _ _ _ _ | .uncdec _ _ _ _ | .frnext | .frput _ _ | .locenc _ _
  | .flrenc _ _ | .usgenc _ | .bssenc _ _ | .macfmt _ | .recenc _ _ | .polchk _ => false

/-- The commands that may change the unknown-subelement list (R31). -/
def WritesUnknown : Instr → Bool
  | .reset | .rclr | .recdec => true
  | .nop | .bufz _ | .ldhex _ _ | .hxrd _ | .hxwr _ _ | .rrd _ | .rwr _ _ | .unkrd _ | .dgrd _
  | .rdbits _ _ | .wrbits _ _ _ | .rdoct _ | .wroct _ _ | .rdmoi _ _ | .wrmoi _ _ _
  | .fxenc _ _ _ | .fxdec _ _ _ | .uncenc _ _ _ _ | .uncdec _ _ _ _ | .frnext | .frput _ _
  | .locdec _ _ | .locenc _ _ | .flrdec _ _ | .flrenc _ _ | .usgdec _ _ | .usgenc _ | .bssdec _ _
  | .bssenc _ _ | .macparse _ _ | .macfmt _ | .recenc _ _ | .polchk _ => false

/-- The encoders (R24, spec/47_record.md R217). -/
def Encodes : Instr → Bool
  | .locenc _ _ | .flrenc _ _ | .usgenc _ | .bssenc _ _ | .recenc _ _ => true
  | .nop | .reset | .bufz _ | .ldhex _ _ | .hxrd _ | .hxwr _ _ | .rrd _ | .rwr _ _ | .rclr
  | .unkrd _ | .dgrd _ | .rdbits _ _ | .wrbits _ _ _ | .rdoct _ | .wroct _ _ | .rdmoi _ _
  | .wrmoi _ _ _ | .fxenc _ _ _ | .fxdec _ _ _ | .uncenc _ _ _ _ | .uncdec _ _ _ _ | .frnext
  | .frput _ _ | .locdec _ _ | .flrdec _ _ | .usgdec _ _ | .bssdec _ _ | .macparse _ _ | .macfmt _
  | .recdec | .polchk _ => false

/-- The accessor commands that can meet a bad digit (spec/60_exceptions.md R252). -/
def MayMeetBadDigit : Instr → Bool
  | .rdbits _ _ | .wrbits _ _ _ | .rdoct _ | .rdmoi _ _ => true
  | .nop | .reset | .bufz _ | .ldhex _ _ | .hxrd _ | .hxwr _ _ | .rrd _ | .rwr _ _ | .rclr
  | .unkrd _ | .dgrd _ | .wroct _ _ | .wrmoi _ _ _ | .fxenc _ _ _ | .fxdec _ _ _ | .uncenc _ _ _ _
  | .uncdec _ _ _ _ | .frnext | .frput _ _ | .locdec _ _ | .locenc _ _ | .flrdec _ _ | .flrenc _ _
  | .usgdec _ _ | .usgenc _ | .bssdec _ _ | .bssenc _ _ | .macparse _ _ | .macfmt _ | .recdec
  | .recenc _ _ | .polchk _ => false

/-! ## The octets of the buffer -/

/-- The characters of octet `i` are both hex digits (spec/20_memory.md R52, R53). -/
def State.digitsOk (s : State) (i : Nat) : Bool :=
  (hexval (s.chr (2 * i))).isSome && (hexval (s.chr (2 * i + 1))).isSome

/-- The number of octet `i`, the first character its high nibble; 0 where a character is no digit
(R53). -/
def State.octet (s : State) (i : Nat) : Byte :=
  (hexval (s.chr (2 * i))).getD 0 ++ (hexval (s.chr (2 * i + 1))).getD 0

/-- The octets `p` to `p + n - 1`. -/
def State.octets (s : State) (p n : Nat) : List Byte := (List.range n).map fun i => s.octet (p + i)

/-- The lowest of the octets `p` to `p + n - 1` that holds a character that is no hex digit. -/
def State.firstBad (s : State) (p n : Nat) : Option Nat :=
  ((List.range n).map (p + ·)).find? fun i => !s.digitsOk i

/-- How many octets the bits `off` to `off + n - 1` touch (R55, R56). -/
def touched (off n : Nat) : Nat := if n = 0 then 0 else (off + n - 1) / 8 - off / 8 + 1

/-- The lowest octet that the bits `off` to `off + n - 1` cover partly and that holds a character that
is no hex digit (R56). -/
def State.firstBadPartly (s : State) (off n : Nat) : Option Nat :=
  ((List.range (touched off n)).map (off / 8 + ·)).find? fun i =>
    !s.digitsOk i && !(decide (off ≤ 8 * i) && decide (8 * i + 8 ≤ off + n))

/-- The number of octets taken least significant first: its bit `k` is stream bit `k` (R55). -/
def littleEndian (os : List Byte) : Nat := os.foldr (fun o acc => o.toNat + 256 * acc) 0

/-- The number of octets taken most significant first (R57). -/
def bigEndianOf (os : List Byte) : Nat := os.foldl (fun acc o => 256 * acc + o.toNat) 0

/-- The field of width `w` at bit offset `off` of octets that are bit-packed (R55, R84). -/
def bitField (os : List Byte) (off w : Nat) : Nat := littleEndian os / 2 ^ off % 2 ^ w

/-- The lowercase hex digit of a nibble (R52). -/
def lowerDigit (n : Nat) : Byte :=
  ([0x30, 0x31, 0x32, 0x33, 0x34, 0x35, 0x36, 0x37, 0x38, 0x39,
    0x61, 0x62, 0x63, 0x64, 0x65, 0x66] : List Byte).getD n 0

/-- The characters that store octets: two lowercase digits each, the high nibble first (R54). -/
def hexText (os : List Byte) : List Byte :=
  os.flatMap fun o => [lowerDigit (o.toNat / 16), lowerDigit (o.toNat % 16)]

/-- The cells `h` hold `text` from character `c` upwards, and every other character as `s` does. -/
def Stored (h : Memory) (s : State) (c : Nat) (text : List Byte) : Prop :=
  ∀ k, Memory.read h k = if c ≤ k then (text[k - c]?).getD (s.chr k) else s.chr k

/-- The `n` octets of the low `8 * n` bits of `v`, most significant first (R58). -/
def lowOctets (v : Word64) (n : Nat) : List Byte :=
  (List.range n).map fun j => (v >>> (8 * (n - 1 - j))).setWidth 8

/-! ## Physical values and the quantizers -/

/-- The rational a physical value stands for (spec/00_scope.md R9). -/
def value (p : Phys) : ℚ := (p.toInt : ℚ) / 2 ^ 32

/-- `n` is `round(q)`: the integer nearest to `q`, and halfway the one farther from zero
(spec/41_quantizers.md R141). -/
def IsRound (q : ℚ) (n : ℤ) : Prop := |q - n| ≤ 1 / 2 ∧ (|q - n| = 1 / 2 → |q| < |(n : ℚ)|)

/-- `k` is `clog2(q)`: the least integer with `q ≤ 2^k` (R146). -/
def IsClog2 (q : ℚ) (k : ℤ) : Prop := (2 : ℚ) ^ (k - 1) < q ∧ q ≤ (2 : ℚ) ^ k

/-- An integer kept within the range of a `w`-bit two's-complement field (R142). -/
def clampTo (w : Nat) (n : ℤ) : ℤ := max (-(2 ^ (w - 1))) (min (2 ^ (w - 1) - 1) n)

/-- `FixEnc(v, w, f, fld)` answers `raw` and posts `ds` (R142). -/
def FixCode (v : Phys) (w f fld raw : Nat) (ds : List DiagEntry) : Prop :=
  ∃ n : ℤ, IsRound (value v * 2 ^ f) n ∧ raw = (clampTo w n % 2 ^ w).toNat ∧
    ds = if clampTo w n = n then [] else [⟨.rangeViolation, .fixClamp, BitVec.ofNat 16 fld⟩]

/-- `UncEnc(v, m, max, zs, fld)` answers `code` and posts `ds` (R147, with EPS = 0). -/
def UncCode (v : Phys) (m : ℤ) (max : Nat) (zs : Bool) (fld code : Nat) (ds : List DiagEntry) :
    Prop :=
  (value v < 0 ∧ code = (if zs then max else 0) ∧
      ds = [⟨.rangeViolation, .uncNegative, BitVec.ofNat 16 fld⟩]) ∨
  (value v = 0 ∧ code = (if zs then max else 0) ∧ ds = []) ∨
  (0 < value v ∧ ∃ k, IsClog2 (value v) k ∧
    ((m - k ≤ 0 ∧ code = 1 ∧ ds = [⟨.rangeViolation, .uncLow, BitVec.ofNat 16 fld⟩]) ∨
     ((max : ℤ) < m - k ∧ code = max ∧ ds = [⟨.rangeViolation, .uncHigh, BitVec.ofNat 16 fld⟩]) ∨
     (0 < m - k ∧ m - k ≤ max ∧ (code : ℤ) = m - k ∧ ds = [])))

/-- The signed number of the raw field `r` of width `w` (spec/00_scope.md R7). -/
def signed (w r : Nat) : ℤ := (BitVec.ofNat w r).toInt

/-- The rational that `FixDec(r, w, f)` answers (R143). -/
def fixValue (r w f : Nat) : ℚ := (signed w r : ℚ) / 2 ^ f

/-- The rational that `UncDec(c, m, max)` answers (R148). -/
def uncValue (c : Nat) (m : ℤ) (max : Nat) : ℚ :=
  if c = 0 then 0 else (2 : ℚ) ^ (m - (min c max : Nat))

/-- The entries that `UncDec(c, m, max, fld)` posts (R148). -/
def uncNotes (c max fld : Nat) : List DiagEntry :=
  if max < c then [⟨.rangeViolation, .uncReserved, BitVec.ofNat 16 fld⟩] else []

/-- The entry that a second subelement of an ID already decoded posts (R256). -/
def duplicateNotes (present : BitVec 1) (id : Nat) : List DiagEntry :=
  if present = 1 then [⟨.malformedInput, .duplicate, BitVec.ofNat 16 id⟩] else []

/-! ## Payloads -/

/-- `r` is `q` with the geodetic registers and R.GEO_P replaced by what the 16 octets `os` decode to
(spec/43_location.md R170, spec/30_encoding.md R84). -/
def LocDecoded (q r : Record) (os : List Byte) : Prop :=
  r = { q with
        latU := r.latU, lat := r.lat, lonU := r.lonU, lon := r.lon, altU := r.altU, alt := r.alt
        altType := BitVec.ofNat 4 (bitField os 80 4)
        datum := BitVec.ofNat 3 (bitField os 120 3)
        regLoc := BitVec.ofNat 1 (bitField os 123 1)
        dse := BitVec.ofNat 1 (bitField os 124 1)
        depSta := BitVec.ofNat 1 (bitField os 125 1)
        ver := BitVec.ofNat 2 (bitField os 126 2)
        geoP := 1 } ∧
  value r.latU = uncValue (bitField os 0 6) 8 34 ∧ value r.lat = fixValue (bitField os 6 34) 34 25 ∧
  value r.lonU = uncValue (bitField os 40 6) 8 34 ∧
  value r.lon = fixValue (bitField os 46 34) 34 25 ∧
  value r.altU = uncValue (bitField os 84 6) 21 34 ∧
  value r.alt = fixValue (bitField os 90 30) 30 8

/-- The diagnostics of decoding the 16 octets `os`, in order (R170). -/
def locDecNotes (q : Record) (os : List Byte) : List DiagEntry :=
  duplicateNotes q.geoP 0 ++ uncNotes (bitField os 0 6) 34 1 ++ uncNotes (bitField os 40 6) 34 2
    ++ uncNotes (bitField os 84 6) 34 3
    ++ if bitField os 126 2 = 1 then []
       else [⟨.rangeViolation, .version, BitVec.ofNat 16 (bitField os 126 2)⟩]

/-- The 16 octets `os` are the location payload of `r`, and `ds` its diagnostics in order (R172). -/
def LocPayload (r : Record) (zs : Bool) (os : List Byte) (ds : List DiagEntry) : Prop :=
  os.length = 16 ∧ ∃ d1 d2 d3 d4 d5 d6,
    UncCode r.latU 8 34 zs 1 (bitField os 0 6) d1 ∧ FixCode r.lat 34 25 1 (bitField os 6 34) d2 ∧
    UncCode r.lonU 8 34 zs 2 (bitField os 40 6) d3 ∧ FixCode r.lon 34 25 2 (bitField os 46 34) d4 ∧
    bitField os 80 4 = r.altType.toNat ∧
    UncCode r.altU 21 34 zs 3 (bitField os 84 6) d5 ∧ FixCode r.alt 30 8 3 (bitField os 90 30) d6 ∧
    bitField os 120 3 = r.datum.toNat ∧ bitField os 123 1 = r.regLoc.toNat ∧
    bitField os 124 1 = r.dse.toNat ∧ bitField os 125 1 = r.depSta.toNat ∧
    bitField os 126 2 = r.ver.toNat ∧
    ds = d1 ++ d2 ++ d3 ++ d4 ++ d5 ++ d6
      ++ if r.ver = 1 then [] else [⟨.rangeViolation, .version, r.ver.setWidth 16⟩]

/-- The height of a floor payload: 24 bits of 6 octets, 16 bits of 5 (spec/44_floor.md R180). -/
def flrHeight (os : List Byte) : ℚ :=
  if os.length = 6 then fixValue (bigEndianOf ((os.drop 2).take 3)) 24 12
  else fixValue (bigEndianOf ((os.drop 2).take 2)) 16 12

/-- The height-uncertainty code of a floor payload, its last octet (R180). -/
def flrCode (os : List Byte) : Nat := (os.getLastD 0).toNat

/-- `r` is `q` with the floor registers and R.FLR_P replaced by what the octets `os` decode to
(R180). -/
def FlrDecoded (q r : Record) (os : List Byte) : Prop :=
  r = { q with
        floor := r.floor, height := r.height, heightU := r.heightU
        move := BitVec.ofNat 2 (bigEndianOf (os.take 2)), flrP := 1 } ∧
  value r.floor = fixValue (bigEndianOf (os.take 2) / 4) 14 4 ∧
  value r.height = flrHeight os ∧ value r.heightU = uncValue (flrCode os) 11 24

/-- The 6 octets `os` are the floor payload of `r`, and `ds` its diagnostics in order (R182). -/
def FlrPayload (r : Record) (zs : Bool) (os : List Byte) (ds : List DiagEntry) : Prop :=
  os.length = 6 ∧ ∃ fl h d1 d2 d3,
    FixCode r.floor 14 4 4 fl d1 ∧ FixCode r.height 24 12 5 h d2 ∧
    UncCode r.heightU 11 24 zs 5 (bigEndianOf (os.drop 5)) d3 ∧
    bigEndianOf (os.take 2) = fl * 4 + r.move.toNat ∧ bigEndianOf ((os.drop 2).take 3) = h ∧
    ds = d1 ++ d2 ++ d3

/-- The expiration of a usage payload, 0 where it has none (spec/45_usage.md R190). -/
def usgExpire (os : List Byte) : Nat := if os.length = 3 then bigEndianOf (os.drop 1) else 0

/-- What the usage octets `os` decode to (R190). -/
def usgDecoded (q : Record) (os : List Byte) : Record :=
  { q with
    retrans := BitVec.ofBool ((os.headD 0).getLsbD 0)
    retExp := BitVec.ofBool ((os.headD 0).getLsbD 1)
    locPol := BitVec.ofBool ((os.headD 0).getLsbD 2)
    expire := BitVec.ofNat 16 (usgExpire os)
    usgP := 1 }

/-- The diagnostics of decoding the usage octets `os`, in order (R190). -/
def usgDecNotes (q : Record) (os : List Byte) : List DiagEntry :=
  duplicateNotes q.usgP 6
    ++ (if (os.headD 0).getLsbD 1 = decide (os.length = 3) then []
        else [⟨.malformedInput, .usgFlagLen, BitVec.ofNat 16 os.length⟩])
    ++ if os.length = 3 ∧ usgExpire os = 0 then [⟨.malformedInput, .usgExpZero, 0⟩] else []

/-- The octets `os` are the usage payload of `r`, and `ds` its diagnostics (R192, R193): the
expiration is there exactly when it is not 0, whatever R.RETEXP is. -/
def UsgPayload (r : Record) (os : List Byte) (ds : List DiagEntry) : Prop :=
  os.length = (if r.expire = 0 then 1 else 3) ∧
  (os.headD 0).toNat =
    r.retrans.toNat + (if r.expire = 0 then 0 else 2) + 4 * r.locPol.toNat ∧
  (r.expire ≠ 0 → bigEndianOf (os.drop 1) = r.expire.toNat) ∧
  ds = if r.retExp = 0 ∧ r.expire ≠ 0 then [⟨.policyInconsistency, .expWithoutFlag, r.expire⟩]
       else if r.retExp = 1 ∧ r.expire = 0 then [⟨.policyInconsistency, .flagWithoutExp, 0⟩]
       else []

/-- What slot `i` of a BSSID payload at `p` decodes to: invalid and zero where the address has a bad
digit (spec/46_bssid.md R200). -/
def bssSlotAt (s : State) (p i : Nat) : Slot :=
  match s.firstBad (p + 1 + 6 * i) 6 with
  | some _ => { addr := 0, valid := 0 }
  | none => { addr := BitVec.ofNat 48 (bigEndianOf (s.octets (p + 1 + 6 * i) 6)), valid := 1 }

/-- The diagnostics of decoding a BSSID payload of `len` octets at `p`, in order (R200). -/
def bssDecNotes (s : State) (q : Record) (p len : Nat) : List DiagEntry :=
  (if s.digitsOk p then [] else [⟨.malformedInput, .hexDigit, BitVec.ofNat 16 p⟩])
    ++ duplicateNotes q.bssP 7
    ++ ((List.range ((len - 1) / 6)).filterMap fun i => s.firstBad (p + 1 + 6 * i) 6).map
        (fun j => (⟨.malformedInput, .hexDigit, BitVec.ofNat 16 j⟩ : DiagEntry))
    ++ (if (len - 1) % 6 = 0 then []
        else [⟨.malformedInput, .bssResidue, BitVec.ofNat 16 ((len - 1) % 6)⟩])
    ++ if s.digitsOk p ∧ s.octet p ≠ 0 ∧ (s.octet p).toNat ≠ (len - 1) / 6 then
        [⟨.malformedInput, .bssIndicator, (s.octet p).setWidth 16⟩]
       else []

/-- The octets `os` are the BSSID payload of `r`, and `ds` its diagnostics in order (R202): the
indicator is the count or 0, an invalid slot is six zero octets and is reported. -/
def BssPayload (r : Record) (ind : Bool) (os : List Byte) (ds : List DiagEntry) : Prop :=
  os.length = 1 + 6 * r.bssN.toNat ∧
  (os.headD 0).toNat = (if ind then r.bssN.toNat else 0) ∧
  (∀ i < r.bssN.toNat, bigEndianOf ((os.drop (1 + 6 * i)).take 6) =
    if (r.slot i).valid = 1 then (r.slot i).addr.toNat else 0) ∧
  ds = ((List.range r.bssN.toNat).filter fun i => (r.slot i).valid = 0).map
    fun i => ⟨.malformedInput, .macInvalidSlot, BitVec.ofNat 16 i⟩

/-! ## Address text -/

/-- The octet that the two characters of a text from position `i` write, none where they are no two
hex digits (R94). -/
def textOctet (text : List Byte) (i : Nat) : Option Byte :=
  match (text[i]?).bind hexval, (text[i + 1]?).bind hexval with
  | some h, some l => some (h ++ l)
  | _, _ => none

/-- `text` is a text form of the address `a`: twelve digits, or six pairs with a separator `:`, `-` or
`_` after each of the first five (R94, R204). -/
def IsAddressText (text : List Byte) (a : BitVec 48) : Prop :=
  (text.length = 12 ∧ ∀ k < 6, textOctet text (2 * k) = some (a.extractLsb' (40 - 8 * k) 8)) ∨
  (text.length = 17 ∧
    (∀ k < 5, text[3 * k + 2]? = some 0x3A ∨ text[3 * k + 2]? = some 0x2D ∨
      text[3 * k + 2]? = some 0x5F) ∧
    ∀ k < 6, textOctet text (3 * k) = some (a.extractLsb' (40 - 8 * k) 8))

/-- The canonical text of an address: lowercase pairs with a colon between them (R94, R206). -/
def canonicalText (a : BitVec 48) : List Byte :=
  (List.range 6).flatMap fun k =>
    (if k = 0 then [] else [0x3A]) ++ hexText [a.extractLsb' (40 - 8 * k) 8]

/-! ## The wire record -/

/-- A subelement as the framer finds it: the ID octet, the length octet, the octet offset of the
payload (R82, R161). -/
structure Sub where
  id : Byte
  len : Byte
  pos : Nat
  deriving DecidableEq, Repr

/-- From octet `c` the subelements `xs` follow one another without a gap up to octet `e`, each inside
the buffer with readable ID and length octets (R82, R161). -/
def Framed (s : State) : Nat → List Sub → Nat → Prop
  | c, [], e => c = e
  | c, x :: xs, e =>
    s.digitsOk c = true ∧ s.digitsOk (c + 1) = true ∧ x = ⟨s.octet c, s.octet (c + 1), c + 2⟩ ∧
      c + 2 + x.len.toNat ≤ s.olen ∧ Framed s (c + 2 + x.len.toNat) xs e

/-- The entry with which the framer halts at octet `c`, none where it does not halt there (R161). -/
def haltEntry (s : State) (c : Nat) : Option DiagEntry :=
  if c + 2 ≤ s.olen then
    if s.digitsOk c = false then some ⟨.malformedInput, .hexDigit, BitVec.ofNat 16 c⟩
    else if s.digitsOk (c + 1) = false then
      some ⟨.malformedInput, .hexDigit, BitVec.ofNat 16 (c + 1)⟩
    else if s.olen < c + 2 + (s.octet (c + 1)).toNat then
      some ⟨.malformedInput, .frameLength, BitVec.ofNat 16 c⟩
    else none
  else none

/-- The command that decodes a subelement by hand, none for an unknown ID (R83, R163). -/
def Sub.command (x : Sub) : Option Instr :=
  if x.id = 0 then some (.locdec (BitVec.ofNat 32 x.pos) x.len)
  else if x.id = 4 then some (.flrdec (BitVec.ofNat 32 x.pos) x.len)
  else if x.id = 6 then some (.usgdec (BitVec.ofNat 32 x.pos) x.len)
  else if x.id = 7 then some (.bssdec (BitVec.ofNat 32 x.pos) x.len)
  else none

/-- The record and the diagnostics after one more subelement of the buffer of `s`: those of the
command that decodes it by hand, or an entry of the unknown list with its report (R163). -/
def decodeSub (s : State) (acc : Record × List DiagEntry) (x : Sub) : Record × List DiagEntry :=
  match x.command with
  | some i =>
    match exec i { s with record := acc.1 } with
    | .next t => (t.record, acc.2 ++ t.diag)
    | .fault _ => acc
    | .refused _ => acc
  | none =>
    ({ acc.1 with unk := acc.1.unk ++ [{ id := x.id, pos := BitVec.ofNat 32 x.pos, len := x.len }] },
      acc.2 ++ [⟨.unknownSubelement, .unknownId, x.id.setWidth 16⟩])

/-- The record and the diagnostics that the subelements `xs` leave of a cleared record (R215). -/
def decodeSubs (s : State) (xs : List Sub) : Record × List DiagEntry :=
  xs.foldl (decodeSub s) (Record.cleared, [])

/-- The report of one header octet (R215). -/
def headerNote (s : State) (i : Nat) (want : Byte) (c : Cause) : List DiagEntry :=
  if s.digitsOk i = false then [⟨.malformedInput, .hexDigit, BitVec.ofNat 16 i⟩]
  else if s.octet i = want then []
  else [⟨.malformedInput, c, (s.octet i).setWidth 16⟩]

/-- The report of an odd character count (R215). -/
def oddNote (s : State) : List DiagEntry :=
  if s.hlen % 2 = 1 then [⟨.malformedInput, .oddLength, BitVec.ofNat 16 s.hlen⟩] else []

/-- The diagnostics of `RecDec` before the first subelement, in order (R215). -/
def headerNotes (s : State) : List DiagEntry :=
  oddNote s ++ headerNote s 0 0x01 .hdrToken ++ headerNote s 1 0x00 .hdrMode
    ++ headerNote s 2 0x08 .hdrType

/-- The advisory entries of a record, in order (spec/47_record.md R219). -/
def advisories (r : Record) (useU useF re : Bool) : List DiagEntry :=
  (if useU ∧ r.retrans = 0 then [⟨.consumerIncompatibility, .retransDisallowed, 0⟩] else [])
    ++ (if useU ∧ re then [⟨.consumerIncompatibility, .retexpPresent, 0⟩] else [])
    ++ (if useU ∧ r.expire ≠ 0 then [⟨.consumerIncompatibility, .expNonzero, r.expire⟩] else [])
    ++ if useF ∧ r.move ≠ 0 then [⟨.consumerIncompatibility, .moveSet, r.move.setWidth 16⟩] else []

/-- The advisory entries that end `RecDec` (R215). -/
def decodeAdvisories (r : Record) : List DiagEntry :=
  advisories r (r.usgP = 1) (r.flrP = 1) (r.retExp = 1)

/-- The present flags in the bit layout of incl (R215). -/
def presentFlags (r : Record) : Word64 :=
  BitVec.ofNat 64 (r.geoP.toNat + 2 * r.flrP.toNat + 4 * r.usgP.toNat + 8 * r.bssP.toNat)

/-- The location subelement is emitted (spec/43_location.md R174). -/
def Emits (r : Record) (incl : BitVec 8) : Prop :=
  incl.getLsbD 0 = true ∧
    (value r.lat ≠ 0 ∨ value r.lon ≠ 0 ∨ value r.alt ≠ 0 ∨ incl.getLsbD 4 = true)

/-- A subelement of the wire record is the octets `piece` and posts `notes`: its ID, its length and its
payload `os` with the payload's diagnostics `ds`, or nothing at all where it is not emitted (R82,
R217). -/
def EmittedAs (emitted : Prop) (id : Byte) (os : List Byte) (ds : List DiagEntry)
    (piece : List Byte) (notes : List DiagEntry) : Prop :=
  (emitted ∧ piece = id :: BitVec.ofNat 8 os.length :: os ∧ notes = ds) ∨
  (¬emitted ∧ piece = [] ∧ notes = [])

/-! ## The register table -/

/-- What RRD answers under every number that names a register, slots aside (spec/10_state.md R29,
spec/48_system.md R232). -/
def registerTable (s : State) : List (BitVec 8 × Word64) :=
  [(0x00, s.record.geoP.setWidth 64), (0x01, s.record.lat), (0x02, s.record.lon),
   (0x03, s.record.alt), (0x04, s.record.latU), (0x05, s.record.lonU), (0x06, s.record.altU),
   (0x07, s.record.altType.setWidth 64), (0x08, s.record.datum.setWidth 64),
   (0x09, s.record.regLoc.setWidth 64), (0x0A, s.record.dse.setWidth 64),
   (0x0B, s.record.depSta.setWidth 64), (0x0C, s.record.ver.setWidth 64),
   (0x10, s.record.flrP.setWidth 64), (0x11, s.record.floor), (0x12, s.record.height),
   (0x13, s.record.heightU), (0x14, s.record.move.setWidth 64),
   (0x20, s.record.usgP.setWidth 64), (0x21, s.record.retrans.setWidth 64),
   (0x22, s.record.retExp.setWidth 64), (0x23, s.record.locPol.setWidth 64),
   (0x24, s.record.expire.setWidth 64), (0x30, s.record.bssP.setWidth 64),
   (0x31, s.record.bssN.setWidth 64), (0x32, s.record.bssInd.setWidth 64),
   (0xF0, s.status.code.setWidth 64), (0xF1, s.cur.setWidth 64), (0xF2, BitVec.ofNat 64 s.hlen),
   (0xF3, BitVec.ofNat 64 s.diag.length), (0xF4, BitVec.ofNat 64 s.record.unk.length),
   (0xF5, 1024), (0xF6, s.dgovf.setWidth 64)]

/-- The width of the register a number names where RWR may write it; 64 stands for a physical value
(R233). -/
def writableWidth (r : BitVec 8) : Option Nat :=
  if r.toNat ∈ [0x01, 0x02, 0x03, 0x04, 0x05, 0x06, 0x11, 0x12, 0x13] then some 64
  else if r.toNat ∈ [0x00, 0x09, 0x0A, 0x0B, 0x10, 0x20, 0x21, 0x22, 0x23, 0x30] then some 1
  else if r.toNat ∈ [0x0C, 0x14] then some 2
  else if r.toNat = 0x08 then some 3
  else if r.toNat = 0x07 then some 4
  else if r.toNat = 0x31 then some 6
  else if r.toNat = 0x32 then some 8
  else if r.toNat = 0x24 then some 16
  else if r.toNat = 0xF1 then some 32
  else if 0x40 ≤ r.toNat ∧ r.toNat ≤ 0x69 then some 48
  else if 0x80 ≤ r.toNat ∧ r.toNat ≤ 0xA9 then some 1
  else none

/-- The operand limits that a non-observer command's rule states are broken (R104, R253). -/
def BadOperands : Instr → Prop
  | .ldhex r _ => r ≠ 0
  | .rwr r v => writableWidth r = none ∨ (r = 0x31 ∧ 42 < v.toNat)
  | .rdbits _ b => 64 < b.toNat
  | .wrbits _ b _ => 64 < b.toNat
  | .rdmoi _ b => 8 < b.toNat
  | .wrmoi _ b _ => 8 < b.toNat
  | .fxenc w f _ => w.toNat < 1 ∨ 64 < w.toNat ∨ 63 < f.toNat
  | .fxdec w f _ => w.toNat < 1 ∨ 64 < w.toNat ∨ 32 < f.toNat ∨ f.toNat + 32 < w.toNat
  | .uncenc _ x c _ => x = 0 ∨ 2 ≤ c.toNat
  | .uncdec m x c v => x = 0 ∨ c ≠ 0 ∨ 255 < v.toNat ∨ 31 < m.toInt ∨ m.toInt - x.toNat < -32
  | .locenc _ b => 4 ≤ b.toNat
  | .flrenc _ b => 4 ≤ b.toNat
  | .bssenc _ b => 4 ≤ b.toNat
  | .macparse r _ => 42 ≤ r.toNat
  | .recenc b1 b2 => 32 ≤ b1.toNat ∨ 4 ≤ b2.toNat
  | .polchk r => 32 ≤ r.toNat
  | .nop | .reset | .bufz _ | .hxrd _ | .hxwr _ _ | .rrd _ | .rclr | .unkrd _ | .dgrd _ | .rdoct _
  | .wroct _ _ | .frnext | .frput _ _ | .locdec _ _ | .flrdec _ _ | .usgdec _ _ | .usgenc _
  | .bssdec _ _ | .macfmt _ | .recdec => False

/-- The operation codes of the map (R102). -/
def Assigned (op : Byte) : Prop :=
  op.toNat ≤ 0x05 ∨ (0x08 ≤ op.toNat ∧ op.toNat ≤ 0x0C) ∨ (0x10 ≤ op.toNat ∧ op.toNat ≤ 0x15) ∨
  (0x20 ≤ op.toNat ∧ op.toNat ≤ 0x23) ∨ (0x30 ≤ op.toNat ∧ op.toNat ≤ 0x31) ∨
  (0x40 ≤ op.toNat ∧ op.toNat ≤ 0x49) ∨ (0x50 ≤ op.toNat ∧ op.toNat ≤ 0x52)

/-- Every register has the value that reset gives it (spec/10_state.md R35, R36). -/
def AtDefaults (s : State) : Prop :=
  s.hlen = 0 ∧ (∀ c, s.chr c = 0x30) ∧ s.cur = 0 ∧ s.status = .ok ∧ s.diag = [] ∧ s.dgovf = 0 ∧
  s.record.geoP = 0 ∧ s.record.flrP = 0 ∧ s.record.usgP = 0 ∧ s.record.bssP = 0 ∧
  value s.record.lat = 0 ∧ value s.record.lon = 0 ∧ value s.record.alt = 0 ∧
  value s.record.latU = 0 ∧ value s.record.lonU = 0 ∧ value s.record.altU = 0 ∧
  value s.record.floor = 0 ∧ value s.record.height = 0 ∧ value s.record.heightU = 0 ∧
  s.record.altType = 0 ∧ s.record.datum = 0 ∧ s.record.regLoc = 0 ∧ s.record.dse = 0 ∧
  s.record.depSta = 0 ∧ s.record.move = 0 ∧ s.record.retrans = 0 ∧ s.record.retExp = 0 ∧
  s.record.locPol = 0 ∧ s.record.expire = 0 ∧ s.record.bssN = 0 ∧ s.record.bssInd = 0 ∧
  s.record.unk = [] ∧ (∀ i < 42, s.record.slot i = { addr := 0, valid := 0 }) ∧ s.record.ver = 1

/-! ## The invariant -/

/-- What holds of the block at reset and after every step. -/
structure State.Inv (s : State) : Prop where
  /-- The cells are in their one canonical form. -/
  canonical : Memory.wf s.hex = true
  /-- No cell lies at or above HCAP (spec/10_state.md R21). -/
  inside : ∀ cell ∈ s.hex, cell.1 < Config.hcap
  /-- HLEN is at most HCAP (R21). -/
  length : s.hlen ≤ Config.hcap
  /-- R.BSS_N is at most 42 (R30). -/
  slots : s.record.bssN.toNat ≤ Config.bssCap
  /-- R.UNK_N is at most UNK_CAP (R31). -/
  unknown : s.record.unk.length ≤ Config.unkCap
  /-- DGN is at most DIAG_CAP (R32). -/
  entries : s.diag.length ≤ Config.diagCap
  /-- Every entry is filed under the kind of its cause (spec/60_exceptions.md R256). -/
  filed : ∀ e ∈ s.diag, e.kind = e.cause.kind
  /-- DGOVF is set only when the list is full (R32, R255). -/
  overflow : s.dgovf = 1 → s.diag.length = Config.diagCap

/-! ## One buffer, three views -/

/-- Octet `j` of `s` reads as `o` in the octet space and in the bit space (spec/20_memory.md R50):
through RDOCT, RDMOI of one octet and RDBITS of its eight bits. -/
def ReadsAsOctet (s : State) (j : Nat) (o : Byte) : Prop :=
  exec (.rdoct (BitVec.ofNat 32 j)) s = .next (s.answered [] (o.setWidth 64)) ∧
  exec (.rdmoi (BitVec.ofNat 32 j) 1) s = .next (s.answered [] (o.setWidth 64)) ∧
  exec (.rdbits (BitVec.ofNat 32 (8 * j)) 8) s = .next (s.answered [] (o.setWidth 64))

/-- Octet `j` of `s` reads as two lowercase digits of `o` in the character space, through HXRD
(R50, R54). -/
def ReadsAsDigits (s : State) (j : Nat) (o : Byte) : Prop :=
  exec (.hxrd (BitVec.ofNat 32 (2 * j))) s =
    .next (s.observed .ok ((lowerDigit (o.toNat / 16)).setWidth 64)) ∧
  exec (.hxrd (BitVec.ofNat 32 (2 * j + 1))) s =
    .next (s.observed .ok ((lowerDigit (o.toNat % 16)).setWidth 64))

/-- A written octet as all three views show it. -/
def ReadsEverywhere (s : State) (j : Nat) (o : Byte) : Prop :=
  ReadsAsOctet s j o ∧ ReadsAsDigits s j o

/-! ## Values on the grid of their field -/

/-- `v` is a value of the fixed-point field of width `w` with `f` fraction bits (R140, R221). -/
def OnGrid (v : Phys) (w f : Nat) : Prop := ∃ r, r < 2 ^ w ∧ value v = fixValue r w f

/-- `v` is 0 or the value of a valid uncertainty code, and under the policy bit `zs` not 0 (R221). -/
def OnScale (v : Phys) (m : ℤ) (max : Nat) (zs : Bool) : Prop :=
  (zs = false ∧ value v = 0) ∨ ∃ c : Nat, 1 ≤ c ∧ c ≤ max ∧ value v = (2 : ℚ) ^ (m - c)

/-- The record holds, in each sub-record that `incl` selects, only values that its wire form keeps
(R221): the location is not suppressed, the usage registers agree, every slot in use is valid and the
others are empty. -/
def Preserved (r : Record) (incl : BitVec 8) (zs : Bool) : Prop :=
  (incl.getLsbD 0 = true → Emits r incl ∧
    OnGrid r.lat 34 25 ∧ OnGrid r.lon 34 25 ∧ OnGrid r.alt 30 8 ∧
    OnScale r.latU 8 34 zs ∧ OnScale r.lonU 8 34 zs ∧ OnScale r.altU 21 34 zs) ∧
  (incl.getLsbD 1 = true →
    OnGrid r.floor 14 4 ∧ OnGrid r.height 24 12 ∧ OnScale r.heightU 11 24 zs) ∧
  (incl.getLsbD 2 = true → (r.retExp = 1 ↔ r.expire ≠ 0)) ∧
  (incl.getLsbD 3 = true → r.bssN.toNat ≤ 42 ∧
    (∀ i < r.bssN.toNat, (r.slot i).valid = 1) ∧
    ∀ i, r.bssN.toNat ≤ i → r.slot i = { addr := 0, valid := 0 })

/-- The record that decoding the wire record of `r` gives: the selected sub-records as in `r`, the
others at their defaults (R221). -/
def selected (r : Record) (incl : BitVec 8) (ind : Bool) : Record :=
  let q := Record.cleared
  let q := if incl.getLsbD 0 then
    { q with
      geoP := 1, lat := r.lat, lon := r.lon, alt := r.alt, latU := r.latU, lonU := r.lonU
      altU := r.altU, altType := r.altType, datum := r.datum, regLoc := r.regLoc, dse := r.dse
      depSta := r.depSta, ver := r.ver }
    else q
  let q := if incl.getLsbD 1 then
    { q with flrP := 1, floor := r.floor, height := r.height, heightU := r.heightU, move := r.move }
    else q
  let q := if incl.getLsbD 2 then
    { q with
      usgP := 1, retrans := r.retrans, retExp := r.retExp, locPol := r.locPol, expire := r.expire }
    else q
  if incl.getLsbD 3 then
    { q with
      bssP := 1, bssN := r.bssN, bss := r.bss
      bssInd := if ind then r.bssN.setWidth 8 else 0 }
  else q

/-! ## Canonical wire records -/

/-- The payload `os` of a subelement with ID `id` is in the one form the encoder writes
(spec/47_record.md R221(a)); `ind` tells whether the BSSID indicator is the count or 0. -/
def CanonicalPayload (ind : Bool) (id : Byte) (os : List Byte) : Prop :=
  (id = 0 ∧ os.length = 16 ∧
    bitField os 0 6 ≤ 34 ∧ bitField os 40 6 ≤ 34 ∧ bitField os 84 6 ≤ 34) ∨
  (id = 4 ∧ os.length = 6 ∧ flrCode os ≤ 24) ∨
  (id = 6 ∧ (os.headD 0).toNat < 8 ∧
    ((os.length = 1 ∧ (os.headD 0).getLsbD 1 = false) ∨
     (os.length = 3 ∧ (os.headD 0).getLsbD 1 = true ∧ usgExpire os ≠ 0))) ∨
  (id = 7 ∧ os.length < 256 ∧ ∃ n, os.length = 1 + 6 * n ∧
    (os.headD 0).toNat = if ind then n else 0)

/-- The octets of a wire record: the header, then each subelement's ID, length and payload (R80 to
R82). -/
def wireOctets (xs : List (Byte × List Byte)) : List Byte :=
  [0x01, 0x00, 0x08] ++ xs.flatMap fun x => x.1 :: BitVec.ofNat 8 x.2.length :: x.2

/-- Canonical subelements in strictly ascending ID order (R221(a)). -/
def CanonicalWire (ind : Bool) (xs : List (Byte × List Byte)) : Prop :=
  (xs.Pairwise fun x y => x.1.toNat < y.1.toNat) ∧ ∀ x ∈ xs, CanonicalPayload ind x.1 x.2

/-- A diagnostic that the round trip of a canonical record may post: VERSION or an advisory one
(R221(a)). -/
def OnlyVersionOrAdvisory (ds : List DiagEntry) : Prop :=
  ∀ e ∈ ds, e.cause = .version ∨ e.kind = .consumerIncompatibility

end Sys2Proof.Machine
end

