-- ==== Sys2Proof/Certificates/Slice0/Obligations.lean ====
section
/-! DEFINITION. The statements about the block, for the provers. Each docstring names the rule of spec/
it formalises; the terms are those of Sys2Proof/Safety.lean. A statement about a command gives its
packet, every way it can end, and the whole state it leaves, so that it is at once the command's
result, its frame and its completion. -/

open Sys2Proof Sys2Proof.Machine

/-! ## Reset, the invariant, the step -/

/-- R36, R231: every piece of state has its default after hardware reset; the RESET command answers OK
0 and leaves exactly that state, the packets the host still presents aside. -/
def Obligations.ResetLeavesEveryDefault : Prop :=
  AtDefaults State.reset ∧ decode [0x01] = .ok .reset ∧
  ∀ s, exec .reset s = .next { State.reset.answered [] 0 with pending := s.pending } ∧
    AtDefaults { State.reset.answered [] 0 with pending := s.pending }

/-- The invariant of Safety.lean holds at reset. -/
def Obligations.ResetSatisfiesTheInvariant : Prop := State.reset.Inv

/-- The invariant is kept by every step, from every state that has it. -/
def Obligations.StepKeepsTheInvariant : Prop :=
  ∀ s t : State, s.Inv → step s = .next t → t.Inv

/-- Decoding the packet of any well-formed instruction gives the instruction back, with every operand
at every value. -/
def Obligations.DecodeOfEncodeIsTheInstruction : Prop :=
  ∀ i : Instr, i.WellFormed = true → decode (encode i) = .ok i

/-- A packet that decodes is the packet of its instruction, which is well formed: no two packets mean
the same command. -/
def Obligations.EncodeOfDecodeIsThePacket : Prop :=
  ∀ (p : Packet) (i : Instr), decode p = .ok i → encode i = p ∧ i.WellFormed = true

/-- R101: with an assigned operation code, a packet is a command exactly when it has the length of its
format; the count of a text operand is its bytes 2 and 3. -/
def Obligations.PacketIsACommandWhenItsLengthIsRight : Prop :=
  ∀ (op : Byte) (rest : List Byte), Assigned op →
    ((∃ i, decode (op :: rest) = .ok i) ↔
      (op :: rest).length =
        packetLength op.toNat (be16 (rest.getD 1 0) (rest.getD 2 0)).toNat)

/-- Packets written out byte by byte from R101 and R102 decode to the commands they stand for; the
last is the example of R105. -/
def Obligations.WrittenPacketsDecode : Prop :=
  decode [0x00] = .ok .nop ∧ decode [0x02, 0x00, 0x00, 0x00, 0x03] = .ok (.bufz 3) ∧
  decode [0x09, 0x0C, 0, 0, 0, 0, 0, 0, 0, 5] = .ok (.rwr 0x0C 5) ∧
  decode [0x22, 0x08, 0x22, 0x01, 0, 0, 0, 1, 0, 0, 0, 0] = .ok (.uncenc 8 34 1 0x100000000) ∧
  decode [0x48, 0x03, 0x00, 0x02, 0x41, 0x41] = .ok (.macparse 3 [0x41, 0x41]) ∧
  decode [0x10, 0x00, 0x00, 0x00, 0x06, 0x22] = .ok (.rdbits 6 34)

/-- One step takes the packet the host presents and is exec of the instruction it decodes to; nothing
is added around it but the taking of the packet. That the packets the host will present stand in a
list is the model's choice (notes/assumptions/1.md). -/
def Obligations.StepRunsTheDecodedInstruction : Prop :=
  ∀ (s : State) (p : Packet) (rest : List Packet) (i : Instr),
    s.pending = p :: rest → decode p = .ok i → step s = exec i { s with pending := rest }

/-- R288: every command ends: exec answers a next state for every instruction in every state. -/
def Obligations.EveryCommandTerminates : Prop :=
  ∀ (i : Instr) (s : State), ∃ t, exec i s = .next t

/-- The model's choice (notes/assumptions/3.md): a step stops only on a packet that is no command, with
a fault where it has no byte at all and with a refusal where an assigned operation code has a packet
of the wrong length; without a packet it changes nothing (between commands the block does nothing,
R258). -/
def Obligations.StepStopsOnlyOnPacketsThatAreNoCommand : Prop :=
  ∀ s : State, (s.pending = [] → step s = .next s) ∧
    (∀ φ, step s = .fault φ ↔ φ = .emptyPacket ∧ ∃ rest, s.pending = [] :: rest) ∧
    (∀ ρ, step s = .refused ρ ↔ ∃ op body rest, s.pending = (op :: body) :: rest ∧ Assigned op ∧
      (∀ i, decode (op :: body) ≠ .ok i) ∧ ρ = .packetLength op)

/-- An unassigned operation code, and a non-observer command whose operands break a limit of its rule,
are refused with INVALID and value 0 before any other check (R104). R104 gives an unassigned code no
format: that its packet is refused whatever bytes follow the code is the model's choice
(notes/assumptions/8.md). -/
def Obligations.UnassignedAndIllFormedCommandsAreRefused : Prop :=
  (∀ (s : State) (op : Byte) (body : List Byte) (rest : List Packet), ¬Assigned op →
    s.pending = (op :: body) :: rest →
      step s = .next (State.rejected { s with pending := rest } .invalid [])) ∧
  ∀ (i : Instr) (s : State), BadOperands i → exec i s = .next (s.rejected .invalid [])

/-! ## What every command leaves alone -/

/-- R230, R100: NOP answers OK 0; an observer command changes no state at all: only the response is
new. -/
def Obligations.ObserversChangeNothing : Prop :=
  (decode [0x00] = .ok .nop ∧ ∀ s, exec .nop s = .next (s.observed .ok 0)) ∧
  ∀ (i : Instr) (s t : State), Observes i = true → exec i s = .next t → t = { s with resp := t.resp }

/-- R100, R107: a non-observer command ends with a response whose status is STATUS, without text, and
with value 0 when the status is not OK. -/
def Obligations.ResponseStatusIsTheStatusRegister : Prop :=
  ∀ (i : Instr) (s t : State), Observes i = false → exec i s = .next t →
    ∃ v, t.resp = some { status := t.status, value := v, text := none } ∧ (t.status ≠ .ok → v = 0)

/-- R260: a failure leaves all state other than STATUS, DIAG, DGN and DGOVF as it was, for every command
but RECDEC. -/
def Obligations.FailureLeavesTheState : Prop :=
  ∀ (i : Instr) (s t : State), i ≠ .recdec → Observes i = false → exec i s = .next t →
    t.status ≠ .ok →
      t = { s with status := t.status, diag := t.diag, dgovf := t.dgovf, resp := t.resp }

/-- R252: MALFORMED comes from the four accessor commands that read octets and from no other command,
with one entry: the bad digit's octet. -/
def Obligations.OnlyAccessorsFailMalformed : Prop :=
  ∀ (i : Instr) (s t : State), Observes i = false → exec i s = .next t → t.status = .malformed →
    MayMeetBadDigit i = true ∧ ∃ j, j < s.olen ∧ s.digitsOk j = false ∧
      t.diag = [⟨.malformedInput, .hexDigit, BitVec.ofNat 16 j⟩]

/-- R21, R22, R24, R31, R54: which commands may change the buffer, its length, the cursor, the record
and the unknown list; the packets still to come are never touched. -/
def Obligations.OnlyTheNamedCommandsWriteEachPart : Prop :=
  ∀ (i : Instr) (s t : State), exec i s = .next t →
    (WritesBuffer i = false → t.hex = s.hex) ∧ (WritesLength i = false → t.hlen = s.hlen) ∧
    (WritesCursor i = false → t.cur = s.cur) ∧ (WritesRecord i = false → t.record = s.record) ∧
    (WritesUnknown i = false → t.record.unk = s.record.unk) ∧ t.pending = s.pending

/-- R24, R217: an encoder reads no present flag, no unknown list and no R.BSS_IND: a record that
differs in these alone gives the same buffer, cursor, diagnostics and response. -/
def Obligations.EncodersReadNoPresentFlag : Prop :=
  ∀ (i : Instr) (s t : State) (g f u b : BitVec 1) (n : BitVec 8) (unk : List UnkEntry),
    Encodes i = true → exec i s = .next t →
      exec i { s with record := { s.record with
        geoP := g, flrP := f, usgP := u, bssP := b, bssInd := n, unk := unk } } =
      .next { t with record := { t.record with
        geoP := g, flrP := f, usgP := u, bssP := b, bssInd := n, unk := unk } }

/-- R32, R281: no result of a non-observer command depends on the STATUS, the diagnostics or the
response that an earlier command left. -/
def Obligations.NoCommandReadsEarlierDiagnostics : Prop :=
  ∀ (i : Instr) (s : State) (st : Status) (ds : List DiagEntry) (o : BitVec 1)
    (r : Option Response), Observes i = false →
      exec i { s with status := st, diag := ds, dgovf := o, resp := r } = exec i s

/-- R255: with these capacities the diagnostics list cannot overflow, and RECDEC, which posts most,
posts at most OLEN + 6 entries: an inference R255 marks as its own. -/
def Obligations.DiagnosticsNeverOverflow : Prop :=
  ∀ (i : Instr) (s t : State), s.hlen ≤ Config.hcap → s.record.bssN.toNat ≤ Config.bssCap →
    Observes i = false → exec i s = .next t →
      t.dgovf = 0 ∧ t.diag.length ≤ 518 ∧ (i = .recdec → t.diag.length ≤ s.olen + 6)

/-! ## System commands -/

/-- R232: RRD under every number of R29: the register's value, or INVALID where no register has the
number. -/
def Obligations.RrdReadsTheNumberedRegister : Prop :=
  ∀ (r : BitVec 8) (s : State), decode [0x08, r] = .ok (.rrd r) ∧
    (∀ v, (r, v) ∈ registerTable s → exec (.rrd r) s = .next (s.observed .ok v)) ∧
    (0x40 ≤ r.toNat → r.toNat ≤ 0x69 →
      exec (.rrd r) s =
        .next (s.observed .ok ((s.record.slot (r.toNat - 0x40)).addr.setWidth 64))) ∧
    (0x80 ≤ r.toNat → r.toNat ≤ 0xA9 →
      exec (.rrd r) s =
        .next (s.observed .ok ((s.record.slot (r.toNat - 0x80)).valid.setWidth 64))) ∧
    ((∀ e ∈ registerTable s, e.1 ≠ r) → ¬(0x40 ≤ r.toNat ∧ r.toNat ≤ 0x69) →
      ¬(0x80 ≤ r.toNat ∧ r.toNat ≤ 0xA9) → exec (.rrd r) s = .next (s.observed .invalid 0))

/-- R233: RWR writes the one register, cut to its width, and no other; a number with no register, a
read-only register and a slot count above 42 are refused. -/
def Obligations.RwrWritesTheNumberedRegister : Prop :=
  ∀ (r : BitVec 8) (v : BitVec 64) (s : State),
    decode (0x09 :: r :: bytes64 v) = .ok (.rwr r v) ∧
    (writableWidth r = none ∨ (r = 0x31 ∧ 42 < v.toNat) →
      exec (.rwr r v) s = .next (s.rejected .invalid [])) ∧
    ∀ w, writableWidth r = some w → (r = 0x31 → v.toNat ≤ 42) →
      ∃ q c, exec (.rwr r v) s = .next (State.answered { s with record := q, cur := c } [] 0) ∧
        q.unk = s.record.unk ∧
        ∀ t, exec (.rwr r v) s = .next t →
          exec (.rrd r) t = .next (t.observed .ok (BitVec.ofNat 64 (v.toNat % 2 ^ w))) ∧
          ∀ r', r' ≠ r → r' ∉ [0xF0, 0xF3, 0xF6] →
            ∃ st x, exec (.rrd r') s = .next (s.observed st x) ∧
              exec (.rrd r') t = .next (t.observed st x)

/-- R234: RCLR sets the record to the defaults of R35 and leaves buffer and cursor. -/
def Obligations.RclrClearsTheRecordOnly : Prop :=
  decode [0x0A] = .ok .rclr ∧
  ∀ s, exec .rclr s = .next (State.answered { s with record := State.reset.record } [] 0)

/-- R235: UNKRD answers an entry of the unknown list as FRNEXT's value has it, or BOUNDS. -/
def Obligations.UnkrdReadsAnEntry : Prop :=
  ∀ (a : BitVec 32) (s : State), decode (0x0B :: bytes32 a) = .ok (.unkrd a) ∧
    (s.record.unk.length ≤ a.toNat → exec (.unkrd a) s = .next (s.observed .bounds 0)) ∧
    ∀ e, s.record.unk[a.toNat]? = some e →
      exec (.unkrd a) s = .next (s.observed .ok (BitVec.ofNat 64
        (2 ^ 56 + e.id.toNat * 2 ^ 40 + e.len.toNat * 2 ^ 32 + e.pos.toNat)))

/-- R236: DGRD answers an entry of the diagnostics list, or BOUNDS, and consumes nothing. -/
def Obligations.DgrdReadsAnEntry : Prop :=
  ∀ (a : BitVec 32) (s : State), decode (0x0C :: bytes32 a) = .ok (.dgrd a) ∧
    (s.diag.length ≤ a.toNat → exec (.dgrd a) s = .next (s.observed .bounds 0)) ∧
    ∀ e, s.diag[a.toNat]? = some e →
      exec (.dgrd a) s = .next (s.observed .ok (BitVec.ofNat 64
        (e.kind.code.toNat * 2 ^ 24 + e.cause.code.toNat * 2 ^ 16 + e.arg.toNat)))

/-! ## Buffer commands -/

/-- R126: BUFZ. -/
def Obligations.BufzMakesZeroOctets : Prop :=
  ∀ (a : BitVec 32) (s : State), decode (0x02 :: bytes32 a) = .ok (.bufz a) ∧
    (1024 < 2 * a.toNat → exec (.bufz a) s = .next (s.rejected .bounds [])) ∧
    (2 * a.toNat ≤ 1024 → ∃ h, Stored h s 0 (List.replicate (2 * a.toNat) 0x30) ∧
      exec (.bufz a) s = .next (State.answered { s with hex := h, hlen := 2 * a.toNat } [] 0))

/-- R127: LDHEX stores the characters as given. -/
def Obligations.LdhexStoresTheText : Prop :=
  ∀ (r : BitVec 8) (text : List Byte) (s : State),
    (text.length < 65536 →
      decode (0x03 :: r :: (bytes16 (BitVec.ofNat 16 text.length) ++ text)) =
        .ok (.ldhex r text)) ∧
    (r ≠ 0 → exec (.ldhex r text) s = .next (s.rejected .invalid [])) ∧
    (r = 0 → 1024 < text.length → exec (.ldhex r text) s = .next (s.rejected .bounds [])) ∧
    (r = 0 → text.length ≤ 1024 → ∃ h, Stored h s 0 text ∧
      exec (.ldhex r text) s =
        .next (State.answered { s with hex := h, hlen := text.length } [] 0))

/-- R128: HXRD. -/
def Obligations.HxrdReadsACharacter : Prop :=
  ∀ (a : BitVec 32) (s : State), decode (0x04 :: bytes32 a) = .ok (.hxrd a) ∧
    (s.hlen ≤ a.toNat → exec (.hxrd a) s = .next (s.observed .bounds 0)) ∧
    (a.toNat < s.hlen →
      exec (.hxrd a) s = .next (s.observed .ok ((s.chr a.toNat).setWidth 64)))

/-- R129: HXWR writes any character code to one cell. -/
def Obligations.HxwrWritesOneCharacter : Prop :=
  ∀ (a : BitVec 32) (b : BitVec 8) (s : State),
    decode (0x05 :: (bytes32 a ++ [b])) = .ok (.hxwr a b) ∧
    (s.hlen ≤ a.toNat → exec (.hxwr a b) s = .next (s.rejected .bounds [])) ∧
    (a.toNat < s.hlen → ∃ h, Stored h s a.toNat [b] ∧
      exec (.hxwr a b) s = .next (State.answered { s with hex := h } [] 0))

/-! ## The bit stream accessor -/

/-- R120, R55: RDBITS answers `b` stream bits, the bit at the offset least significant; the bounds come
before any octet, the lowest bad octet is the one reported. -/
def Obligations.RdbitsReadsStreamBits : Prop :=
  ∀ (a : BitVec 32) (b : BitVec 8) (s : State),
    decode (0x10 :: (bytes32 a ++ [b])) = .ok (.rdbits a b) ∧
    (64 < b.toNat → exec (.rdbits a b) s = .next (s.rejected .invalid [])) ∧
    (b.toNat ≤ 64 → 8 * s.olen < a.toNat + b.toNat →
      exec (.rdbits a b) s = .next (s.rejected .bounds [])) ∧
    (b.toNat ≤ 64 → a.toNat + b.toNat ≤ 8 * s.olen →
      (∀ j, s.firstBad (a.toNat / 8) (touched a.toNat b.toNat) = some j →
        exec (.rdbits a b) s = .next
          (s.rejected .malformed [⟨.malformedInput, .hexDigit, BitVec.ofNat 16 j⟩])) ∧
      (s.firstBad (a.toNat / 8) (touched a.toNat b.toNat) = none →
        exec (.rdbits a b) s = .next (s.answered [] (BitVec.ofNat 64
          (bitField (s.octets (a.toNat / 8) (touched a.toNat b.toNat)) (a.toNat % 8) b.toNat)))))

/-- R121, R56: WRBITS replaces `b` stream bits with the low bits of `v`: every other bit is kept, the
touched octets come out in lowercase, and only a partly covered octet must hold digits. -/
def Obligations.WrbitsWritesStreamBits : Prop :=
  ∀ (a : BitVec 32) (b : BitVec 8) (v : BitVec 64) (s : State),
    decode (0x11 :: (bytes32 a ++ b :: bytes64 v)) = .ok (.wrbits a b v) ∧
    (64 < b.toNat → exec (.wrbits a b v) s = .next (s.rejected .invalid [])) ∧
    (b.toNat ≤ 64 → 8 * s.olen < a.toNat + b.toNat →
      exec (.wrbits a b v) s = .next (s.rejected .bounds [])) ∧
    (b.toNat ≤ 64 → a.toNat + b.toNat ≤ 8 * s.olen →
      (∀ j, s.firstBadPartly a.toNat b.toNat = some j →
        exec (.wrbits a b v) s = .next
          (s.rejected .malformed [⟨.malformedInput, .hexDigit, BitVec.ofNat 16 j⟩])) ∧
      (s.firstBadPartly a.toNat b.toNat = none → ∃ h os,
        os.length = touched a.toNat b.toNat ∧
        (∀ k < 8 * os.length, (littleEndian os).testBit k =
          if a.toNat % 8 ≤ k ∧ k < a.toNat % 8 + b.toNat then v.getLsbD (k - a.toNat % 8)
          else (littleEndian (s.octets (a.toNat / 8) os.length)).testBit k) ∧
        Stored h s (2 * (a.toNat / 8)) (hexText os) ∧
        exec (.wrbits a b v) s = .next (State.answered { s with hex := h } [] 0)))

/-- R122, R53: RDOCT. -/
def Obligations.RdoctReadsAnOctet : Prop :=
  ∀ (a : BitVec 32) (s : State), decode (0x12 :: bytes32 a) = .ok (.rdoct a) ∧
    (s.olen ≤ a.toNat → exec (.rdoct a) s = .next (s.rejected .bounds [])) ∧
    (a.toNat < s.olen → s.digitsOk a.toNat = false →
      exec (.rdoct a) s = .next
        (s.rejected .malformed [⟨.malformedInput, .hexDigit, a.setWidth 16⟩])) ∧
    (a.toNat < s.olen → s.digitsOk a.toNat = true →
      exec (.rdoct a) s = .next (s.answered [] ((s.octet a.toNat).setWidth 64)))

/-- R123, R54: WROCT stores two lowercase digits and reads nothing. -/
def Obligations.WroctWritesAnOctet : Prop :=
  ∀ (a : BitVec 32) (b : BitVec 8) (s : State),
    decode (0x13 :: (bytes32 a ++ [b])) = .ok (.wroct a b) ∧
    (s.olen ≤ a.toNat → exec (.wroct a b) s = .next (s.rejected .bounds [])) ∧
    (a.toNat < s.olen → ∃ h, Stored h s (2 * a.toNat) (hexText [b]) ∧
      exec (.wroct a b) s = .next (State.answered { s with hex := h } [] 0))

/-- R124, R57: RDMOI answers the big-endian number of `b` octets. -/
def Obligations.RdmoiReadsBigEndian : Prop :=
  ∀ (a : BitVec 32) (b : BitVec 8) (s : State),
    decode (0x14 :: (bytes32 a ++ [b])) = .ok (.rdmoi a b) ∧
    (8 < b.toNat → exec (.rdmoi a b) s = .next (s.rejected .invalid [])) ∧
    (b.toNat ≤ 8 → s.olen < a.toNat + b.toNat →
      exec (.rdmoi a b) s = .next (s.rejected .bounds [])) ∧
    (b.toNat ≤ 8 → a.toNat + b.toNat ≤ s.olen →
      (∀ j, s.firstBad a.toNat b.toNat = some j →
        exec (.rdmoi a b) s = .next
          (s.rejected .malformed [⟨.malformedInput, .hexDigit, BitVec.ofNat 16 j⟩])) ∧
      (s.firstBad a.toNat b.toNat = none →
        exec (.rdmoi a b) s = .next
          (s.answered [] (BitVec.ofNat 64 (bigEndianOf (s.octets a.toNat b.toNat))))))

/-- R125, R58: WRMOI stores the low `8 * b` bits of `v` big-endian and reads nothing. -/
def Obligations.WrmoiWritesBigEndian : Prop :=
  ∀ (a : BitVec 32) (b : BitVec 8) (v : BitVec 64) (s : State),
    decode (0x15 :: (bytes32 a ++ b :: bytes64 v)) = .ok (.wrmoi a b v) ∧
    (8 < b.toNat → exec (.wrmoi a b v) s = .next (s.rejected .invalid [])) ∧
    (b.toNat ≤ 8 → s.olen < a.toNat + b.toNat →
      exec (.wrmoi a b v) s = .next (s.rejected .bounds [])) ∧
    (b.toNat ≤ 8 → a.toNat + b.toNat ≤ s.olen →
      ∃ h, Stored h s (2 * a.toNat) (hexText (lowOctets v b.toNat)) ∧
        exec (.wrmoi a b v) s = .next (State.answered { s with hex := h } [] 0))

/-- The character, octet and bit spaces are one storage (R50): what WRBITS, WRMOI, WROCT or HXWR
wrote reads back, and every octet it wrote is seen alike through RDOCT, RDMOI, RDBITS and HXRD. -/
def Obligations.WritesReadBackThroughEveryView : Prop :=
  ∀ (a : BitVec 32) (b : BitVec 8) (v : BitVec 64) (s t : State), s.hlen ≤ Config.hcap →
    (exec (.wrbits a b v) s = .next t → t.status = .ok →
      exec (.rdbits a b) t = .next (t.answered [] (BitVec.ofNat 64 (v.toNat % 2 ^ b.toNat))) ∧
      ∀ j, a.toNat / 8 ≤ j → j < a.toNat / 8 + touched a.toNat b.toNat → ∃ o,
        ReadsEverywhere t j o ∧ ∀ i < 8, a.toNat ≤ 8 * j + i → 8 * j + i < a.toNat + b.toNat →
          o.getLsbD i = v.getLsbD (8 * j + i - a.toNat)) ∧
    (exec (.wrmoi a b v) s = .next t → t.status = .ok →
      exec (.rdmoi a b) t =
        .next (t.answered [] (BitVec.ofNat 64 (v.toNat % 2 ^ (8 * b.toNat)))) ∧
      ∀ (k : Nat) (o : Byte), (lowOctets v b.toNat)[k]? = some o →
        ReadsEverywhere t (a.toNat + k) o) ∧
    (exec (.wroct a b) s = .next t → t.status = .ok → ReadsEverywhere t a.toNat b) ∧
    (exec (.hxwr a b) s = .next t → t.status = .ok →
      exec (.hxrd a) t = .next (t.observed .ok (b.setWidth 64)) ∧
      ∀ d, hexval b = some d → a.toNat / 2 < t.olen → t.digitsOk (a.toNat / 2) = true → ∃ o,
        ReadsAsOctet t (a.toNat / 2) o ∧
        d.toNat = if a.toNat % 2 = 0 then o.toNat / 16 else o.toNat % 16)

/-! ## The quantizers -/

/-- R144, R142, R141: FXENC scales, rounds to the nearest integer with ties away from zero, clamps and
reports, and answers the two's-complement pattern. -/
def Obligations.FxencRoundsAndClamps : Prop :=
  ∀ (w f : BitVec 8) (v : BitVec 64) (s : State),
    decode (0x20 :: w :: f :: bytes64 v) = .ok (.fxenc w f v) ∧
    (w.toNat < 1 ∨ 64 < w.toNat ∨ 63 < f.toNat →
      exec (.fxenc w f v) s = .next (s.rejected .invalid [])) ∧
    (1 ≤ w.toNat → w.toNat ≤ 64 → f.toNat ≤ 63 → ∃ raw ds, FixCode v w.toNat f.toNat 0 raw ds ∧
      exec (.fxenc w f v) s = .next (s.answered ds (BitVec.ofNat 64 raw)))

/-- R145, R143: FXDEC answers the exact rational of the sign-extended low `w` bits over `2^f`. -/
def Obligations.FxdecSignExtendsExactly : Prop :=
  ∀ (w f : BitVec 8) (v : BitVec 64) (s : State),
    decode (0x21 :: w :: f :: bytes64 v) = .ok (.fxdec w f v) ∧
    (w.toNat < 1 ∨ 64 < w.toNat ∨ 32 < f.toNat ∨ f.toNat + 32 < w.toNat →
      exec (.fxdec w f v) s = .next (s.rejected .invalid [])) ∧
    (1 ≤ w.toNat → w.toNat ≤ 64 → f.toNat ≤ 32 → w.toNat ≤ f.toNat + 32 →
      ∃ p, value p = fixValue (v.toNat % 2 ^ w.toNat) w.toNat f.toNat ∧
        exec (.fxdec w f v) s = .next (s.answered [] p))

/-- R149, R147, R146: UNCENC answers `m - clog2(v)` kept within 1 to max, and 0 or max for a value that
is not positive. -/
def Obligations.UncencTakesTheLogarithm : Prop :=
  ∀ (m x c : BitVec 8) (v : BitVec 64) (s : State),
    decode (0x22 :: m :: x :: c :: bytes64 v) = .ok (.uncenc m x c v) ∧
    (x = 0 ∨ 2 ≤ c.toNat → exec (.uncenc m x c v) s = .next (s.rejected .invalid [])) ∧
    (x ≠ 0 → c.toNat < 2 → ∃ code ds,
      UncCode v m.toInt x.toNat (c.getLsbD 0) 0 code ds ∧
      exec (.uncenc m x c v) s = .next (s.answered ds (BitVec.ofNat 64 code)))

/-- R150, R148: UNCDEC answers 0 for code 0 and else `2^(m - code)`, a reserved code taken as max and
reported. -/
def Obligations.UncdecAnswersThePower : Prop :=
  ∀ (m x c : BitVec 8) (v : BitVec 64) (s : State),
    decode (0x23 :: m :: x :: c :: bytes64 v) = .ok (.uncdec m x c v) ∧
    (x = 0 ∨ c ≠ 0 ∨ 255 < v.toNat ∨ 31 < m.toInt ∨ m.toInt - x.toNat < -32 →
      exec (.uncdec m x c v) s = .next (s.rejected .invalid [])) ∧
    (x ≠ 0 → c = 0 → v.toNat ≤ 255 → m.toInt ≤ 31 → -32 ≤ m.toInt - x.toNat →
      ∃ p, value p = uncValue v.toNat m.toInt x.toNat ∧
        exec (.uncdec m x c v) s = .next (s.answered (uncNotes v.toNat x.toNat 0) p))

/-- R152: encoding a decoded code gives the code back, code 0 and reserved codes as the rule says; and
decoding an unclamped code of a positive value gives at least the value (this last clause is an
inference R152 marks as its own). -/
def Obligations.UncertaintyCodesRoundTrip : Prop :=
  ∀ (m x c : BitVec 8) (s : State), x ≠ 0 → c.toNat < 2 → m.toInt ≤ 31 →
    -32 ≤ m.toInt - x.toNat →
    (∀ v : BitVec 64, v.toNat ≤ 255 → ∃ p ds, exec (.uncdec m x 0 v) s = .next (s.answered ds p) ∧
      exec (.uncenc m x c p) s = .next (s.answered []
        (if v = 0 then (if c = 1 then x.setWidth 64 else 0)
         else if x.toNat < v.toNat then x.setWidth 64 else v))) ∧
    (∀ v code : BitVec 64, 0 < value v → exec (.uncenc m x c v) s = .next (s.answered [] code) →
      ∃ p, exec (.uncdec m x 0 code) s = .next (s.answered [] p) ∧ value v ≤ value p)

/-- R153(f): every field pattern round-trips through FXDEC and FXENC without a report, and a value
within range comes back to within half a unit of the last place. An inference R153 marks as its own. -/
def Obligations.FixedPointRoundTrips : Prop :=
  ∀ (w f : BitVec 8) (s : State), 1 ≤ w.toNat → w.toNat ≤ 64 → f.toNat ≤ 32 →
    w.toNat ≤ f.toNat + 32 →
    (∀ r : BitVec 64, r.toNat < 2 ^ w.toNat → ∃ p,
      exec (.fxdec w f r) s = .next (s.answered [] p) ∧
      exec (.fxenc w f p) s = .next (s.answered [] r)) ∧
    (∀ v raw : BitVec 64, exec (.fxenc w f v) s = .next (s.answered [] raw) →
      ∃ p, exec (.fxdec w f raw) s = .next (s.answered [] p) ∧
        |value p - value v| ≤ 1 / 2 ^ (f.toNat + 1))

/-! ## The framer -/

/-- R162, R161: FRNEXT: the two BOUNDS endings, END, HALT with its report, and a subelement with the
cursor moved past it. -/
def Obligations.FrnextTakesOneSubelement : Prop :=
  decode [0x30] = .ok .frnext ∧
  ∀ s : State, s.hlen ≤ Config.hcap →
    (s.olen < s.cur.toNat ∨ s.cur.toNat + 1 = s.olen →
      exec .frnext s = .next (s.rejected .bounds [])) ∧
    (s.cur.toNat = s.olen → exec .frnext s = .next (s.answered [] 0)) ∧
    (∀ e, haltEntry s s.cur.toNat = some e →
      exec .frnext s = .next (State.answered { s with cur := BitVec.ofNat 32 s.olen } [e] 0)) ∧
    (s.cur.toNat + 2 ≤ s.olen → haltEntry s s.cur.toNat = none →
      exec .frnext s = .next (State.answered
        { s with cur := s.cur + 2 + (s.octet (s.cur.toNat + 1)).setWidth 32 } []
        (BitVec.ofNat 64 (2 ^ 56 + (s.octet s.cur.toNat).toNat * 2 ^ 40
          + (s.octet (s.cur.toNat + 1)).toNat * 2 ^ 32 + (s.cur.toNat + 2)))))

/-- R160: the walk never moves the cursor backwards nor past the end, a subelement moves it by at least
two, and so a walk ends within the steps the rule counts: more change nothing. An inference R160
marks as its own. -/
def Obligations.WalkEndsWithinItsBound : Prop :=
  ∀ s : State, s.hlen ≤ Config.hcap →
    (∀ t r, s.cur.toNat ≤ s.olen → frNext s = (t, r) →
      t.olen = s.olen ∧ s.cur.toNat ≤ t.cur.toNat ∧ t.cur.toNat ≤ s.olen ∧
      ∀ id len p, r = .sub id len p → s.cur.toNat + 2 ≤ t.cur.toNat) ∧
    ∀ n, (s.olen - s.cur.toNat) / 2 + 1 ≤ n →
      walk n s = walk ((s.olen - s.cur.toNat) / 2 + 1) s

/-- R164: FRPUT writes two octets at the cursor and moves it past them. -/
def Obligations.FrputWritesIdAndLength : Prop :=
  ∀ (b1 b2 : BitVec 8) (s : State), s.hlen ≤ Config.hcap →
    decode [0x31, b1, b2] = .ok (.frput b1 b2) ∧
    (s.olen < s.cur.toNat + 2 → exec (.frput b1 b2) s = .next (s.rejected .bounds [])) ∧
    (s.cur.toNat + 2 ≤ s.olen → ∃ h, Stored h s (2 * s.cur.toNat) (hexText [b1, b2]) ∧
      exec (.frput b1 b2) s = .next (State.answered { s with hex := h, cur := s.cur + 2 } []
        (BitVec.ofNat 64 (s.cur.toNat + 2))))

/-! ## The codecs -/

/-- R171, R170: LOCDEC on every payload length. -/
def Obligations.LocdecDecodesTheLocation : Prop :=
  ∀ (a : BitVec 32) (b : BitVec 8) (s : State),
    decode (0x40 :: (bytes32 a ++ [b])) = .ok (.locdec a b) ∧
    (s.olen < a.toNat + b.toNat → exec (.locdec a b) s = .next (s.rejected .bounds [])) ∧
    (a.toNat + b.toNat ≤ s.olen →
      (b.toNat = 0 → exec (.locdec a b) s = .next (State.answered
        { s with record := { s.record with
            lat := 0, lon := 0, alt := 0, latU := 0, lonU := 0, altU := 0, altType := 0
            datum := 0, regLoc := 0, dse := 0, depSta := 0, ver := 1, geoP := 0 } }
        (duplicateNotes s.record.geoP 0) 0)) ∧
      (b.toNat ≠ 0 → b.toNat ≠ 16 → exec (.locdec a b) s = .next
        (s.answered [⟨.malformedInput, .locLength, b.setWidth 16⟩]
          (s.record.geoP.setWidth 64))) ∧
      (b.toNat = 16 →
        (∀ j, s.firstBad a.toNat 16 = some j → exec (.locdec a b) s = .next
          (s.answered [⟨.malformedInput, .hexDigit, BitVec.ofNat 16 j⟩]
            (s.record.geoP.setWidth 64))) ∧
        (s.firstBad a.toNat 16 = none → ∃ r, LocDecoded s.record r (s.octets a.toNat 16) ∧
          exec (.locdec a b) s = .next (State.answered { s with record := r }
            (locDecNotes s.record (s.octets a.toNat 16)) 1))))

/-- R173, R172: LOCENC writes the 16 octets of the location payload. -/
def Obligations.LocencEncodesTheLocation : Prop :=
  ∀ (a : BitVec 32) (b : BitVec 8) (s : State),
    decode (0x41 :: (bytes32 a ++ [b])) = .ok (.locenc a b) ∧
    (4 ≤ b.toNat → exec (.locenc a b) s = .next (s.rejected .invalid [])) ∧
    (b.toNat < 4 → s.olen < a.toNat + 16 →
      exec (.locenc a b) s = .next (s.rejected .bounds [])) ∧
    (b.toNat < 4 → a.toNat + 16 ≤ s.olen → ∃ h os ds,
      LocPayload s.record (b.getLsbD 0) os ds ∧ Stored h s (2 * a.toNat) (hexText os) ∧
      exec (.locenc a b) s = .next (State.answered { s with hex := h } ds 16))

/-- R181, R180: FLRDEC on every payload length. -/
def Obligations.FlrdecDecodesTheFloor : Prop :=
  ∀ (a : BitVec 32) (b : BitVec 8) (s : State),
    decode (0x42 :: (bytes32 a ++ [b])) = .ok (.flrdec a b) ∧
    (s.olen < a.toNat + b.toNat → exec (.flrdec a b) s = .next (s.rejected .bounds [])) ∧
    (a.toNat + b.toNat ≤ s.olen →
      (b.toNat ≠ 6 → b.toNat ≠ 5 → exec (.flrdec a b) s = .next
        (s.answered [⟨.malformedInput, .flrLength, b.setWidth 16⟩]
          (s.record.flrP.setWidth 64))) ∧
      (b.toNat = 6 ∨ b.toNat = 5 →
        (∀ j, s.firstBad a.toNat b.toNat = some j → exec (.flrdec a b) s = .next
          (s.answered [⟨.malformedInput, .hexDigit, BitVec.ofNat 16 j⟩]
            (s.record.flrP.setWidth 64))) ∧
        (s.firstBad a.toNat b.toNat = none → ∃ r,
          FlrDecoded s.record r (s.octets a.toNat b.toNat) ∧
          exec (.flrdec a b) s = .next (State.answered { s with record := r }
            (duplicateNotes s.record.flrP 4
              ++ uncNotes (flrCode (s.octets a.toNat b.toNat)) 24 5) 1))))

/-- R183, R182: FLRENC writes the 6 octets of the floor payload. -/
def Obligations.FlrencEncodesTheFloor : Prop :=
  ∀ (a : BitVec 32) (b : BitVec 8) (s : State),
    decode (0x43 :: (bytes32 a ++ [b])) = .ok (.flrenc a b) ∧
    (4 ≤ b.toNat → exec (.flrenc a b) s = .next (s.rejected .invalid [])) ∧
    (b.toNat < 4 → s.olen < a.toNat + 6 →
      exec (.flrenc a b) s = .next (s.rejected .bounds [])) ∧
    (b.toNat < 4 → a.toNat + 6 ≤ s.olen → ∃ h os ds,
      FlrPayload s.record (b.getLsbD 0) os ds ∧ Stored h s (2 * a.toNat) (hexText os) ∧
      exec (.flrenc a b) s = .next (State.answered { s with hex := h } ds 6))

/-- R191, R190: USGDEC on every payload length. -/
def Obligations.UsgdecDecodesTheUsage : Prop :=
  ∀ (a : BitVec 32) (b : BitVec 8) (s : State),
    decode (0x44 :: (bytes32 a ++ [b])) = .ok (.usgdec a b) ∧
    (s.olen < a.toNat + b.toNat → exec (.usgdec a b) s = .next (s.rejected .bounds [])) ∧
    (a.toNat + b.toNat ≤ s.olen →
      (b.toNat ≠ 1 → b.toNat ≠ 3 → exec (.usgdec a b) s = .next
        (s.answered [⟨.malformedInput, .usgLength, b.setWidth 16⟩]
          (s.record.usgP.setWidth 64))) ∧
      (b.toNat = 1 ∨ b.toNat = 3 →
        (∀ j, s.firstBad a.toNat b.toNat = some j → exec (.usgdec a b) s = .next
          (s.answered [⟨.malformedInput, .hexDigit, BitVec.ofNat 16 j⟩]
            (s.record.usgP.setWidth 64))) ∧
        (s.firstBad a.toNat b.toNat = none → exec (.usgdec a b) s = .next (State.answered
          { s with record := usgDecoded s.record (s.octets a.toNat b.toNat) }
          (usgDecNotes s.record (s.octets a.toNat b.toNat)) 1))))

/-- R194, R193, R192: USGENC writes the corrected usage payload and reports the correction; the record
is as it was. -/
def Obligations.UsgencEncodesTheCorrectedUsage : Prop :=
  ∀ (a : BitVec 32) (s : State), decode (0x45 :: bytes32 a) = .ok (.usgenc a) ∧
    (s.olen < a.toNat + (if s.record.expire = 0 then 1 else 3) →
      exec (.usgenc a) s = .next (s.rejected .bounds [])) ∧
    (a.toNat + (if s.record.expire = 0 then 1 else 3) ≤ s.olen → ∃ h os ds,
      UsgPayload s.record os ds ∧ Stored h s (2 * a.toNat) (hexText os) ∧
      exec (.usgenc a) s = .next
        (State.answered { s with hex := h } ds (BitVec.ofNat 64 os.length)))

/-- R201, R200: BSSDEC on every payload length: the count comes from the length, a bad address leaves
an invalid slot, the slots above the count are as they were. -/
def Obligations.BssdecDecodesTheAddresses : Prop :=
  ∀ (a : BitVec 32) (b : BitVec 8) (s : State),
    decode (0x46 :: (bytes32 a ++ [b])) = .ok (.bssdec a b) ∧
    (s.olen < a.toNat + b.toNat → exec (.bssdec a b) s = .next (s.rejected .bounds [])) ∧
    (a.toNat + b.toNat ≤ s.olen →
      (b.toNat = 0 → exec (.bssdec a b) s = .next
        (s.answered [⟨.malformedInput, .bssLength, 0⟩] (s.record.bssN.setWidth 64))) ∧
      (b.toNat ≠ 0 → ∃ r,
        (r = { s.record with
            bss := r.bss, bssN := BitVec.ofNat 6 ((b.toNat - 1) / 6)
            bssInd := if s.digitsOk a.toNat then s.octet a.toNat else 0, bssP := 1 }) ∧
        (∀ i, r.slot i = if i < (b.toNat - 1) / 6 then bssSlotAt s a.toNat i
          else s.record.slot i) ∧
        exec (.bssdec a b) s = .next (State.answered { s with record := r }
          (bssDecNotes s s.record a.toNat b.toNat) (BitVec.ofNat 64 ((b.toNat - 1) / 6)))))

/-- R203, R202: BSSENC writes the indicator and every slot in use, an invalid one as zeros with a
report. -/
def Obligations.BssencEncodesTheAddresses : Prop :=
  ∀ (a : BitVec 32) (b : BitVec 8) (s : State),
    decode (0x47 :: (bytes32 a ++ [b])) = .ok (.bssenc a b) ∧
    (4 ≤ b.toNat → exec (.bssenc a b) s = .next (s.rejected .invalid [])) ∧
    (b.toNat < 4 → s.olen < a.toNat + (1 + 6 * s.record.bssN.toNat) →
      exec (.bssenc a b) s = .next (s.rejected .bounds [])) ∧
    (b.toNat < 4 → a.toNat + (1 + 6 * s.record.bssN.toNat) ≤ s.olen → ∃ h os ds,
      BssPayload s.record (b.getLsbD 1) os ds ∧ Stored h s (2 * a.toNat) (hexText os) ∧
      exec (.bssenc a b) s = .next (State.answered { s with hex := h } ds
        (BitVec.ofNat 64 (1 + 6 * s.record.bssN.toNat))))

/-- R205, R204: MACPARSE: a text in either surface form makes the slot valid, every other text makes it
invalid with a report; no other slot and no count changes. -/
def Obligations.MacparseFillsOneSlot : Prop :=
  ∀ (r : BitVec 8) (text : List Byte) (s : State),
    (text.length < 65536 →
      decode (0x48 :: r :: (bytes16 (BitVec.ofNat 16 text.length) ++ text)) =
        .ok (.macparse r text)) ∧
    (42 ≤ r.toNat → exec (.macparse r text) s = .next (s.rejected .invalid [])) ∧
    (r.toNat < 42 →
      (∀ a, IsAddressText text a → exec (.macparse r text) s = .next (State.answered
        { s with record := { s.record with
            bss := s.record.bss.setIfInBounds r.toNat { addr := a, valid := 1 } } } [] 1)) ∧
      ((¬∃ a, IsAddressText text a) → exec (.macparse r text) s = .next (State.answered
        { s with record := { s.record with
            bss := s.record.bss.setIfInBounds r.toNat { addr := 0, valid := 0 } } }
        [⟨.malformedInput, .macText, r.setWidth 16⟩] 0)))

/-- MACFMT answers the slot's valid bit and the canonical text of the address the slot holds, as the
pseudocode of R207 formats it. That a slot with VALID 0 and a nonzero address, which only RWR can
make, shows that address and not zeros is the model's choice (notes/assumptions/11.md); so is that a
slot number of 42 or more changes no state, an observer's refusal (notes/assumptions/13.md). -/
def Obligations.MacfmtAnswersTheCanonicalText : Prop :=
  ∀ (r : BitVec 8) (s : State), decode [0x49, r] = .ok (.macfmt r) ∧
    (42 ≤ r.toNat → exec (.macfmt r) s = .next { s with resp := some ⟨.invalid, 0, some []⟩ }) ∧
    (r.toNat < 42 → ∃ x, x = s.record.slot r.toNat ∧ exec (.macfmt r) s = .next
      { s with
        resp := some ⟨.ok, x.valid.setWidth 64, some (canonicalText x.addr)⟩ })

/-- The inference that R206 draws for itself: the canonical text of an address is a text form of that
address, and MACPARSE reads it back into any slot. -/
def Obligations.CanonicalTextParsesBack : Prop :=
  ∀ (a : BitVec 48) (r : BitVec 8) (s : State), r.toNat < 42 →
    IsAddressText (canonicalText a) a ∧
    exec (.macparse r (canonicalText a)) s = .next (State.answered
      { s with record := { s.record with
          bss := s.record.bss.setIfInBounds r.toNat { addr := a, valid := 1 } } } [] 1)

/-! ## The record -/

/-- R215, R216: where the subelements fill the buffer exactly, RECDEC clears the record, checks the
header, decodes every subelement in order as its own command would, and ends with the advisory
check. -/
def Obligations.RecdecDecodesEverySubelement : Prop :=
  decode [0x50] = .ok .recdec ∧
  ∀ (s : State) (xs : List Sub), s.hlen ≤ Config.hcap → 3 ≤ s.olen → Framed s 3 xs s.olen →
    exec .recdec s = .next (State.answered
      { s with record := (decodeSubs s xs).1, cur := BitVec.ofNat 32 s.olen }
      (headerNotes s ++ (decodeSubs s xs).2 ++ decodeAdvisories (decodeSubs s xs).1)
      (presentFlags (decodeSubs s xs).1))

/-- R215: the other endings of RECDEC: a buffer shorter than the header, a dangling octet after the last
subelement, and a framing that cannot be trusted; with the first statement they are all there are. -/
def Obligations.RecdecKeepsWhatItDecodedWhenItEndsEarly : Prop :=
  ∀ s : State, s.hlen ≤ Config.hcap →
    (s.olen < 3 → exec .recdec s = .next (State.rejected
      { s with record := Record.cleared, cur := 0 } .bounds (oddNote s))) ∧
    (∀ xs e, Framed s 3 xs e → e + 1 = s.olen → exec .recdec s = .next (State.rejected
      { s with record := (decodeSubs s xs).1, cur := BitVec.ofNat 32 e } .bounds
      (headerNotes s ++ (decodeSubs s xs).2))) ∧
    (∀ xs e n, Framed s 3 xs e → haltEntry s e = some n → exec .recdec s = .next (State.answered
      { s with record := (decodeSubs s xs).1, cur := BitVec.ofNat 32 s.olen }
      (headerNotes s ++ (decodeSubs s xs).2 ++ [n] ++ decodeAdvisories (decodeSubs s xs).1)
      (presentFlags (decodeSubs s xs).1))) ∧
    (3 ≤ s.olen → ∃ xs e, Framed s 3 xs e ∧
      (e = s.olen ∨ e + 1 = s.olen ∨ (haltEntry s e).isSome = true))

/-- R217, R218: RECENC sizes the buffer exactly and writes the header and the selected subelements in
ascending ID order; the diagnostics come in the same order, the advisory ones last. -/
def Obligations.RecencWritesTheSelectedSubelements : Prop :=
  ∀ (b1 b2 : BitVec 8) (s : State),
    decode [0x51, b1, b2] = .ok (.recenc b1 b2) ∧
    (32 ≤ b1.toNat ∨ 4 ≤ b2.toNat → exec (.recenc b1 b2) s = .next (s.rejected .invalid [])) ∧
    (b1.toNat < 32 → b2.toNat < 4 → ∃ h osL dsL osF dsF osU dsU osB dsB l nl f nf u nu b nb,
      LocPayload s.record (b2.getLsbD 0) osL dsL ∧ FlrPayload s.record (b2.getLsbD 0) osF dsF ∧
      UsgPayload s.record osU dsU ∧ BssPayload s.record (b2.getLsbD 1) osB dsB ∧
      EmittedAs (Emits s.record b1) 0 osL dsL l nl ∧
      EmittedAs (b1.getLsbD 1 = true) 4 osF dsF f nf ∧
      EmittedAs (b1.getLsbD 2 = true) 6 osU dsU u nu ∧
      EmittedAs (b1.getLsbD 3 = true) 7 osB dsB b nb ∧
      Stored h s 0 (hexText ([0x01, 0x00, 0x08] ++ l ++ f ++ u ++ b)) ∧
      exec (.recenc b1 b2) s = .next (State.answered
        { s with
          hex := h, hlen := 2 * (3 + l.length + f.length + u.length + b.length)
          cur := BitVec.ofNat 32 (3 + l.length + f.length + u.length + b.length) }
        (nl ++ nf ++ nu ++ nb
          ++ advisories s.record (b1.getLsbD 2) (b1.getLsbD 1) (s.record.expire ≠ 0))
        (BitVec.ofNat 64 (3 + l.length + f.length + u.length + b.length))))

/-- The two round trips of R221, inferences the rule marks as its own. (c) A record whose selected
values lie on their grids comes back exactly from RECENC and then RECDEC. (a) A canonical wire record
comes back character for character from LDHEX, RECDEC and RECENC with the answered mask and
FORCE_LOC, and nothing but VERSION and advisory entries is posted on the way. -/
def Obligations.RecordSurvivesEncodeAndDecode : Prop :=
  (∀ (b1 b2 : BitVec 8) (s : State), b1.toNat < 32 → b2.toNat < 4 →
    Preserved s.record b1 (b2.getLsbD 0) → ∃ t u,
      exec (.recenc b1 b2) s = .next t ∧ t.status = .ok ∧ exec .recdec t = .next u ∧
      u.status = .ok ∧ u.record = selected s.record b1 (b2.getLsbD 1)) ∧
  ∀ (ind : Bool) (xs : List (Byte × List Byte)) (s : State), CanonicalWire ind xs → ∃ t u w m,
    exec (.ldhex 0 (hexText (wireOctets xs))) s = .next t ∧ t.status = .ok ∧
    exec .recdec t = .next u ∧ u.resp = some { status := .ok, value := m, text := none } ∧
    exec (.recenc (m.setWidth 8 + 0x10) (if ind then 2 else 0)) u = .next w ∧ w.status = .ok ∧
    w.hlen = (hexText (wireOctets xs)).length ∧ Stored w.hex u 0 (hexText (wireOctets xs)) ∧
    OnlyVersionOrAdvisory (u.diag ++ w.diag)

/-- R220, R219: POLCHK posts the advisory entries of the selected sub-records and answers their
number. -/
def Obligations.PolchkReportsIncompatibilities : Prop :=
  ∀ (r : BitVec 8) (s : State), decode [0x52, r] = .ok (.polchk r) ∧
    (32 ≤ r.toNat → exec (.polchk r) s = .next (s.rejected .invalid [])) ∧
    (r.toNat < 32 → exec (.polchk r) s = .next (s.answered
      (advisories s.record (r.getLsbD 2) (r.getLsbD 1) (s.record.retExp = 1))
      (BitVec.ofNat 64
        (advisories s.record (r.getLsbD 2) (r.getLsbD 1) (s.record.retExp = 1)).length)))
end

