-- ==== Sys2Proof/Laws/State.lean ====
section
/-! SUPPORT. The small lemmas of the state updates: what each shared update does to each field, so that
no later proof unfolds one. -/

namespace Sys2Proof.Machine

section
variable (s : State) (c : Cause) (n : Nat) (e : DiagEntry) (es : List DiagEntry)

/-! ### start -/
@[simp] theorem State.start_hex : s.start.hex = s.hex := rfl
@[simp] theorem State.start_hlen : s.start.hlen = s.hlen := rfl
@[simp] theorem State.start_cur : s.start.cur = s.cur := rfl
@[simp] theorem State.start_status : s.start.status = .ok := rfl
@[simp] theorem State.start_record : s.start.record = s.record := rfl
@[simp] theorem State.start_diag : s.start.diag = [] := rfl
@[simp] theorem State.start_dgovf : s.start.dgovf = 0 := rfl
@[simp] theorem State.start_pending : s.start.pending = s.pending := rfl
@[simp] theorem State.start_resp : s.start.resp = s.resp := rfl
@[simp] theorem State.start_olen : s.start.olen = s.olen := rfl
@[simp] theorem State.start_chr : s.start.chr n = s.chr n := rfl
@[simp] theorem State.start_start : s.start.start = s.start := rfl

/-! ### respond -/
section
variable (st : Status) (v : Word64)
@[simp] theorem State.respond_hex : (s.respond st v).hex = s.hex := rfl
@[simp] theorem State.respond_hlen : (s.respond st v).hlen = s.hlen := rfl
@[simp] theorem State.respond_cur : (s.respond st v).cur = s.cur := rfl
@[simp] theorem State.respond_status : (s.respond st v).status = s.status := rfl
@[simp] theorem State.respond_record : (s.respond st v).record = s.record := rfl
@[simp] theorem State.respond_diag : (s.respond st v).diag = s.diag := rfl
@[simp] theorem State.respond_dgovf : (s.respond st v).dgovf = s.dgovf := rfl
@[simp] theorem State.respond_pending : (s.respond st v).pending = s.pending := rfl
@[simp] theorem State.respond_resp :
    (s.respond st v).resp = some { status := st, value := v, text := none } := rfl
@[simp] theorem State.respond_olen : (s.respond st v).olen = s.olen := rfl
@[simp] theorem State.respond_chr : (s.respond st v).chr n = s.chr n := rfl
end

/-! ### posting -/

/-- Posting an entry touches the diagnostics list and its overflow flag, nothing else. -/
theorem State.postEntry_eq :
    s.postEntry e = { s with diag := (s.postEntry e).diag, dgovf := (s.postEntry e).dgovf } := by
  unfold State.postEntry; split <;> rfl

/-- Posting entries touches the diagnostics list and its overflow flag, nothing else. -/
theorem State.postAll_eq :
    s.postAll es = { s with diag := (s.postAll es).diag, dgovf := (s.postAll es).dgovf } := by
  unfold State.postAll
  induction es generalizing s with
  | nil => rfl
  | cons e es ih =>
    simp only [List.foldl_cons]
    rw [ih (s.postEntry e), State.postEntry_eq s e]

@[simp] theorem State.postAll_nil : s.postAll [] = s := rfl
@[simp] theorem State.postAll_cons : s.postAll (e :: es) = (s.postEntry e).postAll es := rfl
theorem State.postAll_append (fs : List DiagEntry) :
    s.postAll (es ++ fs) = (s.postAll es).postAll fs := by simp [State.postAll]
theorem State.post_eq_postAll : s.post c n = s.postAll [note c n] := rfl

@[simp] theorem State.postAll_hex : (s.postAll es).hex = s.hex := by rw [State.postAll_eq]
@[simp] theorem State.postAll_hlen : (s.postAll es).hlen = s.hlen := by rw [State.postAll_eq]
@[simp] theorem State.postAll_cur : (s.postAll es).cur = s.cur := by rw [State.postAll_eq]
@[simp] theorem State.postAll_status : (s.postAll es).status = s.status := by rw [State.postAll_eq]
@[simp] theorem State.postAll_record : (s.postAll es).record = s.record := by rw [State.postAll_eq]
@[simp] theorem State.postAll_pending : (s.postAll es).pending = s.pending := by
  rw [State.postAll_eq]
@[simp] theorem State.postAll_resp : (s.postAll es).resp = s.resp := by rw [State.postAll_eq]
@[simp] theorem State.postAll_olen : (s.postAll es).olen = s.olen := by simp [State.olen]
@[simp] theorem State.postAll_chr : (s.postAll es).chr n = s.chr n := by simp [State.chr]

@[simp] theorem State.post_hex : (s.post c n).hex = s.hex := State.postAll_hex s [note c n]
@[simp] theorem State.post_hlen : (s.post c n).hlen = s.hlen := State.postAll_hlen s [note c n]
@[simp] theorem State.post_cur : (s.post c n).cur = s.cur := State.postAll_cur s [note c n]
@[simp] theorem State.post_status : (s.post c n).status = s.status :=
  State.postAll_status s [note c n]
@[simp] theorem State.post_record : (s.post c n).record = s.record :=
  State.postAll_record s [note c n]
@[simp] theorem State.post_pending : (s.post c n).pending = s.pending :=
  State.postAll_pending s [note c n]
@[simp] theorem State.post_resp : (s.post c n).resp = s.resp := State.postAll_resp s [note c n]
@[simp] theorem State.post_olen : (s.post c n).olen = s.olen := State.postAll_olen s [note c n]

/-- Posting and writing the record commute. -/
theorem State.postAll_with_record (r : Record) :
    State.postAll { s with record := r } es = { s.postAll es with record := r } := by
  induction es generalizing s with
  | nil => rfl
  | cons e es ih =>
    have h : State.postEntry { s with record := r } e = { s.postEntry e with record := r } := by
      unfold State.postEntry; split <;> rfl
    rw [State.postAll_cons, h, ih]
    rfl

/-- Posting leaves the record as it is. -/
theorem State.postAll_with_own_record :
    { s.postAll es with record := s.record } = s.postAll es := by rw [State.postAll_eq]

/-- While the list has room for them, posting entries appends them and leaves the overflow flag. -/
theorem State.postAll_room (h : s.diag.length + es.length ≤ Config.diagCap) :
    s.postAll es = { s with diag := s.diag ++ es } := by
  induction es generalizing s with
  | nil => simp
  | cons e es ih =>
    simp only [List.length_cons] at h
    have hlt : s.diag.length < Config.diagCap := by omega
    rw [State.postAll_cons, State.postEntry, if_pos hlt, ih _ (by simp; simp at h; omega)]
    simp

/-- Posting entries never makes the list longer than its capacity. -/
theorem State.postAll_cap (h : s.diag.length ≤ Config.diagCap) :
    (s.postAll es).diag.length ≤ Config.diagCap := by
  induction es generalizing s with
  | nil => exact h
  | cons e es ih =>
    refine ih (s.postEntry e) ?_
    unfold State.postEntry
    split
    · simp; simp at *; omega
    · exact h

/-- Posting one entry makes the list at most one longer. -/
theorem State.postAll_length :
    (s.postAll es).diag.length ≤ s.diag.length + es.length := by
  induction es generalizing s with
  | nil => simp
  | cons e es ih =>
    refine (ih (s.postEntry e)).trans ?_
    unfold State.postEntry
    split
    · simp; omega
    · simp

/-- Every entry on the list after posting was on it before or is one of those posted. -/
theorem State.mem_postAll {x : DiagEntry} (h : x ∈ (s.postAll es).diag) : x ∈ s.diag ∨ x ∈ es := by
  induction es generalizing s with
  | nil => exact .inl h
  | cons e es ih =>
    rcases ih (s.postEntry e) h with h | h
    · unfold State.postEntry at h
      split at h
      · simp only [List.mem_append, List.mem_singleton] at h
        rcases h with h | rfl
        · exact .inl h
        · exact .inr (by simp)
      · exact .inl h
    · exact .inr (List.mem_cons_of_mem _ h)

/-! ### the overflow flag is set only when the list is full -/
theorem State.postAll_dgovf (h : s.dgovf = 1 → s.diag.length = Config.diagCap)
    (hcap : s.diag.length ≤ Config.diagCap) :
    (s.postAll es).dgovf = 1 → (s.postAll es).diag.length = Config.diagCap := by
  induction es generalizing s with
  | nil => exact h
  | cons e es ih =>
    refine ih (s.postEntry e) ?_ ?_ <;> unfold State.postEntry <;> split
    · intro h1; have := h h1; simp at *; omega
    · intro _; simp at *; omega
    · simp at *; omega
    · exact hcap

/-! ### clearing the record -/
@[simp] theorem clearRecord_hex : (clearRecord s).hex = s.hex := rfl
@[simp] theorem clearRecord_hlen : (clearRecord s).hlen = s.hlen := rfl
@[simp] theorem clearRecord_cur : (clearRecord s).cur = s.cur := rfl
@[simp] theorem clearRecord_status : (clearRecord s).status = s.status := rfl
@[simp] theorem clearRecord_record : (clearRecord s).record = Record.cleared := rfl
@[simp] theorem clearRecord_diag : (clearRecord s).diag = s.diag := rfl
@[simp] theorem clearRecord_dgovf : (clearRecord s).dgovf = s.dgovf := rfl
@[simp] theorem clearRecord_pending : (clearRecord s).pending = s.pending := rfl
@[simp] theorem clearRecord_resp : (clearRecord s).resp = s.resp := rfl
@[simp] theorem clearRecord_olen : (clearRecord s).olen = s.olen := rfl

/-! ### storing octets -/
section
variable (i : Nat) (v : Byte) (vs : List Byte)
@[simp] theorem putOctet_hlen : (putOctet s i v).hlen = s.hlen := rfl
@[simp] theorem putOctet_olen : (putOctet s i v).olen = s.olen := rfl

/-- Storing octets touches the buffer's cells, nothing else. -/
theorem putOctets_eq : putOctets s i vs = { s with hex := (putOctets s i vs).hex } := by
  induction vs generalizing s i with
  | nil => rfl
  | cons v vs ih => rw [putOctets, ih]; rfl

@[simp] theorem putOctets_hlen : (putOctets s i vs).hlen = s.hlen := by rw [putOctets_eq]
@[simp] theorem putOctets_cur : (putOctets s i vs).cur = s.cur := by rw [putOctets_eq]
@[simp] theorem putOctets_status : (putOctets s i vs).status = s.status := by rw [putOctets_eq]
@[simp] theorem putOctets_record : (putOctets s i vs).record = s.record := by rw [putOctets_eq]
@[simp] theorem putOctets_diag : (putOctets s i vs).diag = s.diag := by rw [putOctets_eq]
@[simp] theorem putOctets_dgovf : (putOctets s i vs).dgovf = s.dgovf := by rw [putOctets_eq]
@[simp] theorem putOctets_pending : (putOctets s i vs).pending = s.pending := by rw [putOctets_eq]
@[simp] theorem putOctets_resp : (putOctets s i vs).resp = s.resp := by rw [putOctets_eq]
@[simp] theorem putOctets_olen : (putOctets s i vs).olen = s.olen := by simp [State.olen]
end

/-! ### sizing the buffer -/
@[simp] theorem zeroBuffer_hlen : (zeroBuffer s n).hlen = 2 * n := rfl
@[simp] theorem zeroBuffer_olen : (zeroBuffer s n).olen = n := by simp [State.olen]
@[simp] theorem zeroBuffer_cur : (zeroBuffer s n).cur = s.cur := rfl
@[simp] theorem zeroBuffer_status : (zeroBuffer s n).status = s.status := rfl
@[simp] theorem zeroBuffer_record : (zeroBuffer s n).record = s.record := rfl
@[simp] theorem zeroBuffer_diag : (zeroBuffer s n).diag = s.diag := rfl
@[simp] theorem zeroBuffer_dgovf : (zeroBuffer s n).dgovf = s.dgovf := rfl
@[simp] theorem zeroBuffer_pending : (zeroBuffer s n).pending = s.pending := rfl
@[simp] theorem zeroBuffer_resp : (zeroBuffer s n).resp = s.resp := rfl
end

/-! ### slots -/

/-- A slot reads what was last written to it; every other slot is unchanged. -/
theorem Record.slot_setSlot (r : Record) (i j : Nat) (x : Slot) :
    (r.setSlot i x).slot j = if i = j ∧ i < Config.bssCap then x else r.slot j := by
  unfold Record.slot Record.setSlot
  rw [Vector.getElem?_setIfInBounds]
  by_cases hij : i = j
  · subst hij
    by_cases hi : i < Config.bssCap
    · simp at hi; simp [hi]
    · simp at hi
      have hlt : ¬ i < 42 := by omega
      simp [hlt]
  · simp [hij]

/-- Writing a slot touches the slots only. -/
theorem Record.setSlot_eq (r : Record) (i : Nat) (x : Slot) :
    r.setSlot i x = { r with bss := (r.setSlot i x).bss } := rfl

end Sys2Proof.Machine
end

