-- ==== Sys2Proof/Laws/Memory.lean ====
section
/-! SUPPORT. The laws of the hex buffer's cells: read after write, the canonical form, and where the
listed cells lie. The first two hold of every list, canonical or not. -/

namespace Sys2Proof.Machine

theorem Memory.read_filter (m : Memory) (c d : Nat) :
    Memory.read (m.filter (fun cell => cell.1 ≠ c)) d = if d = c then blank else Memory.read m d := by
  induction m with
  | nil => simp [Memory.read]
  | cons p m ih =>
    obtain ⟨a, b⟩ := p
    by_cases hac : a = c
    · simp only [List.filter_cons, hac, ne_eq, not_true_eq_false, decide_false, Bool.false_eq_true,
        if_false, ih, Memory.read]
      split
      · rfl
      · rw [if_neg (fun h => by omega)]
    · simp only [List.filter_cons, hac, ne_eq, not_false_eq_true, decide_true, if_true, Memory.read, ih]
      by_cases had : a = d
      · simp [had]; intro h; omega
      · simp [had]

theorem Memory.read_insert (m : Memory) (c d : Nat) (v : Byte)
    (h : ∀ cell ∈ m, cell.1 ≠ c) :
    Memory.read (Memory.insert m c v) d = if d = c then v else Memory.read m d := by
  induction m with
  | nil => simp [Memory.insert, Memory.read, eq_comm]
  | cons p m ih =>
    obtain ⟨a, b⟩ := p
    have hac : a ≠ c := h (a, b) (by simp)
    have ih := ih (fun cell hc => h cell (by simp [hc]))
    rw [Memory.insert]
    split
    · simp [Memory.read, eq_comm]
    · simp only [Memory.read, ih]
      by_cases had : a = d
      · subst had; simp [hac]
      · simp [had]

/-- A cell reads what was last stored in it, and every other cell is unchanged. -/
theorem Memory.read_write (m : Memory) (c d : Nat) (v : Byte) :
    Memory.read (Memory.write m c v) d = if d = c then v else Memory.read m d := by
  unfold Memory.write
  simp only
  split
  · next h => rw [Memory.read_filter, h]
  · rw [Memory.read_insert _ _ _ _ (by simp), Memory.read_filter]
    split <;> simp_all

/-- The cells after storing a list of characters: those of its extent hold them, every other cell is
unchanged. -/
theorem Memory.read_writeList (vs : List Byte) (m : Memory) (c d : Nat) :
    Memory.read (Memory.writeList m c vs) d =
      if h : c ≤ d ∧ d - c < vs.length then vs[d - c]'h.2 else Memory.read m d := by
  induction vs generalizing m c with
  | nil => simp [Memory.writeList]
  | cons v vs ih =>
    rw [Memory.writeList, ih, Memory.read_write]
    by_cases hdc : d = c
    · subst hdc
      simp
    · by_cases h : c ≤ d ∧ d - c < (v :: vs).length
      · have h2 : c + 1 ≤ d ∧ d - (c + 1) < vs.length := by simp at h; omega
        rw [dif_pos h2, dif_pos h]
        have : d - c = (d - (c + 1)) + 1 := by omega
        simp [this]
      · have h2 : ¬ (c + 1 ≤ d ∧ d - (c + 1) < vs.length) := by simp at h; omega
        rw [dif_neg h2, dif_neg h, if_neg hdc]

/-- The canonical form, said of the pairs: indexes strictly rising, no character `0`. -/
theorem Memory.wf_iff (m : Memory) :
    Memory.wf m = true ↔ m.Pairwise (fun x y => x.1 < y.1) ∧ ∀ x ∈ m, x.2 ≠ blank := by
  induction m with
  | nil => simp [Memory.wf]
  | cons p m ih =>
    obtain ⟨a, b⟩ := p
    cases m with
    | nil => simp [Memory.wf]
    | cons q m =>
      obtain ⟨a', b'⟩ := q
      rw [Memory.wf, Bool.and_eq_true, Bool.and_eq_true, ih, List.pairwise_cons (l := (a', b') :: m)]
      constructor
      · rintro ⟨⟨h1, h2⟩, h3, h4⟩
        have h2 : a < a' := by simpa using h2
        refine ⟨⟨?_, h3⟩, ?_⟩
        · intro x hx
          rcases List.mem_cons.1 hx with rfl | hx
          · exact h2
          · exact h2.trans ((List.pairwise_cons.1 h3).1 x hx)
        · intro x hx
          rcases List.mem_cons.1 hx with rfl | hx
          · simpa using h1
          · exact h4 x hx
      · rintro ⟨⟨h1, h2⟩, h3⟩
        exact ⟨⟨by simpa using h3 (a, b) (by simp), by simpa using h1 (a', b') (by simp)⟩, h2,
          fun x hx => h3 x (List.mem_cons_of_mem _ hx)⟩

theorem Memory.mem_insert {m : Memory} {c : Nat} {v : Byte} {x : Host.Cell}
    (h : x ∈ Memory.insert m c v) : x = (c, v) ∨ x ∈ m := by
  induction m with
  | nil => simpa [Memory.insert] using h
  | cons p m ih =>
    obtain ⟨a, b⟩ := p
    rw [Memory.insert] at h
    split at h
    · simpa using h
    · rcases List.mem_cons.1 h with h | h
      · exact .inr (by simp [h])
      · rcases ih h with h | h
        · exact .inl h
        · exact .inr (List.mem_cons_of_mem _ h)

/-- Every listed cell after a store is the cell stored or was listed before. -/
theorem Memory.mem_write {m : Memory} {c : Nat} {v : Byte} {x : Host.Cell}
    (h : x ∈ Memory.write m c v) : x = (c, v) ∨ x ∈ m := by
  unfold Memory.write at h
  simp only at h
  split at h
  · exact .inr (List.mem_filter.1 h).1
  · rcases Memory.mem_insert h with h | h
    · exact .inl h
    · exact .inr (List.mem_filter.1 h).1

theorem Memory.insert_pairwise (m : Memory) (c : Nat) (v : Byte)
    (hm : m.Pairwise (fun x y => x.1 < y.1)) (hc : ∀ x ∈ m, x.1 ≠ c) :
    (Memory.insert m c v).Pairwise (fun x y => x.1 < y.1) := by
  induction m with
  | nil => simp [Memory.insert]
  | cons p m ih =>
    obtain ⟨a, b⟩ := p
    have hp := List.pairwise_cons.1 hm
    rw [Memory.insert]
    split
    · next hlt =>
      refine List.pairwise_cons.2 ⟨?_, hm⟩
      intro x hx
      rcases List.mem_cons.1 hx with rfl | hx
      · exact hlt
      · exact lt_trans hlt (hp.1 x hx)
    · next hlt =>
      refine List.pairwise_cons.2 ⟨?_, ih hp.2 fun x hx => hc x (List.mem_cons_of_mem _ hx)⟩
      intro x hx
      rcases Memory.mem_insert hx with rfl | hx
      · have hne : a ≠ c := hc (a, b) (by simp)
        show a < c
        omega
      · exact hp.1 x hx

/-- A store keeps the canonical form. -/
theorem Memory.write_wf (m : Memory) (c : Nat) (v : Byte) (h : Memory.wf m = true) :
    Memory.wf (Memory.write m c v) = true := by
  rw [Memory.wf_iff] at h ⊢
  have hf := h.1.sublist (List.filter_sublist (p := fun cell : Host.Cell => decide (cell.1 ≠ c)))
  refine ⟨?_, ?_⟩
  · unfold Memory.write
    simp only
    split
    · exact hf
    · exact Memory.insert_pairwise _ _ _ hf (by simp)
  · intro x hx
    by_cases hv : v = blank
    · unfold Memory.write at hx
      simp only [hv, if_true] at hx
      exact h.2 x (List.mem_filter.1 hx).1
    · rcases Memory.mem_write hx with rfl | hx
      · exact hv
      · exact h.2 x hx

/-- Storing a list of characters keeps the canonical form. -/
theorem Memory.writeList_wf (vs : List Byte) (m : Memory) (c : Nat) (h : Memory.wf m = true) :
    Memory.wf (Memory.writeList m c vs) = true := by
  induction vs generalizing m c with
  | nil => exact h
  | cons v vs ih => exact ih _ _ (Memory.write_wf m c v h)

/-- Every listed cell after storing a list lies in its extent or was listed before. -/
theorem Memory.mem_writeList (vs : List Byte) {m : Memory} {c : Nat} {x : Host.Cell}
    (h : x ∈ Memory.writeList m c vs) : (c ≤ x.1 ∧ x.1 < c + vs.length) ∨ x ∈ m := by
  induction vs generalizing m c with
  | nil => exact .inr h
  | cons v vs ih =>
    rcases ih h with h | h
    · left; simp; omega
    · rcases Memory.mem_write h with rfl | h
      · left; simp
      · exact .inr h

theorem putOctet_wf (s : State) (i : Nat) (v : Byte) (h : Memory.wf s.hex = true) :
    Memory.wf (putOctet s i v).hex = true := Memory.writeList_wf _ _ _ h

/-- Storing octets keeps the canonical form. -/
theorem putOctets_wf (vs : List Byte) (s : State) (i : Nat) (h : Memory.wf s.hex = true) :
    Memory.wf (putOctets s i vs).hex = true := by
  induction vs generalizing s i with
  | nil => exact h
  | cons v vs ih => exact ih _ _ (putOctet_wf s i v h)

/-- Sizing the buffer keeps the canonical form. -/
theorem zeroBuffer_wf (s : State) (n : Nat) (h : Memory.wf s.hex = true) :
    Memory.wf (zeroBuffer s n).hex = true := Memory.writeList_wf _ _ _ h

/-- The memory of the reset state is in canonical form. -/
theorem reset_memory_wf : Memory.wf State.reset.hex = true := rfl

/-- Every cell of the reset state reads as the character `0` (R36). -/
theorem reset_chr (c : Nat) : State.reset.chr c = 0x30 := rfl

end Sys2Proof.Machine
end

