-- ==== Sys2Proof/Laws/Octets.lean ====
section
/-! SUPPORT. The laws of the access primitives: what each of them answers, once, for the proofs to
cite (spec/20_memory.md R52 to R58). -/

namespace Sys2Proof.Machine

/-! ## Hex digits -/

/-- A lowercase digit has the value it was made from (R52). -/
theorem hexval_hexchar (n : BitVec 4) : hexval (hexchar n) = some n := by revert n; decide

/-- An octet is its two nibbles. -/
theorem nibbles_append (v : Byte) : v.extractLsb' 4 4 ++ v.extractLsb' 0 4 = v := by
  revert v; decide

/-! ## Octets -/

/-- The characters after one octet is stored. -/
theorem putOctet_chr (s : State) (i : Nat) (v : Byte) (c : Nat) :
    (putOctet s i v).chr c =
      if c = 2 * i then hexchar (v.extractLsb' 4 4)
      else if c = 2 * i + 1 then hexchar (v.extractLsb' 0 4) else s.chr c := by
  simp only [State.chr, putOctet, Memory.writeList, Memory.read_write]
  by_cases h1 : c = 2 * i + 1 <;> by_cases h2 : c = 2 * i <;> simp [h1, h2]

/-- A character outside the octets stored is unchanged. -/
theorem putOctets_chr_outside (vs : List Byte) (s : State) (p c : Nat)
    (h : c < 2 * p ∨ 2 * (p + vs.length) ≤ c) : (putOctets s p vs).chr c = s.chr c := by
  induction vs generalizing s p with
  | nil => rfl
  | cons v vs ih =>
    rw [List.length_cons] at h
    rw [putOctets, ih _ _ (by omega), putOctet_chr, if_neg (by omega), if_neg (by omega)]

/-- Reading an octet looks at its two characters and at the number of octets only. -/
theorem octRead_congr {s t : State} {i : Nat} (ho : t.olen = s.olen)
    (h0 : t.chr (2 * i) = s.chr (2 * i)) (h1 : t.chr (2 * i + 1) = s.chr (2 * i + 1)) :
    octRead t i = octRead s i := by simp only [octRead, ho, h0, h1]

/-- What reading an octet answers after one octet is stored (R53, R54). -/
theorem octRead_putOctet (s : State) (i : Nat) (v : Byte) (j : Nat) :
    octRead (putOctet s i v) j = if j = i ∧ j < s.olen then .ok v else octRead s j := by
  by_cases hj : j = i
  · subst hj
    by_cases hlt : j < s.olen
    · rw [if_pos ⟨rfl, hlt⟩, octRead, if_neg (by simp; omega)]
      simp [putOctet_chr, hexval_hexchar, nibbles_append]
    · have hle : s.olen ≤ j := by omega
      simp [octRead, hle, hlt]
  · rw [if_neg (by simp [hj])]
    apply octRead_congr (putOctet_olen s i v)
    · rw [putOctet_chr, if_neg (by omega), if_neg (by omega)]
    · rw [putOctet_chr, if_neg (by omega), if_neg (by omega)]

/-- What reading an octet answers after octets are stored: inside the extent the octet stored, outside
it as before (R53, R54). -/
theorem octRead_putOctets (vs : List Byte) (s : State) (p j : Nat) :
    octRead (putOctets s p vs) j =
      if h : (p ≤ j ∧ j - p < vs.length) ∧ j < s.olen then .ok (vs[j - p]'h.1.2)
      else octRead s j := by
  induction vs generalizing s p with
  | nil => simp [putOctets]
  | cons v vs ih =>
    rw [putOctets, ih, putOctet_olen]
    by_cases h : (p ≤ j ∧ j - p < (v :: vs).length) ∧ j < s.olen
    · rw [dif_pos h]
      by_cases hjp : j = p
      · subst hjp
        have hn : ¬ ((j + 1 ≤ j ∧ j - (j + 1) < vs.length) ∧ j < s.olen) := by omega
        rw [dif_neg hn, octRead_putOctet, if_pos ⟨rfl, h.2⟩]
        simp
      · have h2 : (p + 1 ≤ j ∧ j - (p + 1) < vs.length) ∧ j < s.olen := by
          simp only [List.length_cons] at h; omega
        rw [dif_pos h2]
        have : j - p = (j - (p + 1)) + 1 := by omega
        simp [this]
    · have h2 : ¬ ((p + 1 ≤ j ∧ j - (p + 1) < vs.length) ∧ j < s.olen) := by
        simp only [List.length_cons] at h; omega
      rw [dif_neg h, dif_neg h2, octRead_putOctet, if_neg]
      simp only [List.length_cons] at h
      omega

/-- Reading an octet fails in two ways only (R53). -/
theorem octRead_error {s : State} {i : Nat} {a : Abort} (h : octRead s i = .error a) :
    (a = .bounds ∧ s.olen ≤ i) ∨ (a = .malformed i ∧ i < s.olen) := by
  unfold octRead at h
  split at h
  · next hb => left; exact ⟨by simpa using h.symm, hb⟩
  · next hb =>
    split at h
    · cases h
    · right; exact ⟨by simpa using h.symm, by omega⟩

/-- An octet that can be read lies inside the buffer. -/
theorem octRead_lt {s : State} {i : Nat} {o : Byte} (h : octRead s i = .ok o) : i < s.olen := by
  unfold octRead at h
  split at h
  · cases h
  · omega

/-! ## Bits -/

/-- `BitRead` answers the number whose bit `i` is stream bit `k + i` (R55). -/
theorem bitsFrom_ok_iff (s : State) (n : Nat) : ∀ (k v : Nat), bitsFrom s k n = .ok v ↔
    v < 2 ^ n ∧ ∀ i < n, ∃ o, octRead s ((k + i) / 8) = .ok o ∧
      v.testBit i = o.getLsbD ((k + i) % 8) := by
  induction n with
  | zero => intro k v; simp only [bitsFrom, Except.ok.injEq]; constructor
            · rintro rfl; simp
            · rintro ⟨h, -⟩; omega
  | succ n ih =>
    intro k v
    rw [bitsFrom]
    constructor
    · intro h
      rcases ho : octRead s (k / 8) with a | o
      · rw [ho] at h; cases h
      rw [ho] at h
      rcases hv : bitsFrom s (k + 1) n with a | w
      · simp only [hv] at h; cases h
      simp only [hv] at h
      have hval : (o.getLsbD (k % 8)).toNat + 2 * w = v := by
        simpa [bind, Except.bind] using h
      obtain ⟨hw, hbits⟩ := (ih _ _).1 hv
      have hb : (o.getLsbD (k % 8)).toNat ≤ 1 := Bool.toNat_le _
      refine ⟨by rw [pow_succ]; omega, ?_⟩
      intro i hi
      cases i with
      | zero =>
        refine ⟨o, by simpa using ho, ?_⟩
        rw [Nat.testBit_zero, Nat.add_zero, ← hval]
        cases o.getLsbD (k % 8) <;> simp
      | succ i =>
        obtain ⟨o', ho', hbit⟩ := hbits i (by omega)
        refine ⟨o', by rw [← ho']; congr 2; omega, ?_⟩
        rw [Nat.testBit_succ, ← hval]
        have : ((o.getLsbD (k % 8)).toNat + 2 * w) / 2 = w := by omega
        rw [this, hbit]
        congr 1
        omega
    · rintro ⟨hv, hbits⟩
      obtain ⟨o, ho, hbit⟩ := hbits 0 (by omega)
      rw [Nat.add_zero] at ho hbit
      have hrec : bitsFrom s (k + 1) n = .ok (v / 2) := by
        refine (ih _ _).2 ⟨by rw [pow_succ] at hv; omega, ?_⟩
        intro i hi
        obtain ⟨o', ho', hbit'⟩ := hbits (i + 1) (by omega)
        refine ⟨o', by rw [← ho']; congr 2; omega, ?_⟩
        rw [← Nat.testBit_succ, hbit']
        congr 1
        omega
      rw [ho, hrec]
      simp only [bind, Except.bind]
      congr 1
      rw [← hbit, Nat.testBit_zero]
      rcases Nat.mod_two_eq_zero_or_one v with h | h <;> simp [h] <;> omega

/-- `BitRead` fails at the first touched octet that cannot be read (R55). -/
theorem bitsFrom_error {s : State} (n : Nat) : ∀ {k : Nat} {a : Abort},
    bitsFrom s k n = .error a → ∃ i < n, octRead s ((k + i) / 8) = .error a ∧
      ∀ j < i, ∃ o, octRead s ((k + j) / 8) = .ok o := by
  induction n with
  | zero => intro k a h; cases h
  | succ n ih =>
    intro k a h
    rw [bitsFrom] at h
    rcases ho : octRead s (k / 8) with b | o
    · rw [ho] at h
      refine ⟨0, by omega, ?_, by omega⟩
      rw [Nat.add_zero, ho]
      simpa [bind, Except.bind] using h
    · rw [ho] at h
      rcases hv : bitsFrom s (k + 1) n with b | w
      · simp only [hv] at h
        have hab : b = a := by simpa [bind, Except.bind] using h
        subst hab
        obtain ⟨i, hi, hei, hok⟩ := ih hv
        refine ⟨i + 1, by omega, by rw [← hei]; congr 2; omega, ?_⟩
        intro j hj
        cases j with
        | zero => exact ⟨o, by simpa using ho⟩
        | succ j =>
          obtain ⟨o', ho'⟩ := hok j (by omega)
          exact ⟨o', by rw [← ho']; congr 2; omega⟩
      · simp only [hv] at h; cases h

/-- Where its extent lies inside the buffer, `BitRead` reads the bits. -/
theorem bitRead_of_le {s : State} {off n : Nat} (h : off + n ≤ 8 * s.olen) :
    bitRead s off n = bitsFrom s off n := by rw [bitRead, if_neg (by omega)]

/-- Reading bits looks at the octets only. -/
theorem bitsFrom_congr {s t : State} (n : Nat) : ∀ {k : Nat},
    (∀ i < n, octRead t ((k + i) / 8) = octRead s ((k + i) / 8)) →
      bitsFrom t k n = bitsFrom s k n := by
  induction n with
  | zero => intro k _; rfl
  | succ n ih =>
    intro k h
    have h0 := h 0 (by omega)
    rw [Nat.add_zero] at h0
    have hr : bitsFrom t (k + 1) n = bitsFrom s (k + 1) n := by
      refine ih fun i hi => ?_
      have := h (i + 1) (by omega)
      rwa [show k + (i + 1) = k + 1 + i by omega] at this
    rw [bitsFrom, bitsFrom, h0, hr]

/-- Bit `i` of the octet made of eight bits is bit `i`. -/
theorem octetOfBits_getLsbD (f : Nat → Bool) (i : Nat) (hi : i < 8) :
    (octetOfBits f).getLsbD i = f i := by
  have key : ∀ b0 b1 b2 b3 b4 b5 b6 b7 : Bool,
      octetOfBits (fun k => [b0, b1, b2, b3, b4, b5, b6, b7].getD k false)
        = BitVec.ofBoolListLE [b0, b1, b2, b3, b4, b5, b6, b7] := by decide
  have hf : octetOfBits f =
      octetOfBits (fun k => [f 0, f 1, f 2, f 3, f 4, f 5, f 6, f 7].getD k false) := by
    simp [octetOfBits, List.range, List.range.loop]
  rw [hf, key]
  interval_cases i <;> simp [BitVec.ofBoolListLE]

/-- The bits of a merged octet (R56). -/
theorem mergeOctet_getLsbD (off n : Nat) (v : Word64) (j : Nat) (old : Byte) (b : Nat)
    (hb : b < 8) : (mergeOctet off n v j old).getLsbD b =
      if off ≤ 8 * j + b ∧ 8 * j + b < off + n then v.getLsbD (8 * j + b - off)
      else old.getLsbD b := by
  rw [mergeOctet, octetOfBits_getLsbD _ _ hb]

/-- The octets `BitWrite` merges, when every octet it must read can be read (R56). -/
theorem mergeOctets_ok (s : State) (off n : Nat) (v : Word64) (k : Nat) : ∀ (j : Nat),
    (∀ i < k, ∃ o, oldOctet s off n (j + i) = .ok o) →
    ∃ os, mergeOctets s off n v j k = .ok os ∧ os.length = k ∧
      ∀ i (h : i < os.length), ∃ o, oldOctet s off n (j + i) = .ok o ∧
        os[i] = mergeOctet off n v (j + i) o := by
  induction k with
  | zero => intro j _; exact ⟨[], rfl, rfl, by simp⟩
  | succ k ih =>
    intro j h
    obtain ⟨o, ho⟩ := h 0 (by omega)
    rw [Nat.add_zero] at ho
    obtain ⟨os, hos, hlen, hget⟩ := ih (j + 1) fun i hi => by
      have := h (i + 1) (by omega)
      rwa [show j + (i + 1) = j + 1 + i by omega] at this
    refine ⟨mergeOctet off n v j o :: os, ?_, by simp [hlen], ?_⟩
    · rw [mergeOctets, ho, hos]; rfl
    · intro i hi
      cases i with
      | zero => exact ⟨o, by simpa using ho, rfl⟩
      | succ i =>
        obtain ⟨o', ho', hg⟩ := hget i (by simpa using hi)
        refine ⟨o', by rwa [show j + (i + 1) = j + 1 + i by omega], ?_⟩
        simp only [List.getElem_cons_succ, hg]
        rw [show j + (i + 1) = j + 1 + i by omega]

/-- `BitWrite` fails at an octet it must read and cannot (R56). -/
theorem mergeOctets_error {s : State} {off n : Nat} {v : Word64} (k : Nat) : ∀ {j : Nat} {a : Abort},
    mergeOctets s off n v j k = .error a → ∃ i < k, oldOctet s off n (j + i) = .error a ∧
      ∀ l < i, ∃ o, oldOctet s off n (j + l) = .ok o := by
  induction k with
  | zero => intro j a h; cases h
  | succ k ih =>
    intro j a h
    rw [mergeOctets] at h
    rcases ho : oldOctet s off n j with b | o
    · rw [ho] at h
      refine ⟨0, by omega, ?_, by omega⟩
      rw [Nat.add_zero, ho]
      simpa [bind, Except.bind] using h
    · rw [ho] at h
      rcases hv : mergeOctets s off n v (j + 1) k with b | os
      · simp only [hv] at h
        have hab : b = a := by simpa [bind, Except.bind] using h
        subst hab
        obtain ⟨i, hi, hei, hok⟩ := ih hv
        refine ⟨i + 1, by omega, by rw [← hei]; congr 1; omega, ?_⟩
        intro l hl
        cases l with
        | zero => exact ⟨o, by simpa using ho⟩
        | succ l =>
          obtain ⟨o', ho'⟩ := hok l (by omega)
          exact ⟨o', by rw [← ho']; congr 1; omega⟩
      · simp only [hv] at h; cases h

/-! ## Multi-octet integers -/

/-- The big-endian number of octets, folded into an accumulator (R57). -/
theorem octetsFrom_ok (s : State) (os : List Byte) : ∀ (addr acc : Nat),
    (∀ i (h : i < os.length), octRead s (addr + i) = .ok os[i]) →
      octetsFrom s addr acc os.length = .ok (os.foldl (fun a o => 256 * a + o.toNat) acc) := by
  induction os with
  | nil => intro addr acc _; rfl
  | cons o os ih =>
    intro addr acc h
    have h0 := h 0 (by simp)
    rw [Nat.add_zero] at h0
    have hr := ih (addr + 1) (256 * acc + o.toNat) fun i hi => by
      have := h (i + 1) (by simpa using hi)
      rwa [show addr + (i + 1) = addr + 1 + i by omega] at this
    rw [List.length_cons, octetsFrom, h0]
    simpa [bind, Except.bind] using hr

/-- `MemRead` fails at the first octet that cannot be read (R57). -/
theorem octetsFrom_error {s : State} (n : Nat) : ∀ {addr acc : Nat} {a : Abort},
    octetsFrom s addr acc n = .error a → ∃ i < n, octRead s (addr + i) = .error a ∧
      ∀ j < i, ∃ o, octRead s (addr + j) = .ok o := by
  induction n with
  | zero => intro addr acc a h; cases h
  | succ n ih =>
    intro addr acc a h
    rw [octetsFrom] at h
    rcases ho : octRead s addr with b | o
    · rw [ho] at h
      refine ⟨0, by omega, ?_, by omega⟩
      rw [Nat.add_zero, ho]
      simpa [bind, Except.bind] using h
    · rw [ho] at h
      obtain ⟨i, hi, hei, hok⟩ := ih (by simpa [bind, Except.bind] using h)
      refine ⟨i + 1, by omega, by rw [← hei]; congr 1; omega, ?_⟩
      intro j hj
      cases j with
      | zero => exact ⟨o, by simpa using ho⟩
      | succ j =>
        obtain ⟨o', ho'⟩ := hok j (by omega)
        exact ⟨o', by rw [← ho']; congr 1; omega⟩

@[simp] theorem bigEndian_length (v n : Nat) : (bigEndian v n).length = n := by
  induction n with
  | zero => rfl
  | succ n ih => simp [bigEndian, ih]

/-- The octets of a number fold back into its low octets (R57, R58). -/
theorem bigEndian_foldl (v : Nat) : ∀ (n acc : Nat),
    (bigEndian v n).foldl (fun a o => 256 * a + o.toNat) acc = 256 ^ n * acc + v % 256 ^ n := by
  intro n
  induction n with
  | zero => intro acc; simp [bigEndian, Nat.mod_one]
  | succ n ih =>
    intro acc
    have hv : (BitVec.ofNat 8 (v / 256 ^ n)).toNat = v / 256 ^ n % 256 := by simp
    rw [bigEndian, List.foldl_cons, ih, hv, pow_succ, Nat.mod_mul]
    ring

/-- Payload validation answers the octets read in ascending order. -/
theorem octetList_ok_iff (s : State) (n : Nat) : ∀ (p : Nat) (os : List Byte),
    octetList s p n = .ok os ↔
      os.length = n ∧ ∀ i (h : i < os.length), octRead s (p + i) = .ok os[i] := by
  induction n with
  | zero => intro p os; cases os <;> simp [octetList]
  | succ n ih =>
    intro p os
    rw [octetList]
    rcases ho : octRead s p with a | o
    · constructor
      · intro h; cases h
      · rintro ⟨hl, h⟩
        have h0 := h 0 (by omega)
        rw [Nat.add_zero, ho] at h0; cases h0
    · rcases hr : octetList s (p + 1) n with a | rest
      · constructor
        · intro h; simp only [bind, Except.bind] at h; cases h
        · rintro ⟨hl, h⟩
          cases os with
          | nil => simp at hl
          | cons x os =>
            have : octetList s (p + 1) n = .ok os := (ih _ _).2 ⟨by simpa using hl, fun i hi => by
              have := h (i + 1) (by simpa using hi)
              rwa [show p + (i + 1) = p + 1 + i by omega] at this⟩
            rw [hr] at this; cases this
      · simp only [bind, Except.bind, Except.ok.injEq]
        obtain ⟨hl, hg⟩ := (ih _ _).1 hr
        constructor
        · rintro rfl
          refine ⟨by simp [hl], ?_⟩
          intro i hi
          cases i with
          | zero => simpa using ho
          | succ i =>
            have := hg i (by simpa using hi)
            rwa [show p + (i + 1) = p + 1 + i by omega]
        · rintro ⟨hl', h⟩
          cases os with
          | nil => simp at hl'
          | cons x os =>
            have h0 := h 0 (by simp)
            rw [Nat.add_zero, ho] at h0
            have hrest : octetList s (p + 1) n = .ok os := (ih _ _).2 ⟨by simpa using hl', fun i hi => by
              have := h (i + 1) (by simpa using hi)
              rwa [show p + (i + 1) = p + 1 + i by omega] at this⟩
            rw [hr] at hrest
            simp at h0 hrest
            simp [h0, hrest]

/-- Payload validation fails at the first octet that cannot be read. -/
theorem octetList_error {s : State} (n : Nat) : ∀ {p : Nat} {a : Abort},
    octetList s p n = .error a → ∃ i < n, octRead s (p + i) = .error a ∧
      ∀ j < i, ∃ o, octRead s (p + j) = .ok o := by
  induction n with
  | zero => intro p a h; cases h
  | succ n ih =>
    intro p a h
    rw [octetList] at h
    rcases ho : octRead s p with b | o
    · rw [ho] at h
      refine ⟨0, by omega, ?_, by omega⟩
      rw [Nat.add_zero, ho]
      simpa [bind, Except.bind] using h
    · rw [ho] at h
      rcases hv : octetList s (p + 1) n with b | os
      · simp only [hv] at h
        have hab : b = a := by simpa [bind, Except.bind] using h
        subst hab
        obtain ⟨i, hi, hei, hok⟩ := ih hv
        refine ⟨i + 1, by omega, by rw [← hei]; congr 1; omega, ?_⟩
        intro j hj
        cases j with
        | zero => exact ⟨o, by simpa using ho⟩
        | succ j =>
          obtain ⟨o', ho'⟩ := hok j (by omega)
          exact ⟨o', by rw [← ho']; congr 1; omega⟩
      · simp only [hv] at h; cases h

end Sys2Proof.Machine
end

