-- ==== Sys2Proof/Laws/Codecs.lean ====
section
/-! SUPPORT. What the framer, the payload decoders and the dispatch can do, said once for the proofs to
cite: each of them posts diagnostics and writes the record, and nothing else. -/

namespace Sys2Proof.Machine

/-- What a payload decoder does to a state: it posts at most `n` well-filed entries and changes the
record, keeping the bounds of its counts. -/
def Decodes (n : Nat) (s t : State) : Prop :=
  ∃ es r, t = { s.postAll es with record := r } ∧ es.length ≤ n ∧
    (∀ e ∈ es, e.kind = e.cause.kind) ∧
    (s.record.bssN.toNat ≤ Config.bssCap → r.bssN.toNat ≤ Config.bssCap) ∧
    (s.record.unk.length ≤ Config.unkCap → r.unk.length ≤ Config.unkCap)

theorem note_kind (c : Cause) (a : Nat) : (note c a).kind = (note c a).cause.kind := rfl

@[simp] theorem noteIf_true (c : Cause) (a : Nat) : noteIf true c a = [note c a] := rfl
@[simp] theorem noteIf_false (c : Cause) (a : Nat) : noteIf false c a = [] := rfl

theorem noteIf_length (b : Bool) (c : Cause) (a : Nat) : (noteIf b c a).length ≤ 1 := by
  cases b <;> simp

theorem noteIf_kind {b : Bool} {c : Cause} {a : Nat} {e : DiagEntry} (h : e ∈ noteIf b c a) :
    e.kind = e.cause.kind := by
  cases b
  · cases h
  · rw [noteIf_true, List.mem_singleton] at h; rw [h]; rfl

theorem uncDec_length (c : Nat) (m : Int) (max : Nat) (fld : FieldId) :
    (uncDec c m max fld).2.length ≤ 1 := by
  unfold uncDec; split
  · simp
  · exact noteIf_length _ _ _

theorem uncDec_kind {c : Nat} {m : Int} {max : Nat} {fld : FieldId} {e : DiagEntry}
    (h : e ∈ (uncDec c m max fld).2) : e.kind = e.cause.kind := by
  unfold uncDec at h; split at h
  · cases h
  · exact noteIf_kind h

/-- Posting one entry is a decoding that leaves the record. -/
theorem decodes_post (s : State) (c : Cause) (a : Nat) {n : Nat} (hn : 1 ≤ n) :
    Decodes n s (s.post c a) := by
  refine ⟨[note c a], s.record, ?_, by simpa using hn, by simp [note_kind], id, id⟩
  rw [State.post_eq_postAll, State.postAll_with_own_record]

theorem decodes_refl (s : State) (n : Nat) : Decodes n s s :=
  ⟨[], s.record, rfl, by simp, by simp, id, id⟩

/-- The location decoder posts at most five entries (R170). -/
theorem locDec_decodes (s : State) (p len : Nat) :
    Decodes (len + 2) s (locDec s p len) := by
  unfold locDec
  split
  · exact ⟨_, _, rfl, (noteIf_length _ _ _).trans (by omega), fun e h => noteIf_kind h, id, id⟩
  · split
    · exact decodes_post _ _ _ (by omega)
    · next h16 =>
      have h16 : len = 16 := by simpa using h16
      split
      · next f _ =>
        refine ⟨_, _, rfl, ?_, ?_, id, id⟩
        · have h1 := noteIf_length (s.record.geoP == 1) .duplicate 0
          have h2 := uncDec_length f.latU 8 34 .latitude
          have h3 := uncDec_length f.lonU 8 34 .longitude
          have h4 := uncDec_length f.altU 21 34 .altitude
          have h5 := noteIf_length (f.ver != 1) .version f.ver
          simp only [locNotes, decDegreesU, decAltitudeU, List.length_append]
          omega
        · intro e he
          simp only [locNotes, decDegreesU, decAltitudeU, List.mem_append] at he
          rcases he with (((h | h) | h) | h) | h
          · exact noteIf_kind h
          · exact uncDec_kind h
          · exact uncDec_kind h
          · exact uncDec_kind h
          · exact noteIf_kind h
      · exact decodes_post _ _ _ (by omega)
      · exact decodes_refl _ _

/-- The floor decoder posts at most two entries (R180). -/
theorem flrDec_decodes (s : State) (p len : Nat) : Decodes (len + 2) s (flrDec s p len) := by
  unfold flrDec
  split
  · exact decodes_post _ _ _ (by omega)
  · split
    · next f _ =>
      refine ⟨_, _, rfl, ?_, ?_, id, id⟩
      · have h1 := noteIf_length (s.record.flrP == 1) .duplicate 4
        have h2 := uncDec_length f.heightU 11 24 .height
        simp only [flrNotes, decHeightU, List.length_append]
        omega
      · intro e he
        simp only [flrNotes, decHeightU, List.mem_append] at he
        rcases he with h | h
        · exact noteIf_kind h
        · exact uncDec_kind h
    · exact decodes_post _ _ _ (by omega)
    · exact decodes_refl _ _

/-- The usage decoder posts at most three entries (R190). -/
theorem usgDec_decodes (s : State) (p len : Nat) : Decodes (len + 2) s (usgDec s p len) := by
  unfold usgDec
  split
  · exact decodes_post _ _ _ (by omega)
  · next hlen =>
    split
    · next f _ =>
      refine ⟨_, _, rfl, ?_, ?_, id, id⟩
      · have h1 := noteIf_length (s.record.usgP == 1) .duplicate 6
        have hlen : len = 1 ∨ len = 3 := by omega
        unfold usgNotes
        rw [List.length_append]
        rcases f.expire with _ | e
        · have h2 := noteIf_length (f.flags.getLsbD 1) .usgFlagLen 1
          simp only; omega
        · have h2 := noteIf_length (!f.flags.getLsbD 1) .usgFlagLen 3
          have h3 := noteIf_length (e == 0) .usgExpZero 0
          simp only [List.length_append]; omega
      · intro e he
        unfold usgNotes at he
        rw [List.mem_append] at he
        rcases he with h | h
        · exact noteIf_kind h
        · rcases hx : f.expire with _ | x
          · rw [hx] at h; exact noteIf_kind h
          · rw [hx] at h
            rcases List.mem_append.1 h with h | h <;> exact noteIf_kind h
    · exact decodes_post _ _ _ (by omega)
    · exact decodes_refl _ _

/-- Decoding the addresses posts at most one entry a slot and writes the slots only (R200). -/
theorem bssDecSlots_eq (p : Nat) (is : List Nat) : ∀ (s : State), ∃ es r,
    is.foldl (bssDecSlot p) s = { s.postAll es with record := { s.record with bss := r } } ∧
      es.length ≤ is.length ∧ ∀ e ∈ es, e.kind = e.cause.kind := by
  induction is with
  | nil => intro s; exact ⟨[], s.record.bss, rfl, by simp, by simp⟩
  | cons i is ih =>
    intro s
    obtain ⟨es0, r0, h0, hl0, hk0⟩ : ∃ es r, bssDecSlot p s i =
        { s.postAll es with record := { s.record with bss := r } } ∧ es.length ≤ 1 ∧
          ∀ e ∈ es, e.kind = e.cause.kind := by
      unfold bssDecSlot
      split
      · exact ⟨[], _, by rw [Record.setSlot_eq]; rfl, by simp, by simp⟩
      · next j _ =>
        exact ⟨[note .hexDigit j], _, by rw [Record.setSlot_eq, State.post_eq_postAll], by simp,
          by simp [note_kind]⟩
      · exact ⟨[], s.record.bss, rfl, by simp, by simp⟩
    obtain ⟨es, r, h, hl, hk⟩ := ih (bssDecSlot p s i)
    refine ⟨es0 ++ es, r, ?_, by simp; omega, ?_⟩
    · rw [List.foldl_cons, h, h0, State.postAll_with_record, State.postAll_append]
    · intro e he
      rcases List.mem_append.1 he with h | h
      · exact hk0 e h
      · exact hk e h

/-- The BSSID decoder posts at most one entry for each octet of the subelement (R200). -/
theorem bssDec_decodes (s : State) (p len : Nat) (hlen : len ≤ 255) :
    Decodes (len + 2) s (bssDec s p len) := by
  unfold bssDec
  split
  · exact decodes_post _ _ _ (by omega)
  · next hne =>
    rcases hri : readIndicator s p with ⟨ind, indOk, inotes⟩
    have hi : inotes.length ≤ 1 ∧ ∀ e ∈ inotes, e.kind = e.cause.kind := by
      unfold readIndicator at hri
      split at hri <;> (obtain ⟨-, -, rfl⟩ := hri; simp [note_kind])
    simp only
    set es1 := inotes ++ noteIf (s.record.bssP == 1) .duplicate 7 with hes1
    obtain ⟨es2, r, h2, hl2, hk2⟩ :=
      bssDecSlots_eq p (List.range ((len - 1) / 6)) (s.postAll es1)
    set es3 := noteIf ((len - 1) % 6 != 0) .bssResidue ((len - 1) % 6)
        ++ noteIf (indOk && ind != 0 && ind.toNat != (len - 1) / 6) .bssIndicator ind.toNat with hes3
    rw [h2]
    refine ⟨es1 ++ es2 ++ es3,
      { s.record with bss := r, bssN := BitVec.ofNat 6 ((len - 1) / 6), bssInd := ind, bssP := 1 },
      ?_, ?_, ?_, ?_, ?_⟩
    · simp only [State.postAll_with_record, State.postAll_append, State.postAll_record]
    · have h3 := noteIf_length (s.record.bssP == 1) .duplicate 7
      have h5 := noteIf_length
        (indOk && ind != 0 && ind.toNat != (len - 1) / 6) .bssIndicator ind.toNat
      rw [List.length_range] at hl2
      have hr : (noteIf ((len - 1) % 6 != 0) .bssResidue ((len - 1) % 6)).length ≤ (len - 1) % 6 := by
        rcases Nat.eq_zero_or_pos ((len - 1) % 6) with h | h
        · rw [h]; simp
        · exact (noteIf_length _ _ _).trans h
      have hio : (indOk = true → inotes = []) := by
        unfold readIndicator at hri
        split at hri <;> (obtain ⟨-, rfl, rfl⟩ := hri; simp)
      simp only [hes1, hes3, List.length_append]
      rcases Bool.eq_false_or_eq_true indOk with h | h
      · have := hio h; subst this; simp only [List.length_nil]; omega
      · have : noteIf (indOk && ind != 0 && ind.toNat != (len - 1) / 6) .bssIndicator ind.toNat = []
            := by rw [h]; rfl
        rw [this, List.length_nil]; omega
    · intro e he
      simp only [hes1, hes3, List.mem_append] at he
      rcases he with ((h | h) | h) | h | h
      · exact hi.2 e h
      · exact noteIf_kind h
      · exact hk2 e h
      · exact noteIf_kind h
      · exact noteIf_kind h
    · intro _
      have : (len - 1) / 6 < 64 := by omega
      simp [BitVec.toNat_ofNat, Nat.mod_eq_of_lt this]
      omega
    · intro h; simpa using h

/-- Dispatch: it posts at most one entry for each octet of the subelement and writes the record, and
nothing else; whatever the ID, it cannot fail (R163). -/
theorem dispatch_decodes (s : State) (id len : Byte) (p : Nat) :
    Decodes (len.toNat + 2) s (dispatch s id len p) := by
  have hlen : len.toNat ≤ 255 := by have := len.isLt; omega
  unfold dispatch
  split
  · exact locDec_decodes _ _ _
  · exact flrDec_decodes _ _ _
  · exact usgDec_decodes _ _ _
  · exact bssDec_decodes _ _ _ hlen
  · refine ⟨[note .unknownId id.toNat], addUnknown s.record
      { id := id, pos := BitVec.ofNat 32 p, len := len }, ?_, by simp, by simp [note_kind], ?_, ?_⟩
    · rw [State.post_eq_postAll]
    · unfold addUnknown; split <;> exact fun h => h
    · unfold addUnknown; split
      · intro _; simp at *; omega
      · exact fun h => h

/-- What `Decodes` leaves alone. -/
theorem Decodes.frame {n : Nat} {s t : State} (h : Decodes n s t) :
    t = { s with record := t.record, diag := t.diag, dgovf := t.dgovf } := by
  obtain ⟨es, r, rfl, -⟩ := h
  rw [State.postAll_eq]

/-- What one framer step can do, all of it (R161). -/
theorem frNext_cases (s : State) :
    (s.olen < s.cur.toNat ∧ frNext s = (s, .outOfBounds)) ∨
    (s.cur.toNat = s.olen ∧ frNext s = (s, .exhausted)) ∨
    (s.cur.toNat + 1 = s.olen ∧ frNext s = (s, .outOfBounds)) ∨
    (s.cur.toNat + 2 ≤ s.olen ∧
      ((∃ i, octRead s s.cur.toNat = .error (.malformed i) ∧
          frNext s = haltFrame s .hexDigit i) ∨
       (∃ id i, octRead s s.cur.toNat = .ok id ∧
          octRead s (s.cur.toNat + 1) = .error (.malformed i) ∧
          frNext s = haltFrame s .hexDigit i) ∨
       (∃ id len, octRead s s.cur.toNat = .ok id ∧ octRead s (s.cur.toNat + 1) = .ok len ∧
          s.olen < s.cur.toNat + 2 + len.toNat ∧
          frNext s = haltFrame s .frameLength (s.cur.toNat % 2 ^ 16)) ∨
       (∃ id len, octRead s s.cur.toNat = .ok id ∧ octRead s (s.cur.toNat + 1) = .ok len ∧
          s.cur.toNat + 2 + len.toNat ≤ s.olen ∧
          frNext s = ({ s with cur := BitVec.ofNat 32 (s.cur.toNat + 2 + len.toNat) },
            .sub id len (s.cur.toNat + 2))))) := by
  by_cases h1 : s.olen < s.cur.toNat
  · exact .inl ⟨h1, by simp [frNext, h1]⟩
  by_cases h2 : s.cur.toNat = s.olen
  · exact .inr (.inl ⟨h2, by simp [frNext, h2]⟩)
  by_cases h3 : s.cur.toNat + 1 = s.olen
  · refine .inr (.inr (.inl ⟨h3, ?_⟩))
    have ha : s.olen - s.cur.toNat = 1 := by omega
    simp [frNext, h1, ha]
  refine .inr (.inr (.inr ⟨by omega, ?_⟩))
  have ha : s.olen - s.cur.toNat ≠ 0 := by omega
  have hb : s.olen - s.cur.toNat ≠ 1 := by omega
  rcases ho : octRead s s.cur.toNat with a | id
  · rcases octRead_error ho with ⟨rfl, h⟩ | ⟨rfl, -⟩
    · omega
    · exact .inl ⟨_, rfl, by simp [frNext, h1, ha, hb, ho]⟩
  · rcases ho' : octRead s (s.cur.toNat + 1) with a | len
    · rcases octRead_error ho' with ⟨rfl, h⟩ | ⟨rfl, -⟩
      · omega
      · exact .inr (.inl ⟨id, _, rfl, rfl, by simp [frNext, h1, ha, hb, ho, ho']⟩)
    · by_cases hlen : s.olen - s.cur.toNat - 2 < len.toNat
      · exact .inr (.inr (.inl ⟨id, len, rfl, rfl, by omega,
          by simp [frNext, h1, ha, hb, ho, ho', hlen]⟩))
      · exact .inr (.inr (.inr ⟨id, len, rfl, rfl, by omega,
          by simp [frNext, h1, ha, hb, ho, ho', hlen]⟩))

end Sys2Proof.Machine
end

