-- ==== Sys2Proof/Laws/Quantities.lean ====
section
/-! SUPPORT. The quantizers in exact rationals: what each function answers, said once in the terms of
Safety.lean (spec/41_quantizers.md R141 to R148). -/

namespace Sys2Proof.Machine

/-! ## Physical values -/

/-- A physical value built from an integer in range stands for it over `2^32` (R9). -/
theorem value_physOf {n : Int} (h1 : -2 ^ 63 ≤ n) (h2 : n < 2 ^ 63) :
    value (physOf n) = (n : ℚ) / 2 ^ 32 := by
  have : (BitVec.ofInt 64 n).toInt = n := by
    rw [BitVec.toInt_ofInt]
    exact Int.bmod_eq_of_le (by norm_num; omega) (by norm_num; omega)
  rw [value, physOf, this]

theorem value_eq_zero_iff (v : Phys) : value v = 0 ↔ v = 0 := by
  unfold value
  constructor
  · intro h
    have : (v.toInt : ℚ) = 0 := by
      rcases div_eq_zero_iff.1 h with h | h
      · exact h
      · norm_num at h
    have h0 : v.toInt = 0 := by exact_mod_cast this
    exact BitVec.eq_of_toInt_eq (by rw [h0]; rfl)
  · rintro rfl; simp

/-- Two physical values that stand for the same rational are the same (R9). -/
theorem value_injective {v w : Phys} (h : value v = value w) : v = w := by
  unfold value at h
  have : (v.toInt : ℚ) = w.toInt := by
    have h2 : (2 : ℚ) ^ 32 ≠ 0 := by norm_num
    field_simp at h
    exact h
  exact BitVec.eq_of_toInt_eq (by exact_mod_cast this)

theorem value_pos_iff (v : Phys) : 0 < value v ↔ 0 < v.toInt := by
  unfold value
  rw [div_pos_iff_of_pos_right (by norm_num)]
  exact_mod_cast Iff.rfl

theorem value_neg_iff (v : Phys) : value v < 0 ↔ v.toInt < 0 := by
  unfold value
  rw [div_neg_iff]
  constructor
  · rintro (⟨-, h⟩ | ⟨h, -⟩)
    · norm_num at h
    · exact_mod_cast h
  · intro h; right; exact ⟨by exact_mod_cast h, by norm_num⟩

/-! ## Rounding -/

/-- The rounded quotient of two naturals is nearest, the upper one halfway (R141). -/
theorem roundNat_spec (a d : Nat) (hd : 0 < d) :
    2 * a ≤ 2 * d * roundNat .away a d + d ∧ 2 * d * roundNat .away a d ≤ 2 * a + d ∧
      2 * a ≠ 2 * d * roundNat .away a d + d := by
  have hdm := Nat.div_add_mod a d
  have hm := Nat.mod_lt a hd
  unfold roundNat
  simp only
  set q := a / d
  set r := a % d
  have e1 : 2 * a = 2 * d * q + 2 * r := by rw [← hdm]; ring
  split
  · rw [e1]; omega
  · have e2 : 2 * d * (q + 1) = 2 * d * q + 2 * d := by ring
    split
    · rw [e1, e2]; omega
    · rw [e1, e2]; omega

/-- `roundDiv` is the rounding of R141. -/
theorem roundDiv_isRound (a : Int) (d : Nat) (hd : 0 < d) :
    IsRound ((a : ℚ) / d) (roundDiv a d) := by
  have hdq : (0 : ℚ) < d := by exact_mod_cast hd
  have key : ∀ b : Nat, IsRound ((b : ℚ) / d) ((roundNat .away b d : Nat) : Int) := by
    intro b
    obtain ⟨h1, h2, h3⟩ := roundNat_spec b d hd
    set n := roundNat .away b d
    have e : (b : ℚ) / d - ((n : Int) : ℚ) = (b - d * n) / d := by field_simp; push_cast; ring
    have q1 : (2 : ℚ) * b ≤ 2 * d * n + d := by exact_mod_cast h1
    have q2 : (2 : ℚ) * d * n ≤ 2 * b + d := by exact_mod_cast h2
    have q3 : (2 : ℚ) * b ≠ 2 * d * n + d := by exact_mod_cast h3
    constructor
    · rw [e, abs_div, abs_of_pos hdq, div_le_iff₀ hdq, abs_le]
      constructor <;> linarith
    · intro h
      rw [e, abs_div, abs_of_pos hdq, div_eq_iff hdq.ne'] at h
      have hlt : (b : ℚ) < d * n := by
        rcases abs_cases ((b : ℚ) - d * n) with ⟨h', -⟩ | ⟨h', h''⟩
        · exfalso; apply q3; rw [h'] at h; linarith
        · linarith
      rw [abs_of_nonneg (by positivity), abs_of_nonneg (by positivity), div_lt_iff₀ hdq]
      push_cast
      linarith
  unfold roundDiv
  rw [show Config.roundTies = .away from rfl]
  split
  · next h =>
    have hk := key a.natAbs
    have ha : ((a.natAbs : Nat) : ℚ) = -(a : ℚ) := by
      rw [← Int.cast_natCast, show (a.natAbs : Int) = -a by omega]; push_cast; rfl
    rw [ha] at hk
    obtain ⟨k1, k2⟩ := hk
    set n := roundNat .away a.natAbs d
    have e : (a : ℚ) / d - ((-(n : Int) : Int) : ℚ) = -(-(a : ℚ) / d - ((n : Int) : ℚ)) := by
      push_cast; ring
    refine ⟨by rw [e, abs_neg]; exact k1, fun h' => ?_⟩
    rw [e, abs_neg] at h'
    have := k2 h'
    rw [neg_div, abs_neg] at this
    rw [Int.cast_neg, abs_neg]
    exact this
  · next h =>
    have hk := key a.natAbs
    have ha : ((a.natAbs : Nat) : ℚ) = (a : ℚ) := by
      rw [← Int.cast_natCast, show (a.natAbs : Int) = a by omega]
    rwa [ha] at hk

/-- There is one rounding (R141). -/
theorem IsRound.unique {q : ℚ} {m n : ℤ} (hm : IsRound q m) (hn : IsRound q n) : m = n := by
  obtain ⟨m1, m2⟩ := hm
  obtain ⟨n1, n2⟩ := hn
  rw [abs_le] at m1 n1
  by_contra hne
  have hlt : m < n ∨ n < m := by omega
  have step : ∀ {m n : ℤ}, m < n → (-(1 / 2) ≤ q - m ∧ q - m ≤ 1 / 2) →
      (-(1 / 2) ≤ q - n ∧ q - n ≤ 1 / 2) → q - m = 1 / 2 ∧ q - n = -(1 / 2) ∧ n = m + 1 := by
    intro m n h hm hn
    have h1 : (m : ℚ) + 1 ≤ n := by exact_mod_cast h
    have h2 : q - m = 1 / 2 := by linarith [hm.2, hn.1]
    have h3 : q - n = -(1 / 2) := by linarith [hm.2, hn.1]
    refine ⟨h2, h3, ?_⟩
    have : (n : ℚ) = m + 1 := by linarith
    exact_mod_cast this
  have fin : ∀ {m n : ℤ}, q - m = 1 / 2 → q - n = -(1 / 2) → n = m + 1 →
      |q| < |(m : ℚ)| → |q| < |(n : ℚ)| → False := by
    intro m n h1 h2 h3 hm hn
    have hq : q = m + 1 / 2 := by linarith
    have hn' : (n : ℚ) = m + 1 := by linarith
    rw [hq] at hm hn
    rw [hn'] at hn
    rcases le_or_gt 0 m with h | h
    · have : (0 : ℚ) ≤ m := by exact_mod_cast h
      rw [abs_of_nonneg (by linarith), abs_of_nonneg this] at hm
      linarith
    · have : (m : ℚ) + 1 ≤ 0 := by exact_mod_cast h
      rw [abs_of_neg (by linarith), abs_of_nonpos this] at hn
      linarith
  rcases hlt with h | h
  · obtain ⟨e1, e2, e3⟩ := step h m1 n1
    exact fin e1 e2 e3 (m2 (by rw [e1]; norm_num)) (n2 (by rw [e2]; norm_num))
  · obtain ⟨e1, e2, e3⟩ := step h n1 m1
    exact fin e1 e2 e3 (n2 (by rw [e1]; norm_num)) (m2 (by rw [e2]; norm_num))

/-! ## Fixed point -/

/-- `FixEnc`, all of it (R142). -/
theorem fixEnc_code (v : Phys) (w f : Nat) (fld : FieldId) :
    FixCode v w f fld.code (fixEnc v w f fld).1 (fixEnc v w f fld).2 := by
  refine ⟨roundDiv (v.toInt * 2 ^ f) (2 ^ 32), ?_, ?_⟩
  · have := roundDiv_isRound (v.toInt * 2 ^ f) (2 ^ 32) (by positivity)
    have e : value v * 2 ^ f = (((v.toInt * 2 ^ f : Int) : ℚ)) / ((2 ^ 32 : Nat) : ℚ) := by
      unfold value; push_cast; ring
    rw [e]; exact this
  · have hp : (0 : Int) < 2 ^ (w - 1) := by positivity
    simp only [fixEnc, Config.physFrac, note]
    set s := roundDiv (v.toInt * 2 ^ f) (2 ^ 32)
    by_cases h1 : s < -(2 ^ (w - 1))
    · rw [if_pos h1]
      have e : clampTo w s = -(2 ^ (w - 1)) := by unfold clampTo; omega
      rw [e]
      refine ⟨rfl, ?_⟩
      rw [if_neg (by omega)]; rfl
    · rw [if_neg h1]
      by_cases h2 : 2 ^ (w - 1) - 1 < s
      · rw [if_pos h2]
        have e : clampTo w s = 2 ^ (w - 1) - 1 := by unfold clampTo; omega
        rw [e]
        refine ⟨rfl, ?_⟩
        rw [if_neg (by omega)]; rfl
      · rw [if_neg h2]
        have e : clampTo w s = s := by unfold clampTo; omega
        rw [e, if_pos rfl]
        exact ⟨rfl, rfl⟩

/-- A fixed-point pattern fits its field (R142). -/
theorem FixCode.lt {v : Phys} {w f fld raw : Nat} {ds : List DiagEntry}
    (h : FixCode v w f fld raw ds) : raw < 2 ^ w := by
  obtain ⟨n, -, rfl, -⟩ := h
  have h1 : (0 : Int) < 2 ^ w := by positivity
  have h2 := Int.emod_lt_of_pos (clampTo w n) h1
  have h3 := Int.emod_nonneg (clampTo w n) h1.ne'
  have : ((2 ^ w : Nat) : Int) = 2 ^ w := by push_cast; rfl
  omega

theorem sext_eq_signed {w r : Nat} (hr : r < 2 ^ w) : sext w r = signed w r := by
  have hs : BitVec.toNat (BitVec.ofNat w r) = r := by simp [Nat.mod_eq_of_lt hr]
  rw [sext, signed, BitVec.toInt_eq_msb_cond, BitVec.msb_eq_getLsbD_last, hs]
  have : (BitVec.ofNat w r).getLsbD (w - 1) = r.testBit (w - 1) := by
    rw [BitVec.getLsbD, hs]
  rw [this]
  push_cast
  rfl

theorem signed_range {w r : Nat} :
    -(2 ^ (w - 1) : Int) ≤ signed w r ∧ signed w r < 2 ^ (w - 1) :=
  ⟨BitVec.le_toInt _, BitVec.toInt_lt⟩

/-- `FixDec`, all of it: the port form of its result is exact (R143, R151). -/
theorem fixDec_value {r w f : Nat} (hr : r < 2 ^ w) (hf : f ≤ 32) (hwf : w ≤ f + 32) :
    value (physOf (fixDec r w f)) = fixValue r w f := by
  obtain ⟨h1, h2⟩ := signed_range (w := w) (r := r)
  have hp : (0 : Int) < 2 ^ (32 - f) := by positivity
  have he : fixDec r w f = signed w r * 2 ^ (32 - f) := by rw [fixDec, sext_eq_signed hr]
  have hle : (2 : Int) ^ (w - 1) * 2 ^ (32 - f) ≤ 2 ^ 63 := by
    rw [← pow_add]
    exact pow_le_pow_right₀ (by norm_num) (by omega)
  rw [value_physOf]
  · rw [he, fixValue]
    have : (2 : ℚ) ^ 32 = 2 ^ f * 2 ^ (32 - f) := by rw [← pow_add]; congr 1; omega
    rw [this]
    push_cast
    field_simp
  · rw [he]; nlinarith
  · rw [he]; nlinarith

/-! ## Uncertainty -/

/-- `clog2Nat` is the least power of two that reaches the number (R146). -/
theorem clog2Nat_spec {n : Nat} (h : 0 < n) :
    n ≤ 2 ^ clog2Nat n ∧ 2 ^ clog2Nat n < 2 * n := by
  unfold clog2Nat
  split
  · have : n = 1 := by omega
    subst this; norm_num
  · have hn : n - 1 ≠ 0 := by omega
    have h1 := Nat.lt_log2_self (n := n - 1)
    have h2 := Nat.log2_self_le hn
    rw [pow_succ] at *
    omega

/-- `clog2` is the function of R146. -/
theorem clog2_isClog2 {v : Phys} (h : 0 < v.toInt) : IsClog2 (value v) (clog2 v.toNat) := by
  have hn : (v.toInt : Int) = v.toNat := by
    rw [BitVec.toInt_eq_toNat_cond] at h ⊢
    split
    · rfl
    · next hc => rw [if_neg hc] at h; have := v.isLt; omega
  have hpos : 0 < v.toNat := by omega
  obtain ⟨h1, h2⟩ := clog2Nat_spec hpos
  have hv : value v = (v.toNat : ℚ) / 2 ^ 32 := by rw [value, hn, Int.cast_natCast]
  have q1 : (v.toNat : ℚ) ≤ 2 ^ clog2Nat v.toNat := by exact_mod_cast h1
  have q2 : (2 : ℚ) ^ clog2Nat v.toNat < 2 * v.toNat := by exact_mod_cast h2
  have hz : ∀ k : Int, (2 : ℚ) ^ (k - 32) = 2 ^ k / 2 ^ 32 := by
    intro k; rw [zpow_sub₀ (by norm_num)]; norm_cast
  constructor
  · rw [hv, clog2, show ((clog2Nat v.toNat : Int) - Config.physFrac - 1)
      = ((clog2Nat v.toNat : Int) - 1) - 32 by simp; ring, hz, zpow_sub₀ (by norm_num)]
    rw [div_lt_div_iff_of_pos_right (by norm_num)]
    rw [zpow_natCast, zpow_one, div_lt_iff₀ (by norm_num)]
    linarith
  · rw [hv, clog2, show ((clog2Nat v.toNat : Int) - Config.physFrac)
      = (clog2Nat v.toNat : Int) - 32 by simp, hz, div_le_div_iff_of_pos_right (by norm_num)]
    rw [zpow_natCast]
    exact q1

/-- There is one logarithm (R146). -/
theorem IsClog2.unique {q : ℚ} {j k : ℤ} (hj : IsClog2 q j) (hk : IsClog2 q k) : j = k := by
  have step : ∀ {j k : ℤ}, IsClog2 q j → IsClog2 q k → k ≤ j := by
    intro j k h1 h2
    have := h2.1.trans_le h1.2
    have := (zpow_lt_zpow_iff_right₀ (by norm_num : (1 : ℚ) < 2)).1 this
    omega
  exact le_antisymm (step hk hj) (step hj hk)

/-- `UncEnc`, all of it (R147). -/
theorem uncEnc_code (v : Phys) (m : Int) (max : Nat) (zs : Bool) (fld : FieldId) :
    UncCode v m max zs fld.code (uncEnc v m max zs fld).1 (uncEnc v m max zs fld).2 := by
  rcases lt_trichotomy v.toInt 0 with h | h | h
  · left
    refine ⟨(value_neg_iff v).2 h, ?_, ?_⟩ <;>
      simp [uncEnc, h.le, h, noteIf, note, Cause.kind]
  · right; left
    have hv : v = 0 := BitVec.eq_of_toInt_eq (by rw [h]; rfl)
    subst hv
    exact ⟨(value_eq_zero_iff 0).2 rfl, by simp [uncEnc], by simp [uncEnc, noteIf]⟩
  · right; right
    refine ⟨(value_pos_iff v).2 h, clog2 v.toNat, clog2_isClog2 h, ?_⟩
    have hn : ¬ v.toInt ≤ 0 := by omega
    unfold uncEnc
    rw [if_neg hn]
    simp only
    by_cases h1 : m - clog2 v.toNat ≤ 0
    · left; rw [if_pos h1]; exact ⟨h1, rfl, rfl⟩
    · rw [if_neg h1]
      by_cases h2 : (max : Int) < m - clog2 v.toNat
      · right; left; rw [if_pos h2]; exact ⟨h2, rfl, rfl⟩
      · right; right; rw [if_neg h2]
        refine ⟨by omega, by omega, ?_, rfl⟩
        simp; omega

/-- An uncertainty code fits its range (R147). -/
theorem UncCode.le {v : Phys} {m : ℤ} {max fld code : Nat} {zs : Bool} {ds : List DiagEntry}
    (h : UncCode v m max zs fld code ds) : code ≤ max ∨ code = 1 := by
  rcases h with ⟨-, rfl, -⟩ | ⟨-, rfl, -⟩ | ⟨-, k, -, ⟨-, rfl, -⟩ | ⟨-, rfl, -⟩ | ⟨-, h, h', -⟩⟩
  · split <;> omega
  · split <;> omega
  · exact .inr rfl
  · exact .inl le_rfl
  · omega

/-- `UncDec`, all of it: the port form of its result is exact (R148, R151). -/
theorem uncDec_value {c max : Nat} {m : Int} (fld : FieldId) (h1 : 1 ≤ max) (h2 : m ≤ 31)
    (h3 : -32 ≤ m - max) :
    value (physOf (uncDec c m max fld).1) = uncValue c m max ∧
      (uncDec c m max fld).2 = uncNotes c max fld.code := by
  unfold uncDec uncValue uncNotes
  by_cases hc : c = 0
  · subst hc
    refine ⟨?_, by simp⟩
    rw [if_pos rfl, if_pos rfl, value_physOf (by norm_num) (by norm_num)]; norm_num
  · rw [if_neg hc, if_neg hc]
    refine ⟨?_, ?_⟩
    · simp only [Config.physFrac]
      set e : Nat := (m - (min c max : Nat) + 32).toNat with he
      have hee : (e : Int) = m - (min c max : Nat) + 32 := by omega
      have hle : (2 : Int) ^ e ≤ 2 ^ 62 := pow_le_pow_right₀ (by norm_num) (by omega)
      have hpos : (0 : Int) < 2 ^ e := by positivity
      have : (m - ((min c max : Nat) : Int) + ((32 : Nat) : Int)).toNat = e := by
        rw [he]; rfl
      rw [show (2 : Int) ^ (m - ((min c max : Nat) : Int) + ((32 : Nat) : Int)).toNat = 2 ^ e by rw [this]]
      rw [value_physOf (by linarith) (by linarith),
        show m - ((min c max : Nat) : Int) = (e : Int) - 32 by omega, zpow_sub₀ (by norm_num)]
      push_cast
      norm_cast
    · simp only [noteIf, note, Cause.kind]
      by_cases h : max < c <;> simp [h]

end Sys2Proof.Machine
end

