-- ==== Sys2Proof/Laws/Readings.lean ====
section
/-! SUPPORT. The access primitives in the terms of Safety.lean: what each reads and writes, said once,
as numbers of the octets of the buffer. -/

namespace Sys2Proof.Machine

/-! ## Octets -/

/-- Reading an octet, all of it (R53). -/
theorem octRead_eq (s : State) (i : Nat) : octRead s i =
    if s.olen ≤ i then .error .bounds
    else if s.digitsOk i then .ok (s.octet i) else .error (.malformed i) := by
  unfold octRead State.digitsOk State.octet
  split
  · rfl
  · rcases hexval (s.chr (2 * i)) with _ | h <;> rcases hexval (s.chr (2 * i + 1)) with _ | l <;> rfl

theorem octRead_ok {s : State} {i : Nat} (hi : i < s.olen) (h : s.digitsOk i = true) :
    octRead s i = .ok (s.octet i) := by rw [octRead_eq, if_neg (by omega), if_pos h]

theorem octRead_bad {s : State} {i : Nat} (hi : i < s.olen) (h : s.digitsOk i = false) :
    octRead s i = .error (.malformed i) := by rw [octRead_eq, if_neg (by omega), h]; rfl

@[simp] theorem octets_length (s : State) (p n : Nat) : (s.octets p n).length = n := by
  simp [State.octets]

theorem octets_getElem (s : State) (p n i : Nat) (h : i < (s.octets p n).length) :
    (s.octets p n)[i] = s.octet (p + i) := by simp [State.octets]

/-- No octet of a range is bad exactly when each holds two digits. -/
theorem firstBad_none_iff (s : State) (p n : Nat) :
    s.firstBad p n = none ↔ ∀ i < n, s.digitsOk (p + i) = true := by
  simp [State.firstBad]

/-- The lowest number of a range that meets a test. -/
theorem find_range_some_iff (f : Nat → Bool) (p n j : Nat) :
    ((List.range n).map (p + ·)).find? f = some j ↔
      p ≤ j ∧ j < p + n ∧ f j = true ∧ ∀ i, p ≤ i → i < j → f i = false := by
  induction n generalizing p with
  | zero =>
    simp only [List.range_zero, List.map_nil, List.find?_nil]
    constructor
    · intro h; cases h
    · rintro ⟨h1, h2, -⟩; omega
  | succ n ih =>
    have hstep : ((List.range (n + 1)).map (p + ·)).find? f =
        if f p then some p else ((List.range n).map (p + 1 + ·)).find? f := by
      rw [List.range_succ_eq_map, List.map_cons, List.find?_cons, Nat.add_zero]
      cases f p
      · simp only [List.map_map]
        congr 2
        funext i; simp; omega
      · rfl
    rw [hstep]
    rcases hp : f p with _ | _
    · simp only [Bool.false_eq_true, if_false]
      rw [ih (p + 1)]
      constructor
      · rintro ⟨h1, h2, h3, h4⟩
        refine ⟨by omega, by omega, h3, fun i hi hij => ?_⟩
        rcases Nat.eq_or_lt_of_le hi with rfl | h
        · exact hp
        · exact h4 i h hij
      · rintro ⟨h1, h2, h3, h4⟩
        have : j ≠ p := by rintro rfl; rw [hp] at h3; cases h3
        exact ⟨by omega, by omega, h3, fun i hi hij => h4 i (by omega) hij⟩
    · simp only [if_true, Option.some.injEq]
      constructor
      · rintro rfl; exact ⟨le_refl _, by omega, hp, by omega⟩
      · rintro ⟨h1, h2, h3, h4⟩
        by_contra hne
        have := h4 p (le_refl _) (by omega)
        rw [hp] at this; cases this

/-- The first bad octet of a range is bad, and those below it are not. -/
theorem firstBad_some_iff (s : State) (p n j : Nat) : s.firstBad p n = some j ↔
    p ≤ j ∧ j < p + n ∧ s.digitsOk j = false ∧ ∀ i, p ≤ i → i < j → s.digitsOk i = true := by
  rw [State.firstBad, find_range_some_iff]; simp

theorem firstBad_le {s : State} {p n j : Nat} (h : s.firstBad p n = some j) : p ≤ j ∧ j < p + n :=
  ⟨((firstBad_some_iff s p n j).1 h).1, ((firstBad_some_iff s p n j).1 h).2.1⟩

/-- Payload validation inside the buffer: the octets, or the first bad one (R170, R180, R190). -/
theorem octetList_eq {s : State} {p n : Nat} (h : p + n ≤ s.olen) : octetList s p n =
    match s.firstBad p n with
    | some j => .error (.malformed j)
    | none => .ok (s.octets p n) := by
  rcases hb : s.firstBad p n with _ | j
  · rw [firstBad_none_iff] at hb
    refine (octetList_ok_iff s n p _).2 ⟨by simp, fun i hi => ?_⟩
    rw [octets_getElem]
    rw [octets_length] at hi
    exact octRead_ok (by omega) (hb i hi)
  · obtain ⟨h1, h2, h3, h4⟩ := (firstBad_some_iff s p n j).1 hb
    rcases hr : octetList s p n with a | os
    · obtain ⟨i, hi, he, hok⟩ := octetList_error n hr
      rcases Nat.lt_trichotomy (p + i) j with hlt | heq | hgt
      · rw [octRead_ok (by omega) (h4 _ (by omega) hlt)] at he; cases he
      · subst heq
        rw [octRead_bad (by omega) h3] at he
        cases he; rfl
      · obtain ⟨o, ho⟩ := hok (j - p) (by omega)
        rw [show p + (j - p) = j by omega, octRead_bad (by omega) h3] at ho
        cases ho
    · obtain ⟨hl, hg⟩ := (octetList_ok_iff s n p os).1 hr
      have := hg (j - p) (by omega)
      rw [show p + (j - p) = j by omega, octRead_bad (by omega) h3] at this
      cases this

/-! ## Big-endian numbers -/

/-- A bad octet inside a range keeps its number from being read (R57). -/
theorem octetsFrom_ne_ok {s : State} {j : Nat} {a : Abort} (n : Nat) : ∀ {p acc v : Nat},
    p ≤ j → j < p + n → octRead s j = .error a → octetsFrom s p acc n ≠ .ok v := by
  induction n with
  | zero => intro p acc v h1 h2; omega
  | succ n ih =>
    intro p acc v h1 h2 ha h
    rw [octetsFrom] at h
    rcases Nat.eq_or_lt_of_le h1 with rfl | hlt
    · rw [ha] at h; cases h
    · rcases ho : octRead s p with b | o
      · rw [ho] at h; cases h
      · rw [ho] at h
        exact ih hlt (by omega) ha (by simpa [bind, Except.bind] using h)

/-- `MemRead` inside the buffer: the big-endian number, or the first bad octet (R57). -/
theorem memRead_eq {s : State} {p n : Nat} (h : p + n ≤ s.olen) : memRead s p n =
    match s.firstBad p n with
    | some j => .error (.malformed j)
    | none => .ok (bigEndianOf (s.octets p n)) := by
  rw [memRead, if_neg (by omega)]
  rcases hb : s.firstBad p n with _ | j
  · rw [firstBad_none_iff] at hb
    have := octetsFrom_ok s (s.octets p n) p 0 fun i hi => by
      rw [octets_getElem]
      rw [octets_length] at hi
      exact octRead_ok (by omega) (hb i hi)
    rw [octets_length] at this
    exact this
  · obtain ⟨h1, h2, h3, h4⟩ := (firstBad_some_iff s p n j).1 hb
    have hbad := octRead_bad (by omega : j < s.olen) h3
    rcases hr : octetsFrom s p 0 n with a | v
    · obtain ⟨i, hi, he, hok⟩ := octetsFrom_error n hr
      rcases Nat.lt_trichotomy (p + i) j with hlt | heq | hgt
      · rw [octRead_ok (by omega) (h4 _ (by omega) hlt)] at he; cases he
      · subst heq
        rw [hbad] at he
        cases he; rfl
      · obtain ⟨o, ho⟩ := hok (j - p) (by omega)
        rw [show p + (j - p) = j by omega, hbad] at ho
        cases ho
    · exact absurd hr (octetsFrom_ne_ok n h1 h2 hbad)

/-- A big-endian number is below `256` to its octets (R57). -/
theorem bigEndianOf_lt (os : List Byte) : bigEndianOf os < 256 ^ os.length := by
  have key : ∀ (os : List Byte) (acc : Nat),
      os.foldl (fun acc o => 256 * acc + o.toNat) acc < (acc + 1) * 256 ^ os.length := by
    intro os
    induction os with
    | nil => intro acc; simp
    | cons o os ih =>
      intro acc
      have ho := o.isLt
      refine (ih _).trans_le ?_
      rw [List.length_cons, pow_succ, show (acc + 1) * (256 ^ os.length * 256)
        = (256 * (acc + 1)) * 256 ^ os.length by ring]
      refine Nat.mul_le_mul_right _ ?_
      show 256 * acc + o.toNat + 1 ≤ _
      omega
  simpa [bigEndianOf] using key os 0

/-- The stored octets of a number give the number back (R57, R58). -/
theorem bigEndianOf_bigEndian (v n : Nat) : bigEndianOf (bigEndian v n) = v % 256 ^ n := by
  rw [bigEndianOf, bigEndian_foldl]; simp

/-! ## Little-endian numbers and bits -/

@[simp] theorem littleEndian_nil : littleEndian [] = 0 := rfl

@[simp] theorem littleEndian_cons (o : Byte) (os : List Byte) :
    littleEndian (o :: os) = o.toNat + 256 * littleEndian os := rfl

/-- Bit `k` of octets read least significant first is bit `k mod 8` of octet `k div 8` (R50). -/
theorem littleEndian_testBit (os : List Byte) : ∀ k,
    (littleEndian os).testBit k = (os.getD (k / 8) 0).getLsbD (k % 8) := by
  induction os with
  | nil => intro k; simp
  | cons o os ih =>
    intro k
    rw [littleEndian_cons, show o.toNat + 256 * littleEndian os
      = 2 ^ 8 * littleEndian os + o.toNat by omega, Nat.testBit_two_pow_mul_add _ o.isLt]
    by_cases hk : k < 8
    · rw [if_pos hk, Nat.div_eq_of_lt hk, Nat.mod_eq_of_lt hk]; rfl
    · rw [if_neg hk, ih]
      have h1 : k / 8 = (k - 8) / 8 + 1 := by omega
      have h2 : k % 8 = (k - 8) % 8 := by omega
      rw [h1, h2]; rfl

/-- Bit `i` of a bit field (R55). -/
theorem bitField_testBit (os : List Byte) (off w i : Nat) : (bitField os off w).testBit i =
    (decide (i < w) && (os.getD ((off + i) / 8) 0).getLsbD ((off + i) % 8)) := by
  rw [bitField, Nat.testBit_mod_two_pow, Nat.testBit_div_two_pow, littleEndian_testBit,
    Nat.add_comm i off]

theorem bitField_lt (os : List Byte) (off w : Nat) : bitField os off w < 2 ^ w :=
  Nat.mod_lt _ (Nat.two_pow_pos w)

theorem octets_getD (s : State) (p n i : Nat) (h : i < n) :
    (s.octets p n).getD i 0 = s.octet (p + i) := by
  rw [List.getD_eq_getElem _ _ (by simpa using h), octets_getElem]

/-- `BitRead` inside the buffer: the field of the touched octets, or the first bad one (R55). -/
theorem bitRead_eq {s : State} {off n : Nat} (h : off + n ≤ 8 * s.olen) : bitRead s off n =
    match s.firstBad (off / 8) (touched off n) with
    | some j => .error (.malformed j)
    | none => .ok (bitField (s.octets (off / 8) (touched off n)) (off % 8) n) := by
  rw [bitRead_of_le h]
  have ht : n ≠ 0 → touched off n = (off + n - 1) / 8 - off / 8 + 1 := fun hn => by
    rw [touched, if_neg hn]
  rcases hb : s.firstBad (off / 8) (touched off n) with _ | j
  · rw [firstBad_none_iff] at hb
    refine (bitsFrom_ok_iff s n off _).2 ⟨bitField_lt _ _ _, fun i hi => ?_⟩
    have hn := ht (by omega)
    have hin : (off + i) / 8 - off / 8 < touched off n := by rw [hn]; omega
    have hok := hb ((off + i) / 8 - off / 8) hin
    rw [show off / 8 + ((off + i) / 8 - off / 8) = (off + i) / 8 by omega] at hok
    refine ⟨_, octRead_ok (by omega) hok, ?_⟩
    rw [bitField_testBit, decide_eq_true hi, Bool.true_and,
      show (off % 8 + i) / 8 = (off + i) / 8 - off / 8 by omega, octets_getD _ _ _ _ hin,
      show off / 8 + ((off + i) / 8 - off / 8) = (off + i) / 8 by omega]
    congr 1; omega
  · obtain ⟨h1, h2, h3, h4⟩ := (firstBad_some_iff s _ _ j).1 hb
    have hn0 : n ≠ 0 := by rintro rfl; simp [touched] at h2; omega
    rw [ht hn0] at h2
    have hbad := octRead_bad (by omega : j < s.olen) h3
    rcases hr : bitsFrom s off n with a | v
    · obtain ⟨i, hi, he, hok⟩ := bitsFrom_error n hr
      rcases Nat.lt_trichotomy ((off + i) / 8) j with hlt | heq | hgt
      · rw [octRead_ok (by omega) (h4 _ (by omega) hlt)] at he; cases he
      · rw [heq, hbad] at he
        cases he; rfl
      · obtain ⟨o, ho⟩ := hok (max off (8 * j) - off) (by omega)
        rw [show (off + (max off (8 * j) - off)) / 8 = j by omega, hbad] at ho
        cases ho
    · obtain ⟨-, hbits⟩ := (bitsFrom_ok_iff s n off v).1 hr
      obtain ⟨o, ho, -⟩ := hbits (max off (8 * j) - off) (by omega)
      rw [show (off + (max off (8 * j) - off)) / 8 = j by omega, hbad] at ho
      cases ho

/-! ## Stored characters -/

theorem hexchar_eq_lowerDigit (n : BitVec 4) : hexchar n = lowerDigit n.toNat := by
  revert n; decide

@[simp] theorem hexText_nil : hexText [] = [] := rfl

@[simp] theorem hexText_cons (o : Byte) (os : List Byte) : hexText (o :: os) =
    lowerDigit (o.toNat / 16) :: lowerDigit (o.toNat % 16) :: hexText os := rfl

@[simp] theorem hexText_length (os : List Byte) : (hexText os).length = 2 * os.length := by
  induction os with
  | nil => rfl
  | cons o os ih => simp [ih]; omega

/-- Storing nothing stores nothing. -/
theorem stored_nil (s : State) (c : Nat) : Stored s.hex s c [] := by
  intro k; simp [State.chr]

/-- Writing a list of characters stores it. -/
theorem stored_writeList (s : State) (c : Nat) (vs : List Byte) :
    Stored (Memory.writeList s.hex c vs) s c vs := by
  intro k
  rw [Memory.read_writeList]
  by_cases h1 : c ≤ k
  · rw [if_pos h1]
    by_cases h2 : k - c < vs.length
    · simp [h1, h2]
    · rw [List.getElem?_eq_none (by omega)]; simp [h2, State.chr]
  · rw [if_neg h1]; simp [h1, State.chr]

/-- Storing octets stores their lowercase text (R54). -/
theorem stored_putOctets (vs : List Byte) : ∀ (s : State) (p : Nat),
    Stored (putOctets s p vs).hex s (2 * p) (hexText vs) := by
  induction vs with
  | nil => intro s p; exact stored_nil s _
  | cons v vs ih =>
    intro s p k
    rw [putOctets, ih (putOctet s p v) (p + 1) k, hexText_cons]
    have hh : hexchar (v.extractLsb' 4 4) = lowerDigit (v.toNat / 16) := by
      rw [hexchar_eq_lowerDigit]; congr 1; have := v.isLt; simp [Nat.shiftRight_eq_div_pow]; omega
    have hl : hexchar (v.extractLsb' 0 4) = lowerDigit (v.toNat % 16) := by
      rw [hexchar_eq_lowerDigit]; congr 1
    rw [putOctet_chr, hh, hl]
    by_cases h1 : 2 * (p + 1) ≤ k
    · rw [if_pos h1, if_pos (by omega : 2 * p ≤ k), if_neg (by omega), if_neg (by omega),
        show k - 2 * p = (k - 2 * (p + 1)) + 1 + 1 by omega]
      rfl
    · rw [if_neg h1]
      by_cases h2 : 2 * p ≤ k
      · rw [if_pos h2]
        rcases (by omega : k = 2 * p ∨ k = 2 * p + 1) with rfl | rfl
        · simp
        · simp
      · rw [if_neg h2, if_neg (by omega), if_neg (by omega)]

/-! ## Writing bits -/

theorem firstBadPartly_none_iff (s : State) (off n : Nat) : s.firstBadPartly off n = none ↔
    ∀ i < touched off n, s.digitsOk (off / 8 + i) = true ∨
      (off ≤ 8 * (off / 8 + i) ∧ 8 * (off / 8 + i) + 8 ≤ off + n) := by
  simp only [State.firstBadPartly, List.find?_eq_none, List.mem_map, List.mem_range,
    forall_exists_index, and_imp, forall_apply_eq_imp_iff₂]
  refine forall₂_congr fun i _ => ?_
  cases s.digitsOk (off / 8 + i) <;> simp

theorem firstBadPartly_some_iff (s : State) (off n j : Nat) : s.firstBadPartly off n = some j ↔
    off / 8 ≤ j ∧ j < off / 8 + touched off n ∧
      (s.digitsOk j = false ∧ ¬(off ≤ 8 * j ∧ 8 * j + 8 ≤ off + n)) ∧
      ∀ i, off / 8 ≤ i → i < j → s.digitsOk i = true ∨ (off ≤ 8 * i ∧ 8 * i + 8 ≤ off + n) := by
  have h : ∀ i, (!s.digitsOk i && !(decide (off ≤ 8 * i) && decide (8 * i + 8 ≤ off + n))) = true ↔
      s.digitsOk i = false ∧ ¬(off ≤ 8 * i ∧ 8 * i + 8 ≤ off + n) := by
    intro i; cases s.digitsOk i <;> simp; omega
  have h' : ∀ i, (!s.digitsOk i && !(decide (off ≤ 8 * i) && decide (8 * i + 8 ≤ off + n))) = false ↔
      s.digitsOk i = true ∨ (off ≤ 8 * i ∧ 8 * i + 8 ≤ off + n) := by
    intro i; cases s.digitsOk i <;> simp
  rw [State.firstBadPartly, find_range_some_iff]
  simp only [h, h']

/-- `BitWrite` inside the buffer fails at the first partly covered octet that is bad (R56). -/
theorem bitWrite_bad {s : State} {off n j : Nat} {v : Word64} (h : off + n ≤ 8 * s.olen)
    (hb : s.firstBadPartly off n = some j) : bitWrite s off n v = .error (.malformed j) := by
  obtain ⟨h1, h2, ⟨h3, h4⟩, h5⟩ := (firstBadPartly_some_iff s off n j).1 hb
  have hn : n ≠ 0 := by rintro rfl; simp [touched] at h2; omega
  have ht : touched off n = (off + n - 1) / 8 + 1 - off / 8 := by rw [touched, if_neg hn]; omega
  rw [ht] at h2
  have hj : oldOctet s off n j = .error (.malformed j) := by
    rw [oldOctet, if_neg h4, octRead_bad (by omega) h3]
  have hlow : ∀ i, off / 8 ≤ i → i < j → ∃ o, oldOctet s off n i = .ok o := by
    intro i hi hij
    rw [oldOctet]
    split
    · exact ⟨0, rfl⟩
    · next hc =>
      rcases h5 i hi hij with h | h
      · exact ⟨_, octRead_ok (by omega) h⟩
      · exact absurd h hc
  rw [bitWrite, if_neg (by omega), if_neg hn]
  rcases hm : mergeOctets s off n v (off / 8) ((off + n - 1) / 8 + 1 - off / 8) with a | os
  · obtain ⟨i, hi, he, hok⟩ := mergeOctets_error _ hm
    have ha : a = .malformed j := by
      rcases Nat.lt_trichotomy (off / 8 + i) j with hlt | heq | hgt
      · obtain ⟨o, ho⟩ := hlow _ (by omega) hlt
        rw [ho] at he; cases he
      · rw [heq, hj] at he; cases he; rfl
      · obtain ⟨o, ho⟩ := hok (j - off / 8) (by omega)
        rw [show off / 8 + (j - off / 8) = j by omega, hj] at ho; cases ho
    simp only [hm, bind, Except.bind, ha]
  · exfalso
    have key : ∀ (k i : Nat) os, i ≤ j → j < i + k → mergeOctets s off n v i k ≠ .ok os := by
      intro k
      induction k with
      | zero => intro i os h1 h2; omega
      | succ k ih =>
        intro i os h1 h2 hm
        rw [mergeOctets] at hm
        rcases Nat.eq_or_lt_of_le h1 with rfl | hlt
        · rw [hj] at hm; cases hm
        · rcases ho : oldOctet s off n i with a | o
          · rw [ho] at hm; cases hm
          · rcases hr : mergeOctets s off n v (i + 1) k with a | rest
            · rw [ho, hr] at hm; cases hm
            · exact ih (i + 1) rest hlt (by omega) hr
    exact key _ _ _ h1 (by omega) hm

/-- `BitWrite` inside the buffer, when no partly covered octet is bad: the bits of the range come from
`v`, the others of the touched octets are as they were (R56). -/
theorem bitWrite_good {s : State} {off n : Nat} {v : Word64} (h : off + n ≤ 8 * s.olen)
    (hb : s.firstBadPartly off n = none) : ∃ os,
    bitWrite s off n v = .ok (putOctets s (off / 8) os) ∧ os.length = touched off n ∧
      ∀ k < 8 * os.length, (littleEndian os).testBit k =
        if off % 8 ≤ k ∧ k < off % 8 + n then v.getLsbD (k - off % 8)
        else (littleEndian (s.octets (off / 8) os.length)).testBit k := by
  rw [firstBadPartly_none_iff] at hb
  by_cases hn : n = 0
  · subst hn
    refine ⟨[], ?_, by simp [touched], by simp⟩
    rw [bitWrite, if_neg (by omega), if_pos rfl]; rfl
  · have ht : touched off n = (off + n - 1) / 8 + 1 - off / 8 := by rw [touched, if_neg hn]; omega
    rw [ht] at hb ⊢
    have hold : ∀ i < (off + n - 1) / 8 + 1 - off / 8, ∃ o, oldOctet s off n (off / 8 + i) = .ok o ∧
        (¬(off ≤ 8 * (off / 8 + i) ∧ 8 * (off / 8 + i) + 8 ≤ off + n) → o = s.octet (off / 8 + i)) := by
      intro i hi
      rw [oldOctet]
      split
      · next hc => exact ⟨0, rfl, fun hc' => absurd hc hc'⟩
      · next hc =>
        rcases hb i hi with h | h
        · exact ⟨_, octRead_ok (by omega) h, fun _ => rfl⟩
        · exact absurd h hc
    obtain ⟨os, hos, hlen, hget⟩ := mergeOctets_ok s off n v _ (off / 8)
      fun i hi => ⟨_, (hold i hi).choose_spec.1⟩
    refine ⟨os, ?_, hlen, fun k hk => ?_⟩
    · rw [bitWrite, if_neg (by omega), if_neg hn]
      simp only [hos, bind, Except.bind]
    · have hkl : k / 8 < os.length := by omega
      obtain ⟨o, ho, hg⟩ := hget (k / 8) hkl
      rw [littleEndian_testBit, List.getD_eq_getElem _ _ hkl, hg,
        mergeOctet_getLsbD _ _ _ _ _ _ (by omega)]
      by_cases hin : off % 8 ≤ k ∧ k < off % 8 + n
      · rw [if_pos hin, if_pos (by omega)]
        congr 1; omega
      · rw [if_neg hin, if_neg (by omega), littleEndian_testBit, octets_getD _ _ _ _ hkl]
        obtain ⟨o', ho', hoct⟩ := hold (k / 8) (by omega)
        rw [ho] at ho'
        cases ho'
        rw [hoct (by omega)]

/-- The octets of `MemWrite` (R58). -/
theorem bigEndian_lowOctets (v : Word64) (n : Nat) : bigEndian v.toNat n = lowOctets v n := by
  apply List.ext_getElem
  · simp [lowOctets]
  · intro i h1 h2
    have key : ∀ (n i : Nat) (h : i < (bigEndian v.toNat n).length),
        (bigEndian v.toNat n)[i] = BitVec.ofNat 8 (v.toNat / 256 ^ (n - 1 - i)) := by
      intro n
      induction n with
      | zero => intro i h; simp at h
      | succ n ih =>
        intro i h
        cases i with
        | zero => simp [bigEndian]
        | succ i =>
          simp only [bigEndian, List.getElem_cons_succ]
          rw [ih]
          congr 3; omega
    rw [key]
    simp only [lowOctets, List.getElem_map, List.getElem_range]
    apply BitVec.eq_of_toNat_eq
    rw [BitVec.toNat_setWidth, BitVec.toNat_ushiftRight, BitVec.toNat_ofNat,
      Nat.shiftRight_eq_div_pow, show (256 : Nat) = 2 ^ 8 by rfl, ← pow_mul]

end Sys2Proof.Machine
end

