-- ==== Sys2Proof/Laws/Payloads.lean ====
section
/-! SUPPORT. The payloads the encoders write and what the decoders read from them, in the terms of
Safety.lean (spec/43_location.md to spec/46_bssid.md). -/

namespace Sys2Proof.Machine

/-! ## The location payload -/

theorem toNat_append_eq {n m : Nat} (x : BitVec n) (y : BitVec m) :
    (x ++ y).toNat = y.toNat + 2 ^ m * x.toNat := by
  rw [BitVec.toNat_append, ← Nat.shiftLeft_add_eq_or_of_lt y.isLt, Nat.shiftLeft_eq]; ring

/-- The octets of an image read least significant first are the image (R172). -/
theorem littleEndian_imageOctets (v : BitVec 128) : littleEndian (imageOctets v) = v.toNat := by
  have h := v.isLt
  simp only [imageOctets, List.range, List.range.loop, List.map, littleEndian_cons,
    littleEndian_nil, BitVec.extractLsb'_toNat, Nat.shiftRight_eq_div_pow]
  omega

@[simp] theorem imageOctets_length (v : BitVec 128) : (imageOctets v).length = 16 := rfl

/-- The number of a location image, its fields from the lowest bit upwards (R84). -/
def locNumber (a1 a2 a3 a4 a5 a6 a7 a8 a9 a10 a11 a12 : Nat) : Nat :=
  a1 + 2 ^ 6 * (a2 + 2 ^ 34 * (a3 + 2 ^ 6 * (a4 + 2 ^ 34 * (a5 + 2 ^ 4 * (a6
    + 2 ^ 6 * (a7 + 2 ^ 30 * (a8 + 2 ^ 3 * (a9 + 2 ^ 1 * (a10 + 2 ^ 1 * (a11 + 2 ^ 1 * a12))))))))))

/-- The low field of a number, and what stands above it. -/
theorem low_field {a m n : Nat} (h : a < m) : (a + m * n) % m = a ∧ (a + m * n) / m = n :=
  ⟨by rw [Nat.add_mul_mod_self_left, Nat.mod_eq_of_lt h],
   by rw [Nat.add_mul_div_left _ _ (by omega), Nat.div_eq_of_lt h, Nat.zero_add]⟩

/-- What stands above the next field of a number. -/
theorem next_field {n i j a r : Nat} (h : n / 2 ^ i = a + 2 ^ j * r) (ha : a < 2 ^ j) :
    n / 2 ^ (i + j) = r := by
  rw [pow_add, ← Nat.div_div_eq_div_mul, h]; exact (low_field ha).2

/-- The twelve fields of a location number (R84). -/
theorem locNumber_fields {a1 a2 a3 a4 a5 a6 a7 a8 a9 a10 a11 a12 : Nat} (h1 : a1 < 2 ^ 6)
    (h2 : a2 < 2 ^ 34) (h3 : a3 < 2 ^ 6) (h4 : a4 < 2 ^ 34) (h5 : a5 < 2 ^ 4) (h6 : a6 < 2 ^ 6)
    (h7 : a7 < 2 ^ 30) (h8 : a8 < 2 ^ 3) (h9 : a9 < 2 ^ 1)
    (h10 : a10 < 2 ^ 1) (h11 : a11 < 2 ^ 1) (h12 : a12 < 2 ^ 2)
    {n : Nat} (hn : n = locNumber a1 a2 a3 a4 a5 a6 a7 a8 a9 a10 a11 a12) :
    n / 2 ^ 0 % 2 ^ 6 = a1 ∧ n / 2 ^ 6 % 2 ^ 34 = a2 ∧ n / 2 ^ 40 % 2 ^ 6 = a3 ∧
    n / 2 ^ 46 % 2 ^ 34 = a4 ∧ n / 2 ^ 80 % 2 ^ 4 = a5 ∧ n / 2 ^ 84 % 2 ^ 6 = a6 ∧
    n / 2 ^ 90 % 2 ^ 30 = a7 ∧ n / 2 ^ 120 % 2 ^ 3 = a8 ∧ n / 2 ^ 123 % 2 ^ 1 = a9 ∧
    n / 2 ^ 124 % 2 ^ 1 = a10 ∧ n / 2 ^ 125 % 2 ^ 1 = a11 ∧ n / 2 ^ 126 % 2 ^ 2 = a12 := by
  have e0 : n / 2 ^ 0 = _ := (Nat.div_one n).trans hn
  have e1 : n / 2 ^ 6 = _ := next_field (i := 0) (j := 6) e0 h1
  have e2 : n / 2 ^ 40 = _ := next_field (i := 6) (j := 34) e1 h2
  have e3 : n / 2 ^ 46 = _ := next_field (i := 40) (j := 6) e2 h3
  have e4 : n / 2 ^ 80 = _ := next_field (i := 46) (j := 34) e3 h4
  have e5 : n / 2 ^ 84 = _ := next_field (i := 80) (j := 4) e4 h5
  have e6 : n / 2 ^ 90 = _ := next_field (i := 84) (j := 6) e5 h6
  have e7 : n / 2 ^ 120 = _ := next_field (i := 90) (j := 30) e6 h7
  have e8 : n / 2 ^ 123 = _ := next_field (i := 120) (j := 3) e7 h8
  have e9 : n / 2 ^ 124 = _ := next_field (i := 123) (j := 1) e8 h9
  have e10 : n / 2 ^ 125 = _ := next_field (i := 124) (j := 1) e9 h10
  have e11 : n / 2 ^ 126 = _ := next_field (i := 125) (j := 1) e10 h11
  exact ⟨e0 ▸ (low_field h1).1,
    e1 ▸ (low_field h2).1,
    e2 ▸ (low_field h3).1,
    e3 ▸ (low_field h4).1,
    e4 ▸ (low_field h5).1,
    e5 ▸ (low_field h6).1,
    e6 ▸ (low_field h7).1,
    e7 ▸ (low_field h8).1,
    e8 ▸ (low_field h9).1,
    e9 ▸ (low_field h10).1,
    e10 ▸ (low_field h11).1,
    (congrArg (· % 2 ^ 2) e11).trans (Nat.mod_eq_of_lt h12)⟩

theorem uncCode_lt {v : Phys} {m : ℤ} {fld code : Nat} {zs : Bool} {ds : List DiagEntry}
    (h : UncCode v m 34 zs fld code ds) : code < 2 ^ 6 := by
  rcases h.le with h | h <;> omega

/-- The number of twelve fields put one above the other. -/
theorem append_toNat_locNumber (x1 : BitVec 6) (x2 : BitVec 34) (x3 : BitVec 6) (x4 : BitVec 34)
    (x5 : BitVec 4) (x6 : BitVec 6) (x7 : BitVec 30) (x8 : BitVec 3) (x9 x10 x11 : BitVec 1)
    (x12 : BitVec 2) :
    (x12 ++ x11 ++ x10 ++ x9 ++ x8 ++ x7 ++ x6 ++ x5 ++ x4 ++ x3 ++ x2 ++ x1).toNat =
      locNumber x1.toNat x2.toNat x3.toNat x4.toNat x5.toNat x6.toNat x7.toNat x8.toNat x9.toNat
        x10.toNat x11.toNat x12.toNat := by
  unfold locNumber
  refine (toNat_append_eq _ x1).trans (congrArg (x1.toNat + 2 ^ 6 * ·) ?_)
  refine (toNat_append_eq _ x2).trans (congrArg (x2.toNat + 2 ^ 34 * ·) ?_)
  refine (toNat_append_eq _ x3).trans (congrArg (x3.toNat + 2 ^ 6 * ·) ?_)
  refine (toNat_append_eq _ x4).trans (congrArg (x4.toNat + 2 ^ 34 * ·) ?_)
  refine (toNat_append_eq _ x5).trans (congrArg (x5.toNat + 2 ^ 4 * ·) ?_)
  refine (toNat_append_eq _ x6).trans (congrArg (x6.toNat + 2 ^ 6 * ·) ?_)
  refine (toNat_append_eq _ x7).trans (congrArg (x7.toNat + 2 ^ 30 * ·) ?_)
  refine (toNat_append_eq _ x8).trans (congrArg (x8.toNat + 2 ^ 3 * ·) ?_)
  refine (toNat_append_eq _ x9).trans (congrArg (x9.toNat + 2 ^ 1 * ·) ?_)
  refine (toNat_append_eq _ x10).trans (congrArg (x10.toNat + 2 ^ 1 * ·) ?_)
  exact toNat_append_eq x12 x11

theorem toNat_ofNat_lt {w n : Nat} (h : n < 2 ^ w) : (BitVec.ofNat w n).toNat = n := by
  rw [BitVec.toNat_ofNat, Nat.mod_eq_of_lt h]

/-- The number of the image `LocEnc` builds (R172). -/
theorem locImage_toNat (r : Record) (zs : Bool) : (locImage r zs).1.toNat =
    locNumber (uncEnc r.latU 8 34 zs .latitude).1 (fixEnc r.lat 34 25 .latitude).1
      (uncEnc r.lonU 8 34 zs .longitude).1 (fixEnc r.lon 34 25 .longitude).1 r.altType.toNat
      (uncEnc r.altU 21 34 zs .altitude).1 (fixEnc r.alt 30 8 .altitude).1 r.datum.toNat
      r.regLoc.toNat r.dse.toNat r.depSta.toNat r.ver.toNat := by
  refine (append_toNat_locNumber _ _ _ _ _ _ _ _ _ _ _ _).trans ?_
  rw [encDegreesU, encDegrees, encDegreesU, encDegrees, encAltitudeU, encAltitude, toNat_ofNat_lt (uncCode_lt (uncEnc_code r.latU 8 34 zs .latitude)),
    toNat_ofNat_lt (uncCode_lt (uncEnc_code r.lonU 8 34 zs .longitude)),
    toNat_ofNat_lt (uncCode_lt (uncEnc_code r.altU 21 34 zs .altitude)),
    toNat_ofNat_lt (fixEnc_code r.lat 34 25 .latitude).lt,
    toNat_ofNat_lt (fixEnc_code r.lon 34 25 .longitude).lt,
    toNat_ofNat_lt (fixEnc_code r.alt 30 8 .altitude).lt]

/-- `LocEnc` writes the location payload (R172). -/
theorem locImage_payload (r : Record) (zs : Bool) :
    LocPayload r zs (imageOctets (locImage r zs).1) (locImage r zs).2 := by
  have u1 := uncEnc_code r.latU 8 34 zs .latitude
  have f1 := fixEnc_code r.lat 34 25 .latitude
  have u2 := uncEnc_code r.lonU 8 34 zs .longitude
  have f2 := fixEnc_code r.lon 34 25 .longitude
  have u3 := uncEnc_code r.altU 21 34 zs .altitude
  have f3 := fixEnc_code r.alt 30 8 .altitude
  obtain ⟨e1, e2, e3, e4, e5, e6, e7, e8, e9, e10, e11, e12⟩ := locNumber_fields (uncCode_lt u1)
    f1.lt (uncCode_lt u2) f2.lt r.altType.isLt (uncCode_lt u3) f3.lt r.datum.isLt
    r.regLoc.isLt r.dse.isLt r.depSta.isLt r.ver.isLt
    (locImage_toNat r zs)
  have hf : ∀ off w, bitField (imageOctets (locImage r zs).1) off w
      = (locImage r zs).1.toNat / 2 ^ off % 2 ^ w := by
    intro off w; rw [bitField, littleEndian_imageOctets]
  refine ⟨rfl, (uncEnc r.latU 8 34 zs .latitude).2, (fixEnc r.lat 34 25 .latitude).2,
    (uncEnc r.lonU 8 34 zs .longitude).2, (fixEnc r.lon 34 25 .longitude).2,
    (uncEnc r.altU 21 34 zs .altitude).2, (fixEnc r.alt 30 8 .altitude).2,
    ?_, ?_, ?_, ?_, ?_, ?_, ?_, ?_, ?_, ?_, ?_, ?_, ?_⟩
  · rw [hf, e1]; exact u1
  · rw [hf, e2]; exact f1
  · rw [hf, e3]; exact u2
  · rw [hf, e4]; exact f2
  · rw [hf, e5]
  · rw [hf, e6]; exact u3
  · rw [hf, e7]; exact f3
  · rw [hf, e8]
  · rw [hf, e9]
  · rw [hf, e10]
  · rw [hf, e11]
  · rw [hf, e12]
  · simp only [locImage, encDegreesU, encDegrees, encAltitudeU, encAltitude]
    congr 1
    by_cases hv : r.ver = 1
    · simp [hv]
    · have : (r.ver != 1) = true := by simpa using hv
      rw [this, if_neg hv]
      simp [note, Cause.kind]

/-! ## Reading a payload -/

/-- A field of a readable payload is the field of its octets (R55, R84). -/
theorem bitRead_payload {s : State} {p n off w : Nat} (hp : p + n ≤ s.olen)
    (hb : s.firstBad p n = none) (hw : off + w ≤ 8 * n) :
    bitRead s (8 * p + off) w = .ok (bitField (s.octets p n) off w) := by
  rw [bitRead_of_le (by omega)]
  rw [firstBad_none_iff] at hb
  refine (bitsFrom_ok_iff s w _ _).2 ⟨bitField_lt _ _ _, fun i hi => ?_⟩
  have hin : (off + i) / 8 < n := by omega
  have e : (8 * p + off + i) / 8 = p + (off + i) / 8 := by omega
  rw [e]
  refine ⟨_, octRead_ok (by omega) (hb _ hin), ?_⟩
  rw [bitField_testBit, decide_eq_true hi, Bool.true_and, octets_getD _ _ _ _ hin]
  congr 1; omega

/-- The octets of a part of a payload. -/
theorem octets_part (s : State) {p n k m : Nat} (h : k + m ≤ n) :
    s.octets (p + k) m = ((s.octets p n).drop k).take m := by
  apply List.ext_getElem
  · simp; omega
  · intro i h1 h2
    simp [State.octets, Nat.add_assoc]

/-- A big-endian field of a readable payload is the number of its octets (R57). -/
theorem memRead_payload {s : State} {p n k m : Nat} (hp : p + n ≤ s.olen)
    (hb : s.firstBad p n = none) (hk : k + m ≤ n) :
    memRead s (p + k) m = .ok (bigEndianOf (((s.octets p n).drop k).take m)) := by
  have hb' : s.firstBad (p + k) m = none := by
    rw [firstBad_none_iff] at hb ⊢
    intro i hi
    rw [Nat.add_assoc]
    exact hb _ (by omega)
  rw [memRead_eq (by omega), hb', ← octets_part s hk]

/-- The raw fields of a location payload (R84). -/
def locFields (os : List Byte) : LocRaw where
  latU := bitField os 0 6
  lat := bitField os 6 34
  lonU := bitField os 40 6
  lon := bitField os 46 34
  altType := bitField os 80 4
  altU := bitField os 84 6
  alt := bitField os 90 30
  datum := bitField os 120 3
  regLoc := bitField os 123 1
  dse := bitField os 124 1
  depSta := bitField os 125 1
  ver := bitField os 126 2

/-- Reading a location payload inside the buffer: its fields, or its first bad octet (R170). -/
theorem readLoc_eq {s : State} {p : Nat} (h : p + 16 ≤ s.olen) : readLoc s p =
    match s.firstBad p 16 with
    | some j => .error (.malformed j)
    | none => .ok (locFields (s.octets p 16)) := by
  unfold readLoc
  rw [octetList_eq h]
  rcases hb : s.firstBad p 16 with _ | j
  · have rd : ∀ off w, off + w ≤ 128 →
        bitRead s (8 * p + off) w = .ok (bitField (s.octets p 16) off w) :=
      fun off w hw => bitRead_payload h hb (by omega)
    have r0 := rd 0 6 (by omega)
    rw [Nat.add_zero] at r0
    simp only [bind, Except.bind, r0, rd 6 34 (by omega), rd 40 6 (by omega),
      rd 46 34 (by omega), rd 80 4 (by omega), rd 84 6 (by omega), rd 90 30 (by omega),
      rd 120 3 (by omega), rd 123 1 (by omega), rd 124 1 (by omega), rd 125 1 (by omega),
      rd 126 2 (by omega), locFields]
  · rfl

theorem uncDec_notes (c : Nat) (m : Int) (max : Nat) (fld : FieldId) :
    (uncDec c m max fld).2 = uncNotes c max fld.code := by
  unfold uncDec uncNotes
  by_cases hc : c = 0
  · subst hc; simp
  · rw [if_neg hc]
    by_cases h' : max < c <;> simp [noteIf, note, Cause.kind, h']

theorem duplicateNotes_eq (b : BitVec 1) (id : Nat) :
    noteIf (b == 1) .duplicate id = duplicateNotes b id := by
  unfold duplicateNotes noteIf
  by_cases h : b = 1 <;> simp [h, note, Cause.kind]

/-- The diagnostics of a location payload (R170). -/
theorem locNotes_eq (q : Record) (os : List Byte) :
    locNotes q (locFields os) = locDecNotes q os := by
  unfold locNotes locDecNotes locFields decDegreesU decAltitudeU
  rw [duplicateNotes_eq, uncDec_notes, uncDec_notes,
    uncDec_notes]
  congr 1
  by_cases h : bitField os 126 2 = 1 <;> simp [noteIf, note, Cause.kind, h]

/-- The record of a location payload (R170). -/
theorem commitLoc_decoded (q : Record) (os : List Byte) :
    LocDecoded q (commitLoc q (locFields os)) os := by
  refine ⟨rfl, ?_, ?_, ?_, ?_, ?_, ?_⟩
  · exact (uncDec_value .latitude (by omega) (by omega) (by omega)).1
  · exact fixDec_value (bitField_lt _ _ _) (by omega) (by omega)
  · exact (uncDec_value .longitude (by omega) (by omega) (by omega)).1
  · exact fixDec_value (bitField_lt _ _ _) (by omega) (by omega)
  · exact (uncDec_value .altitude (by omega) (by omega) (by omega)).1
  · exact fixDec_value (bitField_lt _ _ _) (by omega) (by omega)

/-! ## The floor payload -/

/-- The raw fields of a floor payload of 6 or 5 octets (R85, R86). -/
def flrFields (os : List Byte) : FlrRaw where
  word := BitVec.ofNat 16 (bigEndianOf (os.take 2))
  heightW := if os.length = 6 then 24 else 16
  height := if os.length = 6 then bigEndianOf ((os.drop 2).take 3)
    else bigEndianOf ((os.drop 2).take 2)
  heightU := flrCode os

theorem octet_last (s : State) (p n : Nat) (h : 0 < n) :
    (s.octets p n).getLastD 0 = s.octet (p + (n - 1)) := by
  rw [List.getLastD_eq_getLast?, List.getLast?_eq_getElem?, octets_length,
    List.getElem?_eq_getElem (by simp; omega), Option.getD_some, octets_getElem]

/-- Reading a floor payload inside the buffer: its fields, or its first bad octet (R180). -/
theorem readFlr_eq {s : State} {p len : Nat} (h : p + len ≤ s.olen) (hl : len = 6 ∨ len = 5) :
    readFlr s p len =
    match s.firstBad p len with
    | some j => .error (.malformed j)
    | none => .ok (flrFields (s.octets p len)) := by
  unfold readFlr
  rw [octetList_eq h]
  rcases hb : s.firstBad p len with _ | j
  · have rd : ∀ k m, k + m ≤ len →
        memRead s (p + k) m = .ok (bigEndianOf (((s.octets p len).drop k).take m)) :=
      fun k m hk => memRead_payload h hb hk
    have r0 := rd 0 2 (by omega)
    rw [Nat.add_zero, List.drop_zero] at r0
    have hok := (firstBad_none_iff s p len).1 hb
    have ho : octRead s (p + (len - 1)) = .ok (s.octet (p + (len - 1))) :=
      octRead_ok (by omega) (hok _ (by omega))
    have hc : flrCode (s.octets p len) = (s.octet (p + (len - 1))).toNat := by
      rw [flrCode, octet_last _ _ _ (by omega)]
    rcases hl with rfl | rfl
    · simp only [bind, Except.bind, r0, rd 2 3 (by omega), flrFields, octets_length, if_pos, hc]
      rw [show p + 5 = p + (6 - 1) by omega, ho]
    · simp only [bind, Except.bind, r0, rd 2 2 (by omega), flrFields, octets_length, hc]
      rw [show p + 4 = p + (5 - 1) by omega, ho]
      rfl
  · rfl

theorem flrNotes_eq (q : Record) (os : List Byte) :
    flrNotes q (flrFields os) = duplicateNotes q.flrP 4 ++ uncNotes (flrCode os) 24 5 := by
  unfold flrNotes decHeightU
  rw [duplicateNotes_eq, uncDec_notes]
  rfl

/-- The record of a floor payload (R180). -/
theorem commitFlr_decoded (q : Record) {os : List Byte} (hl : os.length = 6 ∨ os.length = 5) :
    FlrDecoded q (commitFlr q (flrFields os)) os := by
  have hw : bigEndianOf (os.take 2) < 2 ^ 16 := by
    refine (bigEndianOf_lt _).trans_le ?_
    rw [List.length_take]
    exact (Nat.pow_le_pow_right (by omega) (Nat.min_le_left 2 _)).trans (by norm_num)
  have hword : (BitVec.ofNat 16 (bigEndianOf (os.take 2))).toNat = bigEndianOf (os.take 2) :=
    toNat_ofNat_lt hw
  refine ⟨?_, ?_, ?_, ?_⟩
  · have hm : wordMove (flrFields os).word = BitVec.ofNat 2 (bigEndianOf (os.take 2)) := by
      apply BitVec.eq_of_toNat_eq
      simp only [wordMove, Config.floorLayout, flrFields, BitVec.extractLsb'_toNat, hword,
        BitVec.toNat_ofNat, Nat.shiftRight_zero]
    simp only [commitFlr, hm]
  · have hf : (wordFloor (flrFields os).word).toNat = bigEndianOf (os.take 2) / 4 := by
      simp only [wordFloor, Config.floorLayout, flrFields, BitVec.extractLsb'_toNat, hword,
        Nat.shiftRight_eq_div_pow]
      omega
    show value (physOf (fixDec (wordFloor (flrFields os).word).toNat 14 4)) = _
    rw [hf]
    exact fixDec_value (by omega) (by omega) (by omega)
  · show value (physOf (fixDec _ _ 12)) = _
    unfold flrFields flrHeight
    rcases hl with hl | hl
    · simp only [hl, if_pos]
      refine fixDec_value ((bigEndianOf_lt _).trans_le ?_) (by omega) (by omega)
      rw [List.length_take]
      exact (Nat.pow_le_pow_right (by omega) (Nat.min_le_left 3 _)).trans (by norm_num)
    · have hne : ¬ os.length = 6 := by omega
      simp only [if_neg hne]
      refine fixDec_value ((bigEndianOf_lt _).trans_le ?_) (by omega) (by omega)
      rw [List.length_take]
      exact (Nat.pow_le_pow_right (by omega) (Nat.min_le_left 2 _)).trans (by norm_num)
  · exact (uncDec_value .height (by omega) (by omega) (by omega)).1

/-- `FlrEnc` writes the floor payload (R182). -/
theorem flrPayload_payload (r : Record) (zs : Bool) :
    FlrPayload r zs (flrPayload r zs).1 (flrPayload r zs).2 := by
  have f1 := fixEnc_code r.floor 14 4 .floor
  have f2 := fixEnc_code r.height 24 12 .height
  have u := uncEnc_code r.heightU 11 24 zs .height
  have l1 := f1.lt; have l2 := f2.lt
  have l3 : (uncEnc r.heightU 11 24 zs .height).1 < 2 ^ 8 := by rcases u.le with h | h <;> omega
  have hw : (floorWord (BitVec.ofNat 14 (fixEnc r.floor 14 4 .floor).1) r.move).toNat
      = (fixEnc r.floor 14 4 .floor).1 * 4 + r.move.toNat := by
    rw [show floorWord (BitVec.ofNat 14 (fixEnc r.floor 14 4 .floor).1) r.move
      = BitVec.ofNat 14 (fixEnc r.floor 14 4 .floor).1 ++ r.move from rfl, toNat_append_eq,
      toNat_ofNat_lt l1]
    ring
  have hm := r.move.isLt
  have e : (flrPayload r zs).1 =
      bigEndian ((fixEnc r.floor 14 4 .floor).1 * 4 + r.move.toNat) 2
        ++ (bigEndian (fixEnc r.height 24 12 .height).1 3
        ++ [BitVec.ofNat 8 (uncEnc r.heightU 11 24 zs .height).1]) := by
    simp only [flrPayload, encFloor, encHeight, encHeightU, hw, List.append_assoc]
  rw [e]
  refine ⟨by simp, _, _, _, _, _, f1, f2, ?_, ?_, ?_, rfl⟩
  · have : (bigEndian ((fixEnc r.floor 14 4 .floor).1 * 4 + r.move.toNat) 2
        ++ (bigEndian (fixEnc r.height 24 12 .height).1 3
        ++ [BitVec.ofNat 8 (uncEnc r.heightU 11 24 zs .height).1])).drop 5
        = [BitVec.ofNat 8 (uncEnc r.heightU 11 24 zs .height).1] := rfl
    rw [this]
    have hb : bigEndianOf [BitVec.ofNat 8 (uncEnc r.heightU 11 24 zs .height).1]
        = (uncEnc r.heightU 11 24 zs .height).1 := by
      simp only [bigEndianOf, List.foldl_cons, List.foldl_nil, toNat_ofNat_lt l3]
      omega
    rw [hb]; exact u
  · rw [List.take_left' (by simp), bigEndianOf_bigEndian, Nat.mod_eq_of_lt (by omega)]
  · rw [List.drop_left' (by simp), List.take_left' (by simp), bigEndianOf_bigEndian,
      Nat.mod_eq_of_lt (by omega)]

/-! ## The usage payload -/

/-- The raw fields of a usage payload of 1 or 3 octets (R87). -/
def usgFields (os : List Byte) : UsgRaw where
  flags := os.headD 0
  expire := if os.length = 3 then some (bigEndianOf (os.drop 1)) else none

/-- Reading a usage payload inside the buffer: its fields, or its first bad octet (R190). -/
theorem readUsg_eq {s : State} {p len : Nat} (h : p + len ≤ s.olen) (hl : len = 1 ∨ len = 3) :
    readUsg s p len =
    match s.firstBad p len with
    | some j => .error (.malformed j)
    | none => .ok (usgFields (s.octets p len)) := by
  unfold readUsg
  rw [octetList_eq h]
  rcases hb : s.firstBad p len with _ | j
  · have hok := (firstBad_none_iff s p len).1 hb 0 (by omega)
    rw [Nat.add_zero] at hok
    have ho : octRead s p = .ok (s.octet p) := octRead_ok (by omega) hok
    have hh : (s.octets p len).headD 0 = s.octet p := by
      rcases hl with rfl | rfl <;> rfl
    rcases hl with rfl | rfl
    · simp only [bind, Except.bind, ho, usgFields, octets_length, hh]
      rfl
    · have r1 := memRead_payload (k := 1) (m := 2) h hb (by omega)
      have hd : ((s.octets p 3).drop 1).take 2 = (s.octets p 3).drop 1 :=
        List.take_of_length_le (by simp)
      rw [hd] at r1
      simp only [bind, Except.bind, ho, r1, usgFields, octets_length, hh, if_pos]
  · rfl

/-- The record of a usage payload (R190). -/
theorem commitUsg_decoded (q : Record) (os : List Byte) :
    commitUsg q (usgFields os) = usgDecoded q os := by
  have hb : ∀ i, (os.headD 0).extractLsb' i 1 = BitVec.ofBool ((os.headD 0).getLsbD i) := by
    intro i
    apply BitVec.eq_of_getLsbD_eq
    intro j hj
    have : j = 0 := by omega
    subst this
    simp
  unfold commitUsg usgDecoded usgFields usgExpire
  simp only [hb]
  by_cases h : os.length = 3 <;> simp [h]

/-- The diagnostics of a usage payload of 1 or 3 octets (R190). -/
theorem usgNotes_eq (q : Record) {os : List Byte} (hl : os.length = 1 ∨ os.length = 3) :
    usgNotes q (usgFields os) = usgDecNotes q os := by
  unfold usgNotes usgDecNotes usgFields usgExpire
  rw [duplicateNotes_eq, List.append_assoc]
  congr 1
  rcases hl with hl | hl
  · simp only [hl]
    cases (os.headD 0).getLsbD 1 <;> simp [noteIf, note, Cause.kind]
  · simp only [hl, if_true, true_and]
    generalize bigEndianOf (os.drop 1) = e
    cases (os.headD 0).getLsbD 1 <;> by_cases h' : e = 0 <;> simp [noteIf, note, Cause.kind, h']

/-- The corrected flag says whether there is an expiration (R192). -/
theorem usgFlag_eq (r : Record) : usgFlag r = decide (r.expire ≠ 0) := by
  unfold usgFlag
  by_cases he : r.expire = 0
  · rcases (by decide : ∀ b : BitVec 1, b = 0 ∨ b = 1) r.retExp with h | h <;> simp [he, h]
  · have he' : ¬ r.expire = 0#16 := he
    rcases (by decide : ∀ b : BitVec 1, b = 0 ∨ b = 1) r.retExp with h | h <;> simp [he', h]

/-- `UsgEnc` writes the corrected usage payload (R192, R193). -/
theorem usgPayload_payload (r : Record) :
    UsgPayload r (usgPayload r (usgFlag r)) (usgFixNotes r) := by
  have h1 := r.retrans.isLt
  have h2 := r.locPol.isLt
  rw [usgFlag_eq]
  by_cases he : r.expire = 0
  · refine ⟨by simp [usgPayload, he], ?_, fun h => absurd he h, ?_⟩
    · simp [usgPayload, he]; omega
    · simp [usgFixNotes, he, note, Cause.kind]
  · have he' : ¬ r.expire = 0#16 := he
    refine ⟨by simp [usgPayload, he'], ?_, fun _ => ?_, ?_⟩
    · simp [usgPayload, he']; omega
    · have h3 := r.expire.isLt
      simp only [usgPayload, he, ne_eq, not_false_eq_true, decide_true, if_true, List.drop_one,
        List.tail_cons]
      rw [bigEndianOf_bigEndian, Nat.mod_eq_of_lt (by omega)]
    · simp [usgFixNotes, he', note, Cause.kind]

/-! ## The BSSID payload -/

/-- Slot `i` of a BSSID payload inside the buffer (R200). -/
theorem bssDecSlot_eq {s : State} {p i : Nat} (h : p + 7 + 6 * i ≤ s.olen) :
    bssDecSlot p s i =
      { s.postAll ((s.firstBad (p + 1 + 6 * i) 6).toList.map (note .hexDigit)) with
        record := s.record.setSlot i (bssSlotAt s p i) } := by
  unfold bssDecSlot bssSlotAt
  rw [memRead_eq (by omega)]
  rcases s.firstBad (p + 1 + 6 * i) 6 with _ | j
  · rfl
  · rfl

/-- The indicator octet of a BSSID payload inside the buffer (R200). -/
theorem readIndicator_eq {s : State} {p : Nat} (h : p < s.olen) : readIndicator s p =
    if s.digitsOk p then (s.octet p, true, []) else (0, false, [note .hexDigit p]) := by
  unfold readIndicator
  cases hd : s.digitsOk p
  · rw [octRead_bad h hd]; rfl
  · rw [octRead_ok h hd]; rfl

/-- The octets of a list of six-octet groups, group `i` of them. -/
theorem flatMap_group {α : Type} (f : Nat → List α) (hf : ∀ i, (f i).length = 6) (n : Nat) :
    ((List.range n).flatMap f).length = 6 * n ∧
      ∀ i < n, (((List.range n).flatMap f).drop (6 * i)).take 6 = f i := by
  induction n with
  | zero => simp
  | succ n ih =>
    obtain ⟨hl, hg⟩ := ih
    have e : (List.range (n + 1)).flatMap f = (List.range n).flatMap f ++ f n := by
      rw [List.range_succ, List.flatMap_append]; simp
    refine ⟨by rw [e, List.length_append, hl, hf]; omega, fun i hi => ?_⟩
    rw [e]
    rcases Nat.lt_or_eq_of_le (Nat.le_of_lt_succ hi) with h | rfl
    · rw [List.drop_append_of_le_length (by omega), List.take_append_of_le_length, hg i h]
      rw [List.length_drop]; omega
    · rw [← hl, List.drop_left, List.take_of_length_le (by rw [hf])]

theorem slotOctets_length (r : Record) (i : Nat) : (slotOctets r i).length = 6 := by
  simp [slotOctets]

/-- `BssEnc` writes the BSSID payload (R202). -/
theorem bssPayload_payload (r : Record) (ind : Bool) :
    BssPayload r ind (bssPayload r ind) (bssEncNotes r) := by
  obtain ⟨hl, hg⟩ := flatMap_group (slotOctets r) (slotOctets_length r) r.bssN.toNat
  have hn := r.bssN.isLt
  refine ⟨by simp [bssPayload, hl]; omega, ?_, fun i hi => ?_, ?_⟩
  · cases ind
    · rfl
    · simp [bssPayload]; omega
  · have : ((bssPayload r ind).drop (1 + 6 * i)).take 6 = slotOctets r i := by
      rw [← hg i hi, bssPayload, Nat.add_comm, List.drop_succ_cons]
    rw [this, slotOctets, bigEndianOf_bigEndian]
    have ha := (r.slot i).addr.isLt
    split
    · exact Nat.mod_eq_of_lt (by omega)
    · rfl
  · rw [bssEncNotes]
    induction List.range r.bssN.toNat with
    | nil => rfl
    | cons i is ih =>
      rw [List.flatMap_cons, ih, List.filter_cons]
      rcases (by decide : ∀ b : BitVec 1, b = 0 ∨ b = 1) (r.slot i).valid with h | h <;>
        simp [h, noteIf, note, Cause.kind]

/-! ## The advisory check -/

/-- `PolChk` posts the advisory entries (R219). -/
theorem polNotes_eq (r : Record) (useU useF re : Bool) :
    polNotes r useU useF re = advisories r useU useF re := by
  have hb : ∀ b : BitVec 1, b = 0 ∨ b = 1 := by decide
  unfold polNotes advisories
  have e1 : noteIf (r.retrans == 0) .retransDisallowed 0
      = if r.retrans = 0 then [⟨.consumerIncompatibility, .retransDisallowed, 0⟩] else [] := by
    rcases hb r.retrans with h | h <;> simp [h, noteIf, note, Cause.kind]
  have e2 : noteIf (r.expire != 0) .expNonzero r.expire.toNat
      = if r.expire ≠ 0 then [⟨.consumerIncompatibility, .expNonzero, r.expire⟩] else [] := by
    by_cases h : r.expire = 0 <;> simp [h, noteIf, note, Cause.kind]
  have e3 : noteIf (r.move != 0) .moveSet r.move.toNat
      = if r.move ≠ 0 then [⟨.consumerIncompatibility, .moveSet, r.move.setWidth 16⟩] else [] := by
    by_cases h : r.move = 0 <;> simp [h, noteIf, note, Cause.kind]
  have e4 : noteIf re .retexpPresent 0
      = if re then [⟨.consumerIncompatibility, .retexpPresent, 0⟩] else [] := by
    cases re <;> simp [noteIf, note, Cause.kind]
  rw [e1, e2, e3, e4]
  cases useU <;> cases useF <;> simp

end Sys2Proof.Machine
end

