-- ==== Sys2Proof/Laws/Commands.lean ====
section
/-! SUPPORT. The command wrapper: how a command ends, in the terms of Safety.lean (spec/60_exceptions.md
R250), and the operands of a packet (spec/30_encoding.md R100). -/

namespace Sys2Proof.Machine

section
variable {s t : State} {body : State → Ended} {v : Word64} {a : Abort}

theorem runCommand_done (h : body s.start = .done t v) : runCommand s body = t.respond .ok v := by
  rw [runCommand, h]

theorem runCommand_failed (h : body s.start = .failed t a) : runCommand s body = t.fail a := by
  rw [runCommand, h]

/-- A command whose operands are refused (R253). -/
theorem runCommand_invalid (h : body s.start = .failed s.start .invalid) :
    runCommand s body = s.rejected .invalid [] := by rw [runCommand, h]; rfl

/-- A command that ends out of bounds with nothing done (R251). -/
theorem runCommand_bounds (h : body s.start = .failed s.start .bounds) :
    runCommand s body = s.rejected .bounds [] := by rw [runCommand, h]; rfl

/-- A command that meets a bad digit (R252). -/
theorem runCommand_malformed {i : Nat} (h : body s.start = .failed s.start (.malformed i)) :
    runCommand s body =
      s.rejected .malformed [⟨.malformedInput, .hexDigit, BitVec.ofNat 16 i⟩] := by
  rw [runCommand, h]; rfl

/-- A command that completes with nothing but its value. -/
theorem runCommand_answered (h : body s.start = .done s.start v) :
    runCommand s body = s.answered [] v := by rw [runCommand, h]; rfl

/-- A command that completes after posting entries. -/
theorem runCommand_posted {ds : List DiagEntry} (hd : ds.length ≤ Config.diagCap)
    (h : body s.start = .done (s.start.postAll ds) v) : runCommand s body = s.answered ds v := by
  rw [runCommand, h, State.postAll_room _ _ (by simpa using hd)]; rfl
end

/-- Posting to an emptied list makes the list. -/
theorem start_postAll (s : State) {ds : List DiagEntry} (hd : ds.length ≤ Config.diagCap) :
    s.start.postAll ds = { s.start with diag := ds } := by
  rw [State.postAll_room _ _ (by simpa using hd)]; rfl

@[simp] theorem start_octet (s : State) (i : Nat) : s.start.octet i = s.octet i := rfl
@[simp] theorem start_digitsOk (s : State) (i : Nat) : s.start.digitsOk i = s.digitsOk i := rfl
@[simp] theorem start_octets (s : State) (p n : Nat) : s.start.octets p n = s.octets p n := rfl
@[simp] theorem start_firstBad (s : State) (p n : Nat) : s.start.firstBad p n = s.firstBad p n := rfl
@[simp] theorem start_firstBadPartly (s : State) (off n : Nat) :
    s.start.firstBadPartly off n = s.firstBadPartly off n := rfl

end Sys2Proof.Machine

namespace Sys2Proof

/-! ## The operands of a packet -/

theorem operandBit {n : Nat} (a : BitVec n) {i c k : Nat} (h : c + k = i) (hk : k < 8) :
    (decide (k < 8) && a.getLsbD (c + k)) = a.getLsbD i := by
  rw [decide_eq_true hk, Bool.true_and, h]

theorem be16_bytes16 (a : BitVec 16) : be16 (a.extractLsb' 8 8) (a.extractLsb' 0 8) = a := by
  apply BitVec.eq_of_getLsbD_eq
  intro i hi
  simp only [be16, BitVec.getLsbD_append, BitVec.getLsbD_extractLsb']
  split <;> exact operandBit a (by omega) (by omega)

theorem be32_bytes32 (a : BitVec 32) :
    be32 (a.extractLsb' 24 8) (a.extractLsb' 16 8) (a.extractLsb' 8 8) (a.extractLsb' 0 8) = a := by
  apply BitVec.eq_of_getLsbD_eq
  intro i hi
  simp only [be32, BitVec.getLsbD_append, BitVec.getLsbD_extractLsb']
  repeat' split
  all_goals exact operandBit a (by omega) (by omega)

theorem be64_bytes64 (a : BitVec 64) :
    be64 (a.extractLsb' 56 8) (a.extractLsb' 48 8) (a.extractLsb' 40 8) (a.extractLsb' 32 8)
      (a.extractLsb' 24 8) (a.extractLsb' 16 8) (a.extractLsb' 8 8) (a.extractLsb' 0 8) = a := by
  apply BitVec.eq_of_getLsbD_eq
  intro i hi
  simp only [be64, BitVec.getLsbD_append, BitVec.getLsbD_extractLsb']
  repeat' split
  all_goals exact operandBit a (by omega) (by omega)

end Sys2Proof
end

