-- ==== Sys2Proof/Laws/PerInstr.lean ====
section
/-! SUPPORT. A statement for every instruction: its packet begins with its operation code and has the
length of its format (spec/30_encoding.md R101, R102). -/

namespace Sys2Proof.Laws.Packet

/-- The operation code of an instruction (R102). -/
def opcode : Instr → Byte
  | .nop => 0x00
  | .reset => 0x01
  | .bufz _ => 0x02
  | .ldhex _ _ => 0x03
  | .hxrd _ => 0x04
  | .hxwr _ _ => 0x05
  | .rrd _ => 0x08
  | .rwr _ _ => 0x09
  | .rclr => 0x0A
  | .unkrd _ => 0x0B
  | .dgrd _ => 0x0C
  | .rdbits _ _ => 0x10
  | .wrbits _ _ _ => 0x11
  | .rdoct _ => 0x12
  | .wroct _ _ => 0x13
  | .rdmoi _ _ => 0x14
  | .wrmoi _ _ _ => 0x15
  | .fxenc _ _ _ => 0x20
  | .fxdec _ _ _ => 0x21
  | .uncenc _ _ _ _ => 0x22
  | .uncdec _ _ _ _ => 0x23
  | .frnext => 0x30
  | .frput _ _ => 0x31
  | .locdec _ _ => 0x40
  | .locenc _ _ => 0x41
  | .flrdec _ _ => 0x42
  | .flrenc _ _ => 0x43
  | .usgdec _ _ => 0x44
  | .usgenc _ => 0x45
  | .bssdec _ _ => 0x46
  | .bssenc _ _ => 0x47
  | .macparse _ _ => 0x48
  | .macfmt _ => 0x49
  | .recdec => 0x50
  | .recenc _ _ => 0x51
  | .polchk _ => 0x52

/-- The length of an instruction's packet: its format's, and 4 and the text in format F9 (R101). -/
def length : Instr → Nat
  | .nop => 1
  | .reset => 1
  | .bufz _ => 5
  | .ldhex _ text => 4 + text.length
  | .hxrd _ => 5
  | .hxwr _ _ => 6
  | .rrd _ => 2
  | .rwr _ _ => 10
  | .rclr => 1
  | .unkrd _ => 5
  | .dgrd _ => 5
  | .rdbits _ _ => 6
  | .wrbits _ _ _ => 14
  | .rdoct _ => 5
  | .wroct _ _ => 6
  | .rdmoi _ _ => 6
  | .wrmoi _ _ _ => 14
  | .fxenc _ _ _ => 11
  | .fxdec _ _ _ => 11
  | .uncenc _ _ _ _ => 12
  | .uncdec _ _ _ _ => 12
  | .frnext => 1
  | .frput _ _ => 3
  | .locdec _ _ => 6
  | .locenc _ _ => 6
  | .flrdec _ _ => 6
  | .flrenc _ _ => 6
  | .usgdec _ _ => 6
  | .usgenc _ => 5
  | .bssdec _ _ => 6
  | .bssenc _ _ => 6
  | .macparse _ text => 4 + text.length
  | .macfmt _ => 2
  | .recdec => 1
  | .recenc _ _ => 3
  | .polchk _ => 2

/-- The packet begins with the operation code and has the length of the format. -/
def Statement (i : Instr) : Prop :=
  (encode i).head? = some (opcode i) ∧ (encode i).length = length i

theorem nop : Statement (.nop) := ⟨rfl, rfl⟩
theorem reset : Statement (.reset) := ⟨rfl, rfl⟩
theorem bufz (a : BitVec 32) : Statement (.bufz a) := ⟨rfl, rfl⟩
theorem ldhex (r : BitVec 8) (text : List Byte) : Statement (.ldhex r text) :=
  ⟨rfl, by simp [encode, bytesF9, bytes16, length]; omega⟩
theorem hxrd (a : BitVec 32) : Statement (.hxrd a) := ⟨rfl, rfl⟩
theorem hxwr (a : BitVec 32) (b : BitVec 8) : Statement (.hxwr a b) := ⟨rfl, rfl⟩
theorem rrd (r : BitVec 8) : Statement (.rrd r) := ⟨rfl, rfl⟩
theorem rwr (r : BitVec 8) (v : BitVec 64) : Statement (.rwr r v) := ⟨rfl, rfl⟩
theorem rclr : Statement (.rclr) := ⟨rfl, rfl⟩
theorem unkrd (a : BitVec 32) : Statement (.unkrd a) := ⟨rfl, rfl⟩
theorem dgrd (a : BitVec 32) : Statement (.dgrd a) := ⟨rfl, rfl⟩
theorem rdbits (a : BitVec 32) (b : BitVec 8) : Statement (.rdbits a b) := ⟨rfl, rfl⟩
theorem wrbits (a : BitVec 32) (b : BitVec 8) (v : BitVec 64) : Statement (.wrbits a b v) := ⟨rfl, rfl⟩
theorem rdoct (a : BitVec 32) : Statement (.rdoct a) := ⟨rfl, rfl⟩
theorem wroct (a : BitVec 32) (b : BitVec 8) : Statement (.wroct a b) := ⟨rfl, rfl⟩
theorem rdmoi (a : BitVec 32) (b : BitVec 8) : Statement (.rdmoi a b) := ⟨rfl, rfl⟩
theorem wrmoi (a : BitVec 32) (b : BitVec 8) (v : BitVec 64) : Statement (.wrmoi a b v) := ⟨rfl, rfl⟩
theorem fxenc (w f : BitVec 8) (v : BitVec 64) : Statement (.fxenc w f v) := ⟨rfl, rfl⟩
theorem fxdec (w f : BitVec 8) (v : BitVec 64) : Statement (.fxdec w f v) := ⟨rfl, rfl⟩
theorem uncenc (m x c : BitVec 8) (v : BitVec 64) : Statement (.uncenc m x c v) := ⟨rfl, rfl⟩
theorem uncdec (m x c : BitVec 8) (v : BitVec 64) : Statement (.uncdec m x c v) := ⟨rfl, rfl⟩
theorem frnext : Statement (.frnext) := ⟨rfl, rfl⟩
theorem frput (b1 b2 : BitVec 8) : Statement (.frput b1 b2) := ⟨rfl, rfl⟩
theorem locdec (a : BitVec 32) (b : BitVec 8) : Statement (.locdec a b) := ⟨rfl, rfl⟩
theorem locenc (a : BitVec 32) (b : BitVec 8) : Statement (.locenc a b) := ⟨rfl, rfl⟩
theorem flrdec (a : BitVec 32) (b : BitVec 8) : Statement (.flrdec a b) := ⟨rfl, rfl⟩
theorem flrenc (a : BitVec 32) (b : BitVec 8) : Statement (.flrenc a b) := ⟨rfl, rfl⟩
theorem usgdec (a : BitVec 32) (b : BitVec 8) : Statement (.usgdec a b) := ⟨rfl, rfl⟩
theorem usgenc (a : BitVec 32) : Statement (.usgenc a) := ⟨rfl, rfl⟩
theorem bssdec (a : BitVec 32) (b : BitVec 8) : Statement (.bssdec a b) := ⟨rfl, rfl⟩
theorem bssenc (a : BitVec 32) (b : BitVec 8) : Statement (.bssenc a b) := ⟨rfl, rfl⟩
theorem macparse (r : BitVec 8) (text : List Byte) : Statement (.macparse r text) :=
  ⟨rfl, by simp [encode, bytesF9, bytes16, length]; omega⟩
theorem macfmt (r : BitVec 8) : Statement (.macfmt r) := ⟨rfl, rfl⟩
theorem recdec : Statement (.recdec) := ⟨rfl, rfl⟩
theorem recenc (b1 b2 : BitVec 8) : Statement (.recenc b1 b2) := ⟨rfl, rfl⟩
theorem polchk (r : BitVec 8) : Statement (.polchk r) := ⟨rfl, rfl⟩

end Sys2Proof.Laws.Packet
end

