-- ==== Sys2Proof/Laws/Views.lean ====
section
/-! SUPPORT. One octet through every view: from its two characters to what RDOCT, RDMOI, RDBITS and
HXRD answer (spec/20_memory.md R50). -/

namespace Sys2Proof.Machine

theorem hexval_lowerDigit {n : Nat} (h : n < 16) :
    hexval (lowerDigit n) = some (BitVec.ofNat 4 n) := by
  revert n; decide

theorem toNat_ofNat_index {s : State} {k : Nat} (hl : s.hlen ≤ Config.hcap) (hk : k ≤ 4 * s.hlen) :
    (BitVec.ofNat 32 k).toNat = k := by
  rw [BitVec.toNat_ofNat]
  exact Nat.mod_eq_of_lt (by simp at hl; omega)

/-- Two lowercase digits hold the octet they stand for (R52 to R54). -/
theorem digits_of_chr {s : State} {j : Nat} {o : Byte}
    (h1 : s.chr (2 * j) = lowerDigit (o.toNat / 16))
    (h0 : s.chr (2 * j + 1) = lowerDigit (o.toNat % 16)) :
    s.digitsOk j = true ∧ s.octet j = o := by
  have ho := o.isLt
  rw [State.digitsOk, State.octet, h1, h0, hexval_lowerDigit (by omega), hexval_lowerDigit (by omega)]
  refine ⟨rfl, ?_⟩
  have key : ∀ o : Byte,
      BitVec.ofNat 4 (o.toNat / 16) ++ BitVec.ofNat 4 (o.toNat % 16) = o := by decide +kernel
  exact key o

/-- An octet of two digits reads the same in the octet space and the bit space (R50). -/
theorem readsAsOctet {s : State} {j : Nat} (hl : s.hlen ≤ Config.hcap) (hj : j < s.olen)
    (hd : s.digitsOk j = true) : ReadsAsOctet s j (s.octet j) := by
  have hb : s.olen = s.hlen / 2 := rfl
  have e1 := toNat_ofNat_index (s := s) (k := j) hl (by omega)
  have e8 := toNat_ofNat_index (s := s) (k := 8 * j) hl (by omega)
  have hf : s.firstBad j 1 = none := (firstBad_none_iff s j 1).2 fun i hi => by
    obtain rfl : i = 0 := by omega
    exact hd
  refine ⟨congrArg _ (runCommand_answered ?_), congrArg _ (runCommand_answered ?_),
    congrArg _ (runCommand_answered ?_)⟩
  · rw [e1, octRead_ok (by exact hj) (by simpa using hd)]; rfl
  · have : (1 : BitVec 8).toNat = 1 := rfl
    rw [if_neg (by decide), e1, this, memRead_eq (by exact hj), start_firstBad, hf]
    simp [answering, Except.map, bigEndianOf, State.octets]
  · have : (8 : BitVec 8).toNat = 8 := rfl
    have ht : touched (8 * j) 8 = 1 := by rw [touched, if_neg (by omega)]; omega
    have ho := (s.octet j).isLt
    rw [if_neg (by decide), e8, this, bitRead_eq (by change 8 * j + 8 ≤ 8 * s.olen; omega), ht,
      Nat.mul_div_cancel_left _ (by omega), start_firstBad, hf]
    simp [answering, Except.map, bitField, State.octets]
    rw [Nat.mod_eq_of_lt ho, BitVec.ofNat_toNat]

/-- A stored octet reads as itself through every view (R50). -/
theorem readsEverywhere {s : State} {j : Nat} {o : Byte} (hl : s.hlen ≤ Config.hcap)
    (hj : j < s.olen) (h1 : s.chr (2 * j) = lowerDigit (o.toNat / 16))
    (h0 : s.chr (2 * j + 1) = lowerDigit (o.toNat % 16)) : ReadsEverywhere s j o := by
  obtain ⟨hd, ho⟩ := digits_of_chr h1 h0
  have hb : s.olen = s.hlen / 2 := rfl
  have e1 := toNat_ofNat_index (s := s) (k := 2 * j) hl (by omega)
  have e0 := toNat_ofNat_index (s := s) (k := 2 * j + 1) hl (by omega)
  refine ⟨ho ▸ readsAsOctet hl hj hd, ?_, ?_⟩
  · rw [exec, execHxrd, e1, if_neg (by omega), h1]; rfl
  · rw [exec, execHxrd, e0, if_neg (by omega), h0]; rfl

end Sys2Proof.Machine
end

