-- ==== Sys2Proof/Tests/Slice0.lean ====
section
/-! SUPPORT. Tests on fixed values: the well-formedness check, the decoding of a written packet for every
command, one step of every command with the result that the spec's own example states, and for every
statement a state and operands that meet its hypotheses. Expected values come from the examples in
the rules of spec/ and from 95_test_vectors.md, named beside each test. -/

namespace Sys2Proof.Machine

/-! ## Helpers -/

/-- A small state whose buffer holds the given characters. -/
def chars (text : List Byte) : State :=
  { State.reset with hex := Memory.writeList [] 0 text, hlen := text.length }

/-- A small state whose buffer holds the given octets. -/
def octs (os : List Byte) : State := chars (hexText os)

/-- The state an instruction leaves. -/
def after (i : Instr) (s : State) : State :=
  match exec i s with
  | .next t => t
  | .fault _ => s
  | .refused _ => s

/-- The status and the value of the response. -/
def answer (i : Instr) (s : State) : Option (Status × Word64) :=
  (after i s).resp.map fun r => (r.status, r.value)

/-- The characters of the buffer. -/
def text (s : State) : List Byte := (List.range s.hlen).map s.chr

/-- The diagnostics as triples of numbers. -/
def posted (s : State) : List (Nat × Nat × Nat) :=
  s.diag.map fun e => (e.kind.code.toNat, e.cause.code.toNat, e.arg.toNat)


/-! ## Well-formedness: a text of 65536 bytes does not fit the 16-bit count of format F9 (R101) -/

theorem wellFormed_ldhex (r : BitVec 8) (t : List Byte) :
    (Instr.ldhex r t).WellFormed = decide (t.length < 65536) := rfl

theorem wellFormed_macparse (r : BitVec 8) (t : List Byte) :
    (Instr.macparse r t).WellFormed = decide (t.length < 65536) := rfl

theorem test_ill_formed_ldhex : (Instr.ldhex 0 (List.replicate 65536 0x30)).WellFormed = false := by
  rw [wellFormed_ldhex, List.length_replicate]
  decide

theorem test_ill_formed_macparse :
    (Instr.macparse 0 (List.replicate 65536 0x30)).WellFormed = false := by
  rw [wellFormed_macparse, List.length_replicate]
  decide

/-! ## Decoding: packets written out from R101 and R102 -/

theorem test_decode_nop : decode [0x00] = .ok .nop := by decide
theorem test_decode_reset : decode [0x01] = .ok .reset := by decide
theorem test_decode_bufz : decode [0x02, 0x00, 0x00, 0x01, 0x02] = .ok (.bufz 258) := by decide
theorem test_decode_ldhex :
    decode [0x03, 0x00, 0x00, 0x03, 0x30, 0x41, 0x67] =
      .ok (.ldhex 0 [0x30, 0x41, 0x67]) := by decide
theorem test_decode_hxrd :
    decode [0x04, 0x01, 0x02, 0x03, 0x04] = .ok (.hxrd 0x01020304) := by decide
theorem test_decode_hxwr :
    decode [0x05, 0x00, 0x00, 0x00, 0x03, 0x67] = .ok (.hxwr 3 0x67) := by decide
theorem test_decode_rrd : decode [0x08, 0x43] = .ok (.rrd 0x43) := by decide
theorem test_decode_rwr :
    decode [0x09, 0x01, 0xFF, 0xFF, 0xFF, 0xA6, 0x00, 0x00, 0x00, 0x00] =
      .ok (.rwr 0x01 0xFFFFFFA600000000) := by decide
theorem test_decode_rclr : decode [0x0A] = .ok .rclr := by decide
theorem test_decode_unkrd : decode [0x0B, 0x00, 0x00, 0x00, 0x02] = .ok (.unkrd 2) := by decide
theorem test_decode_dgrd : decode [0x0C, 0x00, 0x00, 0x00, 0x01] = .ok (.dgrd 1) := by decide
theorem test_decode_rdbits :
    decode [0x10, 0x00, 0x00, 0x00, 0x06, 0x22] = .ok (.rdbits 6 34) := by decide
theorem test_decode_wrbits :
    decode [0x11, 0x00, 0x00, 0x00, 0x03, 0x07, 0x80, 0, 0, 0, 0, 0, 0, 0x7F] =
      .ok (.wrbits 3 7 0x800000000000007F) := by decide
theorem test_decode_rdoct : decode [0x12, 0x00, 0x00, 0x01, 0x00] = .ok (.rdoct 256) := by decide
theorem test_decode_wroct :
    decode [0x13, 0x00, 0x00, 0x00, 0x00, 0xAB] = .ok (.wroct 0 0xAB) := by decide
theorem test_decode_rdmoi :
    decode [0x14, 0x00, 0x00, 0x00, 0x05, 0x02] = .ok (.rdmoi 5 2) := by decide
theorem test_decode_wrmoi :
    decode [0x15, 0x00, 0x00, 0x00, 0x01, 0x02, 0, 0, 0, 0, 0, 0, 0x12, 0x34] =
      .ok (.wrmoi 1 2 0x1234) := by decide
theorem test_decode_fxenc :
    decode [0x20, 0x22, 0x19, 0xFF, 0xFF, 0xFF, 0xA6, 0, 0, 0, 0] =
      .ok (.fxenc 34 25 0xFFFFFFA600000000) := by decide
theorem test_decode_fxdec :
    decode [0x21, 0x0E, 0x04, 0, 0, 0, 0, 0, 0, 0x3F, 0xE8] = .ok (.fxdec 14 4 0x3FE8) := by decide
theorem test_decode_uncenc :
    decode [0x22, 0x08, 0x22, 0x01, 0, 0, 0, 0xC8, 0, 0, 0, 0] =
      .ok (.uncenc 8 34 1 0xC800000000) := by decide
theorem test_decode_uncdec :
    decode [0x23, 0xF8, 0x18, 0x00, 0, 0, 0, 0, 0, 0, 0, 0x19] =
      .ok (.uncdec 0xF8 24 0 25) := by decide
theorem test_decode_frnext : decode [0x30] = .ok .frnext := by decide
theorem test_decode_frput : decode [0x31, 0x06, 0x01] = .ok (.frput 6 1) := by decide
theorem test_decode_locdec :
    decode [0x40, 0x00, 0x00, 0x00, 0x05, 0x10] = .ok (.locdec 5 16) := by decide
theorem test_decode_locenc :
    decode [0x41, 0x00, 0x00, 0x00, 0x05, 0x01] = .ok (.locenc 5 1) := by decide
theorem test_decode_flrdec :
    decode [0x42, 0x00, 0x00, 0x00, 0x17, 0x06] = .ok (.flrdec 23 6) := by decide
theorem test_decode_flrenc :
    decode [0x43, 0x00, 0x00, 0x00, 0x17, 0x00] = .ok (.flrenc 23 0) := by decide
theorem test_decode_usgdec :
    decode [0x44, 0x00, 0x00, 0x00, 0x1F, 0x03] = .ok (.usgdec 31 3) := by decide
theorem test_decode_usgenc : decode [0x45, 0x00, 0x00, 0x00, 0x1F] = .ok (.usgenc 31) := by decide
theorem test_decode_bssdec :
    decode [0x46, 0x00, 0x00, 0x00, 0x01, 0x0D] = .ok (.bssdec 1 13) := by decide
theorem test_decode_bssenc :
    decode [0x47, 0x00, 0x00, 0x00, 0x01, 0x02] = .ok (.bssenc 1 2) := by decide
theorem test_decode_macparse :
    decode [0x48, 0x03, 0x00, 0x02, 0x41, 0x42] = .ok (.macparse 3 [0x41, 0x42]) := by decide
theorem test_decode_macfmt : decode [0x49, 0x29] = .ok (.macfmt 41) := by decide
theorem test_decode_recdec : decode [0x50] = .ok .recdec := by decide
theorem test_decode_recenc : decode [0x51, 0x07, 0x02] = .ok (.recenc 7 2) := by decide
theorem test_decode_polchk : decode [0x52, 0x06] = .ok (.polchk 6) := by decide

/-- A packet one byte short of its format is no command, and neither is one byte too many (R101). -/
theorem test_decode_wrong_length :
    decode [0x12, 0, 0, 0] = .error (.badLength 0x12) ∧
    decode [0x00, 0x00] = .error (.badLength 0x00) ∧
    decode [0x03, 0, 0, 2, 0x30] = .error (.badLength 0x03) := by decide

/-- The codes at the edges of the unassigned ranges (R104). -/
theorem test_decode_unassigned :
    decode [0x06] = .error (.unassigned 0x06) ∧ decode [0x07, 1] = .error (.unassigned 0x07) ∧
    decode [0x0D] = .error (.unassigned 0x0D) ∧ decode [0x16] = .error (.unassigned 0x16) ∧
    decode [0x32] = .error (.unassigned 0x32) ∧ decode [0x4A] = .error (.unassigned 0x4A) ∧
    decode [0x53] = .error (.unassigned 0x53) ∧ decode [0xFF] = .error (.unassigned 0xFF) := by
  decide

/-- A table word numbers the packet's first byte lowest: RDBITS 6, 34 (R105). -/
theorem test_decode_table_word :
    decodeTableWord 48 0x220600000010 = some (.rdbits 6 34) ∧
    decodeTableWord 8 0x12 = some (.rdoct 0) := by decide

/-- The first step after reset runs the packet placed where the next one is fetched. -/
theorem test_step_runs_packet :
    step (State.reset.withFetchWord 48 0x010000000405) =
      .next (State.reset.rejected .bounds []) := by rfl

/-- The bytes of a response (R100): `RRD HCAP -> OK 1024` (R232). -/
theorem test_response_bytes :
    ((after (.rrd 0xF5) State.reset).resp.map Response.bytes) = some [0, 0, 0, 0, 0, 0, 0, 4, 0] := by
  decide

/-! ## One step of every command -/

/-- R230: the all-zero packet answers OK 0 and leaves STATUS. -/
theorem test_nop :
    after .nop { State.reset with status := .bounds } =
      { State.reset with status := .bounds, resp := some ⟨.ok, 0, none⟩ } := by
  decide

/-- R231: RESET leaves the reset state. -/
theorem test_reset :
    (after .reset (octs [0xAB])).hex = [] ∧ (after .reset (octs [0xAB])).hlen = 0 ∧
    (after .reset { State.reset with cur := 9, dgovf := 1 }).cur = 0 := by
  decide

/-- R126: `BUFZ 3` leaves HEX = `000000`. -/
theorem test_bufz :
    text (after (.bufz 3) (octs [0xAB])) = [0x30, 0x30, 0x30, 0x30, 0x30, 0x30] := by
  decide

/-- R126: the request above HCAP. -/
theorem test_bufz_bounds :
    answer (.bufz 513) State.reset = some (.bounds, 0) ∧
    answer (.bufz 0x80000000) State.reset = some (.bounds, 0) := by
  decide

/-- R127: `LDHEX "0100Ag"` stores the characters as given. -/
theorem test_ldhex :
    text (after (.ldhex 0 [0x30, 0x31, 0x30, 0x30, 0x41, 0x67]) State.reset) =
      [0x30, 0x31, 0x30, 0x30, 0x41, 0x67] := by
  decide

/-- R128: HEX = `ab`, `HXRD 1 -> OK 0x62`. -/
theorem test_hxrd :
    answer (.hxrd 1) (octs [0xAB]) = some (.ok, 0x62) ∧
    answer (.hxrd 2) (octs [0xAB]) = some (.bounds, 0) := by
  decide

/-- R129: HEX = `0601`, `HXWR 3, 0x67` leaves `060g`. -/
theorem test_hxwr :
    text (after (.hxwr 3 0x67) (octs [0x06, 0x01])) = [0x30, 0x36, 0x30, 0x67] := by
  decide

/-- R232: `RRD HCAP -> OK 1024`, `RRD 0x0D -> INVALID 0`. -/
theorem test_rrd :
    answer (.rrd 0xF5) State.reset = some (.ok, 1024) ∧
    answer (.rrd 0x0D) State.reset = some (.invalid, 0) := by
  decide

/-- R233: `RWR R.VER, 5` sets R.VER = 1; `RWR R.EXPIRE, 0x12345` sets 0x2345. -/
theorem test_rwr :
    (after (.rwr 0x0C 5) State.reset).record.ver = 1 ∧
    (after (.rwr 0x24 0x12345) State.reset).record.expire = 0x2345 := by
  decide

/-- R233: `RWR R.BSS_N, 43`, `RWR HLEN, 4` and `RWR 0x6A, 0` are INVALID. -/
theorem test_rwr_invalid :
    answer (.rwr 0x31 43) State.reset = some (.invalid, 0) ∧
    answer (.rwr 0xF2 4) State.reset = some (.invalid, 0) ∧
    answer (.rwr 0x6A 0) State.reset = some (.invalid, 0) := by
  decide

/-- R234, R35: RCLR sets R.VER to 1 and leaves the cursor. -/
theorem test_rclr :
    (after .rclr { State.reset with cur := 9, record := { Record.cleared with ver := 3 } }).record =
      Record.cleared ∧
    (after .rclr { State.reset with cur := 9 }).cur = 9 := by
  decide

/-- R235: `UNKRD 0 -> OK 0x0100dd0200000005`, `UNKRD 2 -> BOUNDS 0`. -/
theorem test_unkrd :
    answer (.unkrd 0) { State.reset with
      record := { Record.cleared with unk := [⟨0xDD, 5, 2⟩, ⟨5, 12, 0⟩] } } =
      some (.ok, 0x0100dd0200000005) ∧
    answer (.unkrd 2) { State.reset with
      record := { Record.cleared with unk := [⟨0xDD, 5, 2⟩, ⟨5, 12, 0⟩] } } = some (.bounds, 0) := by
  decide

/-- R236: `DGRD 0 -> OK 0x01150003`, `DGRD 1 -> BOUNDS 0`. -/
theorem test_dgrd :
    answer (.dgrd 0) { State.reset with diag := [⟨.malformedInput, .frameLength, 3⟩] } =
      some (.ok, 0x01150003) ∧
    answer (.dgrd 1) { State.reset with diag := [⟨.malformedInput, .frameLength, 3⟩] } =
      some (.bounds, 0) := by
  decide

/-- R120: HEX = `52834d12ef`. -/
theorem test_rdbits :
    answer (.rdbits 6 34) (octs [0x52, 0x83, 0x4D, 0x12, 0xEF]) = some (.ok, 0x3bc49360d) ∧
    answer (.rdbits 0 40) (octs [0x52, 0x83, 0x4D, 0x12, 0xEF]) = some (.ok, 0xef124d8352) := by
  decide

/-- R120, R259: BOUNDS before a bad digit, INVALID before both. -/
theorem test_rdbits_order :
    answer (.rdbits 33 8) (octs [0x52, 0x83, 0x4D, 0x12, 0xEF]) = some (.bounds, 0) ∧
    answer (.rdbits 4 16) (chars [0x7A, 0x7A, 0x30, 0x30]) = some (.bounds, 0) ∧
    answer (.rdbits 0 65) State.reset = some (.invalid, 0) := by
  decide

/-- R121: HEX = `0000`, `WRBITS 3, 7, 0x7f` leaves `f803`; `FfFF`, `WRBITS 4, 8, 0` leaves `0ff0`. -/
theorem test_wrbits :
    text (after (.wrbits 3 7 0x7F) (octs [0, 0])) = hexText [0xF8, 0x03] ∧
    text (after (.wrbits 4 8 0) (chars [0x46, 0x66, 0x46, 0x46])) = hexText [0x0F, 0xF0] := by
  decide

/-- R121: HEX = `zz00`, `WRBITS 0, 8, 0xab` leaves `ab00`, `WRBITS 0, 4, 1` is MALFORMED. -/
theorem test_wrbits_bad_digit :
    text (after (.wrbits 0 8 0xAB) (chars [0x7A, 0x7A, 0x30, 0x30])) = hexText [0xAB, 0x00] ∧
    answer (.wrbits 0 4 1) (chars [0x7A, 0x7A, 0x30, 0x30]) = some (.malformed, 0) ∧
    posted (after (.wrbits 0 4 1) (chars [0x7A, 0x7A, 0x30, 0x30])) = [(1, 0x10, 0)] := by
  decide

/-- R122: HEX = `A5`, `RDOCT 0 -> OK 165`; HEX = `a` is BOUNDS. -/
theorem test_rdoct :
    answer (.rdoct 0) (chars [0x41, 0x35]) = some (.ok, 165) ∧
    answer (.rdoct 0) (chars [0x61]) = some (.bounds, 0) := by
  decide

/-- R123: HEX = `a5`, `WROCT 0, 0xAB` leaves `ab`. -/
theorem test_wroct :
    text (after (.wroct 0 0xAB) (octs [0xA5])) = [0x61, 0x62] := by
  decide

/-- R124: HEX = `0123456789abcdef`; R259: `RDMOI 0, 2` on `0gzz` reports octet 0. -/
theorem test_rdmoi :
    answer (.rdmoi 0 8) (octs [0x01, 0x23, 0x45, 0x67, 0x89, 0xAB, 0xCD, 0xEF]) =
      some (.ok, 0x0123456789abcdef) ∧
    posted (after (.rdmoi 0 2) (chars [0x30, 0x67, 0x7A, 0x7A])) = [(1, 0x10, 0)] := by
  decide

/-- R125: HEX = `00000000`, `WRMOI 1, 2, 0x1234` leaves `00123400`. -/
theorem test_wrmoi :
    text (after (.wrmoi 1 2 0xFF1234) (octs [0, 0, 0, 0])) = hexText [0x00, 0x12, 0x34, 0x00] := by
  decide

/-- R144: `FXENC 34, 25, -90` and the clamped `FXENC 34, 25, 300`. -/
theorem test_fxenc :
    answer (.fxenc 34 25 0xFFFFFFA600000000) State.reset = some (.ok, 0x34c000000) ∧
    answer (.fxenc 34 25 0x12C00000000) State.reset = some (.ok, 0x1ffffffff) ∧
    posted (after (.fxenc 34 25 0x12C00000000) State.reset) = [(2, 0x30, 0)] := by
  decide

/-- R142: ties go away from zero: FixEnc(2^-26, 34, 25) = 1, FixEnc(-2^-26, 34, 25) = -1. -/
theorem test_fxenc_ties :
    answer (.fxenc 34 25 0x40) State.reset = some (.ok, 1) ∧
    answer (.fxenc 34 25 0xFFFFFFFFFFFFFFC0) State.reset = some (.ok, 0x3ffffffff) := by
  decide

/-- R145: the two examples. -/
theorem test_fxdec :
    answer (.fxdec 34 25 0x3bc49360d) State.reset = some (.ok, 0xffffffde249b0680) ∧
    answer (.fxdec 14 4 0x3fe8) State.reset = some (.ok, 0xfffffffe80000000) := by
  decide

/-- R149: 1/1024 gives 18, 0 under ZS gives 34, 200 gives 1 with UNC_LOW. -/
theorem test_uncenc :
    answer (.uncenc 8 34 0 0x400000) State.reset = some (.ok, 18) ∧
    answer (.uncenc 8 34 1 0) State.reset = some (.ok, 34) ∧
    posted (after (.uncenc 8 34 0 0xC800000000) State.reset) = [(2, 0x31, 0)] := by
  decide

/-- R147: v = 3 gives 6; v = 2^-27 gives 34 with UNC_HIGH; v = -1 gives 0 with UNC_NEGATIVE. -/
theorem test_uncenc_corners :
    answer (.uncenc 8 34 0 0x300000000) State.reset = some (.ok, 6) ∧
    posted (after (.uncenc 8 34 0 0x20) State.reset) = [(2, 0x32, 0)] ∧
    posted (after (.uncenc 8 34 0 0xFFFFFFFF00000000) State.reset) = [(2, 0x34, 0)] := by
  decide

/-- R150: the two examples. -/
theorem test_uncdec :
    answer (.uncdec 8 34 0 18) State.reset = some (.ok, 0x400000) ∧
    answer (.uncdec 11 24 0 25) State.reset = some (.ok, 0x80000) ∧
    posted (after (.uncdec 11 24 0 25) State.reset) = [(2, 0x33, 0)] := by
  decide

/-- R162: a subelement moves the cursor past it. -/
theorem test_frnext :
    answer .frnext { octs [0x06, 0x01, 0xFF] with cur := 0 } = some (.ok, 0x0100060100000002) ∧
    (after .frnext { octs [0x06, 0x01, 0xFF] with cur := 0 }).cur = 3 := by
  decide

/-- R162: HEX = `0100080603` halts, HEX = `01000806` is BOUNDS. -/
theorem test_frnext_ends :
    posted (after .frnext { octs [1, 0, 8, 6, 3] with cur := 3 }) = [(1, 0x15, 3)] ∧
    (after .frnext { octs [1, 0, 8, 6, 3] with cur := 3 }).cur = 5 ∧
    answer .frnext { octs [1, 0, 8, 6] with cur := 3 } = some (.bounds, 0) := by
  decide

/-- R164: `FRPUT 6, 1 -> OK 5` leaves HEX = `000000060100`. -/
theorem test_frput :
    answer (.frput 6 1) { octs [0, 0, 0, 0, 0, 0] with cur := 3 } = some (.ok, 5) ∧
    text (after (.frput 6 1) { octs [0, 0, 0, 0, 0, 0] with cur := 3 }) =
      hexText [0, 0, 0, 6, 1, 0] := by
  decide

/-- R170: the fixture's location payload. -/
theorem test_locdec :
    (after (.locdec 0 16) (octs [0x52, 0x83, 0x4D, 0x12, 0xEF, 0xD2, 0xB0, 0x8B, 0x9B, 0x4B, 0xF1, 0xCC, 0x2C, 0, 0, 0x41])).record =
      { Record.cleared with
        geoP := 1, lat := 0xffffffde249b0680, lon := 0x9737176180, alt := 0xb33000000
        latU := 0x400000, lonU := 0x400000, altU := 0x4000000000, altType := 1, datum := 1 } := by
  decide

/-- R171: 32 characters `f`. -/
theorem test_locdec_reserved :
    posted (after (.locdec 0 16) (octs (List.replicate 16 0xFF))) =
      [(2, 0x33, 1), (2, 0x33, 2), (2, 0x33, 3), (2, 0x35, 3)] := by
  decide

/-- R172: the example payload `08000000d3000000005af1006efeff69`. -/
theorem test_locenc :
    text (after (.locenc 0 0) { octs (List.replicate 16 0) with
      record := { Record.cleared with
        lat := 0xFFFFFFA600000000, lon := 0xB400000000, alt := 0xFFFFFF9B80000000
        latU := 0x100000000, altU := 0x4000000000, altType := 1, datum := 1, regLoc := 1
        depSta := 1 } }) =
      hexText [0x08, 0, 0, 0, 0xD3, 0, 0, 0, 0, 0x5A, 0xF1, 0, 0x6E, 0xFE, 0xFF, 0x69] := by
  decide

/-- R173: the clamping example. -/
theorem test_locenc_clamps :
    posted (after (.locenc 0 1) { octs (List.replicate 16 0) with
      record := { Record.cleared with
        lat := 0x12C00000000, lon := 0xFFFFFED400000000, latU := 0xC800000000, lonU := 4
        altU := 0xFFFFFFFF00000000, ver := 2 } }) =
      [(2, 0x31, 1), (2, 0x30, 1), (2, 0x32, 2), (2, 0x30, 2), (2, 0x34, 3), (2, 0x35, 2)] := by
  decide

/-- R180: payload `ffe200140012`. -/
theorem test_flrdec :
    (after (.flrdec 0 6) (octs [0xFF, 0xE2, 0, 0x14, 0, 0x12])).record =
      { Record.cleared with
        flrP := 1, move := 2, floor := 0xFFFFFFFF80000000, height := 0x140000000
        heightU := 0x2000000 } := by
  decide

/-- R180: the tolerant payload `0039fff8ff`. -/
theorem test_flrdec_tolerant :
    (after (.flrdec 0 5) (octs [0, 0x39, 0xFF, 0xF8, 0xFF])).record =
      { Record.cleared with
        flrP := 1, move := 1, floor := 0xE0000000, height := 0xFFFFFFFFFF800000
        heightU := 0x80000 } ∧
    posted (after (.flrdec 0 5) (octs [0, 0x39, 0xFF, 0xF8, 0xFF])) = [(2, 0x33, 5)] := by
  decide

/-- R182: floor 7/2, movement 1, height 5/4, uncertainty 1/2 give `00e10014000c`. -/
theorem test_flrenc :
    text (after (.flrenc 0 0) { octs [0, 0, 0, 0, 0, 0] with
      record := { Record.cleared with
        floor := 0x380000000, move := 1, height := 0x140000000, heightU := 0x80000000 } }) =
      hexText [0, 0xE1, 0, 0x14, 0, 0x0C] := by
  decide

/-- R182: floor 512, height -3000, uncertainty 5000 are clamped. -/
theorem test_flrenc_clamps :
    posted (after (.flrenc 0 0) { octs [0, 0, 0, 0, 0, 0] with
      record := { Record.cleared with
        floor := 0x20000000000, move := 2, height := 0xFFFFF44800000000
        heightU := 0x138800000000 } }) = [(2, 0x30, 4), (2, 0x30, 5), (2, 0x31, 5)] := by
  decide

/-- R190: `020005`; `010000` posts two entries. -/
theorem test_usgdec :
    (after (.usgdec 0 3) (octs [2, 0, 5])).record =
      { Record.cleared with usgP := 1, retExp := 1, expire := 5 } ∧
    posted (after (.usgdec 0 3) (octs [1, 0, 0])) = [(1, 0x1C, 3), (1, 0x1B, 0)] := by
  decide

/-- R194: `USGENC 0 -> OK 3` leaves `020005`; with `BUFZ 2` it is BOUNDS. -/
theorem test_usgenc :
    text (after (.usgenc 0) { octs [0, 0, 0] with
      record := { Record.cleared with expire := 5 } }) = hexText [2, 0, 5] ∧
    answer (.usgenc 0) { octs [0, 0] with record := { Record.cleared with expire := 5 } } =
      some (.bounds, 0) := by
  decide

/-- R193: (1, 1, 1, 0) gives `05` with FLAG_WITHOUT_EXP. -/
theorem test_usgenc_flag :
    text (after (.usgenc 0) { octs [0] with
      record := { Record.cleared with retrans := 1, retExp := 1, locPol := 1 } }) =
      hexText [5] ∧
    posted (after (.usgenc 0) { octs [0] with
      record := { Record.cleared with retrans := 1, retExp := 1, locPol := 1 } }) =
      [(3, 0x41, 0)] := by
  decide

/-- R200: two addresses from 13 octets. -/
theorem test_bssdec :
    (after (.bssdec 0 13) (octs [0, 0, 0x11, 0x22, 0x33, 0x44, 0x55, 0x66, 0x77, 0x88, 0x99, 0xAA, 0xBB])).record.slot 1 =
      { addr := 0x66778899aabb, valid := 1 } ∧
    (after (.bssdec 0 13) (octs [0, 0, 0x11, 0x22, 0x33, 0x44, 0x55, 0x66, 0x77, 0x88, 0x99, 0xAA, 0xBB])).record.bssN = 2 := by
  decide

/-- R200: `0100112233445g66778899aabz` gives two invalid slots. -/
theorem test_bssdec_bad_digits :
    posted (after (.bssdec 0 13) (chars ((hexText [1, 0, 0x11, 0x22, 0x33, 0x44]) ++ [0x35, 0x67]
      ++ hexText [0x66, 0x77, 0x88, 0x99, 0xAA] ++ [0x62, 0x7A]))) =
      [(1, 0x10, 6), (1, 0x10, 12), (1, 0x1D, 1)] := by
  decide

/-- R202: a valid, an invalid and a valid slot with the count as indicator. -/
theorem test_bssenc :
    text (after (.bssenc 0 2) { octs (List.replicate 19 0) with
      record := { (((Record.cleared.setSlot 0 ⟨0x001122334455, 1⟩).setSlot 1 ⟨0, 0⟩).setSlot 2
        ⟨0xffffffffffff, 1⟩) with bssN := 3 } }) =
      hexText [3, 0, 0x11, 0x22, 0x33, 0x44, 0x55, 0, 0, 0, 0, 0, 0,
        0xFF, 0xFF, 0xFF, 0xFF, 0xFF, 0xFF] := by
  decide

/-- R205: `MACPARSE 3, "AA-BB-CC-DD-EE-FF"`. -/
theorem test_macparse :
    (after (.macparse 3 [0x41, 0x41, 0x2D, 0x42, 0x42, 0x2D, 0x43, 0x43, 0x2D, 0x44, 0x44, 0x2D, 0x45, 0x45, 0x2D,
      0x46, 0x46]) State.reset).record.slot 3 =
      { addr := 0xaabbccddeeff, valid := 1 } := by
  decide

/-- R205: `MACPARSE 4, "AA-BB-CC" -> OK 0` with MAC_TEXT. -/
theorem test_macparse_invalid :
    answer (.macparse 4 [0x41, 0x41, 0x2D, 0x42, 0x42, 0x2D, 0x43, 0x43]) State.reset =
      some (.ok, 0) ∧
    posted (after (.macparse 4 [0x41, 0x41, 0x2D, 0x42, 0x42, 0x2D, 0x43, 0x43]) State.reset) =
      [(1, 0x1F, 4)] := by
  decide

/-- R206: MacFmt(0xaabbccddeeff) = `aa:bb:cc:dd:ee:ff`. -/
theorem test_macfmt :
    (after (.macfmt 3) { State.reset with
      record := Record.cleared.setSlot 3 ⟨0xaabbccddeeff, 1⟩ }).resp =
      some ⟨.ok, 1, some [0x61, 0x61, 0x3A, 0x62, 0x62, 0x3A, 0x63, 0x63, 0x3A, 0x64, 0x64, 0x3A,
        0x65, 0x65, 0x3A, 0x66, 0x66]⟩ := by
  decide

/-- R216: `"010008dd02abcd0601010500" -> OK 4`. -/
theorem test_recdec :
    answer .recdec (octs [1, 0, 8, 0xDD, 2, 0xAB, 0xCD, 6, 1, 1, 5, 0]) = some (.ok, 4) ∧
    posted (after .recdec (octs [1, 0, 8, 0xDD, 2, 0xAB, 0xCD, 6, 1, 1, 5, 0])) =
      [(4, 0x50, 0xDD), (4, 0x50, 5)] := by
  decide +kernel

/-- R216: the last line of the examples. -/
theorem test_recdec_advisory :
    answer .recdec (octs [1, 0, 8, 6, 3, 2, 0, 5, 4, 6, 0, 5, 0, 0, 0, 0, 7, 1, 0]) = some (.ok, 14) ∧
    posted (after .recdec (octs [1, 0, 8, 6, 3, 2, 0, 5, 4, 6, 0, 5, 0, 0, 0, 0, 7, 1, 0])) =
      [(5, 0x60, 0), (5, 0x61, 0), (5, 0x62, 5), (5, 0x63, 1)] := by
  decide +kernel

/-- R218: from reset with EXPIRE = 5, RETRANS = 1, `RECENC USAGE, 0 -> OK 8`. -/
theorem test_recenc :
    text (after (.recenc 4 0) { State.reset with
      record := { Record.cleared with expire := 5, retrans := 1 } }) =
      hexText [1, 0, 8, 6, 3, 3, 0, 5] ∧
    posted (after (.recenc 4 0) { State.reset with
      record := { Record.cleared with expire := 5, retrans := 1 } }) =
      [(3, 0x40, 5), (5, 0x61, 0), (5, 0x62, 5)] := by
  decide

/-- R218: from reset, `RECENC LOC, 0 -> OK 3`, `RECENC LOC+FORCE_LOC, 0 -> OK 21`. -/
theorem test_recenc_location :
    answer (.recenc 1 0) State.reset = some (.ok, 3) ∧
    answer (.recenc 0x11 0) State.reset = some (.ok, 21) := by
  decide

/-- R220: `POLCHK FLOOR+USAGE -> OK 1` with RETRANS = 1, MOVE = 2. -/
theorem test_polchk :
    posted (after (.polchk 6) { State.reset with
      record := { Record.cleared with retrans := 1, move := 2 } }) = [(5, 0x63, 2)] := by
  decide

/-! ## Witnesses: states and operands that meet the hypotheses of each statement, clause by clause, at
the edges of their ranges -/

/-- The instruction answers a next state. -/
def runs (i : Instr) (s : State) : Bool :=
  match exec i s with
  | .next _ => true
  | .fault _ => false
  | .refused _ => false

/-- An instruction that answers a next state answers the one `after` names. -/
theorem exec_of_runs {i : Instr} {s : State} (h : runs i s = true) : exec i s = .next (after i s) := by
  unfold runs at h
  unfold after
  cases he : exec i s <;> simp_all

/-- Five octets: the buffer of the examples of R120. -/
def five : State := octs [0x52, 0x83, 0x4D, 0x12, 0xEF]

/-- Two octets, the first with a character that is no digit in each place. -/
def bad : State := chars [0x7A, 0x7A, 0x30, 0x30]

theorem witness_StepKeepsTheInvariant :
    State.Inv { five with pending := [[0x50]] } ∧
      ∃ t, step { five with pending := [[0x50]] } = .next t := by
  refine ⟨⟨?_, ?_, ?_, ?_, ?_, ?_, ?_, ?_⟩, _, exec_of_runs (i := .recdec) (s := five) ?_⟩ <;> decide

theorem witness_DecodeOfEncodeIsTheInstruction :
    (Instr.ldhex 0 (List.replicate 65535 0x30)).WellFormed = true ∧
      (Instr.macparse 0xFF []).WellFormed = true ∧ (Instr.nop).WellFormed = true := by
  refine ⟨?_, rfl, rfl⟩
  rw [wellFormed_ldhex, List.length_replicate]
  decide

theorem witness_EncodeOfDecodeIsThePacket :
    decode [0x03, 0x80, 0x00, 0x02, 0x30, 0x67] = .ok (.ldhex 0x80 [0x30, 0x67]) ∧
    decode [0x48, 0xFF, 0x00, 0x00] = .ok (.macparse 0xFF []) := by
  decide

/-- Every assigned code at the ends of the ranges of R102. -/
theorem witness_PacketIsACommandWhenItsLengthIsRight :
    ∀ op ∈ ([0x00, 0x05, 0x08, 0x0C, 0x10, 0x15, 0x20, 0x23, 0x30, 0x31, 0x40, 0x49, 0x50, 0x52] :
      List Byte), Assigned op := by
  unfold Assigned
  decide

theorem witness_StepRunsTheDecodedInstruction :
    ({ five with pending := [[0x12, 0, 0, 0, 4], [0x00]] } : State).pending =
      [0x12, 0, 0, 0, 4] :: [[0x00]] ∧ decode [0x12, 0, 0, 0, 4] = .ok (.rdoct 4) := by
  decide

theorem witness_StepStopsOnlyOnPacketsThatAreNoCommand :
    five.pending = [] ∧ step { five with pending := [[]] } = .fault .emptyPacket ∧
    step { five with pending := [[0x00, 0x00]] } = .refused (.packetLength 0x00) :=
  ⟨rfl, rfl, rfl⟩

/-- Unassigned codes next to every assigned range, and for each limited operand the first value past
its limit. -/
theorem witness_UnassignedAndIllFormedCommandsAreRefused :
    (∀ op ∈ ([0x06, 0x07, 0x0D, 0x0F, 0x16, 0x1F, 0x24, 0x2F, 0x32, 0x3F, 0x4A, 0x4F, 0x53, 0xFF] :
      List Byte), ¬Assigned op) ∧
    (BadOperands (.ldhex 1 []) ∧ BadOperands (.rwr 0xF2 0) ∧ BadOperands (.rwr 0x31 43) ∧
      BadOperands (.rdbits 0 65) ∧ BadOperands (.wrbits 0 65 0) ∧ BadOperands (.rdmoi 0 9) ∧
      BadOperands (.wrmoi 0 9 0) ∧ BadOperands (.fxenc 0 0 0) ∧ BadOperands (.fxenc 65 0 0) ∧
      BadOperands (.fxenc 1 64 0) ∧ BadOperands (.fxdec 0 0 0) ∧ BadOperands (.fxdec 33 0 0) ∧
      BadOperands (.fxdec 64 33 0) ∧ BadOperands (.uncenc 0 0 0 0) ∧ BadOperands (.uncenc 0 1 2 0) ∧
      BadOperands (.uncdec 0 0 0 0) ∧ BadOperands (.uncdec 0 1 1 0) ∧
      BadOperands (.uncdec 0 1 0 256) ∧ BadOperands (.uncdec 32 1 0 0) ∧
      BadOperands (.uncdec 0 33 0 0) ∧ BadOperands (.locenc 0 4) ∧ BadOperands (.flrenc 0 4) ∧
      BadOperands (.bssenc 0 4) ∧ BadOperands (.macparse 42 []) ∧ BadOperands (.recenc 32 0) ∧
      BadOperands (.recenc 0 4) ∧ BadOperands (.polchk 32)) := by
  constructor
  · unfold Assigned
    decide
  · refine ⟨?_, ?_, ?_, ?_, ?_, ?_, ?_, ?_, ?_, ?_, ?_, ?_, ?_, ?_, ?_, ?_, ?_, ?_, ?_, ?_, ?_, ?_, ?_, ?_, ?_, ?_, ?_⟩
    all_goals
      unfold BadOperands
      decide

theorem witness_ObserversChangeNothing :
    ∀ i ∈ [Instr.nop, .hxrd 0, .rrd 0, .unkrd 0, .dgrd 0, .macfmt 0],
      Observes i = true ∧ runs i five = true := by
  decide

/-- One command that answers OK and one that fails with each other status. -/
theorem witness_ResponseStatusIsTheStatusRegister :
    (∀ i ∈ [Instr.rdoct 0, .rdoct 5, .rdbits 0 65], Observes i = false ∧ runs i five = true) ∧
    (after (.rdoct 0) five).status = .ok ∧ (after (.rdoct 5) five).status = .bounds ∧
    (after (.rdbits 0 65) five).status = .invalid := by
  decide

theorem witness_FailureLeavesTheState :
    (Instr.wroct 5 0) ≠ .recdec ∧ Observes (.wroct 5 0) = false ∧ runs (.wroct 5 0) five = true ∧
    (after (.wroct 5 0) five).status ≠ .ok := by
  decide

theorem witness_OnlyAccessorsFailMalformed :
    ∀ i ∈ [Instr.rdbits 0 1, .wrbits 4 1 0, .rdoct 0, .rdmoi 0 2],
      Observes i = false ∧ runs i bad = true ∧ (after i bad).status = .malformed := by
  decide

theorem witness_OnlyTheNamedCommandsWriteEachPart :
    WritesBuffer (.rdoct 0) = false ∧ WritesLength (.wroct 0 7) = false ∧
    WritesCursor (.wroct 0 7) = false ∧ WritesRecord (.wroct 0 7) = false ∧
    WritesUnknown (.rwr 0x24 7) = false ∧ runs (.rdoct 0) five = true ∧
    runs (.wroct 0 7) five = true ∧ runs (.rwr 0x24 7) five = true := by
  decide

theorem witness_EncodersReadNoPresentFlag :
    ∀ i ∈ [Instr.locenc 0 0, .flrenc 0 0, .usgenc 0, .bssenc 0 0, .recenc 0x1F 3],
      Encodes i = true ∧ runs i (octs (List.replicate 16 0)) = true := by
  decide

theorem witness_NoCommandReadsEarlierDiagnostics :
    Observes (.rdoct 0) = false ∧ Observes .recdec = false := by
  decide

theorem witness_DiagnosticsNeverOverflow :
    five.hlen ≤ Config.hcap ∧ five.record.bssN.toNat ≤ Config.bssCap ∧
    Observes .recdec = false ∧ runs .recdec five = true := by
  decide

/-- A register of the table, and both ends of both slot ranges. -/
theorem witness_RrdReadsTheNumberedRegister :
    ((0x0C : BitVec 8), (1 : Word64)) ∈ registerTable State.reset ∧
    0x40 ≤ (0x40 : BitVec 8).toNat ∧ (0x69 : BitVec 8).toNat ≤ 0x69 ∧
    0x80 ≤ (0x80 : BitVec 8).toNat ∧ (0xA9 : BitVec 8).toNat ≤ 0xA9 := by
  refine ⟨?_, by decide, by decide, by decide, by decide⟩
  simp [registerTable, State.reset, Record.cleared]

/-- Numbers without a register, next to the numbers that have one. -/
theorem witness_RrdReadsTheNumberedRegister_none :
    ∀ r ∈ ([0x0D, 0x3F, 0x6A, 0x7F, 0xAA, 0xEF, 0xF7] : List (BitVec 8)),
      (∀ e ∈ registerTable State.reset, e.1 ≠ r) ∧ ¬(0x40 ≤ r.toNat ∧ r.toNat ≤ 0x69) ∧
      ¬(0x80 ≤ r.toNat ∧ r.toNat ≤ 0xA9) := by
  simp [registerTable]

theorem witness_RwrWritesTheNumberedRegister :
    writableWidth 0xF5 = none ∧ writableWidth 0x0D = none ∧ 42 < (43 : BitVec 64).toNat ∧
    writableWidth 0x31 = some 6 ∧ (42 : BitVec 64).toNat ≤ 42 ∧ writableWidth 0x69 = some 48 ∧
    writableWidth 0xF1 = some 32 ∧ runs (.rwr 0x31 42) five = true ∧
    (0x32 : BitVec 8) ≠ 0x31 ∧ (0x32 : BitVec 8) ∉ [0xF0, 0xF3, 0xF6] := by
  decide

theorem witness_UnkrdReadsAnEntry :
    five.record.unk.length ≤ (0 : BitVec 32).toNat ∧
    ({ Record.cleared with unk := [⟨0xDD, 5, 2⟩] } : Record).unk[(0 : BitVec 32).toNat]? =
      some ⟨0xDD, 5, 2⟩ := by
  decide

theorem witness_DgrdReadsAnEntry :
    five.diag.length ≤ (0 : BitVec 32).toNat ∧
    (after (.rdoct 0) bad).diag[(0 : BitVec 32).toNat]? = some ⟨.malformedInput, .hexDigit, 0⟩ := by
  decide

theorem witness_BufzMakesZeroOctets :
    1024 < 2 * (513 : BitVec 32).toNat ∧ 2 * (512 : BitVec 32).toNat ≤ 1024 := by
  decide

theorem witness_LdhexStoresTheText :
    (List.replicate 65535 (0x30 : Byte)).length < 65536 ∧ (1 : BitVec 8) ≠ 0 ∧
    1024 < (List.replicate 1025 (0x30 : Byte)).length ∧
    (List.replicate 1024 (0x30 : Byte)).length ≤ 1024 := by
  simp only [List.length_replicate]
  decide

theorem witness_HxrdReadsACharacter :
    five.hlen ≤ (10 : BitVec 32).toNat ∧ (9 : BitVec 32).toNat < five.hlen := by
  decide

theorem witness_HxwrWritesOneCharacter :
    five.hlen ≤ (10 : BitVec 32).toNat ∧ (9 : BitVec 32).toNat < five.hlen := by
  decide

theorem witness_RdbitsReadsStreamBits :
    64 < (65 : BitVec 8).toNat ∧
    ((64 : BitVec 8).toNat ≤ 64 ∧ 8 * five.olen < (0 : BitVec 32).toNat + (64 : BitVec 8).toNat) ∧
    ((40 : BitVec 8).toNat ≤ 64 ∧ (0 : BitVec 32).toNat + (40 : BitVec 8).toNat ≤ 8 * five.olen ∧
      five.firstBad ((0 : BitVec 32).toNat / 8) (touched 0 40) = none) ∧
    ((16 : BitVec 8).toNat ≤ 64 ∧ (0 : BitVec 32).toNat + (16 : BitVec 8).toNat ≤ 8 * bad.olen ∧
      bad.firstBad ((0 : BitVec 32).toNat / 8) (touched 0 16) = some 0) := by
  decide

theorem witness_WrbitsWritesStreamBits :
    64 < (65 : BitVec 8).toNat ∧
    ((64 : BitVec 8).toNat ≤ 64 ∧ 8 * five.olen < (0 : BitVec 32).toNat + (64 : BitVec 8).toNat) ∧
    ((40 : BitVec 8).toNat ≤ 64 ∧ (0 : BitVec 32).toNat + (40 : BitVec 8).toNat ≤ 8 * five.olen ∧
      five.firstBadPartly 0 40 = none) ∧
    (bad.olen = 2 ∧ bad.firstBadPartly 0 8 = none ∧ bad.firstBadPartly 0 7 = some 0) := by
  decide

theorem witness_RdoctReadsAnOctet :
    five.olen ≤ (5 : BitVec 32).toNat ∧
    ((4 : BitVec 32).toNat < five.olen ∧ five.digitsOk (4 : BitVec 32).toNat = true) ∧
    ((0 : BitVec 32).toNat < bad.olen ∧ bad.digitsOk (0 : BitVec 32).toNat = false) := by
  decide

theorem witness_WroctWritesAnOctet :
    five.olen ≤ (5 : BitVec 32).toNat ∧ (4 : BitVec 32).toNat < five.olen := by
  decide

theorem witness_RdmoiReadsBigEndian :
    8 < (9 : BitVec 8).toNat ∧
    ((8 : BitVec 8).toNat ≤ 8 ∧ five.olen < (0 : BitVec 32).toNat + (8 : BitVec 8).toNat) ∧
    ((5 : BitVec 8).toNat ≤ 8 ∧ (0 : BitVec 32).toNat + (5 : BitVec 8).toNat ≤ five.olen ∧
      five.firstBad 0 5 = none) ∧
    ((2 : BitVec 8).toNat ≤ 8 ∧ (0 : BitVec 32).toNat + (2 : BitVec 8).toNat ≤ bad.olen ∧
      bad.firstBad 0 2 = some 0) := by
  decide

theorem witness_WrmoiWritesBigEndian :
    8 < (9 : BitVec 8).toNat ∧
    ((8 : BitVec 8).toNat ≤ 8 ∧ five.olen < (0 : BitVec 32).toNat + (8 : BitVec 8).toNat) ∧
    ((5 : BitVec 8).toNat ≤ 8 ∧ (0 : BitVec 32).toNat + (5 : BitVec 8).toNat ≤ five.olen) := by
  decide

theorem witness_WritesReadBackThroughEveryView :
    five.hlen ≤ Config.hcap ∧
    (∀ i ∈ [Instr.wrbits 0 0 1, .wrbits 3 37 1, .wrmoi 0 5 1, .wrmoi 5 0 1, .wroct 4 7, .hxwr 9 0x41],
      runs i five = true ∧ (after i five).status = .ok) ∧
    touched 3 37 = 5 ∧ (lowOctets 1 5)[4]? = some 1 ∧ hexval 0x41 = some 10 ∧
    (after (.hxwr 9 0x41) five).olen = 5 ∧ (after (.hxwr 9 0x41) five).digitsOk 4 = true := by
  decide

theorem witness_FxencRoundsAndClamps :
    ((0 : BitVec 8).toNat < 1 ∧ 64 < (65 : BitVec 8).toNat ∧ 63 < (64 : BitVec 8).toNat) ∧
    (1 ≤ (1 : BitVec 8).toNat ∧ (64 : BitVec 8).toNat ≤ 64 ∧ (63 : BitVec 8).toNat ≤ 63) := by
  decide

theorem witness_FxdecSignExtendsExactly :
    ((0 : BitVec 8).toNat < 1 ∧ 64 < (65 : BitVec 8).toNat ∧ 32 < (33 : BitVec 8).toNat ∧
      (0 : BitVec 8).toNat + 32 < (33 : BitVec 8).toNat) ∧
    (1 ≤ (64 : BitVec 8).toNat ∧ (64 : BitVec 8).toNat ≤ 64 ∧ (32 : BitVec 8).toNat ≤ 32 ∧
      (64 : BitVec 8).toNat ≤ (32 : BitVec 8).toNat + 32) := by
  decide

theorem witness_UncencTakesTheLogarithm :
    2 ≤ (2 : BitVec 8).toNat ∧ (1 : BitVec 8) ≠ 0 ∧ (1 : BitVec 8).toNat < 2 := by
  decide

theorem witness_UncdecAnswersThePower :
    (255 < (256 : BitVec 64).toNat ∧ 31 < (32 : BitVec 8).toInt ∧
      (0 : BitVec 8).toInt - (33 : BitVec 8).toNat < -32) ∧
    ((63 : BitVec 8) ≠ 0 ∧ (255 : BitVec 64).toNat ≤ 255 ∧ (31 : BitVec 8).toInt ≤ 31 ∧
      -32 ≤ (31 : BitVec 8).toInt - (63 : BitVec 8).toNat) := by
  decide

/-- The uncertainty codes of the location, both policies; the second clause at the value 1. -/
theorem witness_UncertaintyCodesRoundTrip :
    ((34 : BitVec 8) ≠ 0 ∧ (1 : BitVec 8).toNat < 2 ∧ (8 : BitVec 8).toInt ≤ 31 ∧
      -32 ≤ (8 : BitVec 8).toInt - (34 : BitVec 8).toNat) ∧ (255 : BitVec 64).toNat ≤ 255 ∧
    0 < value 0x100000000 ∧
    exec (.uncenc 8 34 1 0x100000000) five = .next (five.answered [] 8) := by
  refine ⟨by decide, by decide, (value_pos_iff _).2 (by decide), rfl⟩

theorem witness_FixedPointRoundTrips :
    (1 ≤ (34 : BitVec 8).toNat ∧ (34 : BitVec 8).toNat ≤ 64 ∧ (25 : BitVec 8).toNat ≤ 32 ∧
      (34 : BitVec 8).toNat ≤ (25 : BitVec 8).toNat + 32) ∧
    (0x3FFFFFFFF : BitVec 64).toNat < 2 ^ (34 : BitVec 8).toNat ∧
    exec (.fxenc 34 25 0x40) five = .next (five.answered [] 1) :=
  ⟨by decide, by decide, rfl⟩

/-- A cursor past the end, one octet before it, at it, at a halt and at a subelement. -/
theorem witness_FrnextTakesOneSubelement :
    five.hlen ≤ Config.hcap ∧ five.olen < (6 : BitVec 32).toNat ∧
    (4 : BitVec 32).toNat + 1 = five.olen ∧ (5 : BitVec 32).toNat = five.olen ∧
    haltEntry five 3 = some ⟨.malformedInput, .frameLength, 3⟩ ∧
    haltEntry bad 0 = some ⟨.malformedInput, .hexDigit, 0⟩ ∧
    ((0 : BitVec 32).toNat + 2 ≤ (octs [6, 1, 0xFF]).olen ∧ haltEntry (octs [6, 1, 0xFF]) 0 = none) := by
  decide

theorem witness_WalkEndsWithinItsBound :
    five.hlen ≤ Config.hcap ∧ five.cur.toNat ≤ five.olen ∧
    (∃ t, frNext (octs [6, 1, 0xFF]) = (t, .sub 6 1 2)) ∧
    (five.olen - five.cur.toNat) / 2 + 1 ≤ 3 :=
  ⟨by decide, by decide, ⟨_, rfl⟩, by decide⟩

theorem witness_FrputWritesIdAndLength :
    five.hlen ≤ Config.hcap ∧ five.olen < (4 : BitVec 32).toNat + 2 ∧
    (3 : BitVec 32).toNat + 2 ≤ five.olen := by
  decide

theorem witness_LocdecDecodesTheLocation :
    five.olen < (5 : BitVec 32).toNat + (1 : BitVec 8).toNat ∧
    (5 : BitVec 32).toNat + (0 : BitVec 8).toNat ≤ five.olen ∧
    (0 : BitVec 32).toNat + (16 : BitVec 8).toNat ≤ (octs (List.replicate 16 0)).olen ∧
    (octs (List.replicate 16 0)).firstBad 0 16 = none ∧
    ({ bad with hlen := 32 } : State).firstBad 0 16 = some 0 := by
  decide

theorem witness_LocencEncodesTheLocation :
    4 ≤ (4 : BitVec 8).toNat ∧ (3 : BitVec 8).toNat < 4 ∧
    five.olen < (0 : BitVec 32).toNat + 16 ∧
    (0 : BitVec 32).toNat + 16 ≤ (octs (List.replicate 16 0)).olen := by
  decide

theorem witness_FlrdecDecodesTheFloor :
    five.olen < (0 : BitVec 32).toNat + (6 : BitVec 8).toNat ∧
    ((1 : BitVec 32).toNat + (4 : BitVec 8).toNat ≤ five.olen ∧
      (4 : BitVec 8).toNat ≠ 6 ∧ (4 : BitVec 8).toNat ≠ 5) ∧
    ((0 : BitVec 32).toNat + (5 : BitVec 8).toNat ≤ five.olen ∧ five.firstBad 0 5 = none) ∧
    ({ bad with hlen := 12 } : State).firstBad 0 6 = some 0 := by
  decide

theorem witness_FlrencEncodesTheFloor :
    4 ≤ (4 : BitVec 8).toNat ∧ (3 : BitVec 8).toNat < 4 ∧ five.olen < (0 : BitVec 32).toNat + 6 ∧
    (10 : BitVec 32).toNat + 6 ≤ (octs (List.replicate 16 0)).olen := by
  decide

theorem witness_UsgdecDecodesTheUsage :
    five.olen < (3 : BitVec 32).toNat + (3 : BitVec 8).toNat ∧
    ((3 : BitVec 32).toNat + (2 : BitVec 8).toNat ≤ five.olen ∧
      (2 : BitVec 8).toNat ≠ 1 ∧ (2 : BitVec 8).toNat ≠ 3) ∧
    ((2 : BitVec 32).toNat + (3 : BitVec 8).toNat ≤ five.olen ∧ five.firstBad 2 3 = none) ∧
    (bad.olen = 2 ∧ bad.firstBad 0 1 = some 0) := by
  decide

theorem witness_UsgencEncodesTheCorrectedUsage :
    five.record.expire = 0 ∧ five.olen < (5 : BitVec 32).toNat + 1 ∧
    (4 : BitVec 32).toNat + 1 ≤ five.olen := by
  decide

theorem witness_BssdecDecodesTheAddresses :
    five.olen < (5 : BitVec 32).toNat + (1 : BitVec 8).toNat ∧
    (5 : BitVec 32).toNat + (0 : BitVec 8).toNat ≤ five.olen ∧
    ((4 : BitVec 32).toNat + (1 : BitVec 8).toNat ≤ five.olen ∧ (1 : BitVec 8).toNat ≠ 0) := by
  decide

theorem witness_BssencEncodesTheAddresses :
    4 ≤ (4 : BitVec 8).toNat ∧ (3 : BitVec 8).toNat < 4 ∧
    five.olen < (5 : BitVec 32).toNat + (1 + 6 * five.record.bssN.toNat) ∧
    (4 : BitVec 32).toNat + (1 + 6 * five.record.bssN.toNat) ≤ five.olen := by
  decide

/-- A text of twelve digits is the form of an address, the empty text is of none. -/
theorem witness_MacparseFillsOneSlot :
    ([] : List Byte).length < 65536 ∧ 42 ≤ (42 : BitVec 8).toNat ∧ (41 : BitVec 8).toNat < 42 ∧
    IsAddressText (hexText [0x00, 0x11, 0x22, 0x33, 0x44, 0x55]) 0x001122334455 ∧
    ¬∃ a, IsAddressText [] a := by
  refine ⟨by decide, by decide, by decide, .inl ⟨by decide, by decide⟩, ?_⟩
  rintro ⟨a, ⟨h, -⟩ | ⟨h, -⟩⟩ <;> exact absurd h (by decide)

theorem witness_MacfmtAnswersTheCanonicalText :
    42 ≤ (42 : BitVec 8).toNat ∧ (41 : BitVec 8).toNat < 42 := by
  decide

theorem witness_CanonicalTextParsesBack : (0 : BitVec 8).toNat < 42 ∧ (41 : BitVec 8).toNat < 42 := by
  decide

/-- A header alone, and a header with two subelements. -/
theorem witness_RecdecDecodesEverySubelement :
    (octs [1, 0, 8]).hlen ≤ Config.hcap ∧ 3 ≤ (octs [1, 0, 8]).olen ∧
    Framed (octs [1, 0, 8]) 3 [] (octs [1, 0, 8]).olen ∧
    Framed (octs [1, 0, 8, 6, 1, 1, 5, 0]) 3 [⟨6, 1, 5⟩, ⟨5, 0, 8⟩]
      (octs [1, 0, 8, 6, 1, 1, 5, 0]).olen := by
  refine ⟨by decide, by decide, rfl, ?_⟩
  unfold Framed Framed Framed
  decide

theorem witness_RecdecKeepsWhatItDecodedWhenItEndsEarly :
    (octs [1, 0]).hlen ≤ Config.hcap ∧ (octs [1, 0]).olen < 3 ∧
    (Framed (octs [1, 0, 8, 6]) 3 [] 3 ∧ 3 + 1 = (octs [1, 0, 8, 6]).olen) ∧
    (Framed (octs [1, 0, 8, 6, 1]) 3 [] 3 ∧
      haltEntry (octs [1, 0, 8, 6, 1]) 3 = some ⟨.malformedInput, .frameLength, 3⟩) ∧
    3 ≤ (octs [1, 0, 8]).olen := by
  refine ⟨by decide, by decide, ⟨rfl, by decide⟩, ⟨rfl, by decide⟩, by decide⟩

theorem witness_RecencWritesTheSelectedSubelements :
    32 ≤ (32 : BitVec 8).toNat ∧ 4 ≤ (4 : BitVec 8).toNat ∧ (31 : BitVec 8).toNat < 32 ∧
    (3 : BitVec 8).toNat < 4 := by
  decide

/-- All four subelements of a cleared record, its location forced: every value is 0. -/
theorem witness_RecordSurvivesEncodeAndDecode :
    (0x1F : BitVec 8).toNat < 32 ∧ (2 : BitVec 8).toNat < 4 ∧
    Preserved Record.cleared 0x1F ((2 : BitVec 8).getLsbD 0) := by
  have z : value 0 = 0 := by simp [value]
  have grid : ∀ w f, 0 < w → OnGrid 0 w f := fun w f _ =>
    ⟨0, by positivity, by simp [value, fixValue, signed]⟩
  have scale : ∀ m max, OnScale 0 m max false := fun m max => .inl ⟨rfl, z⟩
  refine ⟨by decide, by decide, ?_⟩
  refine ⟨fun _ => ⟨⟨by decide, .inr (.inr (.inr (by decide)))⟩, grid 34 25 (by decide),
    grid 34 25 (by decide), grid 30 8 (by decide), scale _ _, scale _ _, scale _ _⟩,
    fun _ => ⟨grid 14 4 (by decide), grid 24 12 (by decide), scale _ _⟩, fun _ => by decide,
    fun _ => ⟨by decide, by decide, fun i _ => ?_⟩⟩
  unfold Record.slot Record.cleared
  simp only [Vector.getElem?_replicate]
  split <;> rfl

/-- The fixture of 95_test_vectors.md V1 with an empty and with a one-address BSSID list behind it, the
indicator 0 and the count. -/
theorem witness_RecordSurvivesEncodeAndDecode_wire :
    CanonicalWire false [(0, [0x52, 0x83, 0x4D, 0x12, 0xEF, 0xD2, 0xB0, 0x8B, 0x9B, 0x4B, 0xF1, 0xCC,
      0x2C, 0, 0, 0x41]), (4, [0, 0, 0, 0, 0, 0x12]), (6, [1]), (7, [0])] ∧
    CanonicalWire true [(6, [2, 0, 5]), (7, [1, 0, 0x11, 0x22, 0x33, 0x44, 0x55])] := by
  refine ⟨⟨by decide, ?_⟩, ⟨by decide, ?_⟩⟩
  · simp only [List.forall_mem_cons]
    exact ⟨.inl (by decide), .inr (.inl (by decide)), .inr (.inr (.inl (by decide))),
      .inr (.inr (.inr ⟨rfl, by decide, 0, by decide⟩)), by simp⟩
  · simp only [List.forall_mem_cons]
    exact ⟨.inr (.inr (.inl (by decide))), .inr (.inr (.inr ⟨rfl, by decide, 1, by decide⟩)), by simp⟩

theorem witness_PolchkReportsIncompatibilities :
    32 ≤ (32 : BitVec 8).toNat ∧ (31 : BitVec 8).toNat < 32 := by
  decide

end Sys2Proof.Machine
end

section
/-! PROOFS. The statements about reset (spec/10_state.md R35, R36; spec/48_system.md R231). -/

namespace Sys2Proof.Machine

/-- Every slot of the cleared record is empty (R30, R35). -/
@[simp] theorem Record.cleared_slot (i : Nat) : Record.cleared.slot i = Slot.empty := by
  unfold Record.slot Record.cleared
  simp only [Vector.getElem?_replicate]
  split <;> rfl

/-- The physical value whose bits are all 0 stands for the rational 0 (R9). -/
@[simp] theorem value_zero : value 0 = 0 := (value_eq_zero_iff 0).2 rfl

/-- The command port holds no register: what is presented and what was answered has no default. -/
theorem atDefaults_port (s : State) (ps : List Packet) (r : Option Response) :
    AtDefaults { s with pending := ps, resp := r } ↔ AtDefaults s := Iff.rfl

/-- The reset state has the defaults of R35 and R36: the cells and the slots by their reading laws, the
physical values as rationals, every other register as it stands. -/
theorem atDefaults_reset : AtDefaults State.reset := by
  have cells : ∀ c, State.reset.chr c = 0x30 := reset_chr
  have slots : ∀ i < 42, State.reset.record.slot i = { addr := 0, valid := 0 } :=
    fun i _ => Record.cleared_slot i
  have quantity : value 0 = 0 := value_zero
  exact ⟨rfl, cells, rfl, rfl, rfl, rfl, rfl, rfl, rfl, rfl,
    quantity, quantity, quantity, quantity, quantity, quantity, quantity, quantity, quantity,
    rfl, rfl, rfl, rfl, rfl, rfl, rfl, rfl, rfl, rfl, rfl, rfl, rfl, slots, rfl⟩

/-- The one-byte packet 0x01 is RESET (spec/30_encoding.md R102). -/
theorem decode_reset : decode [0x01] = .ok .reset := rfl

/-- RESET answers OK 0 in the reset state; of the state before it only the packets remain (R231). -/
theorem exec_reset (s : State) :
    exec .reset s = .next { State.reset.answered [] 0 with pending := s.pending } := by
  have meaning : exec .reset s = execReset s := rfl
  rw [meaning, execReset, runCommand_done rfl]
  rfl

/-- Settles O1: the reset state has every default, and RESET leaves that state but for the command port,
which holds no register. -/
theorem resetLeavesEveryDefault : Obligations.ResetLeavesEveryDefault :=
  ⟨atDefaults_reset, decode_reset, fun s => ⟨exec_reset s,
    (atDefaults_port State.reset s.pending (State.reset.answered [] 0).resp).2 atDefaults_reset⟩⟩

end Sys2Proof.Machine
end

section
/-! PROOFS. The statements of the bit stream accessor and the buffer commands (spec/40_bitstream.md R120
to R129): the packets of their formats, how a body that reads or stores ends, and what the access
primitives answer outside the cases of Laws/Readings.lean. -/

namespace Sys2Proof

/-! ## Packets read back, format by format (spec/30_encoding.md R101) -/

theorem readF1_bytes32 (op : Byte) (mk : BitVec 32 → Instr) (a : BitVec 32) :
    readF1 op mk (bytes32 a) = .ok (mk a) :=
  congrArg (fun x => Except.ok (mk x)) (be32_bytes32 a)

theorem readF2_bytes32 (op : Byte) (mk : BitVec 32 → BitVec 8 → Instr) (a : BitVec 32)
    (b : BitVec 8) : readF2 op mk (bytes32 a ++ [b]) = .ok (mk a b) :=
  congrArg (fun x => Except.ok (mk x b)) (be32_bytes32 a)

theorem readF3_bytes32_bytes64 (op : Byte) (mk : BitVec 32 → BitVec 8 → BitVec 64 → Instr)
    (a : BitVec 32) (b : BitVec 8) (v : BitVec 64) :
    readF3 op mk (bytes32 a ++ b :: bytes64 v) = .ok (mk a b v) :=
  congrArg₂ (fun x y => Except.ok (mk x b y)) (be32_bytes32 a) (be64_bytes64 v)

/-- The count of a text that fits its 16 bits is the text's length. -/
theorem readF9_bytesF9 (op : Byte) (mk : BitVec 8 → List Byte → Instr) (r : BitVec 8)
    {text : List Byte} (hfits : text.length < 65536) :
    readF9 op mk (bytesF9 r text) = .ok (mk r text) := by
  have hcount : (BitVec.ofNat 16 text.length).toNat = text.length := by
    rw [BitVec.toNat_ofNat, Nat.mod_eq_of_lt hfits]
  exact if_pos (by rw [be16_bytes16, hcount]; rfl)

end Sys2Proof

namespace Sys2Proof.Machine

/-! ## How a command ends, by the shape of its body (spec/60_exceptions.md R250) -/

section
variable {s : State} {a : Abort} {v : Word64}

/-- A command whose operand limits are broken is refused, whatever its body would do (R253). -/
theorem runCommand_refused {p : Prop} [Decidable p] {rest : State → Ended} (h : p) :
    runCommand s (fun t => if p then .failed t .invalid else rest t) = s.rejected .invalid [] :=
  runCommand_invalid (if_pos h)

/-- A command whose operand limits are kept runs its body. -/
theorem runCommand_admitted {p : Prop} [Decidable p] {rest : State → Ended} (h : ¬p) :
    runCommand s (fun t => if p then .failed t .invalid else rest t) = runCommand s rest := by
  simp only [if_neg h]

section
variable {α : Type} {read : State → Except Abort α} {f : α → Word64}

/-- A body that only reads answers what it read. -/
theorem runCommand_read_ok {x : α} (h : read s.start = .ok x) :
    runCommand s (fun t => answering t ((read t).map f)) = s.answered [] (f x) :=
  runCommand_answered (by rw [h]; rfl)

/-- A reading that leaves the buffer changes nothing (R251). -/
theorem runCommand_read_bounds (h : read s.start = .error .bounds) :
    runCommand s (fun t => answering t ((read t).map f)) = s.rejected .bounds [] :=
  runCommand_bounds (by rw [h]; rfl)

/-- A reading that meets a bad octet reports that octet (R252). -/
theorem runCommand_read_malformed {j : Nat} (h : read s.start = .error (.malformed j)) :
    runCommand s (fun t => answering t ((read t).map f)) =
      s.rejected .malformed [⟨.malformedInput, .hexDigit, BitVec.ofNat 16 j⟩] :=
  runCommand_malformed (by rw [h]; rfl)
end

/-- A body that completes with other cells and another length leaves those, and the end of a command
without entries. -/
theorem runCommand_buffer {body : State → Ended} {m : Memory} {n : Nat}
    (h : body s.start = .done { s.start with hex := m, hlen := n } v) :
    runCommand s body = State.answered { s with hex := m, hlen := n } [] v :=
  runCommand_done h

section
variable {store : State → Except Abort State}

/-- A body that stores octets leaves their lowercase text in the buffer, and nothing else changed
(R54). -/
theorem runCommand_store_ok {p : Nat} {os : List Byte}
    (h : store s.start = .ok (putOctets s.start p os)) :
    ∃ m, Stored m s (2 * p) (hexText os) ∧
      runCommand s (fun t => storing t v (store t)) = State.answered { s with hex := m } [] v := by
  refine ⟨(putOctets s.start p os).hex, stored_putOctets os s.start p, runCommand_buffer ?_⟩
  rw [h, putOctets_eq]
  rfl

/-- A store that leaves the buffer changes nothing (R251). -/
theorem runCommand_store_bounds (h : store s.start = .error .bounds) :
    runCommand s (fun t => storing t v (store t)) = s.rejected .bounds [] :=
  runCommand_bounds (by rw [h]; rfl)

/-- A store that must read a bad octet reports that octet and stores nothing (R252). -/
theorem runCommand_store_malformed {j : Nat} (h : store s.start = .error (.malformed j)) :
    runCommand s (fun t => storing t v (store t)) =
      s.rejected .malformed [⟨.malformedInput, .hexDigit, BitVec.ofNat 16 j⟩] :=
  runCommand_malformed (by rw [h]; rfl)
end
end

/-! ## The access primitives at the edges of the buffer (spec/20_memory.md R53 to R58) -/

section
variable {s : State} {p n i : Nat}

theorem octRead_bounds (h : s.olen ≤ i) : octRead s i = .error .bounds := if_pos h

theorem octWrite_bounds {o : Byte} (h : s.olen ≤ i) : octWrite s i o = .error .bounds := if_pos h

theorem octWrite_of_lt {o : Byte} (h : i < s.olen) : octWrite s i o = .ok (putOctets s i [o]) :=
  if_neg (by omega)

theorem bitRead_bounds (h : 8 * s.olen < p + n) : bitRead s p n = .error .bounds := if_pos h

theorem bitWrite_bounds {v : Word64} (h : 8 * s.olen < p + n) :
    bitWrite s p n v = .error .bounds := if_pos h

theorem memRead_bounds (h : s.olen < p + n) : memRead s p n = .error .bounds := if_pos h

theorem memWrite_bounds {v : Nat} (h : s.olen < p + n) : memWrite s p n v = .error .bounds :=
  if_pos h

theorem memWrite_of_le {v : Word64} (h : p + n ≤ s.olen) :
    memWrite s p n v.toNat = .ok (putOctets s p (lowOctets v n)) := by
  rw [memWrite, if_neg (by omega), bigEndian_lowOctets]

theorem bitRead_bad {j : Nat} (h : p + n ≤ 8 * s.olen)
    (hj : s.firstBad (p / 8) (touched p n) = some j) :
    bitRead s p n = .error (.malformed j) := by rw [bitRead_eq h, hj]

theorem bitRead_good (h : p + n ≤ 8 * s.olen)
    (hgood : s.firstBad (p / 8) (touched p n) = none) :
    bitRead s p n = .ok (bitField (s.octets (p / 8) (touched p n)) (p % 8) n) := by
  rw [bitRead_eq h, hgood]

theorem memRead_bad {j : Nat} (h : p + n ≤ s.olen) (hj : s.firstBad p n = some j) :
    memRead s p n = .error (.malformed j) := by rw [memRead_eq h, hj]

theorem memRead_good (h : p + n ≤ s.olen) (hgood : s.firstBad p n = none) :
    memRead s p n = .ok (bigEndianOf (s.octets p n)) := by rw [memRead_eq h, hgood]
end

/-! ## What each command does (spec/40_bitstream.md R120 to R129) -/

section
variable (a : BitVec 32) (b : BitVec 8) (v : BitVec 64) (text : List Byte) (s : State)

theorem exec_bufz : exec (.bufz a) s = .next (runCommand s fun t =>
    if 1024 < 2 * a.toNat then .failed t .bounds
    else .done { t with
      hex := Memory.writeList t.hex 0 (List.replicate (2 * a.toNat) 0x30)
      hlen := 2 * a.toNat } 0) := rfl

theorem exec_ldhex : exec (.ldhex b text) s = .next (runCommand s fun t =>
    if b ≠ 0 then .failed t .invalid
    else if 1024 < text.length then .failed t .bounds
    else .done { t with hex := Memory.writeList t.hex 0 text, hlen := text.length } 0) := rfl

theorem exec_hxrd : exec (.hxrd a) s = .next (
    if s.hlen ≤ a.toNat then s.observed .bounds 0
    else s.observed .ok ((s.chr a.toNat).setWidth 64)) := rfl

theorem exec_hxwr : exec (.hxwr a b) s = .next (runCommand s fun t =>
    if t.hlen ≤ a.toNat then .failed t .bounds
    else .done { t with hex := Memory.writeList t.hex a.toNat [b] } 0) := rfl

theorem exec_rdbits : exec (.rdbits a b) s = .next (runCommand s fun t =>
    if 64 < b.toNat then .failed t .invalid
    else answering t ((bitRead t a.toNat b.toNat).map (BitVec.ofNat 64))) := rfl

theorem exec_wrbits : exec (.wrbits a b v) s = .next (runCommand s fun t =>
    if 64 < b.toNat then .failed t .invalid
    else storing t 0 (bitWrite t a.toNat b.toNat v)) := rfl

theorem exec_rdoct : exec (.rdoct a) s = .next (runCommand s fun t =>
    answering t ((octRead t a.toNat).map (BitVec.setWidth 64))) := rfl

theorem exec_wroct : exec (.wroct a b) s = .next (runCommand s fun t =>
    storing t 0 (octWrite t a.toNat b)) := rfl

theorem exec_rdmoi : exec (.rdmoi a b) s = .next (runCommand s fun t =>
    if 8 < b.toNat then .failed t .invalid
    else answering t ((memRead t a.toNat b.toNat).map (BitVec.ofNat 64))) := rfl

theorem exec_wrmoi : exec (.wrmoi a b v) s = .next (runCommand s fun t =>
    if 8 < b.toNat then .failed t .invalid
    else storing t 0 (memWrite t a.toNat b.toNat v.toNat)) := rfl
end

/-! ## The buffer commands (R126 to R129)

The start of a command touches neither the cells nor HLEN, so what holds of a state there holds by
definition of the state in which the body runs. -/

/-- Settles O25: the capacity decides between BOUNDS and a buffer of zero characters. -/
theorem bufzMakesZeroOctets : Obligations.BufzMakesZeroOctets := by
  intro a s
  refine ⟨readF1_bytes32 0x02 .bufz a, fun hbig => ?_,
    fun hfits => ⟨_, stored_writeList s 0 _, ?_⟩⟩
  all_goals rw [exec_bufz]
  · exact congrArg _ (runCommand_bounds (if_pos hbig))
  · exact congrArg _ (runCommand_buffer (if_neg (Nat.not_lt.2 hfits)))

/-- Settles O26: the operand `r` is checked before the length of the text. -/
theorem ldhexStoresTheText : Obligations.LdhexStoresTheText := by
  intro r text s
  refine ⟨readF9_bytesF9 0x03 .ldhex r, fun hr => ?_, fun hr hbig => ?_,
    fun hr hfits => ⟨_, stored_writeList s 0 text, ?_⟩⟩
  · rw [exec_ldhex, runCommand_refused hr]
  all_goals rw [exec_ldhex, runCommand_admitted (not_not.2 hr)]
  · exact congrArg _ (runCommand_bounds (if_pos hbig))
  · exact congrArg _ (runCommand_buffer (if_neg (Nat.not_lt.2 hfits)))

/-- Settles O28: one cell below HLEN is written, whatever the character is. -/
theorem hxwrWritesOneCharacter : Obligations.HxwrWritesOneCharacter := by
  intro a b s
  refine ⟨readF2_bytes32 0x05 .hxwr a b, fun hout => ?_,
    fun hin => ⟨_, stored_writeList s a.toNat [b], ?_⟩⟩
  all_goals rw [exec_hxwr]
  · exact congrArg _ (runCommand_bounds (if_pos hout))
  · exact congrArg _ (runCommand_buffer (if_neg (Nat.not_le.2 hin)))

/-- Settles O27: HLEN decides, and both branches leave nothing but a response. -/
theorem hxrdReadsACharacter : Obligations.HxrdReadsACharacter := by
  intro a s
  refine ⟨readF1_bytes32 0x04 .hxrd a, fun hout => ?_, fun hin => ?_⟩
  · rw [exec_hxrd, if_pos hout]
  · rw [exec_hxrd, if_neg (Nat.not_le.2 hin)]

/-! ## The accessor commands (R120 to R125) -/

/-- Settles O29: the limit on the count, then the bounds, then the lowest bad octet, then the bits. -/
theorem rdbitsReadsStreamBits : Obligations.RdbitsReadsStreamBits := by
  intro a b s
  refine ⟨readF2_bytes32 0x10 .rdbits a b, fun hbig => ?_, fun hn hout => ?_,
    fun hn hin => ⟨fun j hbad => ?_, fun hgood => ?_⟩⟩
  · rw [exec_rdbits, runCommand_refused hbig]
  all_goals rw [exec_rdbits, runCommand_admitted (Nat.not_lt.2 hn)]
  · exact congrArg _ (runCommand_read_bounds (bitRead_bounds hout))
  · exact congrArg _ (runCommand_read_malformed (bitRead_bad hin hbad))
  · exact congrArg _ (runCommand_read_ok (bitRead_good hin hgood))

/-- Settles O30: as RDBITS, but only a partly covered octet is read, and the octets that `bitWrite_good`
gives are the ones stored. -/
theorem wrbitsWritesStreamBits : Obligations.WrbitsWritesStreamBits := by
  intro a b v s
  refine ⟨readF3_bytes32_bytes64 0x11 .wrbits a b v, fun hbig => ?_, fun hn hout => ?_,
    fun hn hin => ⟨fun j hbad => ?_, fun hgood => ?_⟩⟩
  · rw [exec_wrbits, runCommand_refused hbig]
  all_goals rw [exec_wrbits, runCommand_admitted (Nat.not_lt.2 hn)]
  · exact congrArg _ (runCommand_store_bounds (bitWrite_bounds hout))
  · exact congrArg _ (runCommand_store_malformed (bitWrite_bad hin hbad))
  · obtain ⟨os, hwrite, hlen, hbits⟩ := bitWrite_good (s := s.start) (v := v) hin hgood
    obtain ⟨m, hstored, hend⟩ := runCommand_store_ok (v := 0)
      (store := fun t => bitWrite t a.toNat b.toNat v) hwrite
    exact ⟨m, os, hlen, hbits, hstored, congrArg _ hend⟩

/-- Settles O31: bounds, then the digits, then the octet. -/
theorem rdoctReadsAnOctet : Obligations.RdoctReadsAnOctet := by
  intro a s
  refine ⟨readF1_bytes32 0x12 .rdoct a, fun hout => ?_, fun hin hbad => ?_, fun hin hgood => ?_⟩
  all_goals rw [exec_rdoct]
  · exact congrArg _ (runCommand_read_bounds (octRead_bounds hout))
  · rw [← BitVec.ofNat_toNat]
    exact congrArg _ (runCommand_read_malformed (octRead_bad hin hbad))
  · exact congrArg _ (runCommand_read_ok (octRead_ok hin hgood))

/-- Settles O32: the bounds alone decide, since nothing is read. -/
theorem wroctWritesAnOctet : Obligations.WroctWritesAnOctet := by
  intro a b s
  refine ⟨readF2_bytes32 0x13 .wroct a b, fun hout => ?_, fun hin => ?_⟩
  all_goals rw [exec_wroct]
  · exact congrArg _ (runCommand_store_bounds (octWrite_bounds hout))
  · obtain ⟨m, hstored, hend⟩ := runCommand_store_ok (s := s) (v := 0)
      (store := fun t => octWrite t a.toNat b) (octWrite_of_lt hin)
    exact ⟨m, hstored, congrArg _ hend⟩

/-- Settles O33: the limit on the count, then the bounds, then the lowest bad octet, then the number. -/
theorem rdmoiReadsBigEndian : Obligations.RdmoiReadsBigEndian := by
  intro a b s
  refine ⟨readF2_bytes32 0x14 .rdmoi a b, fun hbig => ?_, fun hn hout => ?_,
    fun hn hin => ⟨fun j hbad => ?_, fun hgood => ?_⟩⟩
  · rw [exec_rdmoi, runCommand_refused hbig]
  all_goals rw [exec_rdmoi, runCommand_admitted (Nat.not_lt.2 hn)]
  · exact congrArg _ (runCommand_read_bounds (memRead_bounds hout))
  · exact congrArg _ (runCommand_read_malformed (memRead_bad hin hbad))
  · exact congrArg _ (runCommand_read_ok (memRead_good hin hgood))

/-- Settles O34: the limit on the count, then the bounds; nothing is read. -/
theorem wrmoiWritesBigEndian : Obligations.WrmoiWritesBigEndian := by
  intro a b v s
  refine ⟨readF3_bytes32_bytes64 0x15 .wrmoi a b v, fun hbig => ?_, fun hn hout => ?_,
    fun hn hin => ?_⟩
  · rw [exec_wrmoi, runCommand_refused hbig]
  all_goals rw [exec_wrmoi, runCommand_admitted (Nat.not_lt.2 hn)]
  · exact congrArg _ (runCommand_store_bounds (memWrite_bounds hout))
  · obtain ⟨m, hstored, hend⟩ := runCommand_store_ok (s := s) (v := 0)
      (store := fun t => memWrite t a.toNat b.toNat v.toNat) (memWrite_of_le hin)
    exact ⟨m, hstored, congrArg _ hend⟩

end Sys2Proof.Machine
end

section
/-! PROOFS. The statements of the quantizers (spec/41_quantizers.md R140 to R150): the packets of their
formats, the room for what a code posts, and the four commands. Laws/Quantities.lean says what the codes
and the values are. -/

namespace Sys2Proof

/-! ## Packets read back, format by format (spec/30_encoding.md R101) -/

theorem readF6_bytes64 (op : Byte) (mk : BitVec 8 → BitVec 8 → BitVec 64 → Instr) (w f : BitVec 8)
    (v : BitVec 64) : readF6 op mk (w :: f :: bytes64 v) = .ok (mk w f v) :=
  congrArg (fun x => Except.ok (mk w f x)) (be64_bytes64 v)

theorem readF7_bytes64 (op : Byte) (mk : BitVec 8 → BitVec 8 → BitVec 8 → BitVec 64 → Instr)
    (m x c : BitVec 8) (v : BitVec 64) :
    readF7 op mk (m :: x :: c :: bytes64 v) = .ok (mk m x c v) :=
  congrArg (fun y => Except.ok (mk m x c y)) (be64_bytes64 v)

/-- An operand has a bit set at or above bit `k` exactly when it is at least `2^k`: the reserved bits of
R103 as a limit on the number. -/
theorem extractLsb'_ne_zero_iff {n k l : Nat} (c : BitVec n) (h : n = k + l) :
    c.extractLsb' k l ≠ 0 ↔ 2 ^ k ≤ c.toNat := by
  have hfits : c.toNat / 2 ^ k < 2 ^ l :=
    Nat.div_lt_of_lt_mul (by rw [← pow_add, ← h]; exact c.isLt)
  have hfield : (c.extractLsb' k l).toNat = c.toNat / 2 ^ k := by
    rw [BitVec.extractLsb'_toNat, Nat.shiftRight_eq_div_pow, Nat.mod_eq_of_lt hfits]
  simp only [ne_eq, ← BitVec.toNat_inj, hfield, BitVec.ofNat_eq_ofNat, BitVec.toNat_ofNat,
    Nat.zero_mod, Nat.div_eq_zero_iff_lt (Nat.two_pow_pos k), not_lt]

end Sys2Proof

namespace Sys2Proof.Machine

/-! ## What a code posts fits the list (R142, R147) -/

theorem FixCode.notes_length_le {v : Phys} {w f fld raw : Nat} {ds : List DiagEntry}
    (h : FixCode v w f fld raw ds) : ds.length ≤ 1 := by
  obtain ⟨n, -, -, rfl⟩ := h
  split
  · exact Nat.zero_le 1
  · exact le_rfl

theorem UncCode.notes_length_le {v : Phys} {m : ℤ} {max fld code : Nat} {zs : Bool}
    {ds : List DiagEntry} (h : UncCode v m max zs fld code ds) : ds.length ≤ 1 := by
  rcases h with ⟨-, -, rfl⟩ | ⟨-, -, rfl⟩ | ⟨-, k, -, ⟨-, -, rfl⟩ | ⟨-, -, rfl⟩ | ⟨-, -, -, rfl⟩⟩
  all_goals simp

/-- A command that completes with what it posted, at most one entry, and a value. -/
theorem runCommand_noted (s : State) {ds : List DiagEntry} (v : Word64) (hds : ds.length ≤ 1) :
    runCommand s (fun t => .done (t.postAll ds) v) = s.answered ds v :=
  runCommand_posted (hds.trans (by decide)) rfl

/-! ## What each command does (R144, R145, R149, R150) -/

section
variable (w f m x c : BitVec 8) (v : BitVec 64) (s : State)

theorem exec_fxenc : exec (.fxenc w f v) s = .next (runCommand s fun t =>
    if w.toNat < 1 ∨ 64 < w.toNat ∨ 63 < f.toNat then .failed t .invalid
    else .done (t.postAll (fixEnc v w.toNat f.toNat .none).2)
      (BitVec.ofNat 64 (fixEnc v w.toNat f.toNat .none).1)) := rfl

theorem exec_fxdec : exec (.fxdec w f v) s = .next (runCommand s fun t =>
    if w.toNat < 1 ∨ 64 < w.toNat ∨ 32 < f.toNat ∨ f.toNat + 32 < w.toNat then .failed t .invalid
    else .done t (physOf (fixDec (v.toNat % 2 ^ w.toNat) w.toNat f.toNat))) := rfl

/-- The reserved bits of cfg as the limit on its number (R103, R149). -/
theorem exec_uncenc : exec (.uncenc m x c v) s = .next (runCommand s fun t =>
    if x = 0 ∨ 2 ≤ c.toNat then .failed t .invalid
    else .done (t.postAll (uncEnc v m.toInt x.toNat (c.getLsbD 0) .none).2)
      (BitVec.ofNat 64 (uncEnc v m.toInt x.toNat (c.getLsbD 0) .none).1)) := by
  have reserved : c.extractLsb' 1 7 ≠ 0 ↔ 2 ≤ c.toNat := extractLsb'_ne_zero_iff c rfl
  simp only [← reserved]
  rfl

theorem exec_uncdec : exec (.uncdec m x c v) s = .next (runCommand s fun t =>
    if x = 0 ∨ c ≠ 0 ∨ 255 < v.toNat ∨ 31 < m.toInt ∨ m.toInt - x.toNat < -32 then
      .failed t .invalid
    else .done (t.postAll (uncDec v.toNat m.toInt x.toNat .none).2)
      (physOf (uncDec v.toNat m.toInt x.toNat .none).1)) := rfl
end

/-- Settles O36: the operand limits, then the code that `fixEnc_code` gives. -/
theorem fxencRoundsAndClamps : Obligations.FxencRoundsAndClamps := by
  intro w f v s
  refine ⟨readF6_bytes64 0x20 .fxenc w f v, fun hbad => ?_, fun hw1 hw2 hf => ?_⟩
  · rw [exec_fxenc, runCommand_refused hbad]
  · have hcode := fixEnc_code v w.toNat f.toNat .none
    refine ⟨_, _, hcode, ?_⟩
    rw [exec_fxenc, runCommand_admitted (by omega), runCommand_noted s _ hcode.notes_length_le]

/-- Settles O37: within the limits of R145 the low `w` bits decode exactly, by `fixDec_value`. -/
theorem fxdecSignExtendsExactly : Obligations.FxdecSignExtendsExactly := by
  intro w f v s
  refine ⟨readF6_bytes64 0x21 .fxdec w f v, fun hbad => ?_, fun hw1 hw2 hf hwf => ?_⟩
  · rw [exec_fxdec, runCommand_refused hbad]
  · have hlow : v.toNat % 2 ^ w.toNat < 2 ^ w.toNat := Nat.mod_lt _ (Nat.two_pow_pos _)
    refine ⟨_, fixDec_value hlow hf hwf, ?_⟩
    rw [exec_fxdec, runCommand_admitted (by omega)]
    exact congrArg _ (runCommand_answered rfl)

/-- Settles O38: the operand limits, then the code that `uncEnc_code` gives. -/
theorem uncencTakesTheLogarithm : Obligations.UncencTakesTheLogarithm := by
  intro m x c v s
  refine ⟨readF7_bytes64 0x22 .uncenc m x c v, fun hbad => ?_, fun hx hc => ?_⟩
  · rw [exec_uncenc, runCommand_refused hbad]
  · have hcode := uncEnc_code v m.toInt x.toNat (c.getLsbD 0) .none
    refine ⟨_, _, hcode, ?_⟩
    rw [exec_uncenc, runCommand_admitted (not_or.2 ⟨hx, Nat.not_le.2 hc⟩),
      runCommand_noted s _ hcode.notes_length_le]

/-- Settles O39: within the limits of R150 the power of two is exact, by `uncDec_value`, and the entry
is that of a reserved code. -/
theorem uncdecAnswersThePower : Obligations.UncdecAnswersThePower := by
  intro m x c v s
  refine ⟨readF7_bytes64 0x23 .uncdec m x c v, fun hbad => ?_, fun hx hc hv hm hmx => ?_⟩
  · rw [exec_uncdec, runCommand_refused hbad]
  · have hmax : 1 ≤ x.toNat := Nat.pos_of_ne_zero fun h => hx (BitVec.eq_of_toNat_eq h)
    obtain ⟨hvalue, hnotes⟩ := uncDec_value (c := v.toNat) .none hmax hm hmx
    have hadmitted : ¬(x = 0 ∨ c ≠ 0 ∨ 255 < v.toNat ∨ 31 < m.toInt ∨ m.toInt - x.toNat < -32) := by
      simp only [hx, hc, ne_eq, not_true_eq_false, false_or]
      omega
    refine ⟨_, hvalue, ?_⟩
    rw [exec_uncdec, runCommand_admitted hadmitted, runCommand_noted s _ (uncDec_length _ _ _ _),
      hnotes]
    rfl

end Sys2Proof.Machine
end

section
/-! PROOFS. The statements of the framer (spec/42_framer.md R161, R162, R164): when the framer halts,
in the terms of Safety.lean, how one step ends, and the commands FRNEXT and FRPUT. -/

namespace Sys2Proof.Machine

/-! ## Where the framer halts (R161) -/

section
variable {s : State} {c i j : Nat}

/-- An octet that is read has two digits and is their number (R53). -/
theorem octRead_eq_ok {o : Byte} (h : octRead s i = .ok o) :
    s.digitsOk i = true ∧ o = s.octet i := by
  rw [octRead_eq] at h
  split at h
  · cases h
  · split at h
    · next hdigits =>
      cases h
      exact ⟨hdigits, rfl⟩
    · cases h

/-- The octet a failed reading names is the one that was to be read, and a character of it is no
digit (R53). -/
theorem octRead_eq_malformed (h : octRead s i = .error (.malformed j)) :
    s.digitsOk i = false ∧ j = i := by
  rw [octRead_eq] at h
  split at h
  · cases h
  · split at h
    · cases h
    · next hdigits =>
      cases h
      exact ⟨eq_false_of_ne_true hdigits, rfl⟩

/-- A halt is about two octets that are there. -/
theorem haltEntry_some_le {e : DiagEntry} (h : haltEntry s c = some e) : c + 2 ≤ s.olen := by
  by_contra hout
  rw [haltEntry, if_neg hout] at h
  cases h

theorem haltEntry_bad_id (hin : c + 2 ≤ s.olen) (hid : s.digitsOk c = false) :
    haltEntry s c = some (note .hexDigit c) := by
  rw [haltEntry, if_pos hin, if_pos hid]
  rfl

theorem haltEntry_bad_length (hin : c + 2 ≤ s.olen) (hid : s.digitsOk c = true)
    (hlen : s.digitsOk (c + 1) = false) : haltEntry s c = some (note .hexDigit (c + 1)) := by
  rw [haltEntry, if_pos hin, if_neg (by simp [hid]), if_pos hlen]
  rfl

/-- The report of an overrun holds the low 16 bits of the ID octet's offset (R161). -/
theorem haltEntry_overrun (hin : c + 2 ≤ s.olen) (hid : s.digitsOk c = true)
    (hlen : s.digitsOk (c + 1) = true) (hover : s.olen < c + 2 + (s.octet (c + 1)).toNat) :
    haltEntry s c = some (note .frameLength (c % 2 ^ 16)) := by
  have harg : BitVec.ofNat 16 (c % 2 ^ 16) = BitVec.ofNat 16 c :=
    BitVec.eq_of_toNat_eq (by simp)
  rw [haltEntry, if_pos hin, if_neg (by simp [hid]), if_neg (by simp [hlen]), if_pos hover, note,
    harg]
  rfl

theorem haltEntry_fits (hid : s.digitsOk c = true) (hlen : s.digitsOk (c + 1) = true)
    (hfits : c + 2 + (s.octet (c + 1)).toNat ≤ s.olen) : haltEntry s c = none := by
  rw [haltEntry, if_pos (by omega), if_neg (by simp [hid]), if_neg (by simp [hlen]),
    if_neg (by omega)]
end

/-! ## How one framer step ends (R161) -/

section
variable {s : State}

theorem frNext_outOfBounds (h : s.olen < s.cur.toNat ∨ s.cur.toNat + 1 = s.olen) :
    frNext s = (s, .outOfBounds) := by
  rcases frNext_cases s with ⟨-, past⟩ | ⟨hcur, -⟩ | ⟨-, dangling⟩ | ⟨hcur, -⟩
  · exact past
  · omega
  · exact dangling
  · omega

theorem frNext_exhausted (h : s.cur.toNat = s.olen) : frNext s = (s, .exhausted) := by
  rcases frNext_cases s with ⟨hcur, -⟩ | ⟨-, atEnd⟩ | ⟨hcur, -⟩ | ⟨hcur, -⟩
  · omega
  · exact atEnd
  · omega
  · omega

/-- With two octets left a framer step halts where `haltEntry` has an entry, and posts that entry;
else it finds the subelement of the two octets, whose payload fits. -/
theorem frNext_framing (hin : s.cur.toNat + 2 ≤ s.olen) :
    (∃ c n, haltEntry s s.cur.toNat = some (note c n) ∧ frNext s = haltFrame s c n) ∨
    (haltEntry s s.cur.toNat = none ∧
      s.cur.toNat + 2 + (s.octet (s.cur.toNat + 1)).toNat ≤ s.olen ∧
      frNext s = ({ s with
          cur := BitVec.ofNat 32 (s.cur.toNat + 2 + (s.octet (s.cur.toNat + 1)).toNat) },
        .sub (s.octet s.cur.toNat) (s.octet (s.cur.toNat + 1)) (s.cur.toNat + 2))) := by
  rcases frNext_cases s with ⟨hcur, -⟩ | ⟨hcur, -⟩ | ⟨hcur, -⟩ | ⟨-,
    ⟨i, hid, hstep⟩ | ⟨id, i, hid, hlen, hstep⟩ | ⟨id, len, hid, hlen, hover, hstep⟩ |
    ⟨id, len, hid, hlen, hfits, hstep⟩⟩
  · omega
  · omega
  · omega
  · obtain ⟨hbad, rfl⟩ := octRead_eq_malformed hid
    exact .inl ⟨_, _, haltEntry_bad_id hin hbad, hstep⟩
  · obtain ⟨hbad, rfl⟩ := octRead_eq_malformed hlen
    exact .inl ⟨_, _, haltEntry_bad_length hin (octRead_eq_ok hid).1 hbad, hstep⟩
  · obtain ⟨hgood, rfl⟩ := octRead_eq_ok hlen
    exact .inl ⟨_, _, haltEntry_overrun hin (octRead_eq_ok hid).1 hgood hover, hstep⟩
  · obtain ⟨hgood, rfl⟩ := octRead_eq_ok hid
    obtain ⟨hgood', rfl⟩ := octRead_eq_ok hlen
    exact .inr ⟨haltEntry_fits hgood hgood' hfits, hfits, hstep⟩

theorem frNext_halted {e : DiagEntry} (h : haltEntry s s.cur.toNat = some e) :
    ∃ c n, e = note c n ∧ frNext s = haltFrame s c n := by
  rcases frNext_framing (haltEntry_some_le h) with ⟨c, n, hentry, hstep⟩ | ⟨hnone, -⟩
  · exact ⟨c, n, Option.some.inj (h.symm.trans hentry), hstep⟩
  · cases h.symm.trans hnone

theorem frNext_sub (hin : s.cur.toNat + 2 ≤ s.olen) (h : haltEntry s s.cur.toNat = none) :
    frNext s = ({ s with
        cur := BitVec.ofNat 32 (s.cur.toNat + 2 + (s.octet (s.cur.toNat + 1)).toNat) },
      .sub (s.octet s.cur.toNat) (s.octet (s.cur.toNat + 1)) (s.cur.toNat + 2)) := by
  rcases frNext_framing hin with ⟨c, n, hentry, -⟩ | ⟨-, -, hstep⟩
  · cases h.symm.trans hentry
  · exact hstep
end

/-! ## Offsets and values in registers -/

/-- The packed value of a subelement is the number of its four parts (R162, R235). -/
theorem packSub_eq (id len : Byte) (p : BitVec 32) : packSub id len p =
    BitVec.ofNat 64 (2 ^ 56 + id.toNat * 2 ^ 40 + len.toNat * 2 ^ 32 + p.toNat) := by
  have hid := id.isLt
  have hlen := len.isLt
  have hp := p.isLt
  apply BitVec.eq_of_toNat_eq
  rw [packSub, toNat_append_eq, toNat_append_eq, toNat_append_eq, BitVec.toNat_ofNat,
    Nat.mod_eq_of_lt (by omega), show (0x0100 : BitVec 16).toNat = 0x0100 from rfl]
  omega

/-- Two octets past the cursor is an offset a register holds when the buffer has them (R21, R22). -/
theorem toNat_ofNat_cur_add_two {s : State} (hcap : s.hlen ≤ Config.hcap)
    (hin : s.cur.toNat + 2 ≤ s.olen) :
    (BitVec.ofNat 32 (s.cur.toNat + 2)).toNat = s.cur.toNat + 2 :=
  toNat_ofNat_index hcap (by rw [State.olen] at hin; omega)

/-! ## What each command does (R162, R164) -/

/-- A body that completes with other cells, another cursor and the entries it posted leaves those,
and the end of a command. -/
theorem runCommand_moved {s : State} {body : State → Ended} {m : Memory} {c : BitVec 32}
    {ds : List DiagEntry} {v : Word64}
    (h : body s.start = .done { s.start with hex := m, cur := c, diag := ds } v) :
    runCommand s body = State.answered { s with hex := m, cur := c } ds v :=
  runCommand_done h

section
variable (b1 b2 : BitVec 8) (s : State)

theorem exec_frnext : exec .frnext s = .next (runCommand s fun t =>
    match frNext t with
    | (u, .sub id len p) => .done u (packSub id len (BitVec.ofNat 32 p))
    | (u, .exhausted) => .done u 0
    | (u, .halted) => .done u 0
    | (u, .outOfBounds) => .failed u .bounds) := rfl

theorem exec_frput : exec (.frput b1 b2) s = .next (runCommand s fun t =>
    if t.olen < t.cur.toNat + 2 then .failed t .bounds
    else .done { putOctets t t.cur.toNat [b1, b2] with cur := BitVec.ofNat 32 (t.cur.toNat + 2) }
      ((BitVec.ofNat 32 (t.cur.toNat + 2)).setWidth 64)) := rfl
end

/-- The start of a command empties the list, so a halt leaves its own entry alone there. -/
theorem haltFrame_start (s : State) (c : Cause) (n : Nat) : haltFrame s.start c n =
    ({ s.start with cur := BitVec.ofNat 32 s.olen, diag := [note c n] }, .halted) := by
  have hpost : s.start.post c n = { s.start with diag := [note c n] } := by
    rw [State.post_eq_postAll, start_postAll s (by simp)]
  rw [haltFrame, hpost]
  rfl

/-- Settles O42: how the step from the started state ends decides; a halt is `haltEntry`'s. -/
theorem frnextTakesOneSubelement : Obligations.FrnextTakesOneSubelement := by
  refine ⟨rfl, fun s hcap => ⟨fun hout => ?_, fun hend => ?_, fun e he => ?_, fun hin hgood => ?_⟩⟩
  all_goals rw [exec_frnext]
  · have hstep := frNext_outOfBounds (s := s.start) hout
    exact congrArg _ (runCommand_bounds (by rw [hstep]))
  · have hstep := frNext_exhausted (s := s.start) hend
    exact congrArg _ (runCommand_answered (by rw [hstep]))
  · obtain ⟨c, n, rfl, hstep⟩ := frNext_halted (s := s.start) he
    exact congrArg _ (runCommand_moved (by rw [hstep, haltFrame_start]; rfl))
  · have hstep := frNext_sub (s := s.start) hin hgood
    have hvalue := packSub_eq (s.octet s.cur.toNat) (s.octet (s.cur.toNat + 1))
      (BitVec.ofNat 32 (s.cur.toNat + 2))
    rw [toNat_ofNat_cur_add_two hcap hin] at hvalue
    have hcur : BitVec.ofNat 32 (s.cur.toNat + 2 + (s.octet (s.cur.toNat + 1)).toNat) =
        s.cur + 2 + (s.octet (s.cur.toNat + 1)).setWidth 32 := by bv_omega
    rw [← hvalue, ← hcur]
    exact congrArg _ (runCommand_moved (by rw [hstep]; rfl))

/-- Settles O44: the extent is checked before the two octets are stored, and nothing is read. -/
theorem frputWritesIdAndLength : Obligations.FrputWritesIdAndLength := by
  intro b1 b2 s hcap
  refine ⟨rfl, fun hout => ?_, fun hin =>
    ⟨_, stored_putOctets [b1, b2] s.start s.cur.toNat, ?_⟩⟩
  all_goals rw [exec_frput]
  · exact congrArg _ (runCommand_bounds (if_pos hout))
  · have hcur : BitVec.ofNat 32 (s.cur.toNat + 2) = s.cur + 2 := by bv_omega
    have hvalue : (BitVec.ofNat 32 (s.cur.toNat + 2)).setWidth 64 =
        BitVec.ofNat 64 (s.cur.toNat + 2) := by
      rw [← BitVec.ofNat_toNat, toNat_ofNat_cur_add_two hcap hin]
    rw [← hcur, ← hvalue]
    exact congrArg _ (runCommand_moved (if_neg (Nat.not_lt.2 hin)))

end Sys2Proof.Machine
end

section
/-! PROOFS. The statements of the location codec (spec/43_location.md R170 to R173): how a command that
commits a record or an encoded payload ends, the four ways a location payload is taken, and the commands
LOCDEC and LOCENC. Laws/Payloads.lean says what the fields of a payload are. -/

namespace Sys2Proof.Machine

/-! ## How a codec command ends (spec/60_exceptions.md R250) -/

section
variable {s : State} {body : State → Ended} {ds : List DiagEntry} {v : Word64}

/-- A body that completes with entries posted and another record leaves those, and the end of a
command. -/
theorem runCommand_committed {r : Record} (hroom : ds.length ≤ Config.diagCap)
    (h : body s.start = .done { s.start.postAll ds with record := r } v) :
    runCommand s body = State.answered { s with record := r } ds v := by
  rw [runCommand_done h, start_postAll s hroom]
  rfl

/-- The octets an encoder stores after it posted its entries are in the buffer as lowercase text, and
the other characters are as they were before the command (R54). -/
theorem stored_encoded (s : State) (ds : List DiagEntry) (p : Nat) (os : List Byte) :
    Stored (putOctets (s.start.postAll ds) p os).hex s (2 * p) (hexText os) := by
  intro k
  simpa using stored_putOctets os (s.start.postAll ds) p k

/-- A body that completes with entries posted and octets stored leaves the cells, the entries, and the
end of a command. -/
theorem runCommand_encoded {p : Nat} {os : List Byte} (hroom : ds.length ≤ Config.diagCap)
    (h : body s.start = .done (putOctets (s.start.postAll ds) p os) v) :
    runCommand s body =
      State.answered { s with hex := (putOctets (s.start.postAll ds) p os).hex } ds v := by
  rw [runCommand_done h, putOctets_eq, start_postAll s hroom]
  rfl
end

/-- The reserved bits of cfg as the limit on its number (R103). -/
theorem cfgReserved_iff (cfg : BitVec 8) : cfgReserved cfg = true ↔ 4 ≤ cfg.toNat := by
  rw [cfgReserved, bne_iff_ne]
  exact extractLsb'_ne_zero_iff cfg rfl

/-! ## What a location payload posts fits the list (R170, R172) -/

theorem duplicateNotes_length_le (present : BitVec 1) (id : Nat) :
    (duplicateNotes present id).length ≤ 1 := by
  rw [← duplicateNotes_eq]
  exact noteIf_length _ _ _

theorem uncNotes_length_le (c max fld : Nat) : (uncNotes c max fld).length ≤ 1 := by
  rw [uncNotes]
  split <;> simp

theorem locDecNotes_length_le (q : Record) (os : List Byte) :
    (locDecNotes q os).length ≤ Config.diagCap := by
  have hdup := duplicateNotes_length_le q.geoP 0
  have hlat := uncNotes_length_le (bitField os 0 6) 34 1
  have hlon := uncNotes_length_le (bitField os 40 6) 34 2
  have hAlt := uncNotes_length_le (bitField os 84 6) 34 3
  simp only [locDecNotes, List.length_append, Config.diagCap]
  split <;> simp only [List.length_cons, List.length_nil] <;> omega

theorem LocPayload.notes_length_le {r : Record} {zs : Bool} {os : List Byte} {ds : List DiagEntry}
    (h : LocPayload r zs os ds) : ds.length ≤ Config.diagCap := by
  obtain ⟨-, d1, d2, d3, d4, d5, d6, hlatU, hlat, hlonU, hlon, -, hAltU, hAlt, -, -, -, -, -, rfl⟩ :=
    h
  have h1 := hlatU.notes_length_le
  have h2 := hlat.notes_length_le
  have h3 := hlonU.notes_length_le
  have h4 := hlon.notes_length_le
  have h5 := hAltU.notes_length_le
  have h6 := hAlt.notes_length_le
  simp only [List.length_append, Config.diagCap]
  split <;> simp only [List.length_cons, List.length_nil] <;> omega

/-! ## The four ways a location payload is taken (R170)

Each is entries posted and a record; a skipped payload leaves the record it found. -/

section
variable (s : State) {p len j : Nat}

theorem locDec_absent (h0 : len = 0) : locDec s p len =
    { s.postAll (duplicateNotes s.record.geoP 0) with record := clearLoc s.record } := by
  rw [locDec, if_pos h0, duplicateNotes_eq]

theorem locDec_wrong_length (h0 : len ≠ 0) (h16 : len ≠ 16) : locDec s p len =
    { s.postAll [note .locLength len] with record := s.record } := by
  rw [locDec, if_neg h0, if_pos h16, State.postAll_with_own_record, State.post_eq_postAll]

theorem locDec_bad_digit (h16 : len = 16) (hin : p + len ≤ s.olen)
    (hbad : s.firstBad p 16 = some j) :
    locDec s p len = { s.postAll [note .hexDigit j] with record := s.record } := by
  subst h16
  rw [State.postAll_with_own_record, ← State.post_eq_postAll, locDec, if_neg (by decide),
    if_neg (by decide), readLoc_eq hin, hbad]

theorem locDec_readable (h16 : len = 16) (hin : p + len ≤ s.olen)
    (hgood : s.firstBad p 16 = none) :
    locDec s p len = { s.postAll (locDecNotes s.record (s.octets p 16)) with
      record := commitLoc s.record (locFields (s.octets p 16)) } := by
  subst h16
  rw [← locNotes_eq, locDec, if_neg (by decide), if_neg (by decide), readLoc_eq hin, hgood]
end

/-! ## What each command does (R171, R173) -/

section
variable (a : BitVec 32) (b : BitVec 8) (s : State)

theorem exec_locdec : exec (.locdec a b) s = .next (runCommand s fun t =>
    if t.olen < a.toNat + b.toNat then .failed t .bounds
    else .done (locDec t a.toNat b.toNat)
      ((locDec t a.toNat b.toNat).record.geoP.setWidth 64)) := rfl

theorem exec_locenc : exec (.locenc a b) s = .next (runCommand s fun t =>
    if 4 ≤ b.toNat then .failed t .invalid
    else if t.olen < a.toNat + 16 then .failed t .bounds
    else .done (putOctets (t.postAll (locImage t.record (b.getLsbD 0)).2) a.toNat
      (imageOctets (locImage t.record (b.getLsbD 0)).1)) 16) := by
  simp only [← cfgReserved_iff]
  rfl
end

/-- LOCDEC of a payload inside the buffer leaves what the decoder posts and commits, and answers the
R.GEO_P committed. -/
theorem exec_locdec_commits {a : BitVec 32} {b : BitVec 8} {s : State} {ds : List DiagEntry}
    {r : Record} (hin : a.toNat + b.toNat ≤ s.olen) (hroom : ds.length ≤ Config.diagCap)
    (h : locDec s.start a.toNat b.toNat = { s.start.postAll ds with record := r }) :
    exec (.locdec a b) s =
      .next (State.answered { s with record := r } ds (r.geoP.setWidth 64)) := by
  rw [exec_locdec]
  exact congrArg _ (runCommand_committed hroom ((if_neg (Nat.not_lt.2 hin)).trans (by rw [h])))

/-- Settles O45: the bounds, then the length, then the lowest bad digit decide which of the four ways
the payload is taken. -/
theorem locdecDecodesTheLocation : Obligations.LocdecDecodesTheLocation := by
  intro a b s
  refine ⟨readF2_bytes32 0x40 .locdec a b, fun hout => ?_, fun hin =>
    ⟨fun h0 => ?_, fun h0 h16 => ?_, fun h16 => ⟨fun j hbad => ?_, fun hgood => ?_⟩⟩⟩
  · rw [exec_locdec]
    exact congrArg _ (runCommand_bounds (if_pos hout))
  · have hroom := (duplicateNotes_length_le s.record.geoP 0).trans (by decide : 1 ≤ Config.diagCap)
    exact exec_locdec_commits hin hroom (locDec_absent s.start h0)
  · rw [← BitVec.ofNat_toNat]
    exact exec_locdec_commits hin (by simp) (locDec_wrong_length s.start h0 h16)
  · exact exec_locdec_commits hin (by simp) (locDec_bad_digit s.start h16 hin hbad)
  · exact ⟨_, commitLoc_decoded s.record (s.octets a.toNat 16),
      exec_locdec_commits hin (locDecNotes_length_le _ _) (locDec_readable s.start h16 hin hgood)⟩

/-- Settles O46: the reserved bits, then the bounds; else the octets and entries are those of the image
that `locImage_payload` describes. -/
theorem locencEncodesTheLocation : Obligations.LocencEncodesTheLocation := by
  intro a b s
  refine ⟨readF2_bytes32 0x41 .locenc a b, fun hcfg => ?_, fun hcfg hout => ?_,
    fun hcfg hin => ?_⟩
  · rw [exec_locenc, runCommand_refused hcfg]
  all_goals rw [exec_locenc, runCommand_admitted (Nat.not_le.2 hcfg)]
  · exact congrArg _ (runCommand_bounds (if_pos hout))
  · have hpayload := locImage_payload s.record (b.getLsbD 0)
    refine ⟨_, _, _, hpayload, stored_encoded s (locImage s.record (b.getLsbD 0)).2 a.toNat _, ?_⟩
    exact congrArg _ (runCommand_encoded hpayload.notes_length_le (if_neg (Nat.not_lt.2 hin)))

end Sys2Proof.Machine
end

section
/-! PROOFS. The statements of the floor codec (spec/44_floor.md R180 to R183): the three ways a floor
payload is taken, and the commands FLRDEC and FLRENC. Laws/Payloads.lean says what the fields of a
payload are; how a codec command ends is said with the location codec. -/

namespace Sys2Proof.Machine

/-! ## What a floor payload posts fits the list (R180, R182) -/

theorem flrDecNotes_length_le (present : BitVec 1) (code : Nat) :
    (duplicateNotes present 4 ++ uncNotes code 24 5).length ≤ Config.diagCap := by
  have hdup := duplicateNotes_length_le present 4
  have hunc := uncNotes_length_le code 24 5
  rw [List.length_append, Config.diagCap]
  omega

theorem FlrPayload.notes_length_le {r : Record} {zs : Bool} {os : List Byte} {ds : List DiagEntry}
    (h : FlrPayload r zs os ds) : ds.length ≤ Config.diagCap := by
  obtain ⟨-, fl, height, d1, d2, d3, hfloor, hheight, hcode, -, -, rfl⟩ := h
  have h1 := hfloor.notes_length_le
  have h2 := hheight.notes_length_le
  have h3 := hcode.notes_length_le
  simp only [List.length_append, Config.diagCap]
  omega

/-! ## The three ways a floor payload is taken (R180)

Each is entries posted and a record; a skipped payload leaves the record it found. -/

section
variable (s : State) {p len j : Nat}

theorem flrDec_wrong_length (h6 : len ≠ 6) (h5 : len ≠ 5) : flrDec s p len =
    { s.postAll [note .flrLength len] with record := s.record } := by
  rw [flrDec, if_pos ⟨h6, h5⟩, State.postAll_with_own_record, State.post_eq_postAll]

theorem flrDec_bad_digit (hlen : len = 6 ∨ len = 5) (hin : p + len ≤ s.olen)
    (hbad : s.firstBad p len = some j) :
    flrDec s p len = { s.postAll [note .hexDigit j] with record := s.record } := by
  have hread : readFlr s p len = .error (.malformed j) := by rw [readFlr_eq hin hlen, hbad]
  rw [State.postAll_with_own_record, ← State.post_eq_postAll, flrDec, if_neg (by omega), hread]

theorem flrDec_readable (hlen : len = 6 ∨ len = 5) (hin : p + len ≤ s.olen)
    (hgood : s.firstBad p len = none) : flrDec s p len =
    { s.postAll (duplicateNotes s.record.flrP 4 ++ uncNotes (flrCode (s.octets p len)) 24 5) with
      record := commitFlr s.record (flrFields (s.octets p len)) } := by
  have hread : readFlr s p len = .ok (flrFields (s.octets p len)) := by
    rw [readFlr_eq hin hlen, hgood]
  rw [← flrNotes_eq, flrDec, if_neg (by omega), hread]
end

/-! ## What each command does (R181, R183) -/

section
variable (a : BitVec 32) (b : BitVec 8) (s : State)

theorem exec_flrdec : exec (.flrdec a b) s = .next (runCommand s fun t =>
    if t.olen < a.toNat + b.toNat then .failed t .bounds
    else .done (flrDec t a.toNat b.toNat)
      ((flrDec t a.toNat b.toNat).record.flrP.setWidth 64)) := rfl

theorem exec_flrenc : exec (.flrenc a b) s = .next (runCommand s fun t =>
    if 4 ≤ b.toNat then .failed t .invalid
    else if t.olen < a.toNat + 6 then .failed t .bounds
    else .done (putOctets (t.postAll (flrPayload t.record (b.getLsbD 0)).2) a.toNat
      (flrPayload t.record (b.getLsbD 0)).1) 6) := by
  simp only [← cfgReserved_iff]
  rfl
end

/-- FLRDEC of a payload inside the buffer leaves what the decoder posts and commits, and answers the
R.FLR_P committed. -/
theorem exec_flrdec_commits {a : BitVec 32} {b : BitVec 8} {s : State} {ds : List DiagEntry}
    {r : Record} (hin : a.toNat + b.toNat ≤ s.olen) (hroom : ds.length ≤ Config.diagCap)
    (h : flrDec s.start a.toNat b.toNat = { s.start.postAll ds with record := r }) :
    exec (.flrdec a b) s =
      .next (State.answered { s with record := r } ds (r.flrP.setWidth 64)) := by
  rw [exec_flrdec]
  exact congrArg _ (runCommand_committed hroom ((if_neg (Nat.not_lt.2 hin)).trans (by rw [h])))

/-- Settles O47: the bounds, then the length, then the lowest bad digit decide which of the three ways
the payload is taken. -/
theorem flrdecDecodesTheFloor : Obligations.FlrdecDecodesTheFloor := by
  intro a b s
  refine ⟨readF2_bytes32 0x42 .flrdec a b, fun hout => ?_, fun hin =>
    ⟨fun h6 h5 => ?_, fun hlen => ⟨fun j hbad => ?_, fun hgood => ?_⟩⟩⟩
  · rw [exec_flrdec]
    exact congrArg _ (runCommand_bounds (if_pos hout))
  · rw [← BitVec.ofNat_toNat]
    exact exec_flrdec_commits hin (by simp) (flrDec_wrong_length s.start h6 h5)
  · exact exec_flrdec_commits hin (by simp) (flrDec_bad_digit s.start hlen hin hbad)
  · have hoctets : (s.octets a.toNat b.toNat).length = 6 ∨
        (s.octets a.toNat b.toNat).length = 5 := by rwa [octets_length]
    exact ⟨_, commitFlr_decoded s.record hoctets,
      exec_flrdec_commits hin (flrDecNotes_length_le _ _) (flrDec_readable s.start hlen hin hgood)⟩

/-- Settles O48: the reserved bits, then the bounds; else the octets and entries are those of the
payload that `flrPayload_payload` describes. -/
theorem flrencEncodesTheFloor : Obligations.FlrencEncodesTheFloor := by
  intro a b s
  refine ⟨readF2_bytes32 0x43 .flrenc a b, fun hcfg => ?_, fun hcfg hout => ?_,
    fun hcfg hin => ?_⟩
  · rw [exec_flrenc, runCommand_refused hcfg]
  all_goals rw [exec_flrenc, runCommand_admitted (Nat.not_le.2 hcfg)]
  · exact congrArg _ (runCommand_bounds (if_pos hout))
  · have hpayload := flrPayload_payload s.record (b.getLsbD 0)
    exact ⟨_, _, _, hpayload, stored_encoded s _ a.toNat _,
      congrArg _ (runCommand_encoded hpayload.notes_length_le (if_neg (Nat.not_lt.2 hin)))⟩

end Sys2Proof.Machine
end

section
/-! PROOFS. The statements of the usage codec (spec/45_usage.md R190 to R194): the three ways a usage
payload is taken, and the commands USGDEC and USGENC. Laws/Payloads.lean says what the fields of a
payload are; how a codec command ends is said with the location codec. -/

namespace Sys2Proof.Machine

/-! ## What a usage payload posts fits the list (R190, R192) -/

theorem usgDecNotes_length_le (q : Record) (os : List Byte) :
    (usgDecNotes q os).length ≤ Config.diagCap := by
  have hdup := duplicateNotes_length_le q.usgP 6
  simp only [usgDecNotes, List.length_append, Config.diagCap]
  split <;> split <;> simp only [List.length_cons, List.length_nil] <;> omega

theorem UsgPayload.notes_length_le {r : Record} {os : List Byte} {ds : List DiagEntry}
    (h : UsgPayload r os ds) : ds.length ≤ Config.diagCap := by
  obtain ⟨-, -, -, rfl⟩ := h
  split
  · simp
  · split <;> simp

/-! ## The three ways a usage payload is taken (R190)

Each is entries posted and a record; a skipped payload leaves the record it found. -/

section
variable (s : State) {p len j : Nat}

theorem usgDec_wrong_length (h1 : len ≠ 1) (h3 : len ≠ 3) : usgDec s p len =
    { s.postAll [note .usgLength len] with record := s.record } := by
  rw [usgDec, if_pos ⟨h1, h3⟩, State.postAll_with_own_record, State.post_eq_postAll]

theorem usgDec_bad_digit (hlen : len = 1 ∨ len = 3) (hin : p + len ≤ s.olen)
    (hbad : s.firstBad p len = some j) :
    usgDec s p len = { s.postAll [note .hexDigit j] with record := s.record } := by
  have hread : readUsg s p len = .error (.malformed j) := by rw [readUsg_eq hin hlen, hbad]
  rw [State.postAll_with_own_record, ← State.post_eq_postAll, usgDec, if_neg (by omega), hread]

theorem usgDec_readable (hlen : len = 1 ∨ len = 3) (hin : p + len ≤ s.olen)
    (hgood : s.firstBad p len = none) :
    usgDec s p len = { s.postAll (usgDecNotes s.record (s.octets p len)) with
      record := usgDecoded s.record (s.octets p len) } := by
  have hread : readUsg s p len = .ok (usgFields (s.octets p len)) := by
    rw [readUsg_eq hin hlen, hgood]
  have hoctets : (s.octets p len).length = 1 ∨ (s.octets p len).length = 3 := by
    rwa [octets_length]
  rw [← usgNotes_eq s.record hoctets, ← commitUsg_decoded, usgDec, if_neg (by omega), hread]
end

/-! ## What each command does (R191, R194) -/

section
variable (a : BitVec 32) (b : BitVec 8) (s : State)

theorem exec_usgdec : exec (.usgdec a b) s = .next (runCommand s fun t =>
    if t.olen < a.toNat + b.toNat then .failed t .bounds
    else .done (usgDec t a.toNat b.toNat)
      ((usgDec t a.toNat b.toNat).record.usgP.setWidth 64)) := rfl

theorem exec_usgenc : exec (.usgenc a) s = .next (runCommand s fun t =>
    if t.olen < a.toNat + (usgPayload t.record (usgFlag t.record)).length then .failed t .bounds
    else .done (putOctets (t.postAll (usgFixNotes t.record)) a.toNat
      (usgPayload t.record (usgFlag t.record)))
      (BitVec.ofNat 64 (usgPayload t.record (usgFlag t.record)).length)) := rfl
end

/-- USGDEC of a payload inside the buffer leaves what the decoder posts and commits, and answers the
R.USG_P committed. -/
theorem exec_usgdec_commits {a : BitVec 32} {b : BitVec 8} {s : State} {ds : List DiagEntry}
    {r : Record} (hin : a.toNat + b.toNat ≤ s.olen) (hroom : ds.length ≤ Config.diagCap)
    (h : usgDec s.start a.toNat b.toNat = { s.start.postAll ds with record := r }) :
    exec (.usgdec a b) s =
      .next (State.answered { s with record := r } ds (r.usgP.setWidth 64)) := by
  rw [exec_usgdec]
  exact congrArg _ (runCommand_committed hroom ((if_neg (Nat.not_lt.2 hin)).trans (by rw [h])))

/-- Settles O49: the bounds, then the length, then the lowest bad digit decide which of the three ways
the payload is taken. -/
theorem usgdecDecodesTheUsage : Obligations.UsgdecDecodesTheUsage := by
  intro a b s
  refine ⟨readF2_bytes32 0x44 .usgdec a b, fun hout => ?_, fun hin =>
    ⟨fun h1 h3 => ?_, fun hlen => ⟨fun j hbad => ?_, fun hgood => ?_⟩⟩⟩
  · rw [exec_usgdec]
    exact congrArg _ (runCommand_bounds (if_pos hout))
  · rw [← BitVec.ofNat_toNat]
    exact exec_usgdec_commits hin (by simp) (usgDec_wrong_length s.start h1 h3)
  · exact exec_usgdec_commits hin (by simp) (usgDec_bad_digit s.start hlen hin hbad)
  · exact exec_usgdec_commits hin (usgDecNotes_length_le _ _)
      (usgDec_readable s.start hlen hin hgood)

/-- Settles O50: the length checked against the bounds, the octets and the entries are those of the
corrected payload that `usgPayload_payload` describes. -/
theorem usgencEncodesTheCorrectedUsage : Obligations.UsgencEncodesTheCorrectedUsage := by
  intro a s
  have hpayload := usgPayload_payload s.record
  have hlength : (usgPayload s.record (usgFlag s.record)).length =
      if s.record.expire = 0 then 1 else 3 := hpayload.1
  refine ⟨readF1_bytes32 0x45 .usgenc a, ?_⟩
  rw [← hlength, exec_usgenc]
  refine ⟨fun hout => congrArg _ (runCommand_bounds (if_pos hout)), fun hin => ?_⟩
  exact ⟨_, _, _, hpayload, stored_encoded s _ a.toNat _,
    congrArg _ (runCommand_encoded hpayload.notes_length_le (if_neg (Nat.not_lt.2 hin)))⟩

end Sys2Proof.Machine
end

section
/-! PROOFS. The statements of the BSSID codec (spec/46_bssid.md R200 to R203): what the slots of a payload
become and what they post, the two ways a BSSID payload is taken, and the commands BSSDEC and BSSENC.
Laws/Payloads.lean says what one slot of a payload and the payload of a record are; how a codec command
ends is said with the location codec. -/

namespace Sys2Proof.Machine

/-! ## What a BSSID payload posts fits the list (R200, R202) -/

theorem bssDecNotes_length_le (s : State) (q : Record) (p : Nat) {len : Nat} (hlen : len ≤ 255) :
    (bssDecNotes s q p len).length ≤ Config.diagCap := by
  have hdup := duplicateNotes_length_le q.bssP 7
  have hslots := List.length_filterMap_le (fun i => s.firstBad (p + 1 + 6 * i) 6)
    (List.range ((len - 1) / 6))
  rw [List.length_range] at hslots
  simp only [bssDecNotes, List.length_append, List.length_map, Config.diagCap]
  split <;> split <;> split <;> simp only [List.length_cons, List.length_nil] <;> omega

theorem BssPayload.notes_length_le {r : Record} {ind : Bool} {os : List Byte}
    {ds : List DiagEntry} (h : BssPayload r ind os ds) : ds.length ≤ Config.diagCap := by
  obtain ⟨-, -, -, rfl⟩ := h
  have hslots := List.length_filter_le (fun i => (r.slot i).valid = 0) (List.range r.bssN.toNat)
  have hcount := r.bssN.isLt
  rw [List.length_range] at hslots
  rw [List.length_map, Config.diagCap]
  omega

/-! ## The slots of a payload (R200) -/

/-- The record `q` with the first `n` slots as the payload at `p` in the buffer of `s` has them. -/
def decodedSlots (s : State) (p n : Nat) (q : Record) : Record :=
  (List.range n).foldl (fun r i => r.setSlot i (bssSlotAt s p i)) q

/-- The entries of the bad octets in the first `n` slots of the payload at `p`. -/
def slotNotes (s : State) (p n : Nat) : List DiagEntry :=
  ((List.range n).filterMap fun i => s.firstBad (p + 1 + 6 * i) 6).map (note .hexDigit)

section
variable (s : State) (p n : Nat) (q : Record)

theorem decodedSlots_succ : decodedSlots s p (n + 1) q =
    (decodedSlots s p n q).setSlot n (bssSlotAt s p n) := by
  simp [decodedSlots, List.range_succ]

theorem slotNotes_succ : slotNotes s p (n + 1) =
    slotNotes s p n ++ (s.firstBad (p + 1 + 6 * n) 6).toList.map (note .hexDigit) := by
  rw [slotNotes, List.range_succ, List.filterMap_append, List.map_append, slotNotes]
  cases h : s.firstBad (p + 1 + 6 * n) 6 <;> simp [h]

/-- Decoding slots touches the slots only. -/
theorem decodedSlots_eq : decodedSlots s p n q = { q with bss := (decodedSlots s p n q).bss } := by
  induction n with
  | zero => rfl
  | succ n ih => rw [decodedSlots_succ, Record.setSlot_eq, ih]

variable {n} in
/-- The slots below the count are those of the payload, the slots above are as they were. -/
theorem decodedSlots_slot (hn : n ≤ Config.bssCap) (i : Nat) : (decodedSlots s p n q).slot i =
    if i < n then bssSlotAt s p i else q.slot i := by
  induction n with
  | zero => rfl
  | succ n ih =>
    rw [decodedSlots_succ, Record.slot_setSlot, ih (by omega)]
    by_cases hi : n = i
    · rw [if_pos ⟨hi, hn⟩, if_pos (by omega), hi]
    · simp only [show (i < n + 1) = (i < n) by simp; omega, hi, false_and, if_false]
end

/-! ## What a decoder leaves: entries posted and a record (R200) -/

/-- `s` with the entries `es` posted and the record `q`. -/
def State.committed (s : State) (es : List DiagEntry) (q : Record) : State :=
  { s.postAll es with record := q }

section
variable (s : State) (p n : Nat) (q : Record) (es : List DiagEntry)

theorem State.committed_olen : (s.committed es q).olen = s.olen := s.postAll_olen es

theorem State.postAll_eq_committed : s.postAll es = s.committed es s.record :=
  (s.postAll_with_own_record es).symm

theorem State.committed_committed (fs : List DiagEntry) (r : Record) :
    (s.committed es q).committed fs r = s.committed (es ++ fs) r := by
  simp only [State.committed, State.postAll_with_record, State.postAll_append]

theorem State.committed_postAll (fs : List DiagEntry) :
    (s.committed es q).postAll fs = s.committed (es ++ fs) q := by
  simp only [State.committed, State.postAll_with_record, State.postAll_append]

theorem State.committed_firstBad : (s.committed es q).firstBad p n = s.firstBad p n := by
  rw [State.committed, State.postAll_eq]; rfl

/-- What a slot decodes to is a matter of the buffer alone. -/
theorem State.committed_bssSlotAt (i : Nat) :
    bssSlotAt (s.committed es q) p i = bssSlotAt s p i := by
  rw [State.committed, State.postAll_eq]; rfl

variable {p n} in
/-- Decoding one address inside the buffer, after entries were posted and slots written. -/
theorem bssDecSlot_committed (h : p + 7 + 6 * n ≤ s.olen) : bssDecSlot p (s.committed es q) n =
    s.committed (es ++ (s.firstBad (p + 1 + 6 * n) 6).toList.map (note .hexDigit))
      (q.setSlot n (bssSlotAt s p n)) := by
  rw [bssDecSlot_eq (by rwa [State.committed_olen]), State.committed_firstBad,
    State.committed_bssSlotAt]
  exact State.committed_committed s q es _ _

variable {p n} in
/-- Decoding the first `n` addresses inside the buffer, one after another. -/
theorem bssDecSlots_decoded (h : p + 1 + 6 * n ≤ s.olen) :
    (List.range n).foldl (bssDecSlot p) (s.committed es q) =
      s.committed (es ++ slotNotes s p n) (decodedSlots s p n q) := by
  induction n with
  | zero => rw [slotNotes, List.range_zero, List.filterMap_nil, List.map_nil, List.append_nil]; rfl
  | succ n ih =>
    rw [List.range_succ, List.foldl_append, ih (by omega), List.foldl_cons, List.foldl_nil,
      bssDecSlot_committed s _ _ (by omega), List.append_assoc, ← slotNotes_succ,
      ← decodedSlots_succ]
end

/-! ## The two ways a BSSID payload is taken (R200)

Each is entries posted and a record; a payload of length 0 leaves the record it found. -/

/-- The record `q` with the slots, the count and the indicator of the payload of `len` octets at `p`. -/
def bssDecoded (s : State) (q : Record) (p len : Nat) : Record :=
  { decodedSlots s p ((len - 1) / 6) q with
    bssN := BitVec.ofNat 6 ((len - 1) / 6)
    bssInd := if s.digitsOk p then s.octet p else 0
    bssP := 1 }

theorem bssDecoded_eq (s : State) (q : Record) (p len : Nat) : bssDecoded s q p len =
    { q with
      bss := (bssDecoded s q p len).bss
      bssN := BitVec.ofNat 6 ((len - 1) / 6)
      bssInd := if s.digitsOk p then s.octet p else 0
      bssP := 1 } := by
  rw [bssDecoded, decodedSlots_eq]

/-- The entries before the slots, of the slots, and after them (R200). -/
theorem bssDecNotes_eq (s : State) (q : Record) (p len : Nat) : bssDecNotes s q p len =
    ((if s.digitsOk p then [] else [note .hexDigit p]) ++ noteIf (q.bssP == 1) .duplicate 7)
      ++ slotNotes s p ((len - 1) / 6)
      ++ (noteIf ((len - 1) % 6 != 0) .bssResidue ((len - 1) % 6)
        ++ noteIf (s.digitsOk p && s.octet p != 0 && (s.octet p).toNat != (len - 1) / 6)
          .bssIndicator (s.octet p).toNat) := by
  have hres : noteIf ((len - 1) % 6 != 0) .bssResidue ((len - 1) % 6) =
      if (len - 1) % 6 = 0 then []
      else [⟨.malformedInput, .bssResidue, BitVec.ofNat 16 ((len - 1) % 6)⟩] := by
    by_cases h : (len - 1) % 6 = 0 <;> simp [h, noteIf, note, Cause.kind]
  have hind : noteIf (s.digitsOk p && s.octet p != 0 && (s.octet p).toNat != (len - 1) / 6)
        .bssIndicator (s.octet p).toNat =
      if s.digitsOk p ∧ s.octet p ≠ 0 ∧ (s.octet p).toNat ≠ (len - 1) / 6 then
        [⟨.malformedInput, .bssIndicator, (s.octet p).setWidth 16⟩]
      else [] := by
    simp [noteIf, note, Cause.kind, and_assoc]
  rw [hres, hind, duplicateNotes_eq, ← List.append_assoc]
  rfl

section
variable (s : State) {p len : Nat}

theorem bssDec_absent (h0 : len = 0) :
    bssDec s p len = s.committed [note .bssLength 0] s.record := by
  rw [bssDec, if_pos h0, ← State.postAll_eq_committed, State.post_eq_postAll]

theorem bssDec_decoded (h0 : len ≠ 0) (hin : p + len ≤ s.olen) : bssDec s p len =
    s.committed (bssDecNotes s s.record p len) (bssDecoded s s.record p len) := by
  have hp : p < s.olen := by omega
  have hslots (es : List DiagEntry) := bssDecSlots_decoded s s.record es
    (show p + 1 + 6 * ((len - 1) / 6) ≤ s.olen by omega)
  rw [bssDecNotes_eq, bssDecoded]
  cases hd : s.digitsOk p
  all_goals
    simp only [bssDec, if_neg h0, readIndicator_eq hp, hd, Bool.false_eq_true, if_false, if_true]
    rw [State.postAll_eq_committed s, hslots, State.committed_postAll]
    rfl
end

/-! ## What each command does (R201, R203) -/

section
variable (a : BitVec 32) (b : BitVec 8) (s : State)

theorem exec_bssdec : exec (.bssdec a b) s = .next (runCommand s fun t =>
    if t.olen < a.toNat + b.toNat then .failed t .bounds
    else .done (bssDec t a.toNat b.toNat)
      ((bssDec t a.toNat b.toNat).record.bssN.setWidth 64)) := rfl

theorem exec_bssenc : exec (.bssenc a b) s = .next (runCommand s fun t =>
    if 4 ≤ b.toNat then .failed t .invalid
    else if t.olen < a.toNat + (1 + 6 * t.record.bssN.toNat) then .failed t .bounds
    else .done (putOctets (t.postAll (bssEncNotes t.record)) a.toNat
      (bssPayload t.record (b.getLsbD 1))) (BitVec.ofNat 64 (1 + 6 * t.record.bssN.toNat))) := by
  simp only [← cfgReserved_iff]
  rfl
end

/-- BSSDEC of a payload inside the buffer leaves what the decoder posts and commits, and answers the
R.BSS_N committed. -/
theorem exec_bssdec_commits {a : BitVec 32} {b : BitVec 8} {s : State} {ds : List DiagEntry}
    {r : Record} (hin : a.toNat + b.toNat ≤ s.olen) (hroom : ds.length ≤ Config.diagCap)
    (h : bssDec s.start a.toNat b.toNat = s.start.committed ds r) :
    exec (.bssdec a b) s =
      .next (State.answered { s with record := r } ds (r.bssN.setWidth 64)) := by
  rw [exec_bssdec]
  exact congrArg _ (runCommand_committed hroom ((if_neg (Nat.not_lt.2 hin)).trans (by rw [h]; rfl)))

/-- Settles O51: the bounds decide first, then length 0; else the entries and the slots are those of
the payload, whose count fits R.BSS_N because a length is at most 255. -/
theorem bssdecDecodesTheAddresses : Obligations.BssdecDecodesTheAddresses := by
  intro a b s
  have hcount : (b.toNat - 1) / 6 ≤ Config.bssCap := by have := b.isLt; simp; omega
  refine ⟨readF2_bytes32 0x46 .bssdec a b, fun hout => ?_, fun hin =>
    ⟨fun h0 => ?_, fun h0 => ⟨_, bssDecoded_eq s s.record a.toNat b.toNat,
      decodedSlots_slot s a.toNat s.record hcount, ?_⟩⟩⟩
  · rw [exec_bssdec]
    exact congrArg _ (runCommand_bounds (if_pos hout))
  · exact exec_bssdec_commits hin (by simp) (bssDec_absent s.start h0)
  · have hanswer : (BitVec.ofNat 6 ((b.toNat - 1) / 6)).setWidth 64 =
        BitVec.ofNat 64 ((b.toNat - 1) / 6) := by
      have := b.isLt
      apply BitVec.eq_of_toNat_eq
      simp; omega
    rw [← hanswer]
    exact exec_bssdec_commits hin (bssDecNotes_length_le s _ _ (Nat.le_of_lt_succ b.isLt))
      (bssDec_decoded s.start h0 hin)

/-- Settles O52: the reserved bits, then the bounds; else the octets and entries are those of the
payload that `bssPayload_payload` describes. -/
theorem bssencEncodesTheAddresses : Obligations.BssencEncodesTheAddresses := by
  intro a b s
  refine ⟨readF2_bytes32 0x47 .bssenc a b, fun hcfg => ?_, fun hcfg hout => ?_,
    fun hcfg hin => ?_⟩
  · rw [exec_bssenc, runCommand_refused hcfg]
  all_goals rw [exec_bssenc, runCommand_admitted (Nat.not_le.2 hcfg)]
  · exact congrArg _ (runCommand_bounds (if_pos hout))
  · have hpayload := bssPayload_payload s.record (b.getLsbD 1)
    exact ⟨_, _, _, hpayload, stored_encoded s _ a.toNat _,
      congrArg _ (runCommand_encoded hpayload.notes_length_le (if_neg (Nat.not_lt.2 hin)))⟩

end Sys2Proof.Machine
end

section
/-! PROOFS. The statements of the address texts (spec/46_bssid.md R204, R205): the octets that a text
stands for, the address that `macParse` answers, and the command MACPARSE. -/

namespace Sys2Proof.Machine

/-! ## The octets that a text stands for (R94, R204) -/

/-- The pairs of `text` at every `d`-th character write the octets `os`. -/
def Spells (d : Nat) (text os : List Byte) : Prop :=
  ∀ k < os.length, textOctet text (d * k) = os[k]?

/-- A separator follows each of the first `n` pairs of `text`. -/
def Separated (n : Nat) (text : List Byte) : Prop :=
  ∀ k < n, (text[3 * k + 2]?).any isSeparator = true

section
variable {d n : Nat} {x y c o : Byte} {text os : List Byte} {a : BitVec 48}

theorem textOctet_drop (d : Nat) (text : List Byte) (i : Nat) :
    textOctet (text.drop d) i = textOctet text (d + i) := by
  simp only [textOctet, List.getElem?_drop, Nat.add_assoc]

theorem spells_nil : Spells d text [] := fun _ hk => absurd hk (Nat.not_lt_zero _)

theorem spells_cons : Spells d text (o :: os) ↔
    textOctet text 0 = some o ∧ Spells d (text.drop d) os := by
  simp only [Spells, List.length_cons, textOctet_drop]
  rw [Nat.forall_lt_succ_left]
  simp [Nat.mul_succ, Nat.add_comm]

theorem separated_succ : Separated (n + 1) text ↔
    (text[2]?).any isSeparator = true ∧ Separated n (text.drop 3) := by
  simp only [Separated, List.getElem?_drop]
  rw [Nat.forall_lt_succ_left]
  simp [Nat.mul_succ, Nat.add_comm, Nat.add_left_comm]

theorem hexPairs_pair : hexPairs (x :: y :: text) = some os ↔
    ∃ o rest, os = o :: rest ∧ textOctet (x :: y :: text) 0 = some o ∧ hexPairs text = some rest := by
  simp only [hexPairs, textOctet, List.getElem?_cons_zero, List.getElem?_cons_succ, zero_add,
    Option.bind_some]
  cases hexval x <;> cases hexval y <;> cases hexPairs text <;> simp [eq_comm]

/-- Digits without separators are read pair by pair. -/
theorem hexPairs_eq_some_iff (hlen : text.length = 2 * n) :
    hexPairs text = some os ↔ os.length = n ∧ Spells 2 text os := by
  induction n generalizing text os with
  | zero =>
    obtain rfl := List.eq_nil_of_length_eq_zero hlen
    cases os <;> simp [hexPairs, Spells]
  | succ n ih =>
    obtain ⟨x, y, text, rfl⟩ : ∃ x y rest, text = x :: y :: rest := by
      match text with
      | x :: y :: rest => exact ⟨x, y, rest, rfl⟩
    have ih := fun os => ih (text := text) (os := os) (by simp only [List.length_cons] at hlen; omega)
    cases os with
    | nil => simp [hexPairs_pair]
    | cons o os => simp [hexPairs_pair, spells_cons, ih, and_left_comm]

theorem dropSeparators_pair (hc : isSeparator c = true) :
    (dropSeparators (x :: y :: c :: text)).bind hexPairs = some os ↔
      ∃ o rest, os = o :: rest ∧ textOctet (x :: y :: c :: text) 0 = some o ∧
        (dropSeparators text).bind hexPairs = some rest := by
  rw [dropSeparators, if_pos hc]
  cases dropSeparators text with
  | none => simp
  | some ds => exact hexPairs_pair

/-- Pairs with separators between them are read pair by pair. -/
theorem dropSeparators_eq_some_iff (hlen : text.length = 3 * n + 2) :
    (dropSeparators text).bind hexPairs = some os ↔
      Separated n text ∧ os.length = n + 1 ∧ Spells 3 text os := by
  induction n generalizing text os with
  | zero =>
    obtain ⟨x, y, rfl⟩ := List.length_eq_two.1 hlen
    have hpair : (dropSeparators [x, y]).bind hexPairs = hexPairs [x, y] := rfl
    have hstep : os.length = 1 → (Spells 2 [x, y] os ↔ Spells 3 [x, y] os) := by
      intro h
      obtain ⟨o, rfl⟩ := List.length_eq_one_iff.1 h
      simp only [spells_cons, spells_nil]
    rw [hpair, hexPairs_eq_some_iff (n := 1) rfl, and_congr_right hstep]
    simp [Separated]
  | succ n ih =>
    obtain ⟨x, y, c, text, rfl⟩ : ∃ x y c rest, text = x :: y :: c :: rest := by
      match text with
      | x :: y :: c :: rest => exact ⟨x, y, c, rest, rfl⟩
    have ih := fun os => ih (text := text) (os := os) (by simpa [Nat.mul_succ] using hlen)
    rw [separated_succ]
    cases hc : isSeparator c with
    | false => simp [dropSeparators, hc]
    | true =>
      cases os with
      | nil => simp [dropSeparators_pair hc]
      | cons o os => simp [dropSeparators_pair hc, spells_cons, ih, hc, and_left_comm]

theorem addrOf_eq_iff (hlen : os.length = 6) :
    addrOf os = a ↔ ∀ k < 6, os[k]? = some (a.extractLsb' (40 - 8 * k) 8) := by
  obtain ⟨o0, o1, o2, o3, o4, o5, rfl⟩ : ∃ o0 o1 o2 o3 o4 o5, os = [o0, o1, o2, o3, o4, o5] := by
    match os with
    | [o0, o1, o2, o3, o4, o5] => exact ⟨o0, o1, o2, o3, o4, o5, rfl⟩
  have := a.isLt
  simp only [Nat.forall_lt_succ_left, Nat.not_lt_zero, false_imp_iff, implies_true]
  simp [addrOf, ← BitVec.toNat_inj, Nat.shiftRight_eq_div_pow]
  omega

/-- The octets that the pairs of a text write, when their number is an address. -/
theorem spells_address_iff : (∃ os, os.length = 6 ∧ Spells d text os ∧ addrOf os = a) ↔
    ∀ k < 6, textOctet text (d * k) = some (a.extractLsb' (40 - 8 * k) 8) := by
  constructor
  · rintro ⟨os, hlen, hspells, haddr⟩ k hk
    rw [hspells k (hlen ▸ hk), (addrOf_eq_iff hlen).1 haddr k hk]
  · intro h
    have hget : ∀ k < 6, ((List.range 6).map fun k => a.extractLsb' (40 - 8 * k) 8)[k]? =
        some (a.extractLsb' (40 - 8 * k) 8) := fun k hk => by
      rw [List.getElem?_map, List.getElem?_range hk]; rfl
    exact ⟨_, rfl, fun k hk => (h k (by simpa using hk)).trans (hget k (by simpa using hk)).symm,
      (addrOf_eq_iff rfl).2 hget⟩

theorem isSeparator_iff {x : Option Byte} : x.any isSeparator = true ↔
    x = some 0x3A ∨ x = some 0x2D ∨ x = some 0x5F := by
  cases x <;> simp [isSeparator, or_assoc]

/-- The two text forms by the octets their pairs write. -/
theorem isAddressText_iff : IsAddressText text a ↔
    (text.length = 12 ∧ ∃ os, os.length = 6 ∧ Spells 2 text os ∧ addrOf os = a) ∨
    (text.length = 17 ∧ Separated 5 text ∧
      ∃ os, os.length = 6 ∧ Spells 3 text os ∧ addrOf os = a) := by
  simp only [IsAddressText, Separated, isSeparator_iff, spells_address_iff]

/-- MACPARSE reads the two surface forms of an address, and nothing else (R204). -/
theorem macParse_eq_some_iff : macParse text = some a ↔ IsAddressText text a := by
  rw [macParse, isAddressText_iff]
  by_cases h12 : text.length = 12
  · simp [h12, hexPairs_eq_some_iff (n := 6) h12, and_assoc]
  · by_cases h17 : text.length = 17
    · simp only [if_neg h12, if_pos h17, Option.map_eq_some_iff,
        dropSeparators_eq_some_iff (n := 5) h17]
      simp [h17, and_assoc]
    · simp [h12, h17]
end

/-! ## MACPARSE (R205) -/

section
variable {r : BitVec 8} {text : List Byte} {s : State}

theorem exec_macparse_refused (hslot : 42 ≤ r.toNat) :
    exec (.macparse r text) s = .next (s.rejected .invalid []) :=
  congrArg _ (runCommand_invalid (if_pos hslot))

theorem exec_macparse_address {a : BitVec 48} (hslot : r.toNat < 42)
    (htext : macParse text = some a) : exec (.macparse r text) s = .next (State.answered
      { s with record := s.record.setSlot r.toNat { addr := a, valid := 1 } } [] 1) := by
  refine congrArg _ (runCommand_committed (by simp) ?_)
  rw [if_neg (Nat.not_le.2 hslot), htext]
  rfl

theorem exec_macparse_other_text (hslot : r.toNat < 42) (htext : macParse text = none) :
    exec (.macparse r text) s = .next (State.answered
      { s with record := s.record.setSlot r.toNat Slot.empty } [note .macText r.toNat] 0) := by
  refine congrArg _ (runCommand_committed (by simp) ?_)
  rw [if_neg (Nat.not_le.2 hslot), htext, ← State.post_eq_postAll]
  rfl
end

/-- Settles O53: the slot number decides first; then `macParse` answers an address exactly for the two
text forms. -/
theorem macparseFillsOneSlot : Obligations.MacparseFillsOneSlot := by
  intro r text s
  refine ⟨fun hfits => readF9_bytesF9 0x48 .macparse r hfits, exec_macparse_refused,
    fun hslot => ⟨fun a htext => exec_macparse_address hslot (macParse_eq_some_iff.2 htext),
      fun hnone => ?_⟩⟩
  have hparse : macParse text = none :=
    Option.eq_none_iff_forall_ne_some.2 fun a h => hnone ⟨a, macParse_eq_some_iff.1 h⟩
  rw [← BitVec.ofNat_toNat]
  exact exec_macparse_other_text hslot hparse

end Sys2Proof.Machine
end

section
/-! PROOFS. The statements of the record (spec/47_record.md R217 to R220): what a sized buffer holds, the
pieces and the entries of the four subelements, that a record always fits the buffer and its entries
the list, and the commands RECENC and POLCHK. Laws/Payloads.lean says what the payloads are. -/

namespace Sys2Proof.Machine

/-- The reserved bits of incl, and of the selector of POLCHK, as the limit on its number (R103, R220). -/
theorem inclReserved_iff (incl : BitVec 8) : inclReserved incl = true ↔ 32 ≤ incl.toNat := by
  rw [inclReserved, bne_iff_ne]
  exact extractLsb'_ne_zero_iff incl rfl

/-! ## The advisory check (R219) -/

theorem advisories_length_le (r : Record) (useU useF re : Bool) :
    (advisories r useU useF re).length ≤ 4 := by
  simp only [advisories, List.length_append]
  split <;> split <;> split <;> split <;> simp

/-! ## What a sized buffer holds (R217) -/

/-- Sizing the buffer leaves the characters above its new end. -/
theorem zeroBuffer_chr_above (s : State) {n k : Nat} (h : 2 * n ≤ k) :
    (zeroBuffer s n).chr k = s.chr k := by
  have hread : (zeroBuffer s n).chr k = _ := stored_writeList s 0 (List.replicate (2 * n) blank) k
  rw [hread, if_pos (Nat.zero_le k), List.getElem?_eq_none (by simpa using h), Option.getD_none]

/-- The octets that fill a buffer sized for them are in it as lowercase text, and the characters above
it are as they were before the command: none of the zeros is left. -/
theorem stored_sized (s : State) (ds : List DiagEntry) (os : List Byte) :
    Stored (putOctets (zeroBuffer (s.start.postAll ds) os.length) 0 os).hex s 0 (hexText os) := by
  intro k
  rw [stored_putOctets os _ 0 k, if_pos (Nat.zero_le k), if_pos (Nat.zero_le k)]
  rcases Nat.lt_or_ge k (hexText os).length with hin | hout
  · simp [List.getElem?_eq_getElem hin]
  · rw [hexText_length] at hout
    rw [zeroBuffer_chr_above _ hout, State.postAll_chr, State.start_chr]

/-- A body that completes with entries posted, a buffer sized for the octets stored in it and another
cursor leaves those, and the end of a command. -/
theorem runCommand_sized {s : State} {body : State → Ended} {ds : List DiagEntry} {os : List Byte}
    {n : Nat} {c : BitVec 32} {v : Word64} (hroom : ds.length ≤ Config.diagCap)
    (h : body s.start =
      .done { putOctets (zeroBuffer (s.start.postAll ds) n) 0 os with cur := c } v) :
    runCommand s body = State.answered
      { s with
        hex := (putOctets (zeroBuffer (s.start.postAll ds) n) 0 os).hex, hlen := 2 * n, cur := c }
      ds v := by
  rw [runCommand_done h, putOctets_eq, start_postAll s hroom]
  rfl

/-! ## A payload posts no more entries than it has octets (R172, R182, R192, R202)

That each payload alone fits the list does not bound the four together; the octets of a record do. -/

section
variable {r : Record} {zs ind : Bool} {os : List Byte} {ds : List DiagEntry}

theorem LocPayload.notes_length_le_octets (h : LocPayload r zs os ds) : ds.length ≤ os.length := by
  obtain ⟨hlen, d1, d2, d3, d4, d5, d6, hlatU, hlat, hlonU, hlon, -, hAltU, hAlt, -, -, -, -, -,
    rfl⟩ := h
  have h1 := hlatU.notes_length_le
  have h2 := hlat.notes_length_le
  have h3 := hlonU.notes_length_le
  have h4 := hlon.notes_length_le
  have h5 := hAltU.notes_length_le
  have h6 := hAlt.notes_length_le
  simp only [List.length_append]
  split <;> simp only [List.length_cons, List.length_nil] <;> omega

theorem FlrPayload.notes_length_le_octets (h : FlrPayload r zs os ds) : ds.length ≤ os.length := by
  obtain ⟨hlen, fl, height, d1, d2, d3, hfloor, hheight, hcode, -, -, rfl⟩ := h
  have h1 := hfloor.notes_length_le
  have h2 := hheight.notes_length_le
  have h3 := hcode.notes_length_le
  simp only [List.length_append]
  omega

theorem UsgPayload.notes_length_le_octets (h : UsgPayload r os ds) : ds.length ≤ os.length := by
  obtain ⟨hlen, -, -, rfl⟩ := h
  have hoctets : 1 ≤ os.length := by rw [hlen]; split <;> decide
  split
  · exact hoctets
  · split
    · exact hoctets
    · exact Nat.zero_le _

theorem BssPayload.notes_length_le_octets (h : BssPayload r ind os ds) : ds.length ≤ os.length := by
  obtain ⟨hlen, -, -, rfl⟩ := h
  have hslots := List.length_filter_le (fun i => (r.slot i).valid = 0) (List.range r.bssN.toNat)
  rw [List.length_range] at hslots
  rw [List.length_map]
  omega
end

/-! ## The pieces of a record (R217) -/

section
variable {emitted : Prop} {id : Byte} {os piece : List Byte} {ds notes : List DiagEntry}

theorem EmittedAs.length_le (h : EmittedAs emitted id os ds piece notes) :
    piece.length ≤ os.length + 2 := by
  rcases h with ⟨-, rfl, -⟩ | ⟨-, rfl, -⟩
  · exact le_rfl
  · exact Nat.zero_le _

theorem EmittedAs.notes_length_le (h : EmittedAs emitted id os ds piece notes)
    (hds : ds.length ≤ os.length) : notes.length ≤ piece.length := by
  rcases h with ⟨-, rfl, rfl⟩ | ⟨-, rfl, rfl⟩
  · exact hds.trans (Nat.le_add_right _ 2)
  · exact le_rfl

/-- A subelement that a test decides to emit is emitted as what the test says. -/
theorem emittedAs_ite {b : Bool} {len : Byte} (hb : b = true ↔ emitted)
    (hlen : len = BitVec.ofNat 8 os.length) :
    EmittedAs emitted id os ds (if b then (id :: len :: os, ds) else ([], [])).1
      (if b then (id :: len :: os, ds) else ([], [])).2 := by
  rw [EmittedAs, ← hb, ← hlen]
  cases b
  · exact .inr ⟨Bool.false_ne_true, rfl, rfl⟩
  · exact .inl ⟨rfl, rfl, rfl⟩
end

/-- The test of `EmitLoc` on the registers is R174's on the values they stand for. -/
theorem emitLoc_iff (r : Record) (incl : BitVec 8) : emitLoc r incl = true ↔ Emits r incl := by
  simp only [emitLoc, Emits, inclLoc, inclForceLoc, Bool.and_eq_true, Bool.or_eq_true, bne_iff_ne,
    ne_eq, value_eq_zero_iff, or_assoc]

section
variable (r : Record) (incl cfg : BitVec 8)

theorem emitLocation_emitted : EmittedAs (Emits r incl) 0
    (imageOctets (locImage r (cfg.getLsbD 0)).1) (locImage r (cfg.getLsbD 0)).2
    (emitLocation r incl cfg).1 (emitLocation r incl cfg).2 :=
  emittedAs_ite (emitLoc_iff r incl) rfl

theorem emitFloor_emitted : EmittedAs (incl.getLsbD 1 = true) 4
    (flrPayload r (cfg.getLsbD 0)).1 (flrPayload r (cfg.getLsbD 0)).2
    (emitFloor r incl cfg).1 (emitFloor r incl cfg).2 :=
  emittedAs_ite Iff.rfl (by rw [(flrPayload_payload r (cfg.getLsbD 0)).1]; rfl)

theorem emitUsage_emitted : EmittedAs (incl.getLsbD 2 = true) 6
    (usgPayload r (usgFlag r)) (usgFixNotes r) (emitUsage r incl).1 (emitUsage r incl).2 :=
  emittedAs_ite Iff.rfl rfl

theorem emitBssid_emitted : EmittedAs (incl.getLsbD 3 = true) 7
    (bssPayload r (cfg.getLsbD 1)) (bssEncNotes r) (emitBssid r incl cfg).1
    (emitBssid r incl cfg).2 :=
  emittedAs_ite Iff.rfl (by rw [(bssPayload_payload r (cfg.getLsbD 1)).1])

/-! ## The size and the entries of a record (R217) -/

theorem recordOctets_length : (recordOctets r incl cfg).length =
    3 + (emitLocation r incl cfg).1.length + (emitFloor r incl cfg).1.length
      + (emitUsage r incl).1.length + (emitBssid r incl cfg).1.length := by
  simp only [recordOctets, List.length_append, List.length_cons, List.length_nil]

/-- Every record fits the buffer, whatever the count of its slots: RECENC is never out of bounds. -/
theorem recordOctets_fit : 2 * (recordOctets r incl cfg).length ≤ Config.hcap := by
  have hloc := (emitLocation_emitted r incl cfg).length_le
  have hflr := (emitFloor_emitted r incl cfg).length_le
  have husg := (emitUsage_emitted r incl).length_le
  have hbss := (emitBssid_emitted r incl cfg).length_le
  rw [imageOctets_length] at hloc
  rw [(flrPayload_payload r (cfg.getLsbD 0)).1] at hflr
  have husgOctets : (usgPayload r (usgFlag r)).length ≤ 3 := by
    rw [(usgPayload_payload r).1]; split <;> decide
  rw [(bssPayload_payload r (cfg.getLsbD 1)).1] at hbss
  have hcount := r.bssN.isLt
  rw [recordOctets_length, Config.hcap]
  omega

/-- The entries of a record are those of its subelements, then the advisory ones with the corrected
flag. -/
theorem recordNotes_eq : recordNotes r incl cfg =
    (emitLocation r incl cfg).2 ++ (emitFloor r incl cfg).2 ++ (emitUsage r incl).2
      ++ (emitBssid r incl cfg).2
      ++ advisories r (incl.getLsbD 2) (incl.getLsbD 1) (r.expire ≠ 0) := by
  rw [recordNotes, polNotes_eq, usgFlag_eq, inclUsage, inclFloor]

theorem recordNotes_room : (recordNotes r incl cfg).length ≤ Config.diagCap := by
  have hloc := (emitLocation_emitted r incl cfg).notes_length_le
    (locImage_payload r (cfg.getLsbD 0)).notes_length_le_octets
  have hflr := (emitFloor_emitted r incl cfg).notes_length_le
    (flrPayload_payload r (cfg.getLsbD 0)).notes_length_le_octets
  have husg := (emitUsage_emitted r incl).notes_length_le
    (usgPayload_payload r).notes_length_le_octets
  have hbss := (emitBssid_emitted r incl cfg).notes_length_le
    (bssPayload_payload r (cfg.getLsbD 1)).notes_length_le_octets
  have hadvisory := advisories_length_le r (incl.getLsbD 2) (incl.getLsbD 1) (r.expire ≠ 0)
  have hfit := recordOctets_fit r incl cfg
  rw [recordOctets_length, Config.hcap] at hfit
  simp only [recordNotes_eq, List.length_append, Config.diagCap]
  omega
end

/-! ## What each command does (R218, R220) -/

section
variable (b1 b2 r : BitVec 8) (s : State)

theorem exec_recenc : exec (.recenc b1 b2) s = .next (runCommand s fun t =>
    if 32 ≤ b1.toNat ∨ 4 ≤ b2.toNat then .failed t .invalid else recEnc t b1 b2) := by
  simp only [← inclReserved_iff, ← cfgReserved_iff, ← Bool.or_eq_true]
  rfl

theorem exec_polchk : exec (.polchk r) s = .next (runCommand s fun t =>
    if 32 ≤ r.toNat then .failed t .invalid
    else .done (t.postAll (advisories t.record (r.getLsbD 2) (r.getLsbD 1) (t.record.retExp = 1)))
      (BitVec.ofNat 64 (t.postAll
        (advisories t.record (r.getLsbD 2) (r.getLsbD 1) (t.record.retExp = 1))).diag.length)) := by
  simp only [← inclReserved_iff, ← polNotes_eq]
  rfl

/-- The encoder always completes: the bounds check before the buffer is sized is met. -/
theorem recEnc_done : recEnc s b1 b2 = .done
    { putOctets (zeroBuffer (s.postAll (recordNotes s.record b1 b2))
        (recordOctets s.record b1 b2).length) 0 (recordOctets s.record b1 b2) with
      cur := BitVec.ofNat 32 (recordOctets s.record b1 b2).length }
    (BitVec.ofNat 64 (recordOctets s.record b1 b2).length) :=
  if_neg (Nat.not_lt.2 (recordOctets_fit s.record b1 b2))
end

/-- Settles O58: the reserved bits decide; else the octets and the entries are the four pieces', each
the payload its own codec describes, and they always fit the buffer and the list. -/
theorem recencWritesTheSelectedSubelements : Obligations.RecencWritesTheSelectedSubelements := by
  intro b1 b2 s
  refine ⟨rfl, fun hreserved => ?_, fun hincl hcfg => ?_⟩
  · rw [exec_recenc, runCommand_refused hreserved]
  · have hadmitted : ¬(32 ≤ b1.toNat ∨ 4 ≤ b2.toNat) := by omega
    refine ⟨_, _, _, _, _, _, _, _, _, _, _, _, _, _, _, _, _,
      locImage_payload s.record (b2.getLsbD 0), flrPayload_payload s.record (b2.getLsbD 0),
      usgPayload_payload s.record, bssPayload_payload s.record (b2.getLsbD 1),
      emitLocation_emitted s.record b1 b2, emitFloor_emitted s.record b1 b2,
      emitUsage_emitted s.record b1, emitBssid_emitted s.record b1 b2,
      stored_sized s (recordNotes s.record b1 b2) (recordOctets s.record b1 b2), ?_⟩
    rw [exec_recenc, runCommand_admitted hadmitted, ← recordOctets_length, ← recordNotes_eq]
    exact congrArg _ (runCommand_sized (recordNotes_room s.record b1 b2) (recEnc_done b1 b2 s.start))

/-- Settles O60: the reserved bits decide; else the list, empty at the start of a command, ends as the
advisory entries, so that its length is their number. -/
theorem polchkReportsIncompatibilities : Obligations.PolchkReportsIncompatibilities := by
  intro r s
  refine ⟨rfl, fun hreserved => ?_, fun hsel => ?_⟩
  all_goals rw [exec_polchk]
  · rw [runCommand_refused hreserved]
  · have hroom := (advisories_length_le s.record (r.getLsbD 2) (r.getLsbD 1)
      (s.record.retExp = 1)).trans (by decide : 4 ≤ Config.diagCap)
    rw [runCommand_admitted (Nat.not_le.2 hsel)]
    refine congrArg _ (runCommand_posted hroom ?_)
    rw [State.start_record, start_postAll s hroom]

end Sys2Proof.Machine
end

section
/-! PROOFS. The statements of the system commands (spec/48_system.md R230 to R236): the packets of their
formats, what the observers leave, the register numbers of spec/10_state.md R29 as a table from each
register to its number, and what a write does to every register. -/

namespace Sys2Proof

/-! ## Packets read back, format by format (spec/30_encoding.md R101) -/

theorem readF5_bytes64 (op : Byte) (mk : BitVec 8 → BitVec 64 → Instr) (r : BitVec 8)
    (v : BitVec 64) : readF5 op mk (r :: bytes64 v) = .ok (mk r v) :=
  congrArg (fun x => Except.ok (mk r x)) (be64_bytes64 v)

end Sys2Proof

namespace Sys2Proof.Machine

/-! ## What each command does, by the entry or the register it finds (R230 to R236) -/

section
variable {s : State} {a : BitVec 32} {r : BitVec 8} {v : BitVec 64} {x : Reg}

theorem exec_nop : exec .nop s = .next (s.observed .ok 0) := rfl

theorem exec_rrd_register (h : regOf r = some x) :
    exec (.rrd r) s = .next (s.observed .ok (readReg s x)) := by
  have meaning : exec (.rrd r) s = execRrd r s := rfl
  rw [meaning, execRrd, h]
  rfl

theorem exec_rrd_none (h : regOf r = none) : exec (.rrd r) s = .next (s.observed .invalid 0) := by
  have meaning : exec (.rrd r) s = execRrd r s := rfl
  rw [meaning, execRrd, h]
  rfl

theorem exec_unkrd_entry {e : UnkEntry} (h : s.record.unk[a.toNat]? = some e) :
    exec (.unkrd a) s = .next (s.observed .ok (packSub e.id e.len e.pos)) := by
  have meaning : exec (.unkrd a) s = execUnkrd a s := rfl
  rw [meaning, execUnkrd, h]
  rfl

theorem exec_unkrd_none (h : s.record.unk[a.toNat]? = none) :
    exec (.unkrd a) s = .next (s.observed .bounds 0) := by
  have meaning : exec (.unkrd a) s = execUnkrd a s := rfl
  rw [meaning, execUnkrd, h]
  rfl

theorem exec_dgrd_entry {e : DiagEntry} (h : s.diag[a.toNat]? = some e) :
    exec (.dgrd a) s = .next (s.observed .ok (packEntry e)) := by
  have meaning : exec (.dgrd a) s = execDgrd a s := rfl
  rw [meaning, execDgrd, h]
  rfl

theorem exec_dgrd_none (h : s.diag[a.toNat]? = none) :
    exec (.dgrd a) s = .next (s.observed .bounds 0) := by
  have meaning : exec (.dgrd a) s = execDgrd a s := rfl
  rw [meaning, execDgrd, h]
  rfl

theorem exec_rclr :
    exec .rclr s = .next (State.answered { s with record := State.reset.record } [] 0) := by
  have meaning : exec .rclr s = execRclr s := rfl
  rw [meaning, execRclr, runCommand_done rfl]
  rfl
end

/-! ## The observers (R230) -/

/-- An observer puts a response on the port and touches nothing else (R100). -/
theorem exec_observer {i : Instr} (s : State) (h : Observes i = true) :
    ∃ p, exec i s = .next { s with resp := p } := by
  cases i with
  | nop => exact ⟨_, exec_nop⟩
  | hxrd a => rw [exec_hxrd]; split <;> exact ⟨_, rfl⟩
  | rrd r =>
    cases hr : regOf r with
    | none => exact ⟨_, exec_rrd_none hr⟩
    | some x => exact ⟨_, exec_rrd_register hr⟩
  | unkrd a =>
    cases he : s.record.unk[a.toNat]? with
    | none => exact ⟨_, exec_unkrd_none he⟩
    | some e => exact ⟨_, exec_unkrd_entry he⟩
  | dgrd a =>
    cases he : s.diag[a.toNat]? with
    | none => exact ⟨_, exec_dgrd_none he⟩
    | some e => exact ⟨_, exec_dgrd_entry he⟩
  | macfmt r =>
    have meaning : exec (.macfmt r) s = execMacfmt r s := rfl
    rw [meaning, execMacfmt]
    split <;> exact ⟨_, rfl⟩
  | _ => cases h

/-! ## The register numbers (spec/10_state.md R29) -/

/-- The number of a register, as the table of R29 has it. -/
def Reg.number : Reg → BitVec 8
  | .geoP => 0x00 | .lat => 0x01 | .lon => 0x02 | .alt => 0x03 | .latU => 0x04 | .lonU => 0x05
  | .altU => 0x06 | .altType => 0x07 | .datum => 0x08 | .regLoc => 0x09 | .dse => 0x0A
  | .depSta => 0x0B | .ver => 0x0C
  | .flrP => 0x10 | .floor => 0x11 | .height => 0x12 | .heightU => 0x13 | .move => 0x14
  | .usgP => 0x20 | .retrans => 0x21 | .retExp => 0x22 | .locPol => 0x23 | .expire => 0x24
  | .bssP => 0x30 | .bssN => 0x31 | .bssInd => 0x32
  | .slotAddr i => BitVec.ofNat 8 (0x40 + i)
  | .slotValid i => BitVec.ofNat 8 (0x80 + i)
  | .status => 0xF0 | .cur => 0xF1 | .hlen => 0xF2 | .dgn => 0xF3 | .unkN => 0xF4 | .hcap => 0xF5
  | .dgovf => 0xF6

/-- The registers outside the slots, in the order of their numbers. -/
def Reg.single : List Reg :=
  [.geoP, .lat, .lon, .alt, .latU, .lonU, .altU, .altType, .datum, .regLoc, .dse, .depSta, .ver,
   .flrP, .floor, .height, .heightU, .move, .usgP, .retrans, .retExp, .locPol, .expire,
   .bssP, .bssN, .bssInd, .status, .cur, .hlen, .dgn, .unkN, .hcap, .dgovf]

/-- A register is one of the single ones or a part of a slot. -/
theorem Reg.single_or_slot (x : Reg) :
    x ∈ Reg.single ∨ (∃ i, x = .slotAddr i) ∨ ∃ i, x = .slotValid i := by
  cases x with
  | slotAddr i => exact .inr (.inl ⟨i, rfl⟩)
  | slotValid i => exact .inr (.inr ⟨i, rfl⟩)
  | _ => exact .inl (by decide)

theorem regOf_number (x : Reg) : regOf x.number = some x := by
  cases x with
  | slotAddr i => revert i; decide
  | slotValid i => revert i; decide
  | _ => rfl

theorem Reg.slotAddr_number_toNat (i : Fin Config.bssCap) :
    (Reg.slotAddr i).number.toNat = 0x40 + i := by
  revert i; decide

theorem Reg.slotValid_number_toNat (i : Fin Config.bssCap) :
    (Reg.slotValid i).number.toNat = 0x80 + i := by
  revert i; decide

/-- A number names a register exactly when it is that register's number: no register has two numbers
and no number names two registers. -/
theorem regOf_eq_some_iff {r : BitVec 8} {x : Reg} : regOf r = some x ↔ x.number = r := by
  refine ⟨fun h => ?_, fun h => h ▸ regOf_number x⟩
  unfold regOf at h
  split at h
  case h_34 =>
    split at h
    · next hslot =>
      cases h
      exact BitVec.eq_of_toNat_eq
        ((Reg.slotAddr_number_toNat _).trans (Nat.add_sub_of_le hslot.1))
    · split at h
      · next hslot =>
        cases h
        exact BitVec.eq_of_toNat_eq
          ((Reg.slotValid_number_toNat _).trans (Nat.add_sub_of_le hslot.1))
      · cases h
  all_goals
    cases h
    exact BitVec.eq_of_toNat_eq (Eq.symm ‹_›)

theorem regOf_eq_none_iff {r : BitVec 8} : regOf r = none ↔ ∀ x : Reg, x.number ≠ r := by
  simp only [Option.eq_none_iff_forall_ne_some, ne_eq, regOf_eq_some_iff]

theorem regOf_slotAddr {r : BitVec 8} (hlo : 0x40 ≤ r.toNat) (hhi : r.toNat ≤ 0x69) :
    ∃ i : Fin Config.bssCap, (i : Nat) = r.toNat - 0x40 ∧ regOf r = some (.slotAddr i) := by
  refine ⟨⟨r.toNat - 0x40, by rw [Config.bssCap]; omega⟩, rfl,
    regOf_eq_some_iff.2 (BitVec.eq_of_toNat_eq ?_)⟩
  exact (Reg.slotAddr_number_toNat _).trans (Nat.add_sub_of_le hlo)

theorem regOf_slotValid {r : BitVec 8} (hlo : 0x80 ≤ r.toNat) (hhi : r.toNat ≤ 0xA9) :
    ∃ i : Fin Config.bssCap, (i : Nat) = r.toNat - 0x80 ∧ regOf r = some (.slotValid i) := by
  refine ⟨⟨r.toNat - 0x80, by rw [Config.bssCap]; omega⟩, rfl,
    regOf_eq_some_iff.2 (BitVec.eq_of_toNat_eq ?_)⟩
  exact (Reg.slotValid_number_toNat _).trans (Nat.add_sub_of_le hlo)

/-- RRD's table lists the single registers under their numbers. -/
theorem registerTable_eq (s : State) :
    registerTable s = Reg.single.map fun x => (x.number, readReg s x) := rfl

/-! ## The writable registers (R233) -/

/-- The width of a register that RWR may write, 64 for a physical one; none for a read-only one. -/
def Reg.width : Reg → Option Nat
  | .lat | .lon | .alt | .latU | .lonU | .altU | .floor | .height | .heightU => some 64
  | .geoP | .regLoc | .dse | .depSta | .flrP | .usgP | .retrans | .retExp | .locPol | .bssP
  | .slotValid _ => some 1
  | .ver | .move => some 2
  | .datum => some 3
  | .altType => some 4
  | .bssN => some 6
  | .bssInd => some 8
  | .expire => some 16
  | .cur => some 32
  | .slotAddr _ => some 48
  | .status | .hlen | .dgn | .unkN | .hcap | .dgovf => none

/-- The registers that every non-observer command sets (spec/60_exceptions.md R250). -/
def Reg.report : List Reg := [.status, .dgn, .dgovf]

theorem Reg.not_mem_report {x : Reg} {w : Nat} (h : x.width = some w) : x ∉ Reg.report := by
  have readOnly : ∀ y ∈ Reg.report, y.width = none := by decide
  exact fun hx => nomatch h.symm.trans (readOnly x hx)

theorem writableWidth_number (x : Reg) : writableWidth x.number = x.width := by
  cases x with
  | slotAddr i => revert i; decide
  | slotValid i => revert i; decide
  | _ => rfl

/-- A number without a register is not writable: every number the table of widths lists is that of a
single register, and its ranges are those of the slots. -/
theorem writableWidth_none {r : BitVec 8} (h : regOf r = none) : writableWidth r = none := by
  have single : ∀ ns ⊆ Reg.single.map fun x => x.number.toNat, r.toNat ∉ ns := by
    intro ns hsub hr
    obtain ⟨x, -, hx⟩ := List.mem_map.1 (hsub hr)
    exact regOf_eq_none_iff.1 h x (BitVec.eq_of_toNat_eq hx)
  have other : ∀ n ∈ Reg.single.map (fun x => x.number.toNat), r.toNat ≠ n :=
    fun n hn e => single _ (List.Subset.refl _) (e ▸ hn)
  have addr : ¬(0x40 ≤ r.toNat ∧ r.toNat ≤ 0x69) := by
    rintro ⟨hlo, hhi⟩
    obtain ⟨i, -, hi⟩ := regOf_slotAddr hlo hhi
    exact nomatch h.symm.trans hi
  have valid : ¬(0x80 ≤ r.toNat ∧ r.toNat ≤ 0xA9) := by
    rintro ⟨hlo, hhi⟩
    obtain ⟨i, -, hi⟩ := regOf_slotValid hlo hhi
    exact nomatch h.symm.trans hi
  rw [writableWidth, if_neg (single _ (by decide)), if_neg (single _ (by decide)),
    if_neg (single _ (by decide)), if_neg (other _ (by decide)), if_neg (other _ (by decide)),
    if_neg (other _ (by decide)), if_neg (other _ (by decide)), if_neg (other _ (by decide)),
    if_neg (other _ (by decide)), if_neg addr, if_neg valid]

theorem writableWidth_eq (r : BitVec 8) : writableWidth r = (regOf r).bind Reg.width := by
  cases h : regOf r with
  | none => exact writableWidth_none h
  | some x => rw [← regOf_eq_some_iff.1 h, writableWidth_number]; rfl

/-! ## What a write does to every register (R233) -/

theorem Record.slot_setSlot_self (q : Record) {i : Nat} (h : i < Config.bssCap) (x : Slot) :
    (q.setSlot i x).slot i = x := by rw [Record.slot_setSlot, if_pos ⟨rfl, h⟩]

theorem Record.slot_setSlot_other (q : Record) {i j : Nat} (h : i ≠ j) (x : Slot) :
    (q.setSlot i x).slot j = q.slot j := by rw [Record.slot_setSlot, if_neg (mt And.left h)]

/-- A write to one part of a slot, as RWR makes it, leaves the other part of every slot. -/
theorem Record.slot_setSlot_addr (q : Record) (i j : Nat) (a : BitVec 48) :
    ((q.setSlot i { q.slot i with addr := a }).slot j).valid = (q.slot j).valid := by
  rw [Record.slot_setSlot]
  split
  · next e => rw [e.1]
  · rfl

theorem Record.slot_setSlot_valid (q : Record) (i j : Nat) (b : BitVec 1) :
    ((q.setSlot i { q.slot i with valid := b }).slot j).addr = (q.slot j).addr := by
  rw [Record.slot_setSlot]
  split
  · next e => rw [e.1]
  · rfl

section
variable {s t : State} {v : Word64} {x y : Reg}

theorem writeReg_readOnly (h : x.width = none) : writeReg s v x = none := by
  cases x with
  | status | hlen | dgn | unkN | hcap | dgovf => rfl
  | _ => cases h

theorem writeReg_bssN_refused (h : 42 < v.toNat) : writeReg s v .bssN = none := if_pos h

/-- A write touches the record, the unknown list aside, and the cursor. -/
theorem writeReg_accepted {w : Nat} (h : x.width = some w) (hn : x = .bssN → v.toNat ≤ 42) :
    ∃ q c, writeReg s v x = some { s with record := q, cur := c } ∧ q.unk = s.record.unk := by
  cases x with
  | bssN => exact ⟨_, _, if_neg (Nat.not_lt.2 (hn rfl)), rfl⟩
  | status | hlen | dgn | unkN | hcap | dgovf => cases h
  | _ => exact ⟨_, _, rfl, rfl⟩

theorem setWidth_setWidth_eq_ofNat (v : Word64) (w : Nat) :
    (v.setWidth w).setWidth 64 = BitVec.ofNat 64 (v.toNat % 2 ^ w) := by
  apply BitVec.eq_of_toNat_eq
  simp only [BitVec.toNat_setWidth, BitVec.toNat_ofNat]

/-- The written register reads as the value cut to its width. -/
theorem readReg_writeReg_self {w : Nat} (hw : x.width = some w) (h : writeReg s v x = some t) :
    readReg t x = BitVec.ofNat 64 (v.toNat % 2 ^ w) := by
  rw [← setWidth_setWidth_eq_ofNat]
  cases x with
  | bssN =>
    cases hw
    simp only [writeReg] at h
    split at h
    · cases h
    · cases h; rfl
  | slotAddr i =>
    cases hw; cases h
    simp only [readReg, Record.slot_setSlot_self _ i.isLt]
  | slotValid i =>
    cases hw; cases h
    simp only [readReg, Record.slot_setSlot_self _ i.isLt]
  | lat | lon | alt | latU | lonU | altU | floor | height | heightU =>
    cases hw; cases h
    simp only [BitVec.setWidth_eq]
    rfl
  | status | hlen | dgn | unkN | hcap | dgovf => cases hw
  | _ => cases hw; cases h; rfl

/-- Every other register reads as before. -/
theorem readReg_writeReg_other (hy : y ≠ x) (h : writeReg s v x = some t) :
    readReg t y = readReg s y := by
  cases x with
  | bssN =>
    simp only [writeReg] at h
    split at h
    · cases h
    · cases h
      cases y <;> first | rfl | contradiction
  | slotAddr i =>
    cases h
    cases y with
    | slotAddr j =>
      have hij : (i : Nat) ≠ j := fun e => hy (by rw [Fin.ext e])
      simp only [readReg, Record.slot_setSlot_other _ hij]
    | slotValid j =>
      simp only [readReg, Record.slot_setSlot_addr]
    | _ => rfl
  | slotValid i =>
    cases h
    cases y with
    | slotAddr j =>
      simp only [readReg, Record.slot_setSlot_valid]
    | slotValid j =>
      have hij : (i : Nat) ≠ j := fun e => hy (by rw [Fin.ext e])
      simp only [readReg, Record.slot_setSlot_other _ hij]
    | _ => rfl
  | status | hlen | dgn | unkN | hcap | dgovf => cases h
  | _ =>
    cases h
    cases y <;> first | rfl | contradiction

/-! ## How RWR ends (R233) -/

/-- What RWR writes does not depend on what the start of a command sets. -/
theorem writeReg_start : writeReg s.start v x = (writeReg s v x).map State.start := by
  cases x with
  | bssN => simp only [writeReg]; split <;> rfl
  | _ => rfl

/-- Every register that no end of a command sets reads the same after one. -/
theorem readReg_answered {ds : List DiagEntry} {z : Word64} (h : x ∉ Reg.report) :
    readReg (s.answered ds z) x = readReg s x := by
  cases x with
  | status | dgn | dgovf => exact absurd (by decide) h
  | _ => rfl

variable {r : BitVec 8}

theorem exec_rwr_refused (h : (regOf r).bind (writeReg s v) = none) :
    exec (.rwr r v) s = .next (s.rejected .invalid []) := by
  refine congrArg _ (runCommand_invalid ?_)
  have hstart : (regOf r).bind (writeReg s.start v) = none := by
    cases hr : regOf r with
    | none => rfl
    | some x =>
      rw [hr, Option.bind_some] at h
      rw [Option.bind_some, writeReg_start, h, Option.map_none]
  rw [hstart]

theorem exec_rwr_written (hr : regOf r = some x) (h : writeReg s v x = some t) :
    exec (.rwr r v) s = .next (t.answered [] 0) := by
  have hstart : (regOf r).bind (writeReg s.start v) = some t.start := by
    rw [hr, Option.bind_some, writeReg_start, h, Option.map_some]
  have meaning : exec (.rwr r v) s = execRwr r v s := rfl
  rw [meaning, execRwr, runCommand, hstart]
  rfl
end

/-! ## The diagnostics in registers -/

/-- The packed value of an entry is the number of its three parts (R236). -/
theorem packEntry_eq (e : DiagEntry) : packEntry e = BitVec.ofNat 64
    (e.kind.code.toNat * 2 ^ 24 + e.cause.code.toNat * 2 ^ 16 + e.arg.toNat) := by
  have hkind := e.kind.code.isLt
  have hcause := e.cause.code.isLt
  have harg := e.arg.isLt
  apply BitVec.eq_of_toNat_eq
  rw [packEntry, toNat_append_eq, toNat_append_eq, BitVec.toNat_setWidth, BitVec.toNat_ofNat,
    Nat.mod_eq_of_lt (by omega), Nat.mod_eq_of_lt (by omega)]
  omega

/-! ## The statements of the family (R230 to R236) -/

/-- Settles O12: every observer ends in the old state with a response. -/
theorem observersChangeNothing : Obligations.ObserversChangeNothing := by
  refine ⟨⟨rfl, fun s => exec_nop⟩, fun i s t hobs hexec => ?_⟩
  obtain ⟨p, hp⟩ := exec_observer s hobs
  cases hp.symm.trans hexec
  rfl

/-- Settles O20: a number of the table or of a slot names its register; a number outside both is no
register's. -/
theorem rrdReadsTheNumberedRegister : Obligations.RrdReadsTheNumberedRegister := by
  intro r s
  refine ⟨rfl, fun v hv => ?_, fun hlo hhi => ?_, fun hlo hhi => ?_, fun htable haddr hvalid => ?_⟩
  · rw [registerTable_eq] at hv
    obtain ⟨x, -, hx⟩ := List.mem_map.1 hv
    cases hx
    exact exec_rrd_register (regOf_number x)
  · obtain ⟨i, hi, hr⟩ := regOf_slotAddr hlo hhi
    rw [exec_rrd_register hr, readReg, hi]
  · obtain ⟨i, hi, hr⟩ := regOf_slotValid hlo hhi
    rw [exec_rrd_register hr, readReg, hi]
  · refine exec_rrd_none (regOf_eq_none_iff.2 fun x hx => ?_)
    rcases x.single_or_slot with hsingle | ⟨i, rfl⟩ | ⟨i, rfl⟩
    · exact htable (x.number, readReg s x)
        (registerTable_eq s ▸ List.mem_map_of_mem hsingle) hx
    · have hi : (i : Nat) < 42 := i.isLt
      rw [← hx, Reg.slotAddr_number_toNat] at haddr
      omega
    · have hi : (i : Nat) < 42 := i.isLt
      rw [← hx, Reg.slotValid_number_toNat] at hvalid
      omega

/-- Settles O21: the number finds the register, whose width decides whether the write is refused; an
accepted write changes what that register reads and nothing else. -/
theorem rwrWritesTheNumberedRegister : Obligations.RwrWritesTheNumberedRegister := by
  intro r v s
  refine ⟨readF5_bytes64 0x09 .rwr r v, fun hrefused => exec_rwr_refused ?_, fun w hwidth hn => ?_⟩
  · rcases hrefused with hwidth | ⟨rfl, hbig⟩
    · rw [writableWidth_eq] at hwidth
      cases hr : regOf r with
      | none => rfl
      | some x => exact writeReg_readOnly (by rwa [hr] at hwidth)
    · exact writeReg_bssN_refused hbig
  · rw [writableWidth_eq, Option.bind_eq_some_iff] at hwidth
    obtain ⟨x, hr, hw⟩ := hwidth
    obtain ⟨q, c, hwrite, hunk⟩ :=
      writeReg_accepted (s := s) (v := v) hw (by rintro rfl; exact hn (regOf_eq_some_iff.1 hr).symm)
    refine ⟨q, c, exec_rwr_written hr hwrite, hunk, fun t ht => ?_⟩
    cases (exec_rwr_written hr hwrite).symm.trans ht
    refine ⟨?_, fun r' hne hstatus => ?_⟩
    · rw [exec_rrd_register hr, readReg_answered (Reg.not_mem_report hw),
        readReg_writeReg_self hw hwrite]
    · cases hr' : regOf r' with
      | none => exact ⟨_, _, exec_rrd_none hr', exec_rrd_none hr'⟩
      | some y =>
        have hnumber := regOf_eq_some_iff.1 hr'
        have hyx : y ≠ x := by
          rintro rfl
          exact hne (hnumber.symm.trans (regOf_eq_some_iff.1 hr))
        have hy : y ∉ Reg.report := fun hmem =>
          hstatus (hnumber ▸ List.mem_map_of_mem (f := Reg.number) hmem)
        refine ⟨_, _, exec_rrd_register hr', ?_⟩
        rw [exec_rrd_register hr', readReg_answered hy, readReg_writeReg_other hyx hwrite]

/-- Settles O22: the defaults of R35 are the record of reset. -/
theorem rclrClearsTheRecordOnly : Obligations.RclrClearsTheRecordOnly :=
  ⟨rfl, fun _ => exec_rclr⟩

/-- Settles O23: the list has an entry exactly below its length. -/
theorem unkrdReadsAnEntry : Obligations.UnkrdReadsAnEntry := by
  intro a s
  refine ⟨readF1_bytes32 0x0B .unkrd a, fun hout => ?_, fun e he => ?_⟩
  · exact exec_unkrd_none (List.getElem?_eq_none hout)
  · rw [exec_unkrd_entry he, packSub_eq]

/-- Settles O24: the list has an entry exactly below its length, and reading it removes nothing. -/
theorem dgrdReadsAnEntry : Obligations.DgrdReadsAnEntry := by
  intro a s
  refine ⟨readF1_bytes32 0x0C .dgrd a, fun hout => ?_, fun e he => ?_⟩
  · exact exec_dgrd_none (List.getElem?_eq_none hout)
  · rw [exec_dgrd_entry he, packEntry_eq]

end Sys2Proof.Machine
end

section
/-! PROOFS. The statements of the packets and of the step (spec/30_encoding.md R100 to R104): each format
reads exactly the packets the encoder writes, the operation map is a table of formats, and a step does
with a packet what the decoder says of it. -/

namespace Sys2Proof

/-! ## Operands written back (R100) -/

/-- The lowest byte of an operand, and a field above it. -/
theorem extractLsb'_append_low {n : Nat} (x : BitVec n) (y : Byte) :
    (x ++ y).extractLsb' 0 8 = y := by
  apply BitVec.eq_of_toNat_eq
  rw [BitVec.extractLsb'_toNat, Machine.toNat_append_eq, Nat.shiftRight_zero, Nat.add_mul_mod_self_left,
    Nat.mod_eq_of_lt y.isLt]

theorem extractLsb'_append_high {n k : Nat} (x : BitVec n) (y : Byte) :
    (x ++ y).extractLsb' (k + 8) 8 = x.extractLsb' k 8 := by
  apply BitVec.eq_of_toNat_eq
  have hy : y.toNat / 2 ^ 8 = 0 := Nat.div_eq_of_lt y.isLt
  simp only [BitVec.extractLsb'_toNat, Machine.toNat_append_eq, Nat.shiftRight_eq_div_pow]
  rw [Nat.add_comm k, pow_add, ← Nat.div_div_eq_div_mul, Nat.add_mul_div_left _ _ (by decide), hy,
    Nat.zero_add]

theorem extractLsb'_byte (y : Byte) : y.extractLsb' 0 8 = y := by
  apply BitVec.eq_of_toNat_eq
  rw [BitVec.extractLsb'_toNat, Nat.shiftRight_zero, Nat.mod_eq_of_lt y.isLt]

theorem bytes16_be16 (b1 b0 : Byte) : bytes16 (be16 b1 b0) = [b1, b0] := by
  simp only [bytes16, be16, extractLsb'_append_low, extractLsb'_append_high (k := 0),
    extractLsb'_byte]

theorem bytes32_be32 (b3 b2 b1 b0 : Byte) : bytes32 (be32 b3 b2 b1 b0) = [b3, b2, b1, b0] := by
  simp only [bytes32, be32, extractLsb'_append_low, extractLsb'_append_high (k := 0),
    extractLsb'_append_high (k := 8), extractLsb'_append_high (k := 16), extractLsb'_byte]

theorem bytes64_be64 (b7 b6 b5 b4 b3 b2 b1 b0 : Byte) :
    bytes64 (be64 b7 b6 b5 b4 b3 b2 b1 b0) = [b7, b6, b5, b4, b3, b2, b1, b0] := by
  simp only [bytes64, be64, extractLsb'_append_low, extractLsb'_append_high (k := 0),
    extractLsb'_append_high (k := 8), extractLsb'_append_high (k := 16),
    extractLsb'_append_high (k := 24), extractLsb'_append_high (k := 32),
    extractLsb'_append_high (k := 40), extractLsb'_append_high (k := 48), extractLsb'_byte]

/-! ## What each format reads (R101) -/

/-- `r` is what a format of `len` bytes reads behind the operation code `op`: the well-formed instruction
that is encoded so where the packet has that length, and else the refusal of the length. -/
def ReadsFormat (op : Byte) (rest : List Byte) (len : Nat) (r : Except DecodeError Instr) : Prop :=
  (∃ i, r = .ok i ∧ encode i = op :: rest ∧ i.WellFormed = true ∧ rest.length + 1 = len) ∨
  (r = .error (.badLength op) ∧ rest.length + 1 ≠ len)

section
variable {op : Byte} {rest : List Byte}

theorem readsFormat_F0 {i : Instr} (he : encode i = [op]) (hw : i.WellFormed = true) :
    ReadsFormat op rest 1 (readF0 op i rest) := by
  unfold readF0
  split
  · exact .inl ⟨_, rfl, he, hw, rfl⟩
  · next h => exact .inr ⟨rfl, by simpa using h⟩

theorem readsFormat_F1 {mk : BitVec 32 → Instr} (he : ∀ a, encode (mk a) = op :: bytes32 a)
    (hw : ∀ a, (mk a).WellFormed = true) : ReadsFormat op rest 5 (readF1 op mk rest) := by
  unfold readF1
  split
  · exact .inl ⟨_, rfl, by rw [he, bytes32_be32], hw _, rfl⟩
  · next h =>
    refine .inr ⟨rfl, fun hlen => ?_⟩
    match rest with
    | [a3, a2, a1, a0] => exact h a3 a2 a1 a0 rfl

theorem readsFormat_F2 {mk : BitVec 32 → BitVec 8 → Instr}
    (he : ∀ a b, encode (mk a b) = op :: (bytes32 a ++ [b]))
    (hw : ∀ a b, (mk a b).WellFormed = true) : ReadsFormat op rest 6 (readF2 op mk rest) := by
  unfold readF2
  split
  · exact .inl ⟨_, rfl, by rw [he, bytes32_be32]; rfl, hw _ _, rfl⟩
  · next h =>
    refine .inr ⟨rfl, fun hlen => ?_⟩
    match rest with
    | [a3, a2, a1, a0, b] => exact h a3 a2 a1 a0 b rfl

theorem readsFormat_F3 {mk : BitVec 32 → BitVec 8 → BitVec 64 → Instr}
    (he : ∀ a b v, encode (mk a b v) = op :: (bytes32 a ++ b :: bytes64 v))
    (hw : ∀ a b v, (mk a b v).WellFormed = true) : ReadsFormat op rest 14 (readF3 op mk rest) := by
  unfold readF3
  split
  · exact .inl ⟨_, rfl, by rw [he, bytes32_be32, bytes64_be64]; rfl, hw _ _ _, rfl⟩
  · next h =>
    refine .inr ⟨rfl, fun hlen => ?_⟩
    match rest with
    | [a3, a2, a1, a0, b, v7, v6, v5, v4, v3, v2, v1, v0] =>
      exact h a3 a2 a1 a0 b v7 v6 v5 v4 v3 v2 v1 v0 rfl

theorem readsFormat_F4 {mk : BitVec 8 → Instr} (he : ∀ r, encode (mk r) = [op, r])
    (hw : ∀ r, (mk r).WellFormed = true) : ReadsFormat op rest 2 (readF4 op mk rest) := by
  unfold readF4
  split
  · exact .inl ⟨_, rfl, he _, hw _, rfl⟩
  · next h =>
    refine .inr ⟨rfl, fun hlen => ?_⟩
    match rest with
    | [r] => exact h r rfl

theorem readsFormat_F5 {mk : BitVec 8 → BitVec 64 → Instr}
    (he : ∀ r v, encode (mk r v) = op :: r :: bytes64 v)
    (hw : ∀ r v, (mk r v).WellFormed = true) : ReadsFormat op rest 10 (readF5 op mk rest) := by
  unfold readF5
  split
  · exact .inl ⟨_, rfl, by rw [he, bytes64_be64], hw _ _, rfl⟩
  · next h =>
    refine .inr ⟨rfl, fun hlen => ?_⟩
    match rest with
    | [r, v7, v6, v5, v4, v3, v2, v1, v0] => exact h r v7 v6 v5 v4 v3 v2 v1 v0 rfl

theorem readsFormat_F6 {mk : BitVec 8 → BitVec 8 → BitVec 64 → Instr}
    (he : ∀ w f v, encode (mk w f v) = op :: w :: f :: bytes64 v)
    (hw : ∀ w f v, (mk w f v).WellFormed = true) : ReadsFormat op rest 11 (readF6 op mk rest) := by
  unfold readF6
  split
  · exact .inl ⟨_, rfl, by rw [he, bytes64_be64], hw _ _ _, rfl⟩
  · next h =>
    refine .inr ⟨rfl, fun hlen => ?_⟩
    match rest with
    | [w, f, v7, v6, v5, v4, v3, v2, v1, v0] => exact h w f v7 v6 v5 v4 v3 v2 v1 v0 rfl

theorem readsFormat_F7 {mk : BitVec 8 → BitVec 8 → BitVec 8 → BitVec 64 → Instr}
    (he : ∀ m x c v, encode (mk m x c v) = op :: m :: x :: c :: bytes64 v)
    (hw : ∀ m x c v, (mk m x c v).WellFormed = true) :
    ReadsFormat op rest 12 (readF7 op mk rest) := by
  unfold readF7
  split
  · exact .inl ⟨_, rfl, by rw [he, bytes64_be64], hw _ _ _ _, rfl⟩
  · next h =>
    refine .inr ⟨rfl, fun hlen => ?_⟩
    match rest with
    | [m, x, c, v7, v6, v5, v4, v3, v2, v1, v0] => exact h m x c v7 v6 v5 v4 v3 v2 v1 v0 rfl

theorem readsFormat_F8 {mk : BitVec 8 → BitVec 8 → Instr} (he : ∀ b1 b2, encode (mk b1 b2) = [op, b1, b2])
    (hw : ∀ b1 b2, (mk b1 b2).WellFormed = true) : ReadsFormat op rest 3 (readF8 op mk rest) := by
  unfold readF8
  split
  · exact .inl ⟨_, rfl, he _ _, hw _ _, rfl⟩
  · next h =>
    refine .inr ⟨rfl, fun hlen => ?_⟩
    match rest with
    | [b1, b2] => exact h b1 b2 rfl

/-- The length of format F9 is that of its own count. -/
theorem readsFormat_F9 {mk : BitVec 8 → List Byte → Instr}
    (he : ∀ r text, encode (mk r text) = op :: bytesF9 r text)
    (hw : ∀ r text, (mk r text).WellFormed = textFits text) :
    ReadsFormat op rest (4 + (be16 (rest.getD 1 0) (rest.getD 2 0)).toNat) (readF9 op mk rest) := by
  unfold readF9
  split
  · next r n1 n0 text =>
    have hcount : be16 ((r :: n1 :: n0 :: text).getD 1 0) ((r :: n1 :: n0 :: text).getD 2 0) =
      be16 n1 n0 := rfl
    rw [hcount]
    split
    · next hlen =>
      have htext : textFits text = true := decide_eq_true (hlen ▸ (be16 n1 n0).isLt)
      refine .inl ⟨_, rfl, ?_, (hw _ _).trans htext, by simp only [List.length_cons]; omega⟩
      rw [he, bytesF9, hlen, BitVec.ofNat_toNat, BitVec.setWidth_eq, bytes16_be16]
      rfl
    · exact .inr ⟨rfl, by simp only [List.length_cons]; omega⟩
  · next h =>
    refine .inr ⟨rfl, fun hlen => ?_⟩
    match rest with
    | [] | [_] | [_, _] => simp only [List.length_cons, List.length_nil] at hlen; omega
    | r :: n1 :: n0 :: text => exact h r n1 n0 text rfl
end

/-! ## The operation map (R102) -/

/-- The operation codes of the map, one by one. -/
def assignedCodes : List Byte :=
  [0x00, 0x01, 0x02, 0x03, 0x04, 0x05, 0x08, 0x09, 0x0A, 0x0B, 0x0C, 0x10, 0x11, 0x12, 0x13, 0x14,
   0x15, 0x20, 0x21, 0x22, 0x23, 0x30, 0x31, 0x40, 0x41, 0x42, 0x43, 0x44, 0x45, 0x46, 0x47, 0x48,
   0x49, 0x50, 0x51, 0x52]

theorem Machine.Assigned.mem_assignedCodes {op : Byte} (h : Machine.Assigned op) :
    op ∈ assignedCodes := by
  simp only [assignedCodes, List.mem_cons, List.not_mem_nil, or_false, ← BitVec.toNat_inj,
    BitVec.ofNat_eq_ofNat, BitVec.toNat_ofNat]
  rcases h with h | ⟨h, h'⟩ | ⟨h, h'⟩ | ⟨h, h'⟩ | ⟨h, h'⟩ | ⟨h, h'⟩ | ⟨h, h'⟩ <;> omega

/-- An assigned operation code is read in its format, whose length `packetLength` gives. -/
theorem decode_assigned {op : Byte} (rest : List Byte) (h : Machine.Assigned op) :
    ReadsFormat op rest (packetLength op.toNat (be16 (rest.getD 1 0) (rest.getD 2 0)).toNat)
      (decode (op :: rest)) := by
  have hop := h.mem_assignedCodes
  simp only [assignedCodes, List.mem_cons, List.not_mem_nil, or_false] at hop
  rcases hop with rfl | rfl | rfl | rfl | rfl | rfl | rfl | rfl | rfl | rfl | rfl | rfl | rfl | rfl |
    rfl | rfl | rfl | rfl | rfl | rfl | rfl | rfl | rfl | rfl | rfl | rfl | rfl | rfl | rfl | rfl |
    rfl | rfl | rfl | rfl | rfl | rfl
  · exact readsFormat_F0 (i := .nop) rfl rfl
  · exact readsFormat_F0 (i := .reset) rfl rfl
  · exact readsFormat_F1 (mk := .bufz) (fun _ => rfl) (fun _ => rfl)
  · exact readsFormat_F9 (mk := .ldhex) (fun _ _ => rfl) (fun _ _ => rfl)
  · exact readsFormat_F1 (mk := .hxrd) (fun _ => rfl) (fun _ => rfl)
  · exact readsFormat_F2 (mk := .hxwr) (fun _ _ => rfl) (fun _ _ => rfl)
  · exact readsFormat_F4 (mk := .rrd) (fun _ => rfl) (fun _ => rfl)
  · exact readsFormat_F5 (mk := .rwr) (fun _ _ => rfl) (fun _ _ => rfl)
  · exact readsFormat_F0 (i := .rclr) rfl rfl
  · exact readsFormat_F1 (mk := .unkrd) (fun _ => rfl) (fun _ => rfl)
  · exact readsFormat_F1 (mk := .dgrd) (fun _ => rfl) (fun _ => rfl)
  · exact readsFormat_F2 (mk := .rdbits) (fun _ _ => rfl) (fun _ _ => rfl)
  · exact readsFormat_F3 (mk := .wrbits) (fun _ _ _ => rfl) (fun _ _ _ => rfl)
  · exact readsFormat_F1 (mk := .rdoct) (fun _ => rfl) (fun _ => rfl)
  · exact readsFormat_F2 (mk := .wroct) (fun _ _ => rfl) (fun _ _ => rfl)
  · exact readsFormat_F2 (mk := .rdmoi) (fun _ _ => rfl) (fun _ _ => rfl)
  · exact readsFormat_F3 (mk := .wrmoi) (fun _ _ _ => rfl) (fun _ _ _ => rfl)
  · exact readsFormat_F6 (mk := .fxenc) (fun _ _ _ => rfl) (fun _ _ _ => rfl)
  · exact readsFormat_F6 (mk := .fxdec) (fun _ _ _ => rfl) (fun _ _ _ => rfl)
  · exact readsFormat_F7 (mk := .uncenc) (fun _ _ _ _ => rfl) (fun _ _ _ _ => rfl)
  · exact readsFormat_F7 (mk := .uncdec) (fun _ _ _ _ => rfl) (fun _ _ _ _ => rfl)
  · exact readsFormat_F0 (i := .frnext) rfl rfl
  · exact readsFormat_F8 (mk := .frput) (fun _ _ => rfl) (fun _ _ => rfl)
  · exact readsFormat_F2 (mk := .locdec) (fun _ _ => rfl) (fun _ _ => rfl)
  · exact readsFormat_F2 (mk := .locenc) (fun _ _ => rfl) (fun _ _ => rfl)
  · exact readsFormat_F2 (mk := .flrdec) (fun _ _ => rfl) (fun _ _ => rfl)
  · exact readsFormat_F2 (mk := .flrenc) (fun _ _ => rfl) (fun _ _ => rfl)
  · exact readsFormat_F2 (mk := .usgdec) (fun _ _ => rfl) (fun _ _ => rfl)
  · exact readsFormat_F1 (mk := .usgenc) (fun _ => rfl) (fun _ => rfl)
  · exact readsFormat_F2 (mk := .bssdec) (fun _ _ => rfl) (fun _ _ => rfl)
  · exact readsFormat_F2 (mk := .bssenc) (fun _ _ => rfl) (fun _ _ => rfl)
  · exact readsFormat_F9 (mk := .macparse) (fun _ _ => rfl) (fun _ _ => rfl)
  · exact readsFormat_F4 (mk := .macfmt) (fun _ => rfl) (fun _ => rfl)
  · exact readsFormat_F0 (i := .recdec) rfl rfl
  · exact readsFormat_F8 (mk := .recenc) (fun _ _ => rfl) (fun _ _ => rfl)
  · exact readsFormat_F4 (mk := .polchk) (fun _ => rfl) (fun _ => rfl)

/-- An unassigned operation code is found whatever follows it (R104). -/
theorem decode_unassigned {op : Byte} (rest : List Byte) (h : ¬Machine.Assigned op) :
    decode (op :: rest) = .error (.unassigned op) := by
  rw [decode]
  split
  case h_37 => rfl
  all_goals
    next hop =>
      exact absurd (by simp only [Machine.Assigned, hop]; decide) h

/-- The refusals of an assigned operation code: none but that of the length. -/
theorem decode_assigned_cases {op : Byte} (rest : List Byte) (h : Machine.Assigned op) :
    (∃ i, decode (op :: rest) = .ok i) ∨
      (decode (op :: rest) = .error (.badLength op) ∧ ∀ i, decode (op :: rest) ≠ .ok i) := by
  rcases decode_assigned rest h with ⟨i, hi, -⟩ | ⟨hbad, -⟩
  · exact .inl ⟨i, hi⟩
  · exact .inr ⟨hbad, fun i hi => nomatch hbad.symm.trans hi⟩

/-- Settles O5: an assigned code is read in its format, and no other code decodes. -/
theorem encodeOfDecodeIsThePacket : Obligations.EncodeOfDecodeIsThePacket := by
  intro p i hdecode
  cases p with
  | nil => cases hdecode
  | cons op rest =>
    by_cases hop : Machine.Assigned op
    · rcases decode_assigned rest hop with ⟨j, hj, hencode, hwf, -⟩ | ⟨hbad, -⟩
      · cases hj.symm.trans hdecode
        exact ⟨hencode, hwf⟩
      · cases hbad.symm.trans hdecode
    · cases (decode_unassigned rest hop).symm.trans hdecode

/-- Settles O6: a format refuses nothing but a length other than its own. -/
theorem packetIsACommandWhenItsLengthIsRight : Obligations.PacketIsACommandWhenItsLengthIsRight := by
  intro op rest hop
  rcases decode_assigned rest hop with ⟨i, hi, -, -, hlen⟩ | ⟨hbad, hlen⟩
  · exact ⟨fun _ => hlen, fun _ => ⟨i, hi⟩⟩
  · refine ⟨fun ⟨i, hi⟩ => ?_, fun h => absurd h hlen⟩
    cases hbad.symm.trans hi

/-- Settles O4: the operands of each format are read back from the bytes the encoder makes of them. -/
theorem decodeOfEncodeIsTheInstruction : Obligations.DecodeOfEncodeIsTheInstruction := by
  intro i hwf
  cases i with
  | nop | reset | rclr | frnext | recdec => rfl
  | bufz a => exact readF1_bytes32 0x02 .bufz a
  | ldhex r text => exact readF9_bytesF9 0x03 .ldhex r (of_decide_eq_true hwf)
  | hxrd a => exact readF1_bytes32 0x04 .hxrd a
  | hxwr a b => exact readF2_bytes32 0x05 .hxwr a b
  | rrd r => rfl
  | rwr r v => exact readF5_bytes64 0x09 .rwr r v
  | unkrd a => exact readF1_bytes32 0x0B .unkrd a
  | dgrd a => exact readF1_bytes32 0x0C .dgrd a
  | rdbits a b => exact readF2_bytes32 0x10 .rdbits a b
  | wrbits a b v => exact readF3_bytes32_bytes64 0x11 .wrbits a b v
  | rdoct a => exact readF1_bytes32 0x12 .rdoct a
  | wroct a b => exact readF2_bytes32 0x13 .wroct a b
  | rdmoi a b => exact readF2_bytes32 0x14 .rdmoi a b
  | wrmoi a b v => exact readF3_bytes32_bytes64 0x15 .wrmoi a b v
  | fxenc w f v => exact readF6_bytes64 0x20 .fxenc w f v
  | fxdec w f v => exact readF6_bytes64 0x21 .fxdec w f v
  | uncenc m x c v => exact readF7_bytes64 0x22 .uncenc m x c v
  | uncdec m x c v => exact readF7_bytes64 0x23 .uncdec m x c v
  | frput b1 b2 => rfl
  | locdec a b => exact readF2_bytes32 0x40 .locdec a b
  | locenc a b => exact readF2_bytes32 0x41 .locenc a b
  | flrdec a b => exact readF2_bytes32 0x42 .flrdec a b
  | flrenc a b => exact readF2_bytes32 0x43 .flrenc a b
  | usgdec a b => exact readF2_bytes32 0x44 .usgdec a b
  | usgenc a => exact readF1_bytes32 0x45 .usgenc a
  | bssdec a b => exact readF2_bytes32 0x46 .bssdec a b
  | bssenc a b => exact readF2_bytes32 0x47 .bssenc a b
  | macparse r text => exact readF9_bytesF9 0x48 .macparse r (of_decide_eq_true hwf)
  | macfmt r => rfl
  | recenc b1 b2 => rfl
  | polchk r => rfl

/-- Settles O7: the operation map and the byte order, on packets written out. -/
theorem writtenPacketsDecode : Obligations.WrittenPacketsDecode := by
  refine ⟨rfl, ?_, ?_, ?_, ?_, ?_⟩ <;> decide

end Sys2Proof
end

section
/-! PROOFS. What a command can do, said once for all of them (spec/60_exceptions.md R250, R260;
spec/10_state.md R20 to R32): how its body ends, what it posts, which parts it writes, and which bounds it
keeps; then the statements about every command and every step. -/

namespace Sys2Proof.Machine

/-! ## Entries filed under the kind of their cause (R256) -/

/-- Every entry is filed under the kind of its cause. -/
def Filed (es : List DiagEntry) : Prop := ∀ e ∈ es, e.kind = e.cause.kind

section
variable {e : DiagEntry} {es fs : List DiagEntry} {p : Prop} [Decidable p]

theorem filed_nil : Filed [] := by simp [Filed]

theorem filed_singleton (h : e.kind = e.cause.kind) : Filed [e] := by simpa [Filed] using h

theorem Filed.append (he : Filed es) (hf : Filed fs) : Filed (es ++ fs) := fun _ h =>
  (List.mem_append.1 h).elim (he _) (hf _)

theorem filed_ite (he : Filed es) (hf : Filed fs) : Filed (if p then es else fs) := by
  split
  · exact he
  · exact hf

theorem FixCode.filed {v : Phys} {w f fld raw : Nat} (h : FixCode v w f fld raw es) : Filed es := by
  obtain ⟨n, -, -, rfl⟩ := h
  exact filed_ite filed_nil (filed_singleton rfl)

theorem UncCode.filed {v : Phys} {m : ℤ} {max fld code : Nat} {zs : Bool}
    (h : UncCode v m max zs fld code es) : Filed es := by
  rcases h with ⟨-, -, rfl⟩ | ⟨-, -, rfl⟩ | ⟨-, k, -, ⟨-, -, rfl⟩ | ⟨-, -, rfl⟩ | ⟨-, -, -, rfl⟩⟩
  · exact filed_singleton rfl
  · exact filed_nil
  · exact filed_singleton rfl
  · exact filed_singleton rfl
  · exact filed_nil

theorem LocPayload.filed {r : Record} {zs : Bool} {os : List Byte} (h : LocPayload r zs os es) :
    Filed es := by
  obtain ⟨-, d1, d2, d3, d4, d5, d6, h1, h2, h3, h4, -, h5, h6, -, -, -, -, -, rfl⟩ := h
  exact (((((h1.filed.append h2.filed).append h3.filed).append h4.filed).append h5.filed).append
    h6.filed).append (filed_ite filed_nil (filed_singleton rfl))

theorem FlrPayload.filed {r : Record} {zs : Bool} {os : List Byte} (h : FlrPayload r zs os es) :
    Filed es := by
  obtain ⟨-, fl, height, d1, d2, d3, h1, h2, h3, -, -, rfl⟩ := h
  exact (h1.filed.append h2.filed).append h3.filed

theorem UsgPayload.filed {r : Record} {os : List Byte} (h : UsgPayload r os es) : Filed es := by
  obtain ⟨-, -, -, rfl⟩ := h
  exact filed_ite (filed_singleton rfl) (filed_ite (filed_singleton rfl) filed_nil)

theorem BssPayload.filed {r : Record} {ind : Bool} {os : List Byte} (h : BssPayload r ind os es) :
    Filed es := by
  obtain ⟨-, -, -, rfl⟩ := h
  intro e he
  obtain ⟨i, -, rfl⟩ := List.mem_map.1 he
  rfl

theorem advisories_filed (r : Record) (useU useF re : Bool) :
    Filed (advisories r useU useF re) :=
  (((filed_ite (filed_singleton rfl) filed_nil).append
    (filed_ite (filed_singleton rfl) filed_nil)).append
    (filed_ite (filed_singleton rfl) filed_nil)).append
    (filed_ite (filed_singleton rfl) filed_nil)

theorem EmittedAs.filed {emitted : Prop} {id : Byte} {os piece : List Byte}
    (h : EmittedAs emitted id os es piece fs) (he : Filed es) : Filed fs := by
  rcases h with ⟨-, -, rfl⟩ | ⟨-, -, rfl⟩
  · exact he
  · exact filed_nil
end

theorem recordNotes_filed (r : Record) (incl cfg : BitVec 8) : Filed (recordNotes r incl cfg) := by
  rw [recordNotes_eq]
  exact (((((emitLocation_emitted r incl cfg).filed (locImage_payload r _).filed).append
    ((emitFloor_emitted r incl cfg).filed (flrPayload_payload r _).filed)).append
    ((emitUsage_emitted r incl).filed (usgPayload_payload r).filed)).append
    ((emitBssid_emitted r incl cfg).filed (bssPayload_payload r (cfg.getLsbD 1)).filed)).append
    (advisories_filed r _ _ _)

/-- The entries of a record are at most one more than its octets: the header has three octets, the
advisory check four entries. -/
theorem recordNotes_length_le (r : Record) (incl cfg : BitVec 8) :
    (recordNotes r incl cfg).length ≤ (recordOctets r incl cfg).length + 1 := by
  have hloc := (emitLocation_emitted r incl cfg).notes_length_le
    (locImage_payload r (cfg.getLsbD 0)).notes_length_le_octets
  have hflr := (emitFloor_emitted r incl cfg).notes_length_le
    (flrPayload_payload r (cfg.getLsbD 0)).notes_length_le_octets
  have husg := (emitUsage_emitted r incl).notes_length_le
    (usgPayload_payload r).notes_length_le_octets
  have hbss := (emitBssid_emitted r incl cfg).notes_length_le
    (bssPayload_payload r (cfg.getLsbD 1)).notes_length_le_octets
  have hadvisory := advisories_length_le r (incl.getLsbD 2) (incl.getLsbD 1) (r.expire ≠ 0)
  rw [recordOctets_length]
  simp only [recordNotes_eq, List.length_append]
  omega

/-! ## Stored octets as stored characters (R54) -/

/-- The two digits that store an octet (R54). -/
theorem hexchar_high (o : Byte) : hexchar (o.extractLsb' 4 4) = lowerDigit (o.toNat / 16) := by
  have ho := o.isLt
  rw [hexchar_eq_lowerDigit, BitVec.extractLsb'_toNat, Nat.shiftRight_eq_div_pow]
  congr 1
  omega

theorem hexchar_low (o : Byte) : hexchar (o.extractLsb' 0 4) = lowerDigit (o.toNat % 16) := by
  rw [hexchar_eq_lowerDigit, BitVec.extractLsb'_toNat, Nat.shiftRight_zero]

/-- Storing octets is storing their lowercase text in the cells. -/
theorem putOctets_eq_writeList (os : List Byte) (s : State) (p : Nat) :
    putOctets s p os = { s with hex := Memory.writeList s.hex (2 * p) (hexText os) } := by
  induction os generalizing s p with
  | nil => rfl
  | cons o os ih =>
    rw [putOctets, ih, putOctet, hexchar_high, hexchar_low, hexText_cons, Nat.mul_succ]
    rfl

/-! ## What a body does to the state -/

/-- The entries a command posts: filed, and few enough for the list (R255). -/
def PostsFew (i : Instr) (s : State) (es : List DiagEntry) : Prop :=
  Filed es ∧ (s.hlen ≤ Config.hcap → es.length ≤ 518 ∧ (i = .recdec → es.length ≤ s.olen + 6))

/-- The cells `h` and the length `n` keep the form and the bounds of those of `s` (R21). -/
def KeepsBuffer (s : State) (h : Memory) (n : Nat) : Prop :=
  (Memory.wf s.hex = true → Memory.wf h = true) ∧
  (s.hlen ≤ Config.hcap → n ≤ Config.hcap ∧
    ((∀ cell ∈ s.hex, cell.1 < Config.hcap) → ∀ cell ∈ h, cell.1 < Config.hcap))

/-- The counts of `r` keep the bounds of those of `q` (R30, R31). -/
def KeepsCounts (q r : Record) : Prop :=
  (q.bssN.toNat ≤ Config.bssCap → r.bssN.toNat ≤ Config.bssCap) ∧
  (q.unk.length ≤ Config.unkCap → r.unk.length ≤ Config.unkCap)

/-- Each part is as in `s`, or the command is one of those that write it (R21 to R31). -/
def WritesNamed (i : Instr) (s : State) (h : Memory) (n : Nat) (c : BitVec 32) (r : Record) : Prop :=
  (WritesBuffer i = true ∨ h = s.hex) ∧ (WritesLength i = true ∨ n = s.hlen) ∧
  (WritesCursor i = true ∨ c = s.cur) ∧ (WritesRecord i = true ∨ r = s.record) ∧
  (WritesUnknown i = true ∨ r.unk = s.record.unk)

/-- What the body of the command `i` can make of the state `s`, all of it. -/
def Works (i : Instr) (s t : State) : Prop :=
  ∃ es h n c r, t = { s.postAll es with hex := h, hlen := n, cur := c, record := r } ∧
    PostsFew i s es ∧ KeepsBuffer s h n ∧ KeepsCounts s.record r ∧ WritesNamed i s h n c r

/-- How the body of the command `i` can end in the state `s`, all of it (R250 to R253, R260). -/
inductive Ends (i : Instr) (s : State) : Ended → Prop
  /-- The body completes. -/
  | done {t : State} {v : Word64} (h : Works i s t) : Ends i s (.done t v)
  /-- The operands are refused with nothing done. -/
  | invalid : Ends i s (.failed s .invalid)
  /-- An extent leaves the buffer with nothing done. -/
  | bounds : Ends i s (.failed s .bounds)
  /-- A reading accessor meets a bad digit with nothing done. -/
  | malformed {j : Nat} (hi : MayMeetBadDigit i = true) (hj : j < s.olen)
      (hbad : s.digitsOk j = false) : Ends i s (.failed s (.malformed j))
  /-- RECDEC is cut short and keeps what it did. -/
  | cut {t : State} (hi : i = .recdec) (h : Works i s t) : Ends i s (.failed t .bounds)

section
variable {i : Instr} {s : State} {es : List DiagEntry} {p : Nat} {os : List Byte}

theorem postsFew_nil : PostsFew i s [] :=
  ⟨filed_nil, fun _ => ⟨Nat.zero_le _, fun _ => Nat.zero_le _⟩⟩

theorem postsFew_of_length (hi : i ≠ .recdec) (hes : Filed es) (hlen : es.length ≤ 518) :
    PostsFew i s es := ⟨hes, fun _ => ⟨hlen, fun h => absurd h hi⟩⟩

theorem keepsBuffer_sized {n : Nat} (hn : s.hlen ≤ Config.hcap → n ≤ Config.hcap) :
    KeepsBuffer s s.hex n := ⟨id, fun h => ⟨hn h, id⟩⟩

theorem keepsBuffer_refl (s : State) : KeepsBuffer s s.hex s.hlen := keepsBuffer_sized id

/-- Writing characters inside HCAP. -/
theorem KeepsBuffer.writeList {h : Memory} {c n : Nat} {vs : List Byte} (hkeeps : KeepsBuffer s h n)
    (hvs : s.hlen ≤ Config.hcap → c + vs.length ≤ Config.hcap) :
    KeepsBuffer s (Memory.writeList h c vs) n := by
  refine ⟨fun hwf => Memory.writeList_wf vs h c (hkeeps.1 hwf), fun hcap =>
    ⟨(hkeeps.2 hcap).1, fun hin cell hcell => ?_⟩⟩
  rcases Memory.mem_writeList vs hcell with ⟨-, h⟩ | h
  · exact h.trans_le (hvs hcap)
  · exact (hkeeps.2 hcap).2 hin cell h

/-- Storing octets inside the buffer. -/
theorem keepsBuffer_store (hin : p + os.length ≤ s.olen) :
    KeepsBuffer s (Memory.writeList s.hex (2 * p) (hexText os)) s.hlen := by
  refine (keepsBuffer_refl s).writeList fun hcap => ?_
  rw [State.olen] at hin
  rw [hexText_length]
  omega

theorem keepsCounts_refl (q : Record) : KeepsCounts q q := ⟨id, id⟩

/-- A body that posts entries and nothing else. -/
theorem works_posted (hes : PostsFew i s es) : Works i s (s.postAll es) :=
  ⟨es, s.hex, s.hlen, s.cur, s.record, by rw [s.postAll_eq], hes, keepsBuffer_refl s, keepsCounts_refl _,
    .inr rfl, .inr rfl, .inr rfl, .inr rfl, .inr rfl⟩

theorem works_refl : Works i s s := works_posted postsFew_nil

/-- A body that skips its work with a note. -/
theorem postsFew_note (hi : i ≠ .recdec) (c : Cause) (n : Nat) : PostsFew i s [note c n] :=
  postsFew_of_length hi (filed_singleton rfl) (by simp)

/-- A body that posts entries and writes the record. -/
theorem works_record {r : Record} (hes : PostsFew i s es) (hcounts : KeepsCounts s.record r)
    (hi : WritesRecord i = true) (hunk : WritesUnknown i = true ∨ r.unk = s.record.unk) :
    Works i s { s.postAll es with record := r } :=
  ⟨es, s.hex, s.hlen, s.cur, r, by rw [s.postAll_eq], hes, keepsBuffer_refl s, hcounts,
    .inr rfl, .inr rfl, .inr rfl, .inl hi, hunk⟩

/-- A body that posts entries and stores octets inside the buffer. -/
theorem works_stored (hes : PostsFew i s es) (hin : p + os.length ≤ s.olen)
    (hi : WritesBuffer i = true) : Works i s (putOctets (s.postAll es) p os) :=
  ⟨es, _, s.hlen, s.cur, s.record, by rw [putOctets_eq_writeList, State.postAll_hex, s.postAll_eq],
    hes, keepsBuffer_store hin, keepsCounts_refl _, .inl hi, .inr rfl, .inr rfl, .inr rfl, .inr rfl⟩

/-- A body that posts entries and moves the cursor. -/
theorem works_moved {c : BitVec 32} (hes : PostsFew i s es) (hi : WritesCursor i = true) :
    Works i s { s.postAll es with cur := c } :=
  ⟨es, s.hex, s.hlen, c, s.record, by rw [s.postAll_eq], hes, keepsBuffer_refl s, keepsCounts_refl _,
    .inr rfl, .inr rfl, .inl hi, .inr rfl, .inr rfl⟩

/-- A body that posts entries, sizes the buffer for octets and stores them in it. -/
theorem works_sized {c : BitVec 32} (hes : PostsFew i s es) (hfit : 2 * os.length ≤ Config.hcap)
    (hi : WritesBuffer i = true) (hlen : WritesLength i = true) (hcur : WritesCursor i = true) :
    Works i s { putOctets (zeroBuffer (s.postAll es) os.length) 0 os with cur := c } := by
  refine ⟨es, _, 2 * os.length, c, s.record, ?_, hes,
    ((keepsBuffer_sized fun _ => hfit).writeList (c := 0)
      (vs := List.replicate (2 * os.length) blank) ?_).writeList (c := 2 * 0) (vs := hexText os) ?_,
    keepsCounts_refl _, .inl hi, .inl hlen, .inl hcur, .inr rfl, .inr rfl⟩
  · rw [putOctets_eq_writeList, zeroBuffer, s.postAll_eq]
  · intro _
    rwa [List.length_replicate, Nat.zero_add]
  · intro _
    rwa [hexText_length, Nat.mul_zero, Nat.zero_add]

/-- A payload decoder that leaves the unknown list. -/
theorem works_decoded {n : Nat} {t : State} (hi : i ≠ .recdec) (hrec : WritesRecord i = true)
    (h : Decodes n s t) (hn : n ≤ 518) (hunk : t.record.unk = s.record.unk) : Works i s t := by
  obtain ⟨es, r, rfl, hlen, hfiled, hslots, hunks⟩ := h
  exact works_record (postsFew_of_length hi hfiled (hlen.trans hn)) ⟨hslots, hunks⟩ hrec (.inr hunk)
end

/-! ## How a body ends, by its shape -/

section
variable {i : Instr} {s : State}

/-- A body with operand limits ends as refused, or as the rest of it does. -/
theorem ends_limits {p : Prop} [Decidable p] {e : Ended} (h : ¬p → Ends i s e) :
    Ends i s (if p then .failed s .invalid else e) := by
  split
  · exact .invalid
  · next hp => exact h hp

/-- A body with an extent to check ends out of bounds, or as the rest of it does. -/
theorem ends_extent {p : Prop} [Decidable p] {e : Ended} (h : ¬p → Ends i s e) :
    Ends i s (if p then .failed s .bounds else e) := by
  split
  · exact .bounds
  · next hp => exact h hp

/-- What a reading of octets can fail with (R53): an extent outside the buffer, or an octet of the
buffer that holds a bad digit. -/
def ReadFails (s : State) (a : Abort) : Prop :=
  a = .bounds ∨ ∃ j, a = .malformed j ∧ j < s.olen ∧ s.digitsOk j = false

theorem octRead_fails {j : Nat} {a : Abort} (h : octRead s j = .error a) : ReadFails s a := by
  rcases octRead_error h with ⟨rfl, -⟩ | ⟨rfl, hj⟩
  · exact .inl rfl
  · exact .inr ⟨j, rfl, hj, (octRead_eq_malformed h).1⟩

theorem bitRead_fails {off n : Nat} {a : Abort} (h : bitRead s off n = .error a) : ReadFails s a := by
  rw [bitRead] at h
  split at h
  · cases h; exact .inl rfl
  · obtain ⟨k, -, hk, -⟩ := bitsFrom_error n h
    exact octRead_fails hk

theorem memRead_fails {p n : Nat} {a : Abort} (h : memRead s p n = .error a) : ReadFails s a := by
  rw [memRead] at h
  split at h
  · cases h; exact .inl rfl
  · obtain ⟨k, -, hk, -⟩ := octetsFrom_error n h
    exact octRead_fails hk

theorem ends_failed {a : Abort} (hi : MayMeetBadDigit i = true) (h : ReadFails s a) :
    Ends i s (.failed s a) := by
  rcases h with rfl | ⟨j, rfl, hj, hbad⟩
  · exact .bounds
  · exact .malformed hi hj hbad

theorem ends_answering {r : Except Abort Word64} (hi : MayMeetBadDigit i = true)
    (h : ∀ a, r = .error a → ReadFails s a) : Ends i s (answering s r) := by
  cases r with
  | ok v => exact .done works_refl
  | error a => exact ends_failed hi (h a rfl)

/-- A read number made an answer fails as the reading does. -/
theorem map_fails {α : Type} {f : α → Word64} {r : Except Abort α}
    (h : ∀ a, r = .error a → ReadFails s a) : ∀ a, r.map f = .error a → ReadFails s a := by
  intro a ha
  cases r with
  | ok v => cases ha
  | error b =>
    cases ha
    exact h _ rfl

/-- `BitWrite` stores octets inside the buffer, or fails as a reading does (R56). -/
theorem bitWrite_cases (s : State) (off n : Nat) (v : Word64) :
    (∃ a, bitWrite s off n v = .error a ∧ ReadFails s a) ∨
    ∃ p os, bitWrite s off n v = .ok (putOctets s p os) ∧ p + os.length ≤ s.olen := by
  rcases Nat.lt_or_ge (8 * s.olen) (off + n) with hout | hin
  · exact .inl ⟨.bounds, bitWrite_bounds hout, .inl rfl⟩
  · cases hb : s.firstBadPartly off n with
    | some j =>
      have hw := bitWrite_bad (v := v) hin hb
      obtain ⟨hlo, hhi, ⟨hbad, -⟩, -⟩ := (firstBadPartly_some_iff s off n j).1 hb
      have hj : j < s.olen := by
        rw [touched] at hhi
        split at hhi <;> omega
      exact .inl ⟨_, hw, .inr ⟨j, rfl, hj, hbad⟩⟩
    | none =>
      obtain ⟨os, hw, hlen, -⟩ := bitWrite_good (v := v) hin hb
      refine .inr ?_
      by_cases hn : n = 0
      · have hos : os = [] := List.eq_nil_of_length_eq_zero (by rw [hlen, touched, if_pos hn])
        exact ⟨0, [], by rw [hw, hos]; rfl, Nat.zero_le _⟩
      · exact ⟨_, os, hw, by rw [hlen, touched, if_neg hn]; omega⟩
end

/-! ## What the decoders leave of the unknown list (R31) -/

section
variable (s : State) (p len : Nat)

theorem locDec_unk : (locDec s p len).record.unk = s.record.unk := by
  unfold locDec
  split
  · rfl
  · split
    · rw [State.post_record]
    · split
      · rfl
      · rw [State.post_record]
      · rfl

theorem flrDec_unk : (flrDec s p len).record.unk = s.record.unk := by
  unfold flrDec
  split
  · rw [State.post_record]
  · split
    · rfl
    · rw [State.post_record]
    · rfl

theorem usgDec_unk : (usgDec s p len).record.unk = s.record.unk := by
  unfold usgDec
  split
  · rw [State.post_record]
  · split
    · rfl
    · rw [State.post_record]
    · rfl

theorem bssDec_unk (hin : p + len ≤ s.olen) : (bssDec s p len).record.unk = s.record.unk := by
  by_cases h0 : len = 0
  · rw [bssDec_absent s h0]; rfl
  · rw [bssDec_decoded s h0 hin, bssDecoded_eq]; rfl
end

/-! ## The walk of RECDEC (R160, R215) -/

/-- What part of RECDEC makes of the state: entries posted, another record and another cursor. -/
def Walks (n : Nat) (s t : State) : Prop :=
  ∃ es c r, t = { s.postAll es with cur := c, record := r } ∧ Filed es ∧ KeepsCounts s.record r ∧
    (s.hlen ≤ Config.hcap → es.length ≤ n)

section
variable {n m : Nat} {s t u : State}

theorem walks_refl (n : Nat) (s : State) : Walks n s s :=
  ⟨[], s.cur, s.record, rfl, filed_nil, keepsCounts_refl _, fun _ => Nat.zero_le _⟩

theorem walks_moved {es : List DiagEntry} {c : BitVec 32} (hes : Filed es) (hlen : es.length ≤ n) :
    Walks n s { s.postAll es with cur := c } :=
  ⟨es, c, s.record, by rw [s.postAll_eq], hes, keepsCounts_refl _, fun _ => hlen⟩

theorem walks_posted {es : List DiagEntry} (hes : Filed es) (hlen : es.length ≤ n) :
    Walks n s (s.postAll es) :=
  ⟨es, s.cur, s.record, by rw [s.postAll_eq], hes, keepsCounts_refl _, fun _ => hlen⟩

theorem Decodes.walks (h : Decodes n s t) : Walks n s t := by
  obtain ⟨es, r, rfl, hlen, hfiled, hslots, hunk⟩ := h
  exact ⟨es, s.cur, r, by rw [s.postAll_eq], hfiled, ⟨hslots, hunk⟩, fun _ => hlen⟩

theorem State.postAll_with_cursor_record (s : State) (es : List DiagEntry) (c : BitVec 32)
    (r : Record) : State.postAll { s with cur := c, record := r } es =
      { s.postAll es with cur := c, record := r } := by
  induction es generalizing s with
  | nil => rfl
  | cons e es ih =>
    have h : State.postEntry { s with cur := c, record := r } e =
        { s.postEntry e with cur := c, record := r } := by
      unfold State.postEntry
      split <;> rfl
    rw [State.postAll_cons, h, ih]
    rfl

theorem Walks.hlen_eq (h : Walks n s t) : t.hlen = s.hlen := by
  obtain ⟨es, c, r, rfl, -⟩ := h
  exact s.postAll_hlen es

theorem Walks.trans (h : Walks n s t) (h' : Walks m t u) : Walks (n + m) s u := by
  have hlen := h.hlen_eq
  obtain ⟨es, c, r, rfl, hfiled, hcounts, hes⟩ := h
  obtain ⟨fs, c', r', rfl, hfiled', hcounts', hfs⟩ := h'
  refine ⟨es ++ fs, c', r', ?_, hfiled.append hfiled', ⟨hcounts'.1 ∘ hcounts.1,
    hcounts'.2 ∘ hcounts.2⟩, fun hcap => ?_⟩
  · rw [State.postAll_with_cursor_record, State.postAll_append]
  · rw [List.length_append]
    exact Nat.add_le_add (hes hcap) (hfs (hlen ▸ hcap))

theorem Walks.mono (h : Walks n s t) (hnm : s.hlen ≤ Config.hcap → n ≤ m) : Walks m s t := by
  obtain ⟨es, c, r, ht, hfiled, hcounts, hes⟩ := h
  exact ⟨es, c, r, ht, hfiled, hcounts, fun hcap => (hes hcap).trans (hnm hcap)⟩
end

/-- An offset inside the buffer is one the cursor can hold (R21, R22). -/
theorem toNat_ofNat_le_olen {s : State} {k : Nat} (hcap : s.hlen ≤ Config.hcap) (hk : k ≤ s.olen) :
    (BitVec.ofNat 32 k).toNat = k :=
  toNat_ofNat_index hcap (by rw [State.olen] at hk; omega)

/-- The walk posts at most one entry for each octet it passes: a subelement has two octets more than its
payload, and a halt leaves at least two. -/
theorem walk_walks (n : Nat) (s : State) : Walks (s.olen - s.cur.toNat) s (walk n s).1 := by
  induction n generalizing s with
  | zero => exact walks_refl _ _
  | succ n ih =>
    rw [walk]
    rcases frNext_cases s with ⟨-, h⟩ | ⟨-, h⟩ | ⟨-, h⟩ | ⟨hin,
      ⟨i, -, h⟩ | ⟨id, i, -, -, h⟩ | ⟨id, len, -, -, -, h⟩ | ⟨id, len, -, -, hfits, h⟩⟩
    · rw [h]; exact walks_refl _ _
    · rw [h]; exact walks_refl _ _
    · rw [h]; exact walks_refl _ _
    · rw [h]; exact walks_moved (es := [_]) (filed_singleton rfl) (by simp; omega)
    · rw [h]; exact walks_moved (es := [_]) (filed_singleton rfl) (by simp; omega)
    · rw [h]; exact walks_moved (es := [_]) (filed_singleton rfl) (by simp; omega)
    · rw [h]
      simp only
      set t : State := { s with cur := BitVec.ofNat 32 (s.cur.toNat + 2 + len.toNat) } with ht
      have hmove : Walks 0 s t := walks_moved (es := []) filed_nil (Nat.zero_le _)
      have hsub := (dispatch_decodes t id len (s.cur.toNat + 2))
      have hframe := hsub.frame
      refine ((hmove.trans hsub.walks).trans (ih _)).mono fun hcap => ?_
      have hcur : (dispatch t id len (s.cur.toNat + 2)).cur = t.cur := by rw [hframe]
      have holen : (dispatch t id len (s.cur.toNat + 2)).olen = s.olen := by rw [hframe]; rfl
      have hnew : t.cur.toNat = s.cur.toNat + 2 + len.toNat := toNat_ofNat_le_olen hcap hfits
      rw [hcur, holen, hnew]
      omega

theorem checkHeader_walks (s : State) (i : Nat) (want : Byte) (c : Cause) :
    Walks 1 s (checkHeader s i want c) := by
  unfold checkHeader
  split
  · exact walks_posted (fun e he => noteIf_kind he) (noteIf_length _ _ _)
  · exact (decodes_post s _ _ le_rfl).walks
  · exact walks_refl _ _

theorem recDecStart_walks (s : State) : Walks 1 s (recDecStart s) := by
  have hclear : Walks 0 s { clearRecord s with cur := 0 } :=
    ⟨[], 0, Record.cleared, rfl, filed_nil, ⟨fun _ => Nat.zero_le _, fun _ => Nat.zero_le _⟩,
      fun _ => Nat.zero_le _⟩
  have hpost : Walks 1 { clearRecord s with cur := 0 } (recDecStart s) :=
    walks_posted (fun e he => noteIf_kind he) (noteIf_length _ _ _)
  exact hclear.trans hpost

theorem recDecHeader_walks (s : State) : Walks 3 s (recDecHeader s) := by
  have hmove : ∀ t : State, Walks 0 t { t with cur := 3 } := fun t =>
    walks_moved (es := []) filed_nil (Nat.zero_le _)
  exact (((checkHeader_walks s 0 _ _).trans (checkHeader_walks _ 1 _ _)).trans
    (checkHeader_walks _ 2 _ _)).trans (hmove _)

theorem Walks.olen_eq {n : Nat} {s t : State} (h : Walks n s t) : t.olen = s.olen := by
  rw [State.olen, State.olen, h.hlen_eq]

/-- RECDEC works as a walk from its start to its end: one entry for the length, three for the header,
one for each octet behind it, four for the advisory check. -/
theorem Walks.works {n : Nat} {s t : State} (h : Walks n s t)
    (hn : s.hlen ≤ Config.hcap → n ≤ s.olen + 6) : Works .recdec s t := by
  obtain ⟨es, c, r, rfl, hfiled, hcounts, hes⟩ := h
  refine ⟨es, s.hex, s.hlen, c, r, by rw [s.postAll_eq], ⟨hfiled, fun hcap => ?_⟩,
    keepsBuffer_refl s, hcounts, .inr rfl, .inr rfl, .inl rfl, .inl rfl, .inl rfl⟩
  have hlen := (hes hcap).trans (hn hcap)
  have holen : s.olen ≤ 512 := by
    rw [State.olen]
    rw [Config.hcap] at hcap
    omega
  exact ⟨by omega, fun _ => hlen⟩

theorem recDec_ends (s : State) : Ends .recdec s (recDec s) := by
  have hstart := recDecStart_walks s
  unfold recDec
  simp only
  split
  · exact .cut rfl (hstart.works fun _ => by omega)
  · next hlen =>
    rw [hstart.olen_eq] at hlen
    have hheader := hstart.trans (recDecHeader_walks (recDecStart s))
    set t := recDecHeader (recDecStart s) with ht
    have hcur : t.cur.toNat = 3 := rfl
    have hwalk := hheader.trans (walk_walks (walkBound t) t)
    rw [hheader.olen_eq, hcur] at hwalk
    rcases hw : walk (walkBound t) t with ⟨u, b⟩
    rw [hw] at hwalk
    cases b with
    | true => exact .cut rfl (hwalk.works fun _ => by omega)
    | false =>
      have hadvise : Walks 4 u (u.postAll
          (polNotes u.record (u.record.usgP == 1) (u.record.flrP == 1) (u.record.retExp == 1))) := by
        rw [polNotes_eq]
        exact walks_posted (advisories_filed _ _ _ _) (advisories_length_le _ _ _ _)
      exact .done ((hwalk.trans hadvise).works fun _ => by omega)

/-! ## How every command ends -/

/-- The state a body's ending leaves (R250, R260). -/
def Ended.finish : Ended → State
  | .done t v => t.respond .ok v
  | .failed t a => t.fail a

theorem runCommand_eq_finish (s : State) (body : State → Ended) :
    runCommand s body = (body s.start).finish := by
  rw [runCommand]
  cases body s.start <;> rfl

/-- A command whose body ends in one of the ways of `Ends`. -/
theorem ends_of_body {i : Instr} {s : State} {body : State → Ended}
    (hexec : exec i s = .next (runCommand s body)) (h : Ends i s.start (body s.start)) :
    ∃ e, exec i s = .next e.finish ∧ Ends i s.start e :=
  ⟨_, by rw [hexec, runCommand_eq_finish], h⟩

/-- A write to a register that is accepted (R233). -/
theorem writeReg_works {s t : State} {v : Word64} {x : Reg} (r : BitVec 8)
    (h : writeReg s v x = some t) : Works (.rwr r v) s t := by
  have hbssN : x = .bssN → v.toNat ≤ 42 := by
    rintro rfl
    by_contra hbig
    rw [writeReg_bssN_refused (by omega)] at h
    cases h
  have hwidth : ∃ w, x.width = some w := by
    refine Option.ne_none_iff_exists'.1 fun hnone => ?_
    rw [writeReg_readOnly hnone] at h
    cases h
  obtain ⟨w, hw⟩ := hwidth
  obtain ⟨q, c, hwrite, hunk⟩ := writeReg_accepted (s := s) hw hbssN
  cases hwrite.symm.trans h
  refine ⟨[], s.hex, s.hlen, c, q, rfl, postsFew_nil, keepsBuffer_refl s, ⟨fun hslots => ?_, ?_⟩,
    .inr rfl, .inr rfl, .inl rfl, .inl rfl, .inr hunk⟩
  · by_cases hx : x = .bssN
    · subst hx
      have hread := readReg_writeReg_self hw h
      have hv := hbssN rfl
      cases hw
      have hnat := congrArg BitVec.toNat hread
      simp only [readReg, BitVec.toNat_setWidth, BitVec.toNat_ofNat] at hnat
      rw [Config.bssCap]
      have := q.bssN.isLt
      omega
    · have hread := readReg_writeReg_other (y := .bssN) (Ne.symm hx) h
      have hnat := congrArg BitVec.toNat hread
      simp only [readReg, BitVec.toNat_setWidth] at hnat
      have h1 := q.bssN.isLt
      have h2 := s.record.bssN.isLt
      rw [Nat.mod_eq_of_lt (by omega), Nat.mod_eq_of_lt (by omega)] at hnat
      omega
  · rw [hunk]
    exact id

theorem haltFrame_works (s : State) (c : Cause) (n : Nat) : Works .frnext s (haltFrame s c n).1 := by
  have hnote : PostsFew .frnext s [note c n] := postsFew_note (by nofun) c n
  exact works_moved hnote rfl

/-- Every command that is no observer ends in one of the ways of `Ends`. -/
theorem exec_ends {i : Instr} (s : State) (h : Observes i = false) :
    ∃ e, exec i s = .next e.finish ∧ Ends i s.start e := by
  cases i with
  | nop | hxrd _ | rrd _ | unkrd _ | dgrd _ | macfmt _ => cases h
  | reset =>
    refine ends_of_body rfl (.done ⟨[], [], 0, 0, Record.cleared, rfl, postsFew_nil,
      ⟨fun _ => rfl, fun _ => ⟨Nat.zero_le _, fun _ _ hc => absurd hc List.not_mem_nil⟩⟩,
      ⟨fun _ => Nat.zero_le _, fun _ => Nat.zero_le _⟩, .inl rfl, .inl rfl, .inl rfl, .inl rfl,
      .inl rfl⟩)
  | bufz a =>
    refine ends_of_body (exec_bufz a s) (ends_extent fun hfits => .done ⟨[], _, _, s.cur, s.record,
      rfl, postsFew_nil, (keepsBuffer_sized fun _ => Nat.not_lt.1 hfits).writeList ?_,
      keepsCounts_refl _, .inl rfl, .inl rfl, .inr rfl, .inr rfl, .inr rfl⟩)
    · intro _
      rw [List.length_replicate, Nat.zero_add]
      exact Nat.not_lt.1 hfits
  | ldhex r text =>
    refine ends_of_body (exec_ldhex r text s) (ends_limits fun _ => ends_extent fun hfits =>
      .done ⟨[], _, _, s.cur, s.record, rfl, postsFew_nil,
        (keepsBuffer_sized fun _ => Nat.not_lt.1 hfits).writeList ?_,
        keepsCounts_refl _, .inl rfl, .inl rfl, .inr rfl, .inr rfl, .inr rfl⟩)
    · intro _
      rw [Nat.zero_add]
      exact Nat.not_lt.1 hfits
  | hxwr a b =>
    refine ends_of_body (exec_hxwr a b s) (ends_extent fun hin =>
      .done ⟨[], _, s.hlen, s.cur, s.record, rfl, postsFew_nil, (keepsBuffer_refl _).writeList ?_,
        keepsCounts_refl _, .inl rfl, .inr rfl, .inr rfl, .inr rfl, .inr rfl⟩)
    intro hcap
    exact (Nat.not_le.1 hin).trans_le hcap
  | rwr r v =>
    refine ends_of_body rfl ?_
    cases hw : (regOf r).bind (writeReg s.start v) with
    | none => exact .invalid
    | some t =>
      obtain ⟨x, -, hx⟩ := Option.bind_eq_some_iff.1 hw
      exact .done (writeReg_works r hx)
  | rclr =>
    exact ends_of_body rfl (.done (works_record postsFew_nil
      ⟨fun _ => Nat.zero_le _, fun _ => Nat.zero_le _⟩ rfl (.inl rfl)))
  | rdbits a b =>
    exact ends_of_body (exec_rdbits a b s) (ends_limits fun _ =>
      ends_answering rfl (map_fails fun _ => bitRead_fails))
  | wrbits a b v =>
    refine ends_of_body (exec_wrbits a b v s) (ends_limits fun _ => ?_)
    rcases bitWrite_cases s.start a.toNat b.toNat v with ⟨e, he, hfails⟩ | ⟨p, os, hok, hin⟩
    · rw [he]; exact ends_failed rfl hfails
    · rw [hok]; exact .done (works_stored postsFew_nil hin rfl)
  | rdoct a =>
    exact ends_of_body (exec_rdoct a s) (ends_answering rfl (map_fails fun _ => octRead_fails))
  | wroct a b =>
    refine ends_of_body (exec_wroct a b s) ?_
    rcases Nat.lt_or_ge a.toNat s.olen with hin | hout
    · rw [octWrite_of_lt (by exact hin)]; exact .done (works_stored postsFew_nil hin rfl)
    · rw [octWrite_bounds (by exact hout)]; exact .bounds
  | rdmoi a b =>
    exact ends_of_body (exec_rdmoi a b s) (ends_limits fun _ =>
      ends_answering rfl (map_fails fun _ => memRead_fails))
  | wrmoi a b v =>
    refine ends_of_body (exec_wrmoi a b v s) (ends_limits fun _ => ?_)
    rcases Nat.lt_or_ge s.olen (a.toNat + b.toNat) with hout | hin
    · rw [memWrite_bounds (by exact hout)]; exact .bounds
    · rw [memWrite_of_le (by exact hin)]
      exact .done (works_stored postsFew_nil (by simpa [lowOctets] using hin) rfl)
  | fxenc w f v =>
    have hcode := fixEnc_code v w.toNat f.toNat .none
    exact ends_of_body (exec_fxenc w f v s) (ends_limits fun _ => .done (works_posted
      (postsFew_of_length nofun hcode.filed (hcode.notes_length_le.trans (by decide)))))
  | fxdec w f v =>
    exact ends_of_body (exec_fxdec w f v s) (ends_limits fun _ => .done works_refl)
  | uncenc m x c v =>
    have hcode := uncEnc_code v m.toInt x.toNat (c.getLsbD 0) .none
    exact ends_of_body (exec_uncenc m x c v s) (ends_limits fun _ => .done (works_posted
      (postsFew_of_length nofun hcode.filed (hcode.notes_length_le.trans (by decide)))))
  | uncdec m x c v =>
    exact ends_of_body (exec_uncdec m x c v s) (ends_limits fun _ => .done (works_posted
      (postsFew_of_length nofun (fun _ => uncDec_kind)
        ((uncDec_length _ _ _ _).trans (by decide)))))
  | frnext =>
    refine ends_of_body (exec_frnext s) ?_
    rcases frNext_cases s.start with ⟨-, h⟩ | ⟨-, h⟩ | ⟨-, h⟩ | ⟨-,
      ⟨i, -, h⟩ | ⟨id, i, -, -, h⟩ | ⟨id, len, -, -, -, h⟩ | ⟨id, len, -, -, -, h⟩⟩
    · rw [h]; exact .bounds
    · rw [h]; exact .done works_refl
    · rw [h]; exact .bounds
    · rw [h]; exact .done (haltFrame_works _ _ _)
    · rw [h]; exact .done (haltFrame_works _ _ _)
    · rw [h]; exact .done (haltFrame_works _ _ _)
    · rw [h]; exact .done (works_moved (es := []) postsFew_nil rfl)
  | frput b1 b2 =>
    refine ends_of_body (exec_frput b1 b2 s) (ends_extent fun hin => .done ⟨[], _, s.hlen, _, s.record,
      by rw [putOctets_eq_writeList]; rfl, postsFew_nil, keepsBuffer_store (Nat.not_lt.1 hin),
      keepsCounts_refl _, .inl rfl, .inr rfl, .inl rfl, .inr rfl, .inr rfl⟩)
  | locdec a b =>
    have hb := b.isLt
    exact ends_of_body (exec_locdec a b s) (ends_extent fun _ => .done (works_decoded nofun rfl
      (locDec_decodes _ _ _) (by omega) (locDec_unk _ _ _)))
  | locenc a b =>
    have hpayload := locImage_payload s.start.record (b.getLsbD 0)
    exact ends_of_body (exec_locenc a b s) (ends_limits fun _ => ends_extent fun hin => .done
      (works_stored (postsFew_of_length nofun hpayload.filed
        (hpayload.notes_length_le_octets.trans (by rw [imageOctets_length]; decide))) (Nat.not_lt.1 hin) rfl))
  | flrdec a b =>
    have hb := b.isLt
    exact ends_of_body (exec_flrdec a b s) (ends_extent fun _ => .done (works_decoded nofun rfl
      (flrDec_decodes _ _ _) (by omega) (flrDec_unk _ _ _)))
  | flrenc a b =>
    have hpayload := flrPayload_payload s.start.record (b.getLsbD 0)
    have hlen := hpayload.1
    have hnotes := hpayload.notes_length_le_octets
    exact ends_of_body (exec_flrenc a b s) (ends_limits fun _ => ends_extent fun hin => .done
      (works_stored (postsFew_of_length nofun hpayload.filed (by omega))
        (by rw [hlen]; exact Nat.not_lt.1 hin) rfl))
  | usgdec a b =>
    have hb := b.isLt
    exact ends_of_body (exec_usgdec a b s) (ends_extent fun _ => .done (works_decoded nofun rfl
      (usgDec_decodes _ _ _) (by omega) (usgDec_unk _ _ _)))
  | usgenc a =>
    have hpayload := usgPayload_payload s.start.record
    have hlen : (usgPayload s.start.record (usgFlag s.start.record)).length ≤ 3 := by
      rw [hpayload.1]; split <;> decide
    have hnotes := hpayload.notes_length_le_octets
    exact ends_of_body (exec_usgenc a s) (ends_extent fun hin => .done
      (works_stored (postsFew_of_length nofun hpayload.filed (by omega)) (Nat.not_lt.1 hin) rfl))
  | bssdec a b =>
    have hb := b.isLt
    exact ends_of_body (exec_bssdec a b s) (ends_extent fun hin => .done (works_decoded nofun rfl
      (bssDec_decodes _ _ _ (Nat.le_of_lt_succ hb)) (by omega)
      (bssDec_unk _ _ _ (Nat.not_lt.1 hin))))
  | bssenc a b =>
    have hpayload := bssPayload_payload s.start.record (b.getLsbD 1)
    have hlen := hpayload.1
    have hcount := s.start.record.bssN.isLt
    have hnotes := hpayload.notes_length_le_octets
    exact ends_of_body (exec_bssenc a b s) (ends_limits fun _ => ends_extent fun hin => .done
      (works_stored (postsFew_of_length nofun hpayload.filed (by omega))
        (by rw [hlen]; exact Nat.not_lt.1 hin) rfl))
  | macparse r text =>
    have hnote : PostsFew (.macparse r text) s.start [note .macText r.toNat] :=
      postsFew_note (by nofun) _ _
    refine ends_of_body rfl (ends_limits fun _ => ?_)
    cases macParse text with
    | some a =>
      exact .done (works_record postsFew_nil (keepsCounts_refl _) rfl (.inr rfl))
    | none =>
      exact .done (works_record hnote (keepsCounts_refl _) rfl (.inr rfl))
  | recdec => exact ends_of_body rfl (recDec_ends s.start)
  | recenc b1 b2 =>
    refine ends_of_body (exec_recenc b1 b2 s) (ends_limits fun _ => ?_)
    have hfit := recordOctets_fit s.start.record b1 b2
    have hnotes := recordNotes_length_le s.start.record b1 b2
    rw [recEnc_done]
    refine .done (works_sized (postsFew_of_length nofun (recordNotes_filed _ _ _) ?_) hfit rfl rfl rfl)
    rw [Config.hcap] at hfit
    omega
  | polchk r =>
    refine ends_of_body (exec_polchk r s) (ends_limits fun _ => .done (works_posted
      (postsFew_of_length nofun (advisories_filed _ _ _ _)
        ((advisories_length_le _ _ _ _).trans (by decide)))))

/-! ## The statements about every command -/

/-- Settles O9: an observer only responds, every other command runs its body. -/
theorem everyCommandTerminates : Obligations.EveryCommandTerminates := by
  intro i s
  cases h : Observes i with
  | true =>
    obtain ⟨p, hp⟩ := exec_observer s h
    exact ⟨_, hp⟩
  | false =>
    obtain ⟨e, he, -⟩ := exec_ends s h
    exact ⟨_, he⟩

section
variable {i : Instr} {s t : State}

/-- The one ending behind a next state. -/
theorem exec_finish (h : Observes i = false) (hexec : exec i s = .next t) :
    ∃ e, t = e.finish ∧ Ends i s.start e := by
  obtain ⟨e, he, hends⟩ := exec_ends s h
  cases he.symm.trans hexec
  exact ⟨e, rfl, hends⟩

theorem Works.status_eq (h : Works i s t) : t.status = s.status := by
  obtain ⟨es, m, n, c, r, rfl, -⟩ := h
  exact s.postAll_status es

theorem Works.pending_eq (h : Works i s t) : t.pending = s.pending := by
  obtain ⟨es, m, n, c, r, rfl, -⟩ := h
  exact s.postAll_pending es
end

/-- Settles O13: the start of a command makes STATUS OK, no body changes it, and a failure sets STATUS and
the response alike. -/
theorem responseStatusIsTheStatusRegister : Obligations.ResponseStatusIsTheStatusRegister := by
  intro i s t hobs hexec
  obtain ⟨e, rfl, hends⟩ := exec_finish hobs hexec
  cases hends with
  | @done t v h =>
    have hok : (Ended.done t v).finish.status = .ok := h.status_eq
    exact ⟨v, by rw [hok]; rfl, fun hne => absurd hok hne⟩
  | invalid => exact ⟨0, rfl, fun _ => rfl⟩
  | bounds => exact ⟨0, rfl, fun _ => rfl⟩
  | malformed => exact ⟨0, rfl, fun _ => rfl⟩
  | cut => exact ⟨0, rfl, fun _ => rfl⟩

/-- Settles O14: only RECDEC fails after it did something. -/
theorem failureLeavesTheState : Obligations.FailureLeavesTheState := by
  intro i s t hi hobs hexec hstatus
  obtain ⟨e, rfl, hends⟩ := exec_finish hobs hexec
  cases hends with
  | done h => exact absurd h.status_eq hstatus
  | invalid => rfl
  | bounds => rfl
  | malformed => rfl
  | cut h => exact absurd h hi

/-- Settles O15: the ending that names an octet is the reading accessors' alone. -/
theorem onlyAccessorsFailMalformed : Obligations.OnlyAccessorsFailMalformed := by
  intro i s t hobs hexec hstatus
  obtain ⟨e, rfl, hends⟩ := exec_finish hobs hexec
  cases hends with
  | done h => exact absurd (hstatus.symm.trans h.status_eq) nofun
  | invalid => cases hstatus
  | bounds => cases hstatus
  | malformed hi hj hbad => exact ⟨hi, _, hj, hbad, rfl⟩
  | cut => cases hstatus

/-! ## Which parts a command writes (R21 to R31) -/

section
variable {i : Instr} {s t : State}

/-- The parts of `t` that `i` does not write are those of `s`. -/
def LeavesOthers (i : Instr) (s t : State) : Prop :=
  (WritesBuffer i = false → t.hex = s.hex) ∧ (WritesLength i = false → t.hlen = s.hlen) ∧
  (WritesCursor i = false → t.cur = s.cur) ∧ (WritesRecord i = false → t.record = s.record) ∧
  (WritesUnknown i = false → t.record.unk = s.record.unk) ∧ t.pending = s.pending

/-- A part that the command writes or leaves is left when the command does not write it. -/
theorem left_of_or {α : Type} {b : Bool} {x y : α} (h : b = true ∨ x = y) : b = false → x = y :=
  fun hb => h.resolve_left (by rw [hb]; exact Bool.false_ne_true)

theorem Works.leavesOthers (h : Works i s t) : LeavesOthers i s t := by
  have hpending := h.pending_eq
  obtain ⟨es, m, n, c, r, rfl, -, -, -, hhex, hlen, hcur, hrec, hunk⟩ := h
  exact ⟨left_of_or hhex, left_of_or hlen, left_of_or hcur, left_of_or hrec, left_of_or hunk,
    hpending⟩

/-- What every ending leaves of the state before the command. -/
theorem Ends.leavesOthers {e : Ended} (h : Ends i s.start e) : LeavesOthers i s e.finish := by
  cases h with
  | done h => exact h.leavesOthers
  | invalid => exact ⟨fun _ => rfl, fun _ => rfl, fun _ => rfl, fun _ => rfl, fun _ => rfl, rfl⟩
  | bounds => exact ⟨fun _ => rfl, fun _ => rfl, fun _ => rfl, fun _ => rfl, fun _ => rfl, rfl⟩
  | malformed => exact ⟨fun _ => rfl, fun _ => rfl, fun _ => rfl, fun _ => rfl, fun _ => rfl, rfl⟩
  | cut hi h => exact h.leavesOthers
end

/-- Settles O16: an observer writes no part, and of the others `Works` names the parts. -/
theorem onlyTheNamedCommandsWriteEachPart : Obligations.OnlyTheNamedCommandsWriteEachPart := by
  intro i s t hexec
  cases h : Observes i with
  | true =>
    obtain ⟨p, hp⟩ := exec_observer s h
    cases hp.symm.trans hexec
    exact ⟨fun _ => rfl, fun _ => rfl, fun _ => rfl, fun _ => rfl, fun _ => rfl, rfl⟩
  | false =>
    obtain ⟨e, rfl, hends⟩ := exec_finish h hexec
    exact hends.leavesOthers

/-! ## The diagnostics of a command fit the list (R255) -/

section
variable {i : Instr} {s t : State}

/-- The list of a command stays within the bounds of R255 and does not overflow. -/
def ListFits (i : Instr) (olen : Nat) (t : State) : Prop :=
  t.dgovf = 0 ∧ t.diag.length ≤ 518 ∧ (i = .recdec → t.diag.length ≤ olen + 6)

theorem Works.listFits (hcap : s.hlen ≤ Config.hcap) (h : Works i s.start t) :
    ListFits i s.olen t := by
  obtain ⟨es, m, n, c, r, rfl, ⟨-, hfew⟩, -⟩ := h
  obtain ⟨hlen, hrecdec⟩ := hfew hcap
  rw [start_postAll s (hlen.trans (by decide))]
  exact ⟨rfl, hlen, hrecdec⟩

theorem Ends.listFits {e : Ended} (hcap : s.hlen ≤ Config.hcap) (h : Ends i s.start e) :
    ListFits i s.olen e.finish := by
  cases h with
  | @done t v h =>
    have hfits : ListFits i s.olen t := h.listFits hcap
    exact hfits
  | invalid => exact ⟨rfl, Nat.zero_le _, fun _ => Nat.zero_le _⟩
  | bounds => exact ⟨rfl, Nat.zero_le _, fun _ => Nat.zero_le _⟩
  | malformed hi => exact ⟨rfl, Nat.le_add_left 1 517, fun _ => Nat.le_add_left 1 _⟩
  | @cut t hi h =>
    have hfits : ListFits i s.olen t := h.listFits hcap
    exact hfits
end

/-- Settles O19: a command starts with an empty list and posts few enough entries for it, whatever the
count of slots is. -/
theorem diagnosticsNeverOverflow : Obligations.DiagnosticsNeverOverflow := by
  intro i s t hcap _ hobs hexec
  obtain ⟨e, rfl, hends⟩ := exec_finish hobs hexec
  exact hends.listFits hcap

/-! ## The invariant -/

/-- Settles O2: every count of the reset state is 0 and every list empty. -/
theorem resetSatisfiesTheInvariant : Obligations.ResetSatisfiesTheInvariant where
  canonical := reset_memory_wf
  inside := fun _ h => absurd h List.not_mem_nil
  length := Nat.zero_le _
  slots := Nat.zero_le _
  unknown := Nat.zero_le _
  entries := Nat.zero_le _
  filed := fun _ h => absurd h List.not_mem_nil
  overflow := fun h => absurd h (by decide)

section
variable {i : Instr} {s t : State}

/-- STATUS, the packets and the response are no part of the invariant. -/
theorem State.Inv.with_port (h : s.Inv) (st : Status) (ps : List Packet) (r : Option Response) :
    State.Inv { s with status := st, pending := ps, resp := r } :=
  ⟨h.canonical, h.inside, h.length, h.slots, h.unknown, h.entries, h.filed, h.overflow⟩

theorem State.Inv.start (h : s.Inv) : s.start.Inv :=
  ⟨h.canonical, h.inside, h.length, h.slots, h.unknown, Nat.zero_le _,
    fun _ he => absurd he List.not_mem_nil, fun ho => absurd ho (by rw [State.start_dgovf]; decide)⟩

theorem Works.inv (hinv : s.Inv) (h : Works i s t) : t.Inv := by
  obtain ⟨es, m, n, c, r, rfl, ⟨hfiled, -⟩, ⟨hwf, hbuffer⟩, ⟨hslots, hunk⟩, -⟩ := h
  exact {
    canonical := hwf hinv.canonical
    inside := (hbuffer hinv.length).2 hinv.inside
    length := (hbuffer hinv.length).1
    slots := hslots hinv.slots
    unknown := hunk hinv.unknown
    entries := s.postAll_cap es hinv.entries
    filed := fun e he => (s.mem_postAll es he).elim (hinv.filed e) (hfiled e)
    overflow := s.postAll_dgovf es hinv.overflow hinv.entries }

theorem Ends.inv {e : Ended} (hinv : s.Inv) (h : Ends i s.start e) : e.finish.Inv := by
  cases h with
  | done h => exact (h.inv hinv.start).with_port _ _ _
  | invalid => exact hinv.start.with_port _ _ _
  | bounds => exact hinv.start.with_port _ _ _
  | @malformed j =>
    have hnote : Works .nop s.start (s.start.post .hexDigit j) :=
      works_posted (postsFew_note (by nofun) .hexDigit j)
    exact (hnote.inv hinv.start).with_port _ _ _
  | cut hi h => exact (h.inv hinv.start).with_port _ _ _

/-- Every command keeps the invariant. -/
theorem exec_inv (hinv : s.Inv) (hexec : exec i s = .next t) : t.Inv := by
  cases h : Observes i with
  | true =>
    obtain ⟨p, hp⟩ := exec_observer s h
    cases hp.symm.trans hexec
    exact hinv.with_port _ _ _
  | false =>
    obtain ⟨e, rfl, hends⟩ := exec_finish h hexec
    exact hends.inv hinv
end

/-! ## The step (R100 to R104) -/

section
variable {s : State} {p : Packet} {op : Byte} {body : List Byte} {rest : List Packet} {i : Instr}

theorem step_idle (h : s.pending = []) : step s = .next s := by
  rw [step, fetch, h]

theorem step_decoded (h : s.pending = p :: rest) (hp : decode p = .ok i) :
    step s = exec i { s with pending := rest } := by
  rw [step, fetch, h]
  simp only [hp]

theorem step_empty (h : s.pending = [] :: rest) : step s = .fault .emptyPacket := by
  rw [step, fetch, h]
  rfl

theorem step_unassigned (hop : ¬Assigned op) (h : s.pending = (op :: body) :: rest) :
    step s = .next (State.rejected { s with pending := rest } .invalid []) := by
  rw [step, fetch, h]
  simp only [decode_unassigned body hop]
  exact congrArg _ (runCommand_invalid rfl)

theorem step_badLength (h : s.pending = (op :: body) :: rest)
    (hp : decode (op :: body) = .error (.badLength op)) : step s = .refused (.packetLength op) := by
  rw [step, fetch, h]
  simp only [hp]

/-- What a step can do, all of it. -/
theorem step_cases (s : State) :
    (s.pending = [] ∧ step s = .next s) ∨
    (∃ rest, s.pending = [] :: rest ∧ step s = .fault .emptyPacket) ∨
    ∃ op body rest, s.pending = (op :: body) :: rest ∧
      ((¬Assigned op ∧ step s = .next (State.rejected { s with pending := rest } .invalid [])) ∨
       (∃ i, decode (op :: body) = .ok i ∧ step s = exec i { s with pending := rest }) ∨
       (Assigned op ∧ (∀ i, decode (op :: body) ≠ .ok i) ∧
         step s = .refused (.packetLength op))) := by
  match h : s.pending with
  | [] => exact .inl ⟨rfl, step_idle h⟩
  | [] :: rest => exact .inr (.inl ⟨rest, rfl, step_empty h⟩)
  | (op :: body) :: rest =>
    refine .inr (.inr ⟨op, body, rest, rfl, ?_⟩)
    by_cases hop : Assigned op
    · rcases decode_assigned_cases body hop with ⟨i, hi⟩ | ⟨hbad, hno⟩
      · exact .inr (.inl ⟨i, hi, step_decoded h hi⟩)
      · exact .inr (.inr ⟨hop, hno, step_badLength h hbad⟩)
    · exact .inl ⟨hop, step_unassigned hop h⟩
end

/-- Settles O8: the decoder's instruction is what runs. -/
theorem stepRunsTheDecodedInstruction : Obligations.StepRunsTheDecodedInstruction :=
  fun _ _ _ _ => step_decoded

/-- Settles O3: a step idles, refuses an unassigned code, or runs a command, and each keeps the
invariant. -/
theorem stepKeepsTheInvariant : Obligations.StepKeepsTheInvariant := by
  intro s t hinv hstep
  rcases step_cases s with ⟨-, h⟩ | ⟨rest, -, h⟩ | ⟨op, body, rest, -,
    ⟨-, h⟩ | ⟨i, -, h⟩ | ⟨-, -, h⟩⟩
  · cases h.symm.trans hstep
    exact hinv
  · cases h.symm.trans hstep
  · cases h.symm.trans hstep
    exact hinv.start.with_port _ _ _
  · exact exec_inv (hinv.with_port s.status rest s.resp) (h.symm.trans hstep)
  · cases h.symm.trans hstep

/-- Settles O10: each outcome of a step is that of one case of `step_cases`, since every command
answers a next state. -/
theorem stepStopsOnlyOnPacketsThatAreNoCommand :
    Obligations.StepStopsOnlyOnPacketsThatAreNoCommand := by
  intro s
  refine ⟨step_idle, fun φ => ⟨fun hfault => ?_, ?_⟩, fun ρ => ⟨fun hrefused => ?_, ?_⟩⟩
  · rcases step_cases s with ⟨-, h⟩ | ⟨rest, hpending, h⟩ | ⟨op, body, rest, -,
      ⟨-, h⟩ | ⟨i, -, h⟩ | ⟨-, -, h⟩⟩
    · cases h.symm.trans hfault
    · cases h.symm.trans hfault
      exact ⟨rfl, rest, hpending⟩
    · cases h.symm.trans hfault
    · obtain ⟨t, ht⟩ := everyCommandTerminates i { s with pending := rest }
      cases (h.trans ht).symm.trans hfault
    · cases h.symm.trans hfault
  · rintro ⟨rfl, rest, hpending⟩
    exact step_empty hpending
  · rcases step_cases s with ⟨-, h⟩ | ⟨rest, -, h⟩ | ⟨op, body, rest, hpending,
      ⟨-, h⟩ | ⟨i, -, h⟩ | ⟨hop, hno, h⟩⟩
    · cases h.symm.trans hrefused
    · cases h.symm.trans hrefused
    · cases h.symm.trans hrefused
    · obtain ⟨t, ht⟩ := everyCommandTerminates i { s with pending := rest }
      cases (h.trans ht).symm.trans hrefused
    · cases h.symm.trans hrefused
      exact ⟨op, body, rest, hpending, hop, hno, rfl⟩
  · rintro ⟨op, body, rest, hpending, hop, hno, rfl⟩
    rcases decode_assigned_cases body hop with ⟨i, hi⟩ | ⟨hbad, -⟩
    · exact absurd hi (hno i)
    · exact step_badLength hpending hbad

/-- Settles O11: the limits of each rule are checked before anything else. -/
theorem unassignedAndIllFormedCommandsAreRefused :
    Obligations.UnassignedAndIllFormedCommandsAreRefused := by
  refine ⟨fun s op body rest hop hpending => step_unassigned hop hpending, fun i s hbad => ?_⟩
  cases i with
  | ldhex r text => exact (ldhexStoresTheText r text s).2.1 hbad
  | rwr r v => exact (rwrWritesTheNumberedRegister r v s).2.1 hbad
  | rdbits a b => exact (rdbitsReadsStreamBits a b s).2.1 hbad
  | wrbits a b v => exact (wrbitsWritesStreamBits a b v s).2.1 hbad
  | rdmoi a b => exact (rdmoiReadsBigEndian a b s).2.1 hbad
  | wrmoi a b v => exact (wrmoiWritesBigEndian a b v s).2.1 hbad
  | fxenc w f v => exact (fxencRoundsAndClamps w f v s).2.1 hbad
  | fxdec w f v => exact (fxdecSignExtendsExactly w f v s).2.1 hbad
  | uncenc m x c v => exact (uncencTakesTheLogarithm m x c v s).2.1 hbad
  | uncdec m x c v => exact (uncdecAnswersThePower m x c v s).2.1 hbad
  | locenc a b => exact (locencEncodesTheLocation a b s).2.1 hbad
  | flrenc a b => exact (flrencEncodesTheFloor a b s).2.1 hbad
  | bssenc a b => exact (bssencEncodesTheAddresses a b s).2.1 hbad
  | macparse r text => exact exec_macparse_refused hbad
  | recenc b1 b2 => exact (recencWritesTheSelectedSubelements b1 b2 s).2.1 hbad
  | polchk r => exact (polchkReportsIncompatibilities r s).2.1 hbad
  | _ => exact absurd hbad id

end Sys2Proof.Machine
end

section
/-! PROOFS. The statements of the canonical address text (spec/46_bssid.md R206, R207): what MACFMT
formats, and that MACPARSE reads it back. -/

namespace Sys2Proof.Machine

/-! ## The canonical text (R94, R206) -/

theorem octetText_eq (a : BitVec 48) (k : Nat) :
    octetText a k = hexText [a.extractLsb' (40 - 8 * k) 8] := by
  rw [octetText, hexchar_high, hexchar_low]
  rfl

/-- `MacFmt` makes the canonical text (R206). -/
theorem macFmt_eq (a : BitVec 48) : macFmt a = canonicalText a := by
  simp only [macFmt, canonicalText, octetText_eq]
  rfl

/-- Two lowercase digits write the octet they store. -/
theorem textOctet_lowerDigits {text : List Byte} {i : Nat} {o : Byte}
    (hhigh : text[i]? = some (lowerDigit (o.toNat / 16)))
    (hlow : text[i + 1]? = some (lowerDigit (o.toNat % 16))) : textOctet text i = some o := by
  have ho := o.isLt
  have hnibbles : BitVec.ofNat 4 (o.toNat / 16) ++ BitVec.ofNat 4 (o.toNat % 16) = o := by
    apply BitVec.eq_of_toNat_eq
    rw [toNat_append_eq, BitVec.toNat_ofNat, BitVec.toNat_ofNat]
    omega
  simp only [textOctet, hhigh, hlow, Option.bind_some, hexval_lowerDigit (by omega : o.toNat / 16 < 16),
    hexval_lowerDigit (by omega : o.toNat % 16 < 16), hnibbles]

/-- The canonical text is six pairs with a colon after each of the first five. -/
theorem canonicalText_isAddressText (a : BitVec 48) : IsAddressText (canonicalText a) a := by
  refine .inr ⟨rfl, fun k hk => .inl ?_, fun k hk => textOctet_lowerDigits ?_ ?_⟩
  · interval_cases k <;> rfl
  · interval_cases k <;> rfl
  · interval_cases k <;> rfl

/-! ## The statements of the canonical text (R205 to R207) -/

/-- Settles O54: the slot number decides, and `MacFmt` makes the canonical text. -/
theorem macfmtAnswersTheCanonicalText : Obligations.MacfmtAnswersTheCanonicalText := by
  intro r s
  have meaning : exec (.macfmt r) s = execMacfmt r s := rfl
  refine ⟨rfl, fun hout => ?_, fun hin => ⟨_, rfl, ?_⟩⟩
  · rw [meaning, execMacfmt, if_pos hout]
  · rw [meaning, execMacfmt, if_neg (Nat.not_le.2 hin), ← macFmt_eq]

/-- Settles O55: the canonical text is a text form, and MACPARSE reads every text form. -/
theorem canonicalTextParsesBack : Obligations.CanonicalTextParsesBack := by
  intro a r s hslot
  have htext := canonicalText_isAddressText a
  exact ⟨htext, exec_macparse_address hslot (macParse_eq_some_iff.2 htext)⟩

end Sys2Proof.Machine
end

section
/-! PROOFS. The round trips of the quantizers (spec/41_quantizers.md R152, R153): the code of a decoded
field is the field, and the value of an unclamped code is near the value encoded. -/

namespace Sys2Proof.Machine

/-! ## Fixed point (R142, R143) -/

section
variable {v : Phys} {w f fld raw r : Nat} {n : ℤ} {ds : List DiagEntry}

/-- An integer is its own rounding (R141). -/
theorem isRound_intCast (n : ℤ) : IsRound (n : ℚ) n := by
  simp [IsRound]

/-- An integer in the range of a field is kept. -/
theorem clampTo_eq_self_iff :
    clampTo w n = n ↔ -(2 ^ (w - 1)) ≤ n ∧ n < 2 ^ (w - 1) := by
  have hpos : (0 : ℤ) < 2 ^ (w - 1) := by positivity
  unfold clampTo
  omega

/-- The pattern of a number in range stands for the number, and the number of a pattern has that
pattern (R7, R142). -/
theorem signed_pattern (hw : 1 ≤ w) (hlo : -(2 ^ (w - 1)) ≤ n) (hhi : n < 2 ^ (w - 1)) :
    signed w (n % 2 ^ w).toNat = n := by
  have hpow : (2 : ℤ) ^ w = 2 * 2 ^ (w - 1) := by
    rw [← pow_succ', Nat.sub_add_cancel hw]
  have hbits : BitVec.ofNat w (n % 2 ^ w).toNat = BitVec.ofInt w n := by
    apply BitVec.eq_of_toNat_eq
    rw [BitVec.toNat_ofInt, BitVec.toNat_ofNat]
    exact Nat.mod_eq_of_lt (by
      have hlt := Int.emod_lt_of_pos n (show (0 : ℤ) < 2 ^ w by positivity)
      have hnn := Int.emod_nonneg n (show (2 : ℤ) ^ w ≠ 0 by positivity)
      zify
      rwa [Int.toNat_of_nonneg hnn])
  rw [signed, hbits, BitVec.toInt_ofInt]
  exact Int.bmod_eq_of_le (by push_cast; omega) (by push_cast; omega)

theorem pattern_signed (hr : r < 2 ^ w) : (signed w r % 2 ^ w).toNat = r := by
  have hnat : (BitVec.ofNat w r).toNat = r := toNat_ofNat_lt hr
  have hemod : signed w r % (2 ^ w : ℤ) = r := by
    rw [signed, BitVec.toInt_eq_toNat_bmod, hnat]
    have hmod : (r : ℤ).bmod (2 ^ w) % ((2 ^ w : ℕ) : ℤ) = r % ((2 ^ w : ℕ) : ℤ) := Int.bmod_emod
    rw [Nat.cast_pow, Nat.cast_ofNat] at hmod
    exact hmod.trans (Int.emod_eq_of_lt (by positivity) (by exact_mod_cast hr))
  rw [hemod, Int.toNat_natCast]

/-- The code of the value of a pattern is the pattern, without a report (R153). -/
theorem FixCode.of_fixValue (h : FixCode v w f fld raw ds) (hr : r < 2 ^ w)
    (hv : value v = fixValue r w f) : raw = r ∧ ds = [] := by
  obtain ⟨n, hround, rfl, rfl⟩ := h
  have hscaled : value v * 2 ^ f = (signed w r : ℚ) := by
    rw [hv, fixValue]
    field_simp
  rw [hscaled] at hround
  obtain rfl := hround.unique (isRound_intCast _)
  have hkeep : clampTo w (signed w r) = signed w r := clampTo_eq_self_iff.2 signed_range
  exact ⟨by rw [hkeep, pattern_signed hr], if_pos hkeep⟩

/-- The value of an unreported code lies within half a unit of the last place (R153). -/
theorem FixCode.near (h : FixCode v w f fld raw []) (hw : 1 ≤ w) :
    |fixValue raw w f - value v| ≤ 1 / 2 ^ (f + 1) := by
  obtain ⟨n, ⟨hnear, -⟩, rfl, hds⟩ := h
  have hkeep : clampTo w n = n := by
    by_contra hne
    rw [if_neg hne] at hds
    cases hds
  obtain ⟨hlo, hhi⟩ := clampTo_eq_self_iff.1 hkeep
  have hpos : (0 : ℚ) < 2 ^ f := by positivity
  have hdiff : fixValue (clampTo w n % 2 ^ w).toNat w f - value v =
      -((value v * 2 ^ f - n) / 2 ^ f) := by
    rw [fixValue, hkeep, signed_pattern hw hlo hhi]
    field_simp
    ring
  rw [hdiff, abs_neg, abs_div, abs_of_pos hpos, div_le_iff₀ hpos]
  refine hnear.trans (le_of_eq ?_)
  rw [pow_succ]
  field_simp
end

/-! ## Uncertainty (R146 to R148) -/

section
variable {v : Phys} {m : ℤ} {max fld code c : Nat} {zs : Bool} {ds : List DiagEntry}

theorem isClog2_zpow (k : ℤ) : IsClog2 ((2 : ℚ) ^ k) k :=
  ⟨zpow_lt_zpow_right₀ (by norm_num) (by omega), le_rfl⟩

/-- The code of 0 is 0, and the largest under the policy bit (R147). -/
theorem UncCode.of_zero (h : UncCode v m max zs fld code ds) (hv : value v = 0) :
    code = (if zs then max else 0) ∧ ds = [] := by
  rcases h with ⟨hneg, -⟩ | ⟨-, hcode, hds⟩ | ⟨hpos, -⟩
  · exact absurd hv hneg.ne
  · exact ⟨hcode, hds⟩
  · exact absurd hv hpos.ne'

/-- The code of a power of two that a valid code stands for is that code (R152). -/
theorem UncCode.of_zpow (h : UncCode v m max zs fld code ds) (hc : 1 ≤ c) (hmax : c ≤ max)
    (hv : value v = (2 : ℚ) ^ (m - c)) : code = c ∧ ds = [] := by
  have hpos : 0 < value v := hv ▸ zpow_pos (by norm_num) _
  rcases h with ⟨hneg, -⟩ | ⟨hzero, -⟩ | ⟨-, k, hk, hcases⟩
  · exact absurd hneg hpos.le.not_gt
  · exact absurd hzero hpos.ne'
  · rw [hv] at hk
    obtain rfl := hk.unique (isClog2_zpow _)
    rcases hcases with ⟨hlow, -⟩ | ⟨hhigh, -⟩ | ⟨-, -, hcode, hds⟩
    · omega
    · omega
    · exact ⟨by omega, hds⟩

/-- The code of a decoded code, reserved ones and 0 included (R152). -/
theorem UncCode.of_uncValue (h : UncCode v m max zs fld code ds) (hmax : 1 ≤ max)
    (hv : value v = uncValue c m max) :
    code = (if c = 0 then (if zs then max else 0) else min c max) ∧ ds = [] := by
  rw [uncValue] at hv
  by_cases hc : c = 0
  · rw [if_pos hc] at hv ⊢
    exact h.of_zero hv
  · rw [if_neg hc] at hv ⊢
    exact h.of_zpow (by omega) (by omega) hv

/-- An unreported code of a positive value is a valid one, and stands for at least the value (R152). -/
theorem UncCode.ge (h : UncCode v m max zs fld code []) (hv : 0 < value v) :
    1 ≤ code ∧ code ≤ max ∧ value v ≤ uncValue code m max := by
  rcases h with ⟨hneg, -⟩ | ⟨hzero, -⟩ | ⟨-, k, hk, ⟨-, -, hds⟩ | ⟨-, -, hds⟩ |
    ⟨hlo, hhi, hcode, -⟩⟩
  · exact absurd hneg hv.le.not_gt
  · exact absurd hzero hv.ne'
  · cases hds
  · cases hds
  · have hvalid : min code max = code := by omega
    have hexp : m - ((min code max : Nat) : ℤ) = k := by omega
    refine ⟨by omega, by omega, ?_⟩
    rw [uncValue, if_neg (by omega), hexp]
    exact hk.2
end

/-! ## The commands one after the other -/

/-- An answer determines what was posted and the value. -/
theorem answered_inj {s : State} {ds es : List DiagEntry} {v w : Word64}
    (h : s.answered ds v = s.answered es w) : ds = es ∧ v = w := by
  simp only [State.answered, State.mk.injEq, Option.some.injEq, Response.mk.injEq] at h
  obtain ⟨-, -, -, -, -, hds, -, -, -, hv, -⟩ := h
  exact ⟨hds, hv⟩

/-- Settles O41: within the limits of FXDEC both commands complete, and `FixCode` says what the code of
the decoded value and the value of the code are. -/
theorem fixedPointRoundTrips : Obligations.FixedPointRoundTrips := by
  intro w f s hw1 hw2 hf hwf
  refine ⟨fun r hr => ?_, fun v raw henc => ?_⟩
  · obtain ⟨p, hp, hdec⟩ := (fxdecSignExtendsExactly w f r s).2.2 hw1 hw2 hf hwf
    obtain ⟨raw, ds, hcode, henc⟩ := (fxencRoundsAndClamps w f p s).2.2 hw1 hw2 (by omega)
    rw [Nat.mod_eq_of_lt hr] at hp
    obtain ⟨rfl, rfl⟩ := hcode.of_fixValue hr hp
    exact ⟨p, hdec, by rw [henc, BitVec.ofNat_toNat, BitVec.setWidth_eq]⟩
  · obtain ⟨raw', ds, hcode, henc'⟩ := (fxencRoundsAndClamps w f v s).2.2 hw1 hw2 (by omega)
    obtain ⟨rfl, rfl⟩ := answered_inj (Host.Outcome.next.inj (henc'.symm.trans henc))
    obtain ⟨p, hp, hdec⟩ := (fxdecSignExtendsExactly w f (BitVec.ofNat 64 raw') s).2.2 hw1 hw2 hf hwf
    have hlt := hcode.lt
    have hnat : (BitVec.ofNat 64 raw').toNat = raw' :=
      toNat_ofNat_lt (hlt.trans_le (Nat.pow_le_pow_right (by decide) hw2))
    rw [hnat, Nat.mod_eq_of_lt hlt] at hp
    exact ⟨p, hdec, hp ▸ hcode.near hw1⟩

/-- The policy bit of an admitted cfg is its number. -/
theorem getLsbD_zero_iff {c : BitVec 8} (hc : c.toNat < 2) : c.getLsbD 0 = true ↔ c = 1 := by
  rw [BitVec.getLsbD, Nat.testBit_zero, decide_eq_true_iff, ← BitVec.toNat_inj,
    Nat.mod_eq_of_lt hc]
  rfl

/-- Settles O40: within the limits of UNCDEC both commands complete, and `UncCode` says what the code of
the decoded value and the value of the code are. -/
theorem uncertaintyCodesRoundTrip : Obligations.UncertaintyCodesRoundTrip := by
  intro m x c s hx hc hm hmx
  have hmax : 1 ≤ x.toNat := Nat.pos_of_ne_zero fun h => hx (BitVec.eq_of_toNat_eq h)
  have hxlt := x.isLt
  refine ⟨fun v hv => ?_, fun v code hpos henc => ?_⟩
  · obtain ⟨p, hp, hdec⟩ := (uncdecAnswersThePower m x 0 v s).2.2 hx rfl hv hm hmx
    obtain ⟨code, ds, hcode, henc⟩ := (uncencTakesTheLogarithm m x c p s).2.2 hx hc
    obtain ⟨rfl, rfl⟩ := hcode.of_uncValue hmax hp
    refine ⟨p, _, hdec, ?_⟩
    have hzero : v.toNat = 0 ↔ v = 0 := by rw [← BitVec.toNat_inj]; rfl
    have hlargest : BitVec.ofNat 64 x.toNat = x.setWidth 64 := BitVec.ofNat_toNat 64 x
    rw [henc]
    congr 2
    simp only [hzero, getLsbD_zero_iff hc]
    by_cases h0 : v = 0
    · simp only [if_pos h0]
      split
      · exact hlargest
      · rfl
    · simp only [if_neg h0]
      split
      · next hbig => rw [Nat.min_eq_right hbig.le, hlargest]
      · next hle =>
        rw [Nat.min_eq_left (Nat.not_lt.1 hle), BitVec.ofNat_toNat, BitVec.setWidth_eq]
  · obtain ⟨code', ds, hcode, henc'⟩ := (uncencTakesTheLogarithm m x c v s).2.2 hx hc
    obtain ⟨rfl, rfl⟩ := answered_inj (Host.Outcome.next.inj (henc'.symm.trans henc))
    obtain ⟨-, hle, hge⟩ := hcode.ge hpos
    have hnat : (BitVec.ofNat 64 code').toNat = code' := toNat_ofNat_lt (by omega)
    obtain ⟨p, hp, hdec⟩ := (uncdecAnswersThePower m x 0 (BitVec.ofNat 64 code') s).2.2 hx rfl
      (by omega) hm hmx
    rw [hnat] at hp hdec
    have hnotes : uncNotes code' x.toNat 0 = [] := if_neg (Nat.not_lt.2 hle)
    rw [hnotes] at hdec
    exact ⟨p, hdec, hp ▸ hge⟩

end Sys2Proof.Machine
end

section
/-! PROOFS. The framer's walk (spec/42_framer.md R160): the cursor only grows, so a walk within its
bound has ended. -/

namespace Sys2Proof.Machine

section
variable {s t : State} {r : Frame}

/-- A framer step keeps the buffer and moves the cursor forward inside it, over a subelement by two
at least (R160). -/
theorem frNext_moves (hcap : s.hlen ≤ Config.hcap) (hcur : s.cur.toNat ≤ s.olen)
    (h : frNext s = (t, r)) :
    t.hlen = s.hlen ∧ s.cur.toNat ≤ t.cur.toNat ∧ t.cur.toNat ≤ s.olen ∧
      ∀ id len p, r = .sub id len p → s.cur.toNat + 2 ≤ t.cur.toNat := by
  have hstay : ∀ q, (∀ id len p, q ≠ Frame.sub id len p) → frNext s = (s, q) →
      t.hlen = s.hlen ∧ s.cur.toNat ≤ t.cur.toNat ∧ t.cur.toNat ≤ s.olen ∧
        ∀ id len p, r = .sub id len p → s.cur.toNat + 2 ≤ t.cur.toNat := by
    intro q hq hstep
    obtain ⟨rfl, rfl⟩ := Prod.mk.inj (h.symm.trans hstep)
    exact ⟨rfl, le_rfl, hcur, fun id len p hr => absurd hr (hq id len p)⟩
  rcases Nat.lt_or_ge s.olen (s.cur.toNat + 2) with hnear | hin
  · by_cases hend : s.cur.toNat = s.olen
    · exact hstay .exhausted nofun (frNext_exhausted hend)
    · exact hstay .outOfBounds nofun (frNext_outOfBounds (.inr (by omega)))
  · rcases frNext_framing hin with ⟨c, n, -, hstep⟩ | ⟨-, hfits, hstep⟩
    · obtain ⟨rfl, rfl⟩ := Prod.mk.inj (h.symm.trans hstep)
      have hnew := toNat_ofNat_le_olen hcap (le_refl s.olen)
      exact ⟨State.post_hlen .., hcur.trans hnew.ge, hnew.le, nofun⟩
    · obtain ⟨rfl, rfl⟩ := Prod.mk.inj (h.symm.trans hstep)
      have hnew := toNat_ofNat_le_olen hcap hfits
      exact ⟨rfl, by simp only [hnew]; omega, by simp only [hnew]; omega,
        fun _ _ _ _ => by simp only [hnew]; omega⟩

theorem dispatch_cur (s : State) (id len : Byte) (p : Nat) : (dispatch s id len p).cur = s.cur := by
  rw [(dispatch_decodes s id len p).frame]

theorem dispatch_hlen (s : State) (id len : Byte) (p : Nat) :
    (dispatch s id len p).hlen = s.hlen := by
  rw [(dispatch_decodes s id len p).frame]

theorem dispatch_olen (s : State) (id len : Byte) (p : Nat) :
    (dispatch s id len p).olen = s.olen := by
  rw [State.olen, dispatch_hlen, State.olen]

/-- One step more than the bound changes no walk: each subelement takes two octets at least, and past
the end there is no step at all (R160). -/
theorem walk_succ (n : Nat) (s : State) (hcap : s.hlen ≤ Config.hcap)
    (hn : (s.olen - s.cur.toNat) / 2 + 1 ≤ n) : walk (n + 1) s = walk n s := by
  induction n generalizing s with
  | zero => omega
  | succ n ih =>
    rcases hstep : frNext s with ⟨t, r⟩
    cases r with
    | exhausted => simp only [walk, hstep]
    | halted => simp only [walk, hstep]
    | outOfBounds => simp only [walk, hstep]
    | sub id len p =>
      have hcur : s.cur.toNat ≤ s.olen := by
        by_contra hpast
        rw [frNext_outOfBounds (.inl (by omega))] at hstep
        cases hstep
      obtain ⟨hlen, -, hinside, hmoves⟩ := frNext_moves hcap hcur hstep
      have htwo := hmoves id len p rfl
      rw [walk, hstep, walk, hstep]
      refine ih _ (by rw [dispatch_hlen, hlen]; exact hcap) ?_
      rw [dispatch_olen, dispatch_cur, State.olen, hlen]
      rw [State.olen] at hcur hinside hn
      omega
end

/-- Settles O43, by the step's own facts and by induction on the number of steps past the bound. -/
theorem walkEndsWithinItsBound : Obligations.WalkEndsWithinItsBound := by
  refine fun s hcap => ⟨fun t r hcur h => ?_, fun n hn => ?_⟩
  · obtain ⟨hlen, hmoves⟩ := frNext_moves hcap hcur h
    exact ⟨congrArg (· / 2) hlen, hmoves⟩
  induction n, hn using Nat.le_induction with
  | base => rfl
  | succ n hn ih => rw [walk_succ n s hcap hn, ih]

end Sys2Proof.Machine
end

section
/-! PROOFS. What the dispatch makes of one subelement (spec/42_framer.md R163): the entries and the record
are a matter of the buffer and of the record before, and they are those of the subelement's own
command. -/

namespace Sys2Proof.Machine

/-! ## What is read off the characters alone -/

section
variable {s t : State} {p n : Nat}

theorem digitsOk_congr (h : t.hex = s.hex) : t.digitsOk = s.digitsOk := by
  funext i; simp only [State.digitsOk, State.chr, h]

theorem octet_congr (h : t.hex = s.hex) : t.octet = s.octet := by
  funext i; simp only [State.octet, State.chr, h]

theorem octets_congr (h : t.hex = s.hex) : t.octets p n = s.octets p n := by
  simp only [State.octets, octet_congr h]

theorem firstBad_congr (h : t.hex = s.hex) : t.firstBad p n = s.firstBad p n := by
  simp only [State.firstBad, digitsOk_congr h]

theorem bssSlotAt_congr (h : t.hex = s.hex) (i : Nat) : bssSlotAt t p i = bssSlotAt s p i := by
  simp only [bssSlotAt, firstBad_congr h, octets_congr h]

theorem bssDecNotes_congr (h : t.hex = s.hex) (q : Record) :
    bssDecNotes t q p n = bssDecNotes s q p n := by
  simp only [bssDecNotes, firstBad_congr h, digitsOk_congr h, octet_congr h]

theorem bssDecoded_congr (h : t.hex = s.hex) (q : Record) :
    bssDecoded t q p n = bssDecoded s q p n := by
  simp only [bssDecoded, decodedSlots, bssSlotAt_congr h, digitsOk_congr h, octet_congr h]

theorem olen_congr (h : t.hlen = s.hlen) : t.olen = s.olen := congrArg (· / 2) h
end

/-! ## How a payload is taken -/

/-- The decoder `d` posts `es` and makes the record `r` in every state that has the buffer of `s` and
the record `q`. -/
def Takes (d : State → State) (s : State) (q : Record) (es : List DiagEntry) (r : Record) : Prop :=
  ∀ t : State, t.hex = s.hex → t.hlen = s.hlen → t.record = q → d t = t.committed es r

/-- The decoder `d` takes what it finds in the buffer of `s` with entries that fit the list, and the
unknown list is not its own (R31). -/
def Decoder (d : State → State) (s : State) (q : Record) : Prop :=
  ∃ es r, Takes d s q es r ∧ es.length ≤ Config.diagCap ∧ r.unk = q.unk

section
variable {s : State} {q : Record} {p len : Nat}

theorem locDec_decoder (hin : p + len ≤ s.olen) : Decoder (locDec · p len) s q := by
  by_cases h0 : len = 0
  · exact ⟨_, clearLoc q, fun t _ _ hq => hq ▸ locDec_absent t h0,
      (duplicateNotes_length_le _ _).trans (by decide), rfl⟩
  by_cases h16 : len = 16
  · have hinside {t : State} (hl : t.hlen = s.hlen) : p + len ≤ t.olen := olen_congr hl ▸ hin
    cases hbad : s.firstBad p 16 with
    | some j =>
      exact ⟨_, q, fun t hh hl hq => hq ▸ locDec_bad_digit t h16 (hinside hl)
        ((firstBad_congr hh).trans hbad), by simp, rfl⟩
    | none =>
      refine ⟨_, commitLoc q (locFields (s.octets p 16)), fun t hh hl hq => ?_,
        locDecNotes_length_le q (s.octets p 16), rfl⟩
      rw [← hq, ← octets_congr hh]
      exact locDec_readable t h16 (hinside hl) ((firstBad_congr hh).trans hbad)
  · exact ⟨_, q, fun t _ _ hq => hq ▸ locDec_wrong_length t h0 h16, by simp, rfl⟩

theorem flrDec_decoder (hin : p + len ≤ s.olen) : Decoder (flrDec · p len) s q := by
  by_cases hlen : len = 6 ∨ len = 5
  · have hinside {t : State} (hl : t.hlen = s.hlen) : p + len ≤ t.olen := olen_congr hl ▸ hin
    cases hbad : s.firstBad p len with
    | some j =>
      exact ⟨_, q, fun t hh hl hq => hq ▸ flrDec_bad_digit t hlen (hinside hl)
        ((firstBad_congr hh).trans hbad), by simp, rfl⟩
    | none =>
      refine ⟨_, commitFlr q (flrFields (s.octets p len)), fun t hh hl hq => ?_,
        flrDecNotes_length_le q.flrP (flrCode (s.octets p len)), rfl⟩
      rw [← hq, ← octets_congr hh]
      exact flrDec_readable t hlen (hinside hl) ((firstBad_congr hh).trans hbad)
  · exact ⟨_, q, fun t _ _ hq => hq ▸ flrDec_wrong_length t (fun h => hlen (.inl h))
      (fun h => hlen (.inr h)), by simp, rfl⟩

theorem usgDec_decoder (hin : p + len ≤ s.olen) : Decoder (usgDec · p len) s q := by
  by_cases hlen : len = 1 ∨ len = 3
  · have hinside {t : State} (hl : t.hlen = s.hlen) : p + len ≤ t.olen := olen_congr hl ▸ hin
    cases hbad : s.firstBad p len with
    | some j =>
      exact ⟨_, q, fun t hh hl hq => hq ▸ usgDec_bad_digit t hlen (hinside hl)
        ((firstBad_congr hh).trans hbad), by simp, rfl⟩
    | none =>
      refine ⟨_, usgDecoded q (s.octets p len), fun t hh hl hq => ?_,
        usgDecNotes_length_le q (s.octets p len), rfl⟩
      rw [← hq, ← octets_congr hh]
      exact usgDec_readable t hlen (hinside hl) ((firstBad_congr hh).trans hbad)
  · exact ⟨_, q, fun t _ _ hq => hq ▸ usgDec_wrong_length t (fun h => hlen (.inl h))
      (fun h => hlen (.inr h)), by simp, rfl⟩

theorem bssDec_decoder (hin : p + len ≤ s.olen) (hlen : len ≤ 255) :
    Decoder (bssDec · p len) s q := by
  by_cases h0 : len = 0
  · exact ⟨_, q, fun t _ _ hq => hq ▸ bssDec_absent t h0, by simp, rfl⟩
  · refine ⟨_, bssDecoded s q p len, fun t hh hl hq => ?_, bssDecNotes_length_le s q p hlen, ?_⟩
    · rw [← hq, ← bssDecNotes_congr hh, ← bssDecoded_congr hh]
      exact bssDec_decoded t h0 (olen_congr hl ▸ hin)
    · rw [bssDecoded_eq]
end

/-! ## One subelement -/

/-- Decoding the subelement `x` over the record `q` posts `es` and makes `r`: so `decodeSub` says, and so
the dispatch does in every state with the buffer of `s`. -/
structure SubTaken (s : State) (q : Record) (x : Sub) (es : List DiagEntry) (r : Record) : Prop where
  decoded : ∀ ds, decodeSub s (q, ds) x = (r, ds ++ es)
  dispatched : Takes (dispatch · x.id x.len x.pos) s q es r
  few : es.length ≤ x.len.toNat + 2
  unknown : r.unk.length ≤ q.unk.length + 1

section
variable {s : State} {q r : Record} {x : Sub} {es : List DiagEntry}

theorem dispatch_unknown {id : Byte} (h0 : id ≠ 0) (h4 : id ≠ 4) (h6 : id ≠ 6) (h7 : id ≠ 7)
    (t : State) (len : Byte) (p : Nat) : dispatch t id len p =
      t.committed [note .unknownId id.toNat]
        (addUnknown t.record { id := id, pos := BitVec.ofNat 32 p, len := len }) := by
  unfold dispatch
  split
  · next h => exact absurd (BitVec.eq_of_toNat_eq h) h0
  · next h => exact absurd (BitVec.eq_of_toNat_eq h) h4
  · next h => exact absurd (BitVec.eq_of_toNat_eq h) h6
  · next h => exact absurd (BitVec.eq_of_toNat_eq h) h7
  · rfl

theorem decodeSub_of_command {i : Instr} {v : Word64} (hx : x.command = some i)
    (h : exec i { s with record := q } = .next (State.answered { s with record := r } es v))
    (ds : List DiagEntry) : decodeSub s (q, ds) x = (r, ds ++ es) := by
  simp only [decodeSub, hx, h]
  rfl

theorem Takes.length_le (h : Takes (dispatch · x.id x.len x.pos) s q es r)
    (hroom : es.length ≤ Config.diagCap) : es.length ≤ x.len.toNat + 2 := by
  obtain ⟨fs, r', hfs, hlen, -⟩ :=
    dispatch_decodes (State.start { s with record := q }) x.id x.len x.pos
  have hes := hfs.symm.trans (h (State.start { s with record := q }) rfl rfl rfl)
  have hx := x.len.isLt
  rw [State.committed, start_postAll _ hroom,
    start_postAll _ (by rw [Config.diagCap]; omega)] at hes
  have hlist : fs = es := congrArg State.diag hes
  exact hlist ▸ hlen

/-- A subelement of one of the four codecs is taken as its command takes it. -/
theorem Decoder.subTaken {d : State → State} {i : Instr} {f : Record → Word64}
    (h : Decoder d s q) (hd : ∀ t, dispatch t x.id x.len x.pos = d t) (hx : x.command = some i)
    (hexec : ∀ es r, es.length ≤ Config.diagCap →
      d (State.start { s with record := q }) =
        { (State.start { s with record := q }).postAll es with record := r } →
      exec i { s with record := q } = .next (State.answered { s with record := r } es (f r))) :
    ∃ es r, SubTaken s q x es r := by
  obtain ⟨es, r, htakes, hroom, hunk⟩ := h
  have hdispatch : Takes (dispatch · x.id x.len x.pos) s q es r := fun t hh hl hq =>
    (hd t).trans (htakes t hh hl hq)
  exact ⟨es, r, decodeSub_of_command hx (hexec es r hroom (htakes _ rfl rfl rfl)), hdispatch,
    hdispatch.length_le hroom, by rw [hunk]; omega⟩

/-- Every subelement inside the buffer is taken, an unknown one while the unknown list has room (R31,
R163). -/
theorem exists_subTaken (hcap : s.hlen ≤ Config.hcap) (hin : x.pos + x.len.toNat ≤ s.olen)
    (hroom : q.unk.length < Config.unkCap) : ∃ es r, SubTaken s q x es r := by
  have hpos : (BitVec.ofNat 32 x.pos).toNat = x.pos := toNat_ofNat_le_olen hcap (by omega)
  have hextent : (BitVec.ofNat 32 x.pos).toNat + x.len.toNat ≤ s.olen := by rw [hpos]; exact hin
  obtain ⟨id, len, p⟩ := x
  simp only at hpos hextent hin
  by_cases h0 : id = 0
  · subst h0
    exact (locDec_decoder hin).subTaken (fun _ => rfl) rfl fun es r hes h =>
      exec_locdec_commits hextent hes (by rw [hpos]; exact h)
  by_cases h4 : id = 4
  · subst h4
    exact (flrDec_decoder hin).subTaken (fun _ => rfl) rfl fun es r hes h =>
      exec_flrdec_commits hextent hes (by rw [hpos]; exact h)
  by_cases h6 : id = 6
  · subst h6
    exact (usgDec_decoder hin).subTaken (fun _ => rfl) rfl fun es r hes h =>
      exec_usgdec_commits hextent hes (by rw [hpos]; exact h)
  by_cases h7 : id = 7
  · subst h7
    exact (bssDec_decoder hin (Nat.lt_succ_iff.1 len.isLt)).subTaken (fun _ => rfl) rfl
      fun es r hes h =>
        exec_bssdec_commits hextent hes (by rw [hpos]; exact h)
  · have hcommand : Sub.command ⟨id, len, p⟩ = none := by
      simp only [Sub.command, if_neg h0, if_neg h4, if_neg h6, if_neg h7]
    have hnote : note .unknownId id.toNat = ⟨.unknownSubelement, .unknownId, id.setWidth 16⟩ := by
      rw [note, BitVec.ofNat_toNat]
      rfl
    refine ⟨_, _, fun ds => by simp only [decodeSub, hcommand]; rfl, fun t _ _ hq => ?_, by simp,
      by simp⟩
    refine (dispatch_unknown h0 h4 h6 h7 t len p).trans ?_
    rw [hq, addUnknown, if_pos hroom, hnote]
end

end Sys2Proof.Machine
end

section
/-! PROOFS. RECDEC (spec/47_record.md R215, R216): the walk over the subelements of a buffer does what
`decodeSub` says for each of them, between the header's report and the ending. -/

namespace Sys2Proof.Machine

/-! ## The state in the middle of RECDEC -/

/-- RECDEC on the way: what was posted so far, the record so far, the cursor. -/
def State.midway (s : State) (es : List DiagEntry) (q : Record) (c : Nat) : State :=
  { s.start.postAll es with cur := BitVec.ofNat 32 c, record := q }

section
variable {s : State} {es fs : List DiagEntry} {q r : Record} {c i : Nat}

theorem midway_hex : (s.midway es q c).hex = s.hex := by rw [State.midway, State.postAll_eq]; rfl

theorem midway_hlen : (s.midway es q c).hlen = s.hlen := by rw [State.midway, State.postAll_eq]; rfl

theorem midway_olen : (s.midway es q c).olen = s.olen := olen_congr midway_hlen

theorem midway_cur (hcap : s.hlen ≤ Config.hcap) (hc : c ≤ s.olen) :
    (s.midway es q c).cur.toNat = c := toNat_ofNat_le_olen hcap hc

theorem midway_postAll : (s.midway es q c).postAll fs = s.midway (es ++ fs) q c := by
  simp only [State.midway, State.postAll_with_cursor_record, State.postAll_append]

theorem midway_committed : (s.midway es q c).committed fs r = s.midway (es ++ fs) r c := by
  rw [State.committed, midway_postAll]
  rfl

theorem midway_moved : { s.midway es q c with cur := BitVec.ofNat 32 i } = s.midway es q i := rfl

theorem midway_haltEntry : haltEntry (s.midway es q c) i = haltEntry s i := by
  simp only [haltEntry, midway_olen, digitsOk_congr midway_hex, octet_congr midway_hex]

/-! ## The header (R215) -/

theorem recDecStart_midway : recDecStart s.start = s.midway (oddNote s) Record.cleared 0 := by
  have hodd : noteIf (s.hlen % 2 == 1) .oddLength (s.hlen % 2 ^ 16) = oddNote s := by
    have harg : BitVec.ofNat 16 (s.hlen % 2 ^ 16) = BitVec.ofNat 16 s.hlen :=
      BitVec.eq_of_toNat_eq (by simp)
    rw [oddNote, noteIf, note, harg]
    simp only [beq_iff_eq]
    rfl
  rw [← hodd, State.midway, ← State.postAll_with_cursor_record]
  rfl

theorem checkHeader_midway {want : Byte} {k : Cause} (hk : k.kind = .malformedInput)
    (hi : i < s.olen) : checkHeader (s.midway es q c) i want k =
      s.midway (es ++ headerNote s i want k) q c := by
  have hi' : i < (s.midway es q c).olen := midway_olen.symm ▸ hi
  have hdigits : (s.midway es q c).digitsOk i = s.digitsOk i :=
    congrFun (digitsOk_congr midway_hex) i
  have hoctet : (s.midway es q c).octet i = s.octet i := congrFun (octet_congr midway_hex) i
  cases hd : s.digitsOk i with
  | false =>
    rw [checkHeader, octRead_bad hi' (hdigits.trans hd), headerNote, if_pos hd]
    simp only [State.post_eq_postAll, midway_postAll]
    rfl
  | true =>
    have hnote : noteIf (s.octet i != want) k (s.octet i).toNat = headerNote s i want k := by
      rw [headerNote, if_neg (by simp [hd]), noteIf, note, hk, BitVec.ofNat_toNat]
      by_cases h : s.octet i = want <;> simp [h]
    rw [checkHeader, octRead_ok hi' (hdigits.trans hd), hoctet]
    simp only [midway_postAll, hnote]

theorem recDecHeader_midway (h3 : 3 ≤ s.olen) : recDecHeader (recDecStart s.start) =
    s.midway (headerNotes s) Record.cleared 3 := by
  simp only [recDecHeader, recDecStart_midway,
    checkHeader_midway (k := .hdrToken) rfl (show 0 < s.olen by omega),
    checkHeader_midway (k := .hdrMode) rfl (show 1 < s.olen by omega),
    checkHeader_midway (k := .hdrType) rfl (show 2 < s.olen by omega)]
  rfl
end

/-! ## The walk over the subelements -/

section
variable {s : State} {hs : List DiagEntry} {acc : Record × List DiagEntry} {c e n : Nat}
  {x : Sub} {xs : List Sub}

/-- Subelements are two octets apart at least. -/
theorem Framed.two_mul_length_le (h : Framed s c xs e) : c + 2 * xs.length ≤ e := by
  induction xs generalizing c with
  | nil => exact h.le
  | cons x xs ih =>
    obtain ⟨-, -, -, -, hrest⟩ := h
    have := ih hrest
    rw [List.length_cons]
    omega

theorem Framed.le_olen (h : Framed s c xs e) (hc : c ≤ s.olen) : e ≤ s.olen := by
  induction xs generalizing c with
  | nil => exact h ▸ hc
  | cons x xs ih =>
    obtain ⟨-, -, -, hfits, hrest⟩ := h
    exact ih hrest hfits

/-- One framer step and its dispatch do what `decodeSub` says, and leave the cursor behind the
subelement (R161, R163). -/
theorem walk_sub (hcap : s.hlen ≤ Config.hcap) (hid : s.digitsOk c = true)
    (hlen : s.digitsOk (c + 1) = true) (hx : x = ⟨s.octet c, s.octet (c + 1), c + 2⟩)
    (hfits : c + 2 + x.len.toNat ≤ s.olen) (hroom : acc.1.unk.length < Config.unkCap) :
    walk (n + 1) (s.midway (hs ++ acc.2) acc.1 c) =
        walk n (s.midway (hs ++ (decodeSub s acc x).2) (decodeSub s acc x).1
          (c + 2 + x.len.toNat)) ∧
      (decodeSub s acc x).2.length ≤ acc.2.length + (x.len.toNat + 2) ∧
      (decodeSub s acc x).1.unk.length ≤ acc.1.unk.length + 1 := by
  subst hx
  obtain ⟨es, r, htaken⟩ :=
    exists_subTaken (x := ⟨s.octet c, s.octet (c + 1), c + 2⟩) hcap hfits hroom
  have hdecoded := htaken.decoded acc.2
  have hcur : (s.midway (hs ++ acc.2) acc.1 c).cur.toNat = c := midway_cur hcap (by omega)
  have hstep := frNext_sub (s := s.midway (hs ++ acc.2) acc.1 c)
    (by rw [hcur, midway_olen]; omega)
    (by rw [hcur, midway_haltEntry]; exact haltEntry_fits hid hlen hfits)
  rw [hcur, octet_congr midway_hex, midway_moved] at hstep
  rw [Prod.mk.eta] at hdecoded
  refine ⟨?_, ?_, ?_⟩
  · have hdispatch := htaken.dispatched (s.midway (hs ++ acc.2) acc.1
      (c + 2 + (s.octet (c + 1)).toNat)) midway_hex midway_hlen rfl
    rw [midway_committed, List.append_assoc] at hdispatch
    rw [walk, hstep, hdecoded]
    exact congrArg (walk n) hdispatch
  · rw [hdecoded, List.length_append]
    exact Nat.add_le_add_left htaken.few _
  · rw [hdecoded]
    exact htaken.unknown

/-- The walk over framed subelements decodes them in order and comes to their end. -/
theorem walk_framed (hcap : s.hlen ≤ Config.hcap) (h : Framed s c xs e)
    (hroom : acc.1.unk.length + xs.length ≤ Config.unkCap) :
    walk (xs.length + n) (s.midway (hs ++ acc.2) acc.1 c) =
        walk n (s.midway (hs ++ (xs.foldl (decodeSub s) acc).2) (xs.foldl (decodeSub s) acc).1 e) ∧
      (xs.foldl (decodeSub s) acc).2.length + c ≤ acc.2.length + e := by
  induction xs generalizing c acc with
  | nil =>
    obtain rfl : c = e := h
    exact ⟨by rw [List.length_nil, Nat.zero_add]; rfl, le_rfl⟩
  | cons x xs ih =>
    obtain ⟨hid, hlen, hx, hfits, hrest⟩ := h
    rw [List.length_cons] at hroom ⊢
    obtain ⟨hwalk, hfew, hunk⟩ := walk_sub (n := xs.length + n) (hs := hs) (acc := acc) hcap hid hlen hx
      hfits (by omega)
    obtain ⟨hwalks, hcount⟩ := ih (acc := decodeSub s acc x) hrest (by omega)
    rw [List.foldl_cons]
    exact ⟨by rw [Nat.add_right_comm, hwalk, hwalks], by omega⟩
end

/-! ## How RECDEC ends -/

section
variable {s : State} {body : State → Ended} {es : List DiagEntry} {q : Record} {c e : Nat} {v : Word64}
  {xs : List Sub}

theorem midway_fits (hes : es.length ≤ Config.diagCap) : s.midway es q c =
    { s.start with diag := es, cur := BitVec.ofNat 32 c, record := q } := by
  rw [State.midway, start_postAll s hes]

theorem runCommand_midway_done (hes : es.length ≤ Config.diagCap)
    (h : body s.start = .done (s.midway es q c) v) : runCommand s body =
      State.answered { s with record := q, cur := BitVec.ofNat 32 c } es v := by
  rw [runCommand_done h, midway_fits hes]
  rfl

theorem runCommand_midway_bounds (hes : es.length ≤ Config.diagCap)
    (h : body s.start = .failed (s.midway es q c) .bounds) : runCommand s body =
      State.rejected { s with record := q, cur := BitVec.ofNat 32 c } .bounds es := by
  rw [runCommand_failed h, midway_fits hes]
  rfl

theorem presentMask_eq (r : Record) : presentMask r = presentFlags r := by
  have hbits : ∀ g f u b : BitVec 1, (b ++ u ++ f ++ g).setWidth 64 =
      BitVec.ofNat 64 (g.toNat + 2 * f.toNat + 4 * u.toNat + 8 * b.toNat) := by decide
  exact hbits _ _ _ _

/-- The ending of RECDEC that a walk leads to (R215). -/
def recDecEnding (w : State × Bool) : Ended :=
  if w.2 then .failed w.1 .bounds
  else .done (w.1.postAll (decodeAdvisories w.1.record)) (presentFlags w.1.record)

/-- With three octets or more RECDEC is the header and the walk. -/
theorem recDec_walks (hcap : s.hlen ≤ Config.hcap) (h3 : 3 ≤ s.olen) : recDec s.start =
    recDecEnding (walk ((s.olen - 3) / 2 + 1) (s.midway (headerNotes s) Record.cleared 3)) := by
  have hlong : ¬(recDecStart s.start).olen < 3 := by
    rw [recDecStart_midway, midway_olen]
    omega
  have hbound : walkBound (s.midway (headerNotes s) Record.cleared 3) = (s.olen - 3) / 2 + 1 := by
    rw [walkBound, midway_olen, midway_cur hcap h3]
  simp only [recDec, if_neg hlong, recDecHeader_midway h3, hbound]
  rcases walk _ _ with ⟨t, out | out⟩
  · simp only [recDecEnding, polNotes_eq, presentMask_eq, decodeAdvisories, Bool.false_eq_true,
      if_false]
    rfl
  · rfl

/-- Over framed subelements the walk decodes them all and still takes one step; what was posted is at most an
entry for each octet passed. -/
theorem recDec_framed (hcap : s.hlen ≤ Config.hcap) (h3 : 3 ≤ s.olen) (h : Framed s 3 xs e) :
    ∃ n, recDec s.start = recDecEnding
        (walk (n + 1) (s.midway (headerNotes s ++ (decodeSubs s xs).2) (decodeSubs s xs).1 e)) ∧
      (decodeSubs s xs).2.length + 3 ≤ e := by
  have hlength := h.two_mul_length_le
  have hend := h.le_olen h3
  have hcap' : s.olen ≤ 512 := Nat.div_le_div_right hcap
  have hroom : Record.cleared.unk.length + xs.length ≤ Config.unkCap := by
    rw [show Record.cleared.unk.length = 0 from rfl, Config.unkCap]
    omega
  obtain ⟨hwalk, hcount⟩ := walk_framed (n := (s.olen - 3) / 2 - xs.length + 1) (hs := headerNotes s)
    (acc := (Record.cleared, [])) hcap h hroom
  refine ⟨(s.olen - 3) / 2 - xs.length, ?_, by simpa [decodeSubs] using hcount⟩
  rw [recDec_walks hcap h3, show (s.olen - 3) / 2 + 1 =
    xs.length + ((s.olen - 3) / 2 - xs.length + 1) by omega]
  rw [List.append_nil] at hwalk
  rw [hwalk]
  rfl

/-! ## What was posted fits the list (R255) -/

theorem headerNotes_length_le (s : State) : (headerNotes s).length ≤ 4 := by
  have hodd : (oddNote s).length ≤ 1 := by
    rw [oddNote]
    split <;> simp
  have hheader (i : Nat) (want : Byte) (k : Cause) : (headerNote s i want k).length ≤ 1 := by
    rw [headerNote]
    split
    · simp
    · split <;> simp
  have h0 := hheader 0 0x01 .hdrToken
  have h1 := hheader 1 0x00 .hdrMode
  have h2 := hheader 2 0x08 .hdrType
  simp only [headerNotes, List.length_append]
  omega

/-- An offset inside the buffer and a few entries more fit the list (R32). -/
theorem notes_fit (hcap : s.hlen ≤ Config.hcap) (he : e ≤ s.olen)
    (hcount : (decodeSubs s xs).2.length + 3 ≤ e) {fs : List DiagEntry} (hfs : fs.length ≤ 5) :
    (headerNotes s ++ (decodeSubs s xs).2 ++ fs).length ≤ Config.diagCap := by
  have hcap' : s.olen ≤ 512 := Nat.div_le_div_right hcap
  have hheader := headerNotes_length_le s
  simp only [List.length_append, Config.diagCap]
  omega

/-! ## What the framer meets behind the subelements (R161) -/

/-- With the buffer filled exactly the walk is over, with one octet left it is out of bounds, and where
the framer halts it reports and consumes the rest. -/
theorem walk_exhausted {n : Nat} (hcap : s.hlen ≤ Config.hcap) :
    walk (n + 1) (s.midway es q s.olen) = (s.midway es q s.olen, false) := by
  rw [walk, frNext_exhausted (by rw [midway_cur hcap le_rfl, midway_olen])]

theorem walk_dangling {n : Nat} (hcap : s.hlen ≤ Config.hcap) (h : e + 1 = s.olen) :
    walk (n + 1) (s.midway es q e) = (s.midway es q e, true) := by
  rw [walk, frNext_outOfBounds (.inr (by rw [midway_cur hcap (by omega), midway_olen, h]))]

theorem walk_halted {n : Nat} {entry : DiagEntry} (hcap : s.hlen ≤ Config.hcap)
    (h : haltEntry s e = some entry) :
    walk (n + 1) (s.midway es q e) = (s.midway (es ++ [entry]) q s.olen, false) := by
  have hin := haltEntry_some_le h
  have hcur : (s.midway es q e).cur.toNat = e := midway_cur hcap (by omega)
  obtain ⟨k, a, rfl, hstep⟩ :=
    frNext_halted (s := s.midway es q e) (by rw [hcur, midway_haltEntry, h])
  rw [walk, hstep, haltFrame, State.post_eq_postAll, midway_postAll, midway_olen]
  rfl

/-- From every offset inside the buffer there are subelements, none at least, up to one of the three
endings. -/
theorem exists_framed (n : Nat) {c : Nat} (hc : c ≤ s.olen) (hn : s.olen ≤ c + n) : ∃ xs e,
    Framed s c xs e ∧ (e = s.olen ∨ e + 1 = s.olen ∨ (haltEntry s e).isSome = true) := by
  induction n generalizing c with
  | zero => exact ⟨[], c, rfl, .inl (by omega)⟩
  | succ n ih =>
    by_cases hend : c = s.olen ∨ c + 1 = s.olen
    · exact ⟨[], c, rfl, hend.imp_right .inl⟩
    cases hhalt : haltEntry s c with
    | some entry => exact ⟨[], c, rfl, .inr (.inr (by rw [hhalt]; rfl))⟩
    | none =>
      have hin : c + 2 ≤ s.olen := by omega
      have hid : s.digitsOk c = true := by
        by_contra hbad
        cases (haltEntry_bad_id hin (eq_false_of_ne_true hbad)).symm.trans hhalt
      have hlen : s.digitsOk (c + 1) = true := by
        by_contra hbad
        cases (haltEntry_bad_length hin hid (eq_false_of_ne_true hbad)).symm.trans hhalt
      have hfits : c + 2 + (s.octet (c + 1)).toNat ≤ s.olen := by
        by_contra hover
        cases (haltEntry_overrun hin hid hlen (by omega)).symm.trans hhalt
      obtain ⟨xs, e, hframed, hend⟩ := ih hfits (by omega)
      exact ⟨⟨s.octet c, s.octet (c + 1), c + 2⟩ :: xs, e, ⟨hid, hlen, rfl, hfits, hframed⟩, hend⟩
end

/-! ## The statements -/

/-- Settles O56: the walk comes to the end of the buffer, and the advisory check follows. -/
theorem recdecDecodesEverySubelement : Obligations.RecdecDecodesEverySubelement := by
  refine ⟨rfl, fun s xs hcap h3 hframed => ?_⟩
  obtain ⟨n, hrecDec, hcount⟩ := recDec_framed hcap h3 hframed
  rw [walk_exhausted hcap, recDecEnding, if_neg Bool.false_ne_true, midway_postAll] at hrecDec
  exact congrArg _ (runCommand_midway_done (notes_fit hcap le_rfl hcount
    ((advisories_length_le _ _ _ _).trans (by decide))) hrecDec)

/-- Settles O57: the other two ends of a walk, the buffer without a whole header, and the search for the
first offset where no subelement follows. -/
theorem recdecKeepsWhatItDecodedWhenItEndsEarly :
    Obligations.RecdecKeepsWhatItDecodedWhenItEndsEarly := by
  refine fun s hcap => ⟨fun hshort => ?_, fun xs e hframed hend => ?_,
    fun xs e entry hframed hhalt => ?_, fun h3 => exists_framed s.olen h3 (by omega)⟩
  · have hrecDec : recDec s.start = .failed (s.midway (oddNote s) Record.cleared 0) .bounds := by
      rw [recDec, recDecStart_midway, if_pos (by rw [midway_olen]; exact hshort)]
    have hodd : (oddNote s).length ≤ Config.diagCap := by
      rw [oddNote]
      split <;> simp
    exact congrArg _ (runCommand_midway_bounds hodd hrecDec)
  · have h3 : 3 ≤ s.olen := by
      have := hframed.two_mul_length_le
      omega
    obtain ⟨n, hrecDec, hcount⟩ := recDec_framed hcap h3 hframed
    have hfit := notes_fit (fs := []) hcap (by omega) hcount (by simp)
    rw [walk_dangling hcap hend, recDecEnding, if_pos rfl] at hrecDec
    rw [List.append_nil] at hfit
    exact congrArg _ (runCommand_midway_bounds hfit hrecDec)
  · have h3 : 3 ≤ s.olen := by
      have := hframed.two_mul_length_le
      have := haltEntry_some_le hhalt
      omega
    obtain ⟨n, hrecDec, hcount⟩ := recDec_framed hcap h3 hframed
    have hroom : ([entry] ++ decodeAdvisories (decodeSubs s xs).1).length ≤ 5 := by
      have := advisories_length_le (decodeSubs s xs).1 ((decodeSubs s xs).1.usgP = 1)
        ((decodeSubs s xs).1.flrP = 1) ((decodeSubs s xs).1.retExp = 1)
      rw [List.length_append, List.length_singleton, decodeAdvisories]
      omega
    have hfit := notes_fit hcap (hframed.le_olen h3) hcount hroom
    rw [walk_halted hcap hhalt, recDecEnding, if_neg Bool.false_ne_true, midway_postAll] at hrecDec
    rw [← List.append_assoc] at hfit
    exact congrArg _ (runCommand_midway_done hfit hrecDec)

end Sys2Proof.Machine
end

section
/-! PROOFS. What the encoders do not read (spec/10_state.md R24, spec/47_record.md R217): every encoder's body
does the same whatever the present flags, R.BSS_IND and the unknown list hold. -/

namespace Sys2Proof.Machine

/-- Make a change to the record wherever a body left its state. -/
def Ended.withRecord (f : Record → Record) : Ended → Ended
  | .done t v => .done { t with record := f t.record } v
  | .failed t a => .failed { t with record := f t.record } a

section
variable {f : Record → Record} {s : State} {body : State → Ended}

/-- The end of a command leaves the record to its body (R250). -/
theorem runCommand_withRecord
    (h : body { s.start with record := f s.record } = (body s.start).withRecord f) :
    runCommand { s with record := f s.record } body =
      { runCommand s body with record := f (runCommand s body).record } := by
  rw [runCommand_eq_finish, runCommand_eq_finish]
  refine (congrArg Ended.finish h).trans ?_
  rcases body s.start with ⟨t, v⟩ | ⟨t, a⟩
  · rfl
  · cases a with
    | invalid => rfl
    | bounds => rfl
    | malformed i =>
      simp only [Ended.withRecord, Ended.finish, State.fail, State.post_eq_postAll,
        State.postAll_with_record, State.postAll_record]
      rfl


variable (f s)

/-- A check that does not look at the record (R251, R253). -/
theorem withRecord_check {p : Prop} [Decidable p] {a : Abort} {e e' : Ended}
    (h : ¬p → e' = e.withRecord f) :
    (if p then .failed { s with record := f s.record } a else e') =
      (if p then .failed s a else e : Ended).withRecord f := by
  split
  · rfl
  · next hp => exact h hp

/-- Entries posted and octets stored under another record (R54, R255). -/
theorem withRecord_stored (v : Word64) (p : Nat) (ds : List DiagEntry) (os : List Byte) :
    Ended.done (putOctets (State.postAll { s with record := f s.record } ds) p os) v =
      (Ended.done (putOctets (s.postAll ds) p os) v).withRecord f := by
  rw [State.postAll_with_record, putOctets_eq_writeList, putOctets_eq_writeList,
    Ended.withRecord, State.postAll_record]

/-- The wire record under another record with the same octets and entries (R217). -/
theorem withRecord_recEnc {incl cfg : BitVec 8}
    (hos : recordOctets (f s.record) incl cfg = recordOctets s.record incl cfg)
    (hds : recordNotes (f s.record) incl cfg = recordNotes s.record incl cfg) :
    recEnc { s with record := f s.record } incl cfg = (recEnc s incl cfg).withRecord f := by
  simp only [recEnc, hos, hds]
  refine withRecord_check f s fun _ => ?_
  simp only [State.postAll_with_record, putOctets_eq_writeList, Ended.withRecord, zeroBuffer,
    State.postAll_record]
end

/-- The record with other present flags, another R.BSS_IND and another unknown list (R24, R31). -/
def Record.reflagged (q : Record) (g f u b : BitVec 1) (n : BitVec 8) (unk : List UnkEntry) : Record :=
  { q with geoP := g, flrP := f, usgP := u, bssP := b, bssInd := n, unk := unk }

section
variable {g f u b : BitVec 1} {n : BitVec 8} {unk : List UnkEntry} {s t : State} {i : Instr}

theorem recordOctets_reflagged (q : Record) (incl cfg : BitVec 8) :
    recordOctets (q.reflagged g f u b n unk) incl cfg = recordOctets q incl cfg := rfl

theorem recordNotes_reflagged (q : Record) (incl cfg : BitVec 8) :
    recordNotes (q.reflagged g f u b n unk) incl cfg = recordNotes q incl cfg := rfl

/-- The encoders do the same with a record that is reflagged. -/
theorem exec_reflagged (hi : Encodes i = true) (h : exec i s = .next t) :
    exec i { s with record := s.record.reflagged g f u b n unk } =
      .next { t with record := t.record.reflagged g f u b n unk } := by
  let F : Record → Record := (·.reflagged g f u b n unk)
  have hend (body : State → Ended) (hexec : ∀ s, exec i s = .next (runCommand s body))
      (hbody : body { s.start with record := F s.start.record } = (body s.start).withRecord F) :
      exec i { s with record := F s.record } = .next { t with record := F t.record } := by
    rw [hexec] at h ⊢
    cases h
    exact congrArg _ (runCommand_withRecord hbody)
  have hstored := withRecord_stored F s.start
  cases i with
  | locenc a c =>
    exact hend _ (exec_locenc a c) (withRecord_check F s.start fun _ =>
      withRecord_check F s.start fun _ => hstored 16 a.toNat _ _)
  | flrenc a c =>
    exact hend _ (exec_flrenc a c) (withRecord_check F s.start fun _ =>
      withRecord_check F s.start fun _ => hstored 6 a.toNat _ _)
  | usgenc a =>
    exact hend _ (exec_usgenc a) (withRecord_check F s.start fun _ => hstored _ a.toNat _ _)
  | bssenc a c =>
    exact hend _ (exec_bssenc a c) (withRecord_check F s.start fun _ =>
      withRecord_check F s.start fun _ => hstored _ a.toNat _ _)
  | recenc b1 b2 =>
    exact hend _ (exec_recenc b1 b2) (withRecord_check F s.start fun _ =>
      withRecord_recEnc F s.start (recordOctets_reflagged _ _ _) (recordNotes_reflagged _ _ _))
  | _ => cases hi
end

/-- Settles O17: `Record.reflagged` is the change that the statement writes out. -/
theorem encodersReadNoPresentFlag : Obligations.EncodersReadNoPresentFlag :=
  fun _ _ _ _ _ _ _ _ _ hi h => exec_reflagged hi h

end Sys2Proof.Machine
end

section
/-! PROOFS. What no command reads (spec/10_state.md R32, spec/70_reset_and_hazards.md R281): a command starts with
STATUS and DIAG reset (R250), and its body does the same whatever response is still on the port. -/

namespace Sys2Proof.Machine

/-- `s` with `o` as the response on the port. -/
def State.ported (s : State) (o : Option Response) : State := { s with resp := o }

/-- A body's ending with `o` as the response on the port. -/
def Ended.ported (o : Option Response) : Ended → Ended
  | .done t v => .done (t.ported o) v
  | .failed t a => .failed (t.ported o) a

section
variable (s : State) (o : Option Response)

@[simp] theorem State.ported_olen : (s.ported o).olen = s.olen := rfl
@[simp] theorem State.ported_cur : (s.ported o).cur = s.cur := rfl
@[simp] theorem State.ported_record : (s.ported o).record = s.record := rfl

/-! ## What is read -/

theorem octRead_ported (i : Nat) : octRead (s.ported o) i = octRead s i := rfl

theorem bitsFrom_ported (k n : Nat) : bitsFrom (s.ported o) k n = bitsFrom s k n := by
  induction n generalizing k with
  | zero => rfl
  | succ n ih => simp only [bitsFrom, ih, octRead_ported]

theorem bitRead_ported (off n : Nat) : bitRead (s.ported o) off n = bitRead s off n := by
  rw [bitRead, bitsFrom_ported]
  rfl

theorem octetsFrom_ported (p acc n : Nat) :
    octetsFrom (s.ported o) p acc n = octetsFrom s p acc n := by
  induction n generalizing p acc with
  | zero => rfl
  | succ n ih => simp only [octetsFrom, ih, octRead_ported]

theorem memRead_ported (p n : Nat) : memRead (s.ported o) p n = memRead s p n := by
  rw [memRead, octetsFrom_ported]
  rfl

theorem octetList_ported (p n : Nat) : octetList (s.ported o) p n = octetList s p n := by
  induction n generalizing p with
  | zero => rfl
  | succ n ih => simp only [octetList, ih, octRead_ported]

theorem mergeOctets_ported (off n : Nat) (v : Word64) (j k : Nat) :
    mergeOctets (s.ported o) off n v j k = mergeOctets s off n v j k := by
  induction k generalizing j with
  | zero => rfl
  | succ k ih => simp only [mergeOctets, ih, oldOctet, octRead_ported]

theorem readLoc_ported (p : Nat) : readLoc (s.ported o) p = readLoc s p := rfl

theorem readFlr_ported (p n : Nat) : readFlr (s.ported o) p n = readFlr s p n := by
  simp only [readFlr, octetList_ported, memRead_ported, octRead_ported]

theorem readUsg_ported (p n : Nat) : readUsg (s.ported o) p n = readUsg s p n := by
  simp only [readUsg, octetList_ported, memRead_ported, octRead_ported]

/-! ## What is written -/

theorem postAll_ported (ds : List DiagEntry) :
    (s.ported o).postAll ds = (s.postAll ds).ported o := by
  unfold State.postAll
  induction ds generalizing s with
  | nil => rfl
  | cons e ds ih =>
    have hentry : (s.ported o).postEntry e = (s.postEntry e).ported o := by
      by_cases h : s.diag.length < Config.diagCap
      · rw [State.postEntry, State.postEntry, if_pos h]
        exact if_pos h
      · rw [State.postEntry, State.postEntry, if_neg h]
        exact if_neg h
    rw [List.foldl_cons, List.foldl_cons, hentry, ih]

theorem post_ported (c : Cause) (n : Nat) : (s.ported o).post c n = (s.post c n).ported o :=
  postAll_ported s o [note c n]

theorem putOctets_ported (p : Nat) (os : List Byte) :
    putOctets (s.ported o) p os = (putOctets s p os).ported o := by
  rw [putOctets_eq_writeList, putOctets_eq_writeList]
  rfl

theorem bitWrite_ported (off n : Nat) (v : Word64) :
    bitWrite (s.ported o) off n v = (bitWrite s off n v).map (·.ported o) := by
  simp only [bitWrite, mergeOctets_ported, putOctets_ported]
  by_cases hout : 8 * s.olen < off + n
  · rw [if_pos hout]
    exact if_pos hout
  refine (if_neg hout).trans ?_
  rw [if_neg hout]
  split
  · rfl
  · cases mergeOctets s off n v (off / 8) ((off + n - 1) / 8 + 1 - off / 8) <;> rfl

theorem octWrite_ported (p : Nat) (v : Byte) :
    octWrite (s.ported o) p v = (octWrite s p v).map (·.ported o) := by
  by_cases h : s.olen ≤ p
  · rw [octWrite_bounds h, octWrite_bounds (s := s.ported o) h]
    rfl
  · rw [octWrite_of_lt (Nat.not_le.1 h), octWrite_of_lt (s := s.ported o) (Nat.not_le.1 h),
      putOctets_ported]
    rfl

theorem memWrite_ported (p n v : Nat) :
    memWrite (s.ported o) p n v = (memWrite s p n v).map (·.ported o) := by
  simp only [memWrite, putOctets_ported, State.ported_olen]
  split <;> rfl

theorem zeroBuffer_ported (n : Nat) : zeroBuffer (s.ported o) n = (zeroBuffer s n).ported o := rfl

/-! ## What the decoders do -/

theorem locDec_ported (p len : Nat) : locDec (s.ported o) p len = (locDec s p len).ported o := by
  simp only [locDec, readLoc_ported, postAll_ported, post_ported]
  split
  · rfl
  split
  · rfl
  rcases readLoc s p with (_ | _ | j) | f <;> rfl

theorem flrDec_ported (p len : Nat) : flrDec (s.ported o) p len = (flrDec s p len).ported o := by
  simp only [flrDec, readFlr_ported, postAll_ported, post_ported]
  split
  · rfl
  rcases readFlr s p len with (_ | _ | j) | f <;> rfl

theorem usgDec_ported (p len : Nat) : usgDec (s.ported o) p len = (usgDec s p len).ported o := by
  simp only [usgDec, readUsg_ported, postAll_ported, post_ported]
  split
  · rfl
  rcases readUsg s p len with (_ | _ | j) | f <;> rfl

theorem bssDecSlot_ported (p i : Nat) :
    bssDecSlot p (s.ported o) i = (bssDecSlot p s i).ported o := by
  simp only [bssDecSlot, memRead_ported, post_ported]
  rcases memRead s (p + 1 + 6 * i) 6 with (_ | _ | j) | a <;> rfl

theorem bssDecSlots_ported (p : Nat) (is : List Nat) :
    is.foldl (bssDecSlot p) (s.ported o) = (is.foldl (bssDecSlot p) s).ported o := by
  induction is generalizing s with
  | nil => rfl
  | cons i is ih => rw [List.foldl_cons, List.foldl_cons, bssDecSlot_ported, ih]

theorem readIndicator_ported (p : Nat) : readIndicator (s.ported o) p = readIndicator s p := rfl

theorem bssDec_ported (p len : Nat) : bssDec (s.ported o) p len = (bssDec s p len).ported o := by
  simp only [bssDec, readIndicator_ported, postAll_ported, post_ported, bssDecSlots_ported]
  split
  · rfl
  · rfl

theorem dispatch_ported (id len : Byte) (p : Nat) :
    dispatch (s.ported o) id len p = (dispatch s id len p).ported o := by
  unfold dispatch
  split
  · exact locDec_ported s o p len.toNat
  · exact flrDec_ported s o p len.toNat
  · exact usgDec_ported s o p len.toNat
  · exact bssDec_ported s o p len.toNat
  · rw [post_ported]
    rfl

/-! ## What the framer and RECDEC do -/

theorem haltFrame_ported (c : Cause) (n : Nat) :
    haltFrame (s.ported o) c n = ((haltFrame s c n).1.ported o, .halted) := by
  rw [haltFrame, post_ported]
  rfl

theorem frNext_ported : frNext (s.ported o) = ((frNext s).1.ported o, (frNext s).2) := by
  simp only [frNext, octRead_ported, haltFrame_ported, State.ported_olen, State.ported_cur]
  split_ifs
  · rfl
  · rfl
  · rfl
  · rcases octRead s s.cur.toNat with (_ | _ | i) | id
    · rfl
    · rfl
    · rfl
    · rcases octRead s (s.cur.toNat + 1) with (_ | _ | i) | len
      · rfl
      · rfl
      · rfl
      · dsimp only
        split_ifs <;> rfl

theorem walk_ported (n : Nat) : walk n (s.ported o) = ((walk n s).1.ported o, (walk n s).2) := by
  induction n generalizing s with
  | zero => rfl
  | succ n ih =>
    rw [walk, walk, frNext_ported]
    rcases frNext s with ⟨t, _ | _ | ⟨id, len, p⟩ | _⟩
    · rfl
    · rfl
    · simp only [dispatch_ported, ih]
    · rfl

theorem checkHeader_ported (i : Nat) (want : Byte) (c : Cause) :
    checkHeader (s.ported o) i want c = (checkHeader s i want c).ported o := by
  simp only [checkHeader, octRead_ported, postAll_ported, post_ported]
  rcases octRead s i with (_ | _ | j) | v <;> rfl

theorem recDecStart_ported : recDecStart (s.ported o) = (recDecStart s).ported o :=
  postAll_ported { clearRecord s with cur := 0 } o _

theorem recDecHeader_ported : recDecHeader (s.ported o) = (recDecHeader s).ported o := by
  simp only [recDecHeader, checkHeader_ported]
  rfl

theorem recDec_ported : recDec (s.ported o) = (recDec s).ported o := by
  have hbound (t : State) : walkBound (t.ported o) = walkBound t := rfl
  simp only [recDec, recDecStart_ported, recDecHeader_ported, hbound, walk_ported,
    State.ported_olen]
  split_ifs
  · rfl
  · rcases walk _ _ with ⟨t, out | out⟩
    · simp only [postAll_ported, State.ported_record]
      rfl
    · rfl
end

/-! ## How a command ends -/

section
variable {s : State} {o : Option Response}

/-- The end of a command answers on the port whatever was on it (R250). -/
theorem Ended.finish_ported (e : Ended) : (e.ported o).finish = e.finish := by
  rcases e with ⟨t, v⟩ | ⟨t, _ | _ | j⟩
  · rfl
  · rfl
  · rfl
  · simp only [Ended.ported, Ended.finish, State.fail, post_ported]
    rfl

/-- A check that does not look at the port (R251, R253). -/
theorem ported_check {p : Prop} [Decidable p] {a : Abort} {e e' : Ended}
    (h : ¬p → e' = e.ported o) : (if p then .failed (s.ported o) a else e') =
      (if p then .failed s a else e : Ended).ported o := by
  split
  · rfl
  · next hp => exact h hp

theorem ported_answering {r r' : Except Abort Word64} (h : r' = r) :
    answering (s.ported o) r' = (answering s r).ported o := by
  subst h
  cases r' <;> rfl

theorem ported_storing {v : Word64} {r r' : Except Abort State} (h : r' = r.map (·.ported o)) :
    storing (s.ported o) v r' = (storing s v r).ported o := by
  subst h
  cases r <;> rfl

theorem ported_posted {v : Word64} {ds : List DiagEntry} :
    Ended.done ((s.ported o).postAll ds) v = (Ended.done (s.postAll ds) v).ported o :=
  congrArg (Ended.done · v) (postAll_ported s o ds)

theorem ported_stored {v : Word64} {ds : List DiagEntry} {p : Nat} {os : List Byte} :
    Ended.done (putOctets ((s.ported o).postAll ds) p os) v =
      (Ended.done (putOctets (s.postAll ds) p os) v).ported o := by
  rw [postAll_ported, putOctets_ported]
  rfl

theorem recEnc_ported (incl cfg : BitVec 8) :
    recEnc (s.ported o) incl cfg = (recEnc s incl cfg).ported o := by
  simp only [recEnc, State.ported_record, postAll_ported, zeroBuffer_ported, putOctets_ported]
  exact ported_check fun _ => rfl
end

/-- A command runs a body that the response still on the port does not change. -/
def IgnoresPort (i : Instr) : Prop :=
  ∃ body : State → Ended, (∀ s, exec i s = .next (runCommand s body)) ∧
    ∀ s o, body (s.ported o) = (body s).ported o

theorem writeReg_ported (s : State) (o : Option Response) (v : Word64) (x : Reg) :
    writeReg (s.ported o) v x = (writeReg s v x).map (·.ported o) := by
  cases x with
  | bssN =>
    rw [writeReg, writeReg]
    split <;> rfl
  | _ => rfl

/-- Every non-observer command ignores the port: its checks, what it reads and what it writes are those of
the lemmas above. -/
theorem ignoresPort {i : Instr} (h : Observes i = false) : IgnoresPort i := by
  cases i with
  | nop => cases h
  | hxrd a => cases h
  | rrd r => cases h
  | unkrd a => cases h
  | dgrd a => cases h
  | macfmt r => cases h
  | reset => exact ⟨_, fun _ => rfl, fun _ _ => rfl⟩
  | bufz a => exact ⟨_, fun _ => rfl, fun _ _ => ported_check fun _ => rfl⟩
  | ldhex r text =>
    exact ⟨_, fun _ => rfl, fun _ _ => ported_check fun _ => ported_check fun _ => rfl⟩
  | hxwr a b => exact ⟨_, fun _ => rfl, fun _ _ => ported_check fun _ => rfl⟩
  | rwr r v =>
    refine ⟨_, fun _ => rfl, fun s o => ?_⟩
    cases regOf r with
    | none => rfl
    | some x =>
      simp only [Option.bind_some, writeReg_ported]
      cases writeReg s v x <;> rfl
  | rclr => exact ⟨_, fun _ => rfl, fun _ _ => rfl⟩
  | rdbits a b =>
    exact ⟨_, fun _ => rfl, fun s o => ported_check fun _ =>
      ported_answering (by rw [bitRead_ported])⟩
  | wrbits a b v =>
    exact ⟨_, fun _ => rfl, fun s o => ported_check fun _ =>
      ported_storing (bitWrite_ported s o _ _ _)⟩
  | rdoct a => exact ⟨_, fun _ => rfl, fun s o => ported_answering (by rw [octRead_ported])⟩
  | wroct a b =>
    exact ⟨_, fun _ => rfl, fun s o => ported_storing (octWrite_ported s o _ _)⟩
  | rdmoi a b =>
    exact ⟨_, fun _ => rfl, fun s o => ported_check fun _ =>
      ported_answering (by rw [memRead_ported])⟩
  | wrmoi a b v =>
    exact ⟨_, fun _ => rfl, fun s o => ported_check fun _ =>
      ported_storing (memWrite_ported s o _ _ _)⟩
  | fxenc w f v => exact ⟨_, fun _ => rfl, fun _ _ => ported_check fun _ => ported_posted⟩
  | fxdec w f v => exact ⟨_, fun _ => rfl, fun _ _ => ported_check fun _ => rfl⟩
  | uncenc m x c v => exact ⟨_, fun _ => rfl, fun _ _ => ported_check fun _ => ported_posted⟩
  | uncdec m x c v => exact ⟨_, fun _ => rfl, fun _ _ => ported_check fun _ => ported_posted⟩
  | frnext =>
    refine ⟨_, fun _ => rfl, fun s o => ?_⟩
    simp only [frNext_ported]
    rcases frNext s with ⟨t, _ | _ | _ | _⟩ <;> rfl
  | frput b1 b2 =>
    refine ⟨_, fun _ => rfl, fun s o => ported_check fun _ => ?_⟩
    rw [putOctets_ported]
    rfl
  | locdec a b =>
    refine ⟨_, fun _ => rfl, fun s o => ported_check fun _ => ?_⟩
    rw [locDec_ported]
    rfl
  | locenc a b =>
    exact ⟨_, exec_locenc a b, fun _ _ => ported_check fun _ => ported_check fun _ =>
      ported_stored⟩
  | flrdec a b =>
    refine ⟨_, fun _ => rfl, fun s o => ported_check fun _ => ?_⟩
    rw [flrDec_ported]
    rfl
  | flrenc a b =>
    exact ⟨_, exec_flrenc a b, fun _ _ => ported_check fun _ => ported_check fun _ =>
      ported_stored⟩
  | usgdec a b =>
    refine ⟨_, fun _ => rfl, fun s o => ported_check fun _ => ?_⟩
    rw [usgDec_ported]
    rfl
  | usgenc a => exact ⟨_, exec_usgenc a, fun _ _ => ported_check fun _ => ported_stored⟩
  | bssdec a b =>
    refine ⟨_, fun _ => rfl, fun s o => ported_check fun _ => ?_⟩
    rw [bssDec_ported]
    rfl
  | bssenc a b =>
    exact ⟨_, exec_bssenc a b, fun _ _ => ported_check fun _ => ported_check fun _ =>
      ported_stored⟩
  | macparse r text =>
    refine ⟨_, fun _ => rfl, fun s o => ported_check fun _ => ?_⟩
    cases macParse text with
    | some a => rfl
    | none =>
      simp only [post_ported]
      rfl
  | recdec => exact ⟨_, fun _ => rfl, fun s o => recDec_ported s o⟩
  | recenc b1 b2 =>
    exact ⟨_, exec_recenc b1 b2, fun s o => ported_check fun _ => recEnc_ported b1 b2⟩
  | polchk r =>
    refine ⟨_, fun _ => rfl, fun s o => ported_check fun _ => ?_⟩
    simp only [postAll_ported]
    rfl

/-- Settles O18: the started states differ in the response alone, which no body reads and every ending
replaces. -/
theorem noCommandReadsEarlierDiagnostics : Obligations.NoCommandReadsEarlierDiagnostics := by
  intro i s st ds b o hi
  obtain ⟨body, hexec, hports⟩ := ignoresPort hi
  rw [hexec, hexec, runCommand_eq_finish, runCommand_eq_finish]
  refine congrArg _ ((congrArg Ended.finish (hports s.start o)).trans (Ended.finish_ported _))

end Sys2Proof.Machine
end

section
/-! PROOFS. The character, octet and bit spaces are one storage (spec/20_memory.md R50): what a command stored as
lowercase text reads back as the octets stored, and so through every view. -/

namespace Sys2Proof.Machine

/-! ## Stored octets in the buffer (R53, R54) -/

theorem hexText_high (os : List Byte) (k : Nat) :
    (hexText os)[2 * k]? = os[k]?.map fun o => lowerDigit (o.toNat / 16) := by
  induction os generalizing k with
  | nil => rfl
  | cons o os ih =>
    cases k with
    | zero => rfl
    | succ k => exact ih k

theorem hexText_low (os : List Byte) (k : Nat) :
    (hexText os)[2 * k + 1]? = os[k]?.map fun o => lowerDigit (o.toNat % 16) := by
  induction os generalizing k with
  | nil => rfl
  | cons o os ih =>
    cases k with
    | zero => rfl
    | succ k => exact ih k

/-- The octets from octet `p` of `t` on are `os`, all of them readable (R53). -/
def State.Holds (t : State) (p : Nat) (os : List Byte) : Prop :=
  ∀ (k : Nat) (o : Byte), os[k]? = some o → t.digitsOk (p + k) = true ∧ t.octet (p + k) = o

section
variable {s t : State} {p k : Nat} {o : Byte} {os : List Byte}

/-- The two characters of a stored octet. -/
theorem Stored.digits (h : Stored t.hex s (2 * p) (hexText os)) (hk : os[k]? = some o) :
    t.chr (2 * (p + k)) = lowerDigit (o.toNat / 16) ∧
      t.chr (2 * (p + k) + 1) = lowerDigit (o.toNat % 16) := by
  constructor
  · rw [State.chr, h, if_pos (by omega), show 2 * (p + k) - 2 * p = 2 * k by omega, hexText_high, hk]
    rfl
  · rw [State.chr, h, if_pos (by omega), show 2 * (p + k) + 1 - 2 * p = 2 * k + 1 by omega,
      hexText_low, hk]
    rfl

theorem Stored.holds (h : Stored t.hex s (2 * p) (hexText os)) : t.Holds p os :=
  fun _ _ hk => digits_of_chr (h.digits hk).1 (h.digits hk).2

/-- Octets in the buffer are what is read, and none of them is bad. -/
theorem State.Holds.octets (h : t.Holds p os) :
    t.octets p os.length = os ∧ t.firstBad p os.length = none := by
  constructor
  · refine List.ext_getElem (by simp) fun i hi hi' => ?_
    rw [octets_getElem]
    exact (h i _ (List.getElem?_eq_getElem hi')).2
  · exact (firstBad_none_iff _ _ _).2 fun i hi => (h i _ (List.getElem?_eq_getElem hi)).1

theorem Stored.readsEverywhere (hcap : t.hlen ≤ Config.hcap)
    (h : Stored t.hex s (2 * p) (hexText os)) (hk : os[k]? = some o) (hin : p + k < t.olen) :
    ReadsEverywhere t (p + k) o :=
  Machine.readsEverywhere hcap hin (h.digits hk).1 (h.digits hk).2
end

/-! ## Writes that complete -/

section
variable {s t u : State} {i : Instr} {a : BitVec 32} {b : BitVec 8} {v : BitVec 64}

/-- A command that ended with OK was rejected with no other status. -/
theorem rejected_ok {st : Status} {ds : List DiagEntry} (h : exec i s = .next t)
    (hok : t.status = .ok) (hrejected : exec i s = .next (s.rejected st ds)) : st = .ok := by
  rw [h] at hrejected
  cases hrejected
  exact hok

theorem wrbits_ok (h : exec (.wrbits a b v) s = .next t) (hok : t.status = .ok) :
    b.toNat ≤ 64 ∧ a.toNat + b.toNat ≤ 8 * s.olen ∧ t.hlen = s.hlen ∧ ∃ os,
      os.length = touched a.toNat b.toNat ∧
      (∀ k < b.toNat, (littleEndian os).testBit (a.toNat % 8 + k) = v.getLsbD k) ∧
      Stored t.hex s (2 * (a.toNat / 8)) (hexText os) := by
  obtain ⟨-, hinvalid, hbounds, hgood⟩ := wrbitsWritesStreamBits a b v s
  have hn : b.toNat ≤ 64 := by
    by_contra hbig
    cases rejected_ok h hok (hinvalid (by omega))
  have hin : a.toNat + b.toNat ≤ 8 * s.olen := by
    by_contra hout
    cases rejected_ok h hok (hbounds hn (by omega))
  obtain ⟨hbad, hwrites⟩ := hgood hn hin
  cases hfirst : s.firstBadPartly a.toNat b.toNat with
  | some j => cases rejected_ok h hok (hbad j hfirst)
  | none =>
    obtain ⟨m, os, hlength, hbits, hstored, hend⟩ := hwrites hfirst
    rw [h] at hend
    cases hend
    refine ⟨hn, hin, rfl, os, hlength, fun k hk => ?_, hstored⟩
    have hinside : a.toNat % 8 + k < 8 * os.length := by
      rw [hlength, touched, if_neg (by omega)]
      omega
    rw [hbits _ hinside, if_pos (by omega), Nat.add_sub_cancel_left]

theorem wrmoi_ok (h : exec (.wrmoi a b v) s = .next t) (hok : t.status = .ok) :
    b.toNat ≤ 8 ∧ a.toNat + b.toNat ≤ s.olen ∧ t.hlen = s.hlen ∧
      Stored t.hex s (2 * a.toNat) (hexText (lowOctets v b.toNat)) := by
  obtain ⟨-, hinvalid, hbounds, hwrites⟩ := wrmoiWritesBigEndian a b v s
  have hn : b.toNat ≤ 8 := by
    by_contra hbig
    cases rejected_ok h hok (hinvalid (by omega))
  have hin : a.toNat + b.toNat ≤ s.olen := by
    by_contra hout
    cases rejected_ok h hok (hbounds hn (by omega))
  obtain ⟨m, hstored, hend⟩ := hwrites hn hin
  rw [h] at hend
  cases hend
  exact ⟨hn, hin, rfl, hstored⟩

theorem wroct_ok (h : exec (.wroct a b) s = .next t) (hok : t.status = .ok) :
    a.toNat < s.olen ∧ t.hlen = s.hlen ∧ Stored t.hex s (2 * a.toNat) (hexText [b]) := by
  obtain ⟨-, hbounds, hwrites⟩ := wroctWritesAnOctet a b s
  have hin : a.toNat < s.olen := by
    by_contra hout
    cases rejected_ok h hok (hbounds (by omega))
  obtain ⟨m, hstored, hend⟩ := hwrites hin
  rw [h] at hend
  cases hend
  exact ⟨hin, rfl, hstored⟩

theorem hxwr_ok (h : exec (.hxwr a b) s = .next t) (hok : t.status = .ok) :
    a.toNat < s.hlen ∧ t.hlen = s.hlen ∧ t.chr a.toNat = b := by
  obtain ⟨-, hbounds, hwrites⟩ := hxwrWritesOneCharacter a b s
  have hin : a.toNat < s.hlen := by
    by_contra hout
    cases rejected_ok h hok (hbounds (by omega))
  obtain ⟨m, hstored, hend⟩ := hwrites hin
  rw [h] at hend
  cases hend
  refine ⟨hin, rfl, (hstored a.toNat).trans ?_⟩
  simp
end

/-! ## Reading back -/

section
variable {s t : State} {a : BitVec 32} {b : BitVec 8} {v : BitVec 64}

theorem lowOctets_bigEndianOf (v : Word64) (n : Nat) :
    bigEndianOf (lowOctets v n) = v.toNat % 2 ^ (8 * n) := by
  rw [← bigEndian_lowOctets, bigEndianOf_bigEndian, pow_mul]
  rfl

/-- The bits of a field are those written (R55, R56). -/
theorem bitField_of_bits {os : List Byte} {off n : Nat}
    (h : ∀ k < n, (littleEndian os).testBit (off + k) = v.getLsbD k) :
    bitField os off n = v.toNat % 2 ^ n := by
  refine Nat.eq_of_testBit_eq fun k => ?_
  rw [bitField, Nat.testBit_mod_two_pow, Nat.testBit_mod_two_pow, Nat.testBit_div_two_pow,
    Nat.add_comm]
  by_cases hk : k < n
  · rw [h k hk]
    rfl
  · simp [hk]

/-- The nibbles of an octet are the values of its two characters (R53). -/
theorem nibble_octet {s : State} {j c : Nat} {d : BitVec 4} (hc : c / 2 = j)
    (hd : hexval (s.chr c) = some d) :
    d.toNat = if c % 2 = 0 then (s.octet j).toNat / 16 else (s.octet j).toNat % 16 := by
  have hnibbles : ∀ h l : BitVec 4, (h ++ l : BitVec 8).toNat / 16 = h.toNat ∧
      (h ++ l : BitVec 8).toNat % 16 = l.toNat := by decide
  rw [State.octet]
  split
  · rw [(hnibbles _ _).1, show 2 * j = c by omega, hd]
    rfl
  · rw [(hnibbles _ _).2, show 2 * j + 1 = c by omega, hd]
    rfl
end

/-- Settles O35: each write that completed left its octets as lowercase text, which every view reads. -/
theorem writesReadBackThroughEveryView : Obligations.WritesReadBackThroughEveryView := by
  intro a b v s t hcap
  refine ⟨fun h hok => ?_, fun h hok => ?_, fun h hok => ?_, fun h hok => ?_⟩
  · obtain ⟨hn, hin, hlen, os, hlength, hbits, hstored⟩ := wrbits_ok h hok
    have holen := olen_congr hlen
    obtain ⟨hoctets, hgood⟩ := hstored.holds.octets
    rw [hlength] at hoctets hgood
    refine ⟨?_, fun j hlo hhi => ?_⟩
    · rw [((rdbitsReadsStreamBits a b t).2.2.2 hn (by omega)).2 hgood, hoctets,
        bitField_of_bits hbits]
    · have hj : j - a.toNat / 8 < os.length := by omega
      have hget : os[j - a.toNat / 8]? = some os[j - a.toNat / 8] := List.getElem?_eq_getElem hj
      have hinside : a.toNat / 8 + (j - a.toNat / 8) < t.olen := by
        rw [touched] at hhi
        split at hhi <;> omega
      refine ⟨os[j - a.toNat / 8], ?_, fun i hi hi1 hi2 => ?_⟩
      · have := hstored.readsEverywhere (hlen ▸ hcap) hget hinside
        rwa [Nat.add_sub_cancel' hlo] at this
      · have hbit := hbits (8 * j + i - a.toNat) (by omega)
        rwa [show a.toNat % 8 + (8 * j + i - a.toNat) = 8 * (j - a.toNat / 8) + i by omega,
          littleEndian_testBit, show (8 * (j - a.toNat / 8) + i) / 8 = j - a.toNat / 8 by omega,
          show (8 * (j - a.toNat / 8) + i) % 8 = i by omega, List.getD_eq_getElem _ _ hj] at hbit
  · obtain ⟨hn, hin, hlen, hstored⟩ := wrmoi_ok h hok
    have holen := olen_congr hlen
    have hlength : (lowOctets v b.toNat).length = b.toNat := by simp [lowOctets]
    obtain ⟨hoctets, hgood⟩ := hstored.holds.octets
    rw [hlength] at hoctets hgood
    refine ⟨?_, fun k o hk => ?_⟩
    · rw [((rdmoiReadsBigEndian a b t).2.2.2 hn (by omega)).2 hgood, hoctets, lowOctets_bigEndianOf]
    · have hkn : k < b.toNat := hlength ▸ (List.getElem?_eq_some_iff.1 hk).1
      exact hstored.readsEverywhere (hlen ▸ hcap) hk (by omega)
  · obtain ⟨hin, hlen, hstored⟩ := wroct_ok h hok
    exact hstored.readsEverywhere (k := 0) (hlen ▸ hcap) rfl (olen_congr hlen ▸ hin)
  · obtain ⟨hin, hlen, hchr⟩ := hxwr_ok h hok
    refine ⟨?_, fun d hd hinside hdigits => ⟨_, readsAsOctet (hlen ▸ hcap) hinside hdigits, ?_⟩⟩
    · rw [(hxrdReadsACharacter a t).2.2 (by omega), hchr]
    · exact nibble_octet rfl (hchr.symm ▸ hd)

end Sys2Proof.Machine
end

section
/-! PROOFS. Payloads there and back (spec/47_record.md R221): what the octets of a payload decode to is encoded as
the same octets, and a record on its grids is decoded from its payload as it was. -/

namespace Sys2Proof.Machine

/-! ## Octets from their numbers -/

section
variable {os os' : List Byte}

theorem bigEndianOf_concat (os : List Byte) (o : Byte) :
    bigEndianOf (os ++ [o]) = 256 * bigEndianOf os + o.toNat := by
  simp only [bigEndianOf, List.foldl_append, List.foldl_cons, List.foldl_nil]

/-- Octets are determined by their big-endian number and how many they are (R57). -/
theorem bigEndianOf_injective (hlen : os'.length = os.length)
    (h : bigEndianOf os' = bigEndianOf os) : os' = os := by
  induction os using List.reverseRecOn generalizing os' with
  | nil => exact List.length_eq_zero_iff.1 hlen
  | append_singleton os o ih =>
    rcases List.eq_nil_or_concat' os' with rfl | ⟨ps, p, rfl⟩
    · simp at hlen
    · rw [bigEndianOf_concat, bigEndianOf_concat] at h
      have ho := o.isLt
      have hp := p.isLt
      have hps : ps = os := ih (by simpa using hlen) (by omega)
      rw [hps, BitVec.eq_of_toNat_eq (show p.toNat = o.toNat by omega)]

/-- Octets are determined by their stream bits (R55). -/
theorem octets_eq_of_testBit (hlen : os'.length = os.length)
    (h : ∀ k < 8 * os.length, (littleEndian os').testBit k = (littleEndian os).testBit k) :
    os' = os := by
  refine List.ext_getElem hlen fun i hi' hi => BitVec.eq_of_getLsbD_eq fun b hb => ?_
  have hbit := h (8 * i + b) (by omega)
  rwa [littleEndian_testBit, littleEndian_testBit, show (8 * i + b) / 8 = i by omega,
    show (8 * i + b) % 8 = b by omega, List.getD_eq_getElem _ _ hi',
    List.getD_eq_getElem _ _ hi] at hbit

/-- Equal fields have equal bits. -/
theorem testBit_of_bitField {off w k : Nat} (h : bitField os' off w = bitField os off w)
    (hlo : off ≤ k) (hhi : k < off + w) :
    (littleEndian os').testBit k = (littleEndian os).testBit k := by
  have hbit := congrArg (·.testBit (k - off)) h
  simp only [bitField, Nat.testBit_mod_two_pow, Nat.testBit_div_two_pow,
    show k - off < w by omega, decide_true, Bool.true_and, Nat.sub_add_cancel hlo] at hbit
  exact hbit

theorem head_cons_drop {n : Nat} (h : os.length = n + 1) : os = os.headD 0 :: os.drop 1 := by
  cases os with
  | nil => cases h
  | cons o os => rfl
end

/-! ## Values from their codes (R142, R147, R221) -/

section
variable {u v : Phys} {m : ℤ} {w f max fld code c : Nat} {zs : Bool} {ds : List DiagEntry}

/-- A value on the grid is what its code decodes to. -/
theorem FixCode.eq_of_onGrid (h : FixCode v w f fld code ds) (hgrid : OnGrid v w f)
    (hu : value u = fixValue code w f) : u = v := by
  obtain ⟨r, hr, hv⟩ := hgrid
  obtain ⟨rfl, -⟩ := h.of_fixValue hr hv
  exact value_injective (hu.trans hv.symm)

/-- A value on the scale is what its code decodes to. -/
theorem UncCode.eq_of_onScale (h : UncCode v m max zs fld code ds) (hscale : OnScale v m max zs)
    (hu : value u = uncValue code m max) : u = v := by
  rcases hscale with ⟨rfl, hzero⟩ | ⟨c, hc, hmax, hv⟩
  · obtain ⟨rfl, -⟩ := h.of_zero hzero
    exact value_injective (hu.trans hzero.symm)
  · obtain ⟨rfl, -⟩ := h.of_zpow hc hmax hv
    rw [uncValue, if_neg (by omega), Nat.min_eq_left hmax] at hu
    exact value_injective (hu.trans hv.symm)

/-- A valid code is the code of what it decodes to, and so is 0 without the policy bit. -/
theorem UncCode.of_valid (h : UncCode v m max false fld code ds) (hc : c ≤ max) (hmax : 1 ≤ max)
    (hv : value v = uncValue c m max) : code = c ∧ ds = [] := by
  obtain ⟨hcode, hds⟩ := h.of_uncValue hmax hv
  refine ⟨hcode.trans ?_, hds⟩
  split
  · next hzero => exact hzero.symm
  · exact Nat.min_eq_left hc
end

/-! ## The location payload (R170, R172) -/

/-- The geodetic registers hold what the 16 octets `os` decode to. -/
def LocHeld (r : Record) (os : List Byte) : Prop :=
  (r.altType = BitVec.ofNat 4 (bitField os 80 4) ∧ r.datum = BitVec.ofNat 3 (bitField os 120 3) ∧
    r.regLoc = BitVec.ofNat 1 (bitField os 123 1) ∧ r.dse = BitVec.ofNat 1 (bitField os 124 1) ∧
    r.depSta = BitVec.ofNat 1 (bitField os 125 1) ∧ r.ver = BitVec.ofNat 2 (bitField os 126 2)) ∧
  value r.latU = uncValue (bitField os 0 6) 8 34 ∧ value r.lat = fixValue (bitField os 6 34) 34 25 ∧
  value r.lonU = uncValue (bitField os 40 6) 8 34 ∧
  value r.lon = fixValue (bitField os 46 34) 34 25 ∧
  value r.altU = uncValue (bitField os 84 6) 21 34 ∧
  value r.alt = fixValue (bitField os 90 30) 30 8

section
variable {q r r' : Record} {zs : Bool} {os os' : List Byte} {ds : List DiagEntry}

theorem LocDecoded.held (h : LocDecoded q r os) : LocHeld r os := by
  obtain ⟨hr, hvalues⟩ := h
  exact ⟨⟨congrArg Record.altType hr, congrArg Record.datum hr, congrArg Record.regLoc hr,
    congrArg Record.dse hr, congrArg Record.depSta hr, congrArg Record.ver hr⟩, hvalues⟩

/-- The registers that decoding a location writes, as `r` has them. -/
def Record.withLocation (q r : Record) : Record :=
  { q with
    geoP := 1, lat := r.lat, lon := r.lon, alt := r.alt, latU := r.latU, lonU := r.lonU
    altU := r.altU, altType := r.altType, datum := r.datum, regLoc := r.regLoc, dse := r.dse
    depSta := r.depSta, ver := r.ver }

theorem LocDecoded.eq_withLocation (h : LocDecoded q r os) : r = q.withLocation r := by
  obtain ⟨⟨haltType, hdatum, hregLoc, hdse, hdepSta, hver⟩, -⟩ := h.held
  rw [Record.withLocation, haltType, hdatum, hregLoc, hdse, hdepSta, hver]
  exact h.1

/-- A number of the width of its field is what the field holds. -/
theorem toNat_ofNat_bitField {off w : Nat} :
    (BitVec.ofNat w (bitField os off w)).toNat = bitField os off w :=
  toNat_ofNat_lt (bitField_lt os off w)

/-- The location payload of what 16 octets with valid codes decode to is these octets, and only the
version is reported. -/
theorem LocPayload.of_held (h : LocPayload r false os' ds) (hheld : LocHeld r os)
    (hlen : os.length = 16) (hlat : bitField os 0 6 ≤ 34) (hlon : bitField os 40 6 ≤ 34)
    (halt : bitField os 84 6 ≤ 34) : os' = os ∧ ∀ e ∈ ds, e.cause = .version := by
  obtain ⟨hlen', d1, d2, d3, d4, d5, d6, h0, h6, h40, h46, h80, h84, h90, h120, h123, h124, h125,
    h126, rfl⟩ := h
  obtain ⟨⟨haltType, hdatum, hregLoc, hdse, hdepSta, hver⟩, v0, v6, v40, v46, v84, v90⟩ := hheld
  obtain ⟨e0, rfl⟩ := h0.of_valid hlat (by decide) v0
  obtain ⟨e6, rfl⟩ := h6.of_fixValue (bitField_lt _ _ _) v6
  obtain ⟨e40, rfl⟩ := h40.of_valid hlon (by decide) v40
  obtain ⟨e46, rfl⟩ := h46.of_fixValue (bitField_lt _ _ _) v46
  obtain ⟨e84, rfl⟩ := h84.of_valid halt (by decide) v84
  obtain ⟨e90, rfl⟩ := h90.of_fixValue (bitField_lt _ _ _) v90
  rw [haltType, toNat_ofNat_bitField] at h80
  rw [hdatum, toNat_ofNat_bitField] at h120
  rw [hregLoc, toNat_ofNat_bitField] at h123
  rw [hdse, toNat_ofNat_bitField] at h124
  rw [hdepSta, toNat_ofNat_bitField] at h125
  constructor
  · rw [hver, toNat_ofNat_bitField] at h126
    refine octets_eq_of_testBit (hlen'.trans hlen.symm) fun k hk => ?_
    have hfield {off w : Nat} (h : bitField os' off w = bitField os off w) (hlo : off ≤ k)
        (hhi : k < off + w) := testBit_of_bitField h hlo hhi
    rcases (by omega : k < 6 ∨ (6 ≤ k ∧ k < 40) ∨ (40 ≤ k ∧ k < 46) ∨ (46 ≤ k ∧ k < 80) ∨
      (80 ≤ k ∧ k < 84) ∨ (84 ≤ k ∧ k < 90) ∨ (90 ≤ k ∧ k < 120) ∨ (120 ≤ k ∧ k < 123) ∨ k = 123 ∨
      k = 124 ∨ k = 125 ∨ (126 ≤ k ∧ k < 128)) with
      h | h | h | h | h | h | h | h | h | h | h | h
    · exact hfield e0 (by omega) (by omega)
    · exact hfield e6 (by omega) (by omega)
    · exact hfield e40 (by omega) (by omega)
    · exact hfield e46 (by omega) (by omega)
    · exact hfield h80 (by omega) (by omega)
    · exact hfield e84 (by omega) (by omega)
    · exact hfield e90 (by omega) (by omega)
    · exact hfield h120 (by omega) (by omega)
    · exact hfield h123 (by omega) (by omega)
    · exact hfield h124 (by omega) (by omega)
    · exact hfield h125 (by omega) (by omega)
    · exact hfield h126 (by omega) (by omega)
  · intro e he
    simp only [List.nil_append] at he
    split at he
    · cases he
    · rw [List.mem_singleton.1 he]

/-- A record with its location on the grids is decoded from its location payload as it was. -/
theorem LocDecoded.of_payload (h : LocPayload r zs os ds) (hd : LocDecoded q r' os)
    (hlat : OnGrid r.lat 34 25) (hlon : OnGrid r.lon 34 25) (halt : OnGrid r.alt 30 8)
    (hlatU : OnScale r.latU 8 34 zs) (hlonU : OnScale r.lonU 8 34 zs)
    (haltU : OnScale r.altU 21 34 zs) : r' = q.withLocation r := by
  obtain ⟨-, d1, d2, d3, d4, d5, d6, h0, h6, h40, h46, h80, h84, h90, h120, h123, h124, h125,
    h126, -⟩ := h
  obtain ⟨⟨haltType, hdatum, hregLoc, hdse, hdepSta, hver⟩, v0, v6, v40, v46, v84, v90⟩ := hd.held
  rw [hd.eq_withLocation, Record.withLocation, Record.withLocation, haltType, hdatum, hregLoc, hdse,
    hdepSta, hver, h80, h120, h123, h124, h125, h126, h0.eq_of_onScale hlatU v0,
    h6.eq_of_onGrid hlat v6, h40.eq_of_onScale hlonU v40, h46.eq_of_onGrid hlon v46,
    h84.eq_of_onScale haltU v84, h90.eq_of_onGrid halt v90]
  simp only [BitVec.ofNat_toNat, BitVec.setWidth_eq]
end

/-! ## The floor payload (R180, R182) -/

/-- The floor registers hold what the 6 octets `os` decode to. -/
def FlrHeld (r : Record) (os : List Byte) : Prop :=
  r.move = BitVec.ofNat 2 (bigEndianOf (os.take 2)) ∧
  value r.floor = fixValue (bigEndianOf (os.take 2) / 4) 14 4 ∧
  value r.height = flrHeight os ∧ value r.heightU = uncValue (flrCode os) 11 24

/-- The registers that decoding a floor writes, as `r` has them. -/
def Record.withFloor (q r : Record) : Record :=
  { q with flrP := 1, floor := r.floor, height := r.height, heightU := r.heightU, move := r.move }

section
variable {q r r' : Record} {zs : Bool} {os os' : List Byte} {ds : List DiagEntry}

theorem FlrDecoded.held (h : FlrDecoded q r os) : FlrHeld r os :=
  ⟨congrArg Record.move h.1, h.2⟩

theorem FlrDecoded.eq_withFloor (h : FlrDecoded q r os) : r = q.withFloor r := by
  rw [Record.withFloor, h.held.1]
  exact h.1

/-- The last of six octets is the height-uncertainty code. -/
theorem flrCode_eq (hlen : os.length = 6) : flrCode os = bigEndianOf (os.drop 5) := by
  obtain ⟨o, ho⟩ := List.length_eq_one_iff.1 (show (os.drop 5).length = 1 by simp [hlen])
  have hos : os = os.take 5 ++ [o] := by rw [← ho, List.take_append_drop]
  rw [flrCode, ho, hos, List.getLastD_concat]
  simp [bigEndianOf]

theorem bigEndianOf_take_lt (os : List Byte) (n : Nat) : bigEndianOf (os.take n) < 256 ^ n :=
  (bigEndianOf_lt _).trans_le (Nat.pow_le_pow_right (by decide) (List.length_take_le n os))

/-- The floor payload of what 6 octets with a valid code decode to is these octets, without a report. -/
theorem FlrPayload.of_held (h : FlrPayload r false os' ds) (hheld : FlrHeld r os)
    (hlen : os.length = 6) (hcode : flrCode os ≤ 24) : os' = os ∧ ds = [] := by
  obtain ⟨hlen', fl, height, d1, d2, d3, hfl, hh, hu, hword, hheight, rfl⟩ := h
  obtain ⟨hmove, vfloor, vheight, vheightU⟩ := hheld
  have hwordLt := bigEndianOf_take_lt os 2
  have hheightLt := bigEndianOf_take_lt (os.drop 2) 3
  rw [flrHeight, if_pos hlen] at vheight
  obtain ⟨rfl, rfl⟩ := hfl.of_fixValue (by omega) vfloor
  obtain ⟨rfl, rfl⟩ := hh.of_fixValue (by omega) vheight
  obtain ⟨hlast, rfl⟩ := hu.of_valid hcode (by decide) vheightU
  rw [hmove, BitVec.toNat_ofNat, show bigEndianOf (os.take 2) / 4 * 4 +
    bigEndianOf (os.take 2) % 2 ^ 2 = bigEndianOf (os.take 2) by omega] at hword
  rw [flrCode_eq hlen] at hlast
  have hsplit (l : List Byte) : l = l.take 2 ++ ((l.drop 2).take 3 ++ l.drop 5) := by
    rw [show l.drop 5 = (l.drop 2).drop 3 by rw [List.drop_drop], List.take_append_drop,
      List.take_append_drop]
  refine ⟨?_, rfl⟩
  rw [hsplit os', hsplit os, bigEndianOf_injective (by simp [hlen, hlen']) hword,
    bigEndianOf_injective (by simp [hlen, hlen']) hheight,
    bigEndianOf_injective (by simp [hlen, hlen']) hlast]

/-- A record with its floor on the grids is decoded from its floor payload as it was. -/
theorem FlrDecoded.of_payload (h : FlrPayload r zs os ds) (hd : FlrDecoded q r' os)
    (hfloor : OnGrid r.floor 14 4) (hheight : OnGrid r.height 24 12)
    (hheightU : OnScale r.heightU 11 24 zs) : r' = q.withFloor r := by
  obtain ⟨hlen, fl, height, d1, d2, d3, hfl, hh, hu, hword, hrest, -⟩ := h
  obtain ⟨hmove, vfloor, vheight, vheightU⟩ := hd.held
  have hmoveLt := r.move.isLt
  rw [flrHeight, if_pos hlen, hrest] at vheight
  rw [hword, show (fl * 4 + r.move.toNat) / 4 = fl by omega] at vfloor
  rw [flrCode_eq hlen] at vheightU
  have hmove' : r'.move = r.move := by
    rw [hmove, hword]
    apply BitVec.eq_of_toNat_eq
    rw [BitVec.toNat_ofNat]
    omega
  rw [hd.eq_withFloor, Record.withFloor, Record.withFloor, hmove', hfl.eq_of_onGrid hfloor vfloor,
    hh.eq_of_onGrid hheight vheight, hu.eq_of_onScale hheightU vheightU]
end

/-! ## The usage payload (R190, R192, R193) -/

/-- The usage registers hold what the octets `os` decode to. -/
def UsgHeld (r : Record) (os : List Byte) : Prop :=
  r.retrans = BitVec.ofBool ((os.headD 0).getLsbD 0) ∧
  r.retExp = BitVec.ofBool ((os.headD 0).getLsbD 1) ∧
  r.locPol = BitVec.ofBool ((os.headD 0).getLsbD 2) ∧ r.expire = BitVec.ofNat 16 (usgExpire os)

/-- The registers that decoding a usage writes, as `r` has them. -/
def Record.withUsage (q r : Record) : Record :=
  { q with
    usgP := 1, retrans := r.retrans, retExp := r.retExp, locPol := r.locPol, expire := r.expire }

section
variable {q r : Record} {os os' : List Byte} {ds : List DiagEntry}

theorem usgDecoded_held (q : Record) (os : List Byte) : UsgHeld (usgDecoded q os) os :=
  ⟨rfl, rfl, rfl, rfl⟩

theorem usgExpire_lt (os : List Byte) : usgExpire os < 2 ^ 16 := by
  rw [usgExpire]
  split
  · next hlen =>
    refine (bigEndianOf_lt _).trans_le ?_
    rw [List.length_drop, hlen]
    decide
  · decide

/-- The expiration of a decoded payload is 0 exactly where the payload's is. -/
theorem ofNat_usgExpire_eq_zero : BitVec.ofNat 16 (usgExpire os) = 0 ↔ usgExpire os = 0 := by
  rw [← BitVec.toNat_inj, toNat_ofNat_lt (usgExpire_lt os)]
  rfl

/-- The flags octet from its three flags (R87). -/
theorem flags_octet : ∀ o : Byte, o.toNat < 8 → (BitVec.ofBool (o.getLsbD 0)).toNat +
    (if o.getLsbD 1 then 2 else 0) + 4 * (BitVec.ofBool (o.getLsbD 2)).toNat = o.toNat := by
  decide

/-- The three flags from the flags octet (R87). -/
theorem octet_flags : ∀ (x y : BitVec 1) (e : Bool) (o : Byte),
    o = BitVec.ofNat 8 (x.toNat + (if e then 2 else 0) + 4 * y.toNat) →
    BitVec.ofBool (o.getLsbD 0) = x ∧ o.getLsbD 1 = e ∧ BitVec.ofBool (o.getLsbD 2) = y := by
  rintro x y e o rfl
  revert x y e
  decide

/-- The usage payload of what canonical octets decode to is these octets, without a report. -/
theorem UsgPayload.of_held (h : UsgPayload r os' ds) (hheld : UsgHeld r os)
    (hflags : (os.headD 0).toNat < 8)
    (hform : (os.length = 1 ∧ (os.headD 0).getLsbD 1 = false) ∨
      (os.length = 3 ∧ (os.headD 0).getLsbD 1 = true ∧ usgExpire os ≠ 0)) :
    os' = os ∧ ds = [] := by
  obtain ⟨hlen', hhead, hexp, rfl⟩ := h
  obtain ⟨hretrans, hretExp, hlocPol, hexpire⟩ := hheld
  have hoctet := flags_octet _ hflags
  rw [hretrans, hlocPol] at hhead
  rcases hform with ⟨hlen, hbit⟩ | ⟨hlen, hbit, hnonzero⟩
  · have hzero : r.expire = 0 := by
      rw [hexpire, ofNat_usgExpire_eq_zero, usgExpire, if_neg (by omega)]
    rw [if_pos hzero] at hlen' hhead
    rw [hbit, if_neg Bool.false_ne_true] at hoctet
    have hsame : os'.headD 0 = os.headD 0 := BitVec.eq_of_toNat_eq (hhead.trans hoctet)
    constructor
    · rw [head_cons_drop hlen', head_cons_drop hlen, hsame, List.drop_of_length_le hlen'.le,
        List.drop_of_length_le hlen.le]
    · rw [hretExp, hbit, hzero]
      rfl
  · have hnz : r.expire ≠ 0 := by rwa [hexpire, ne_eq, ofNat_usgExpire_eq_zero]
    rw [if_neg hnz] at hlen' hhead
    rw [hbit, if_pos rfl] at hoctet
    have hsame : os'.headD 0 = os.headD 0 := BitVec.eq_of_toNat_eq (hhead.trans hoctet)
    have hrest := hexp hnz
    rw [hexpire, toNat_ofNat_lt (usgExpire_lt os), usgExpire, if_pos hlen] at hrest
    constructor
    · rw [head_cons_drop hlen', head_cons_drop hlen, hsame,
        bigEndianOf_injective (by simp [hlen, hlen']) hrest]
    · rw [hretExp, hbit, if_neg (fun h => absurd h.1 (by decide)), if_neg (fun h => hnz h.2)]

/-- A record with agreeing usage registers is decoded from its usage payload as it was. -/
theorem usgDecoded_of_payload (h : UsgPayload r os ds) (hagree : r.retExp = 1 ↔ r.expire ≠ 0) :
    usgDecoded q os = q.withUsage r := by
  obtain ⟨hlen, hhead, hexp, -⟩ := h
  have hoctet : os.headD 0 = BitVec.ofNat 8 (r.retrans.toNat +
      (if decide (r.expire ≠ 0) then 2 else 0) + 4 * r.locPol.toNat) := by
    apply BitVec.eq_of_toNat_eq
    have hx := r.retrans.isLt
    have hy := r.locPol.isLt
    rw [hhead]
    by_cases h : r.expire = 0
    · rw [if_pos h, decide_eq_false (not_not.2 h), toNat_ofNat_lt (by simp; omega)]
      rfl
    · rw [if_neg h, decide_eq_true h, toNat_ofNat_lt (by simp; omega)]
      rfl
  obtain ⟨hretrans, hbit, hlocPol⟩ := octet_flags _ _ _ _ hoctet
  have hretExp : BitVec.ofBool ((os.headD 0).getLsbD 1) = r.retExp := by
    rw [hbit]
    rcases (by decide : ∀ b : BitVec 1, b = 0 ∨ b = 1) r.retExp with h | h
    · have hzero : ¬r.expire ≠ 0 := fun hne => absurd (hagree.2 hne) (by rw [h]; decide)
      rw [decide_eq_false hzero, h]
      rfl
    · rw [decide_eq_true (hagree.1 h), h]
      rfl
  have hexpire : BitVec.ofNat 16 (usgExpire os) = r.expire := by
    by_cases hzero : r.expire = 0
    · rw [if_pos hzero] at hlen
      rw [usgExpire, if_neg (by omega), hzero]
      rfl
    · rw [if_neg hzero] at hlen
      rw [usgExpire, if_pos hlen, hexp hzero, BitVec.ofNat_toNat, BitVec.setWidth_eq]
  rw [usgDecoded, hretrans, hretExp, hlocPol, hexpire]
  rfl
end

/-! ## The BSSID payload (R200, R202) -/

/-- The slots of `r` below `n` hold the addresses of the payload `os`, and R.BSS_N is `n`. -/
def BssHeld (r : Record) (os : List Byte) (n : Nat) : Prop :=
  r.bssN = BitVec.ofNat 6 n ∧ ∀ i < n, r.slot i =
    { addr := BitVec.ofNat 48 (bigEndianOf ((os.drop (1 + 6 * i)).take 6)), valid := 1 }

/-- The registers that decoding the addresses writes, as `r` has them, with the indicator `o`. -/
def Record.withAddresses (q r : Record) (o : Byte) : Record :=
  { q with bssP := 1, bssN := r.bssN, bss := r.bss, bssInd := o }

section
variable {q r r' : Record} {ind : Bool} {os os' : List Byte} {ds : List DiagEntry} {n : Nat}

/-- Octets in groups of six behind a first one are determined by that one and the groups' numbers. -/
theorem octets_eq_of_groups (hlen' : os'.length = 1 + 6 * n) (hlen : os.length = 1 + 6 * n)
    (hhead : os'.headD 0 = os.headD 0)
    (hgroups : ∀ i < n, bigEndianOf ((os'.drop (1 + 6 * i)).take 6) =
      bigEndianOf ((os.drop (1 + 6 * i)).take 6)) : os' = os := by
  refine List.ext_getElem (hlen'.trans hlen.symm) fun k hk' hk => ?_
  cases k with
  | zero =>
    have hd (l : List Byte) (h : 0 < l.length) : l[0] = l.headD 0 := by
      cases l with
      | nil => cases h
      | cons o l => rfl
    rw [hd, hd, hhead]
  | succ k =>
    have hgroup : (os'.drop (1 + 6 * (k / 6))).take 6 = (os.drop (1 + 6 * (k / 6))).take 6 :=
      bigEndianOf_injective (by simp [hlen, hlen']) (hgroups (k / 6) (by omega))
    have hget := congrArg (·[k % 6]?) hgroup
    simp only [List.getElem?_take, List.getElem?_drop, show k % 6 < 6 by omega, if_true,
      show 1 + 6 * (k / 6) + k % 6 = k + 1 by omega, List.getElem?_eq_getElem hk',
      List.getElem?_eq_getElem hk, Option.some.injEq] at hget
    exact hget

/-- The BSSID payload of what canonical octets decode to is these octets, without a report. -/
theorem BssPayload.of_held (h : BssPayload r ind os' ds) (hheld : BssHeld r os n)
    (hlen : os.length = 1 + 6 * n) (hn : n ≤ 42)
    (hhead : (os.headD 0).toNat = if ind then n else 0) : os' = os ∧ ds = [] := by
  obtain ⟨hlen', hhead', hgroups, rfl⟩ := h
  obtain ⟨hcount, hslots⟩ := hheld
  have hN : r.bssN.toNat = n := by
    rw [hcount]
    exact toNat_ofNat_lt (by omega)
  rw [hN] at hlen' hhead' hgroups ⊢
  constructor
  · refine octets_eq_of_groups hlen' hlen (BitVec.eq_of_toNat_eq (hhead'.trans hhead.symm))
      fun i hi => ?_
    have hlt := bigEndianOf_take_lt (os.drop (1 + 6 * i)) 6
    rw [hgroups i hi, hslots i hi, if_pos rfl]
    exact toNat_ofNat_lt (by omega)
  · rw [List.filter_eq_nil_iff.2, List.map_nil]
    intro i hi
    rw [hslots i (List.mem_range.1 hi)]
    exact fun h => absurd (of_decide_eq_true h) (show ¬(1 : BitVec 1) = 0 by decide)

/-- A record whose slots in use are valid and whose other slots are empty is decoded from its BSSID payload
as it was, over a record without addresses. -/
theorem slots_of_payload (h : BssPayload r ind os ds)
    (hvalid : ∀ i < r.bssN.toNat, (r.slot i).valid = 1)
    (hempty : ∀ i, r.bssN.toNat ≤ i → r.slot i = Slot.empty)
    (hslots : ∀ i, r'.slot i = if i < r.bssN.toNat then
      { addr := BitVec.ofNat 48 (bigEndianOf ((os.drop (1 + 6 * i)).take 6)), valid := 1 }
      else Slot.empty) : r'.bss = r.bss := by
  obtain ⟨-, -, hgroups, -⟩ := h
  have hslot (i : Nat) : r'.slot i = r.slot i := by
    rw [hslots]
    by_cases hi : i < r.bssN.toNat
    · rw [if_pos hi, hgroups i hi, if_pos (hvalid i hi), BitVec.ofNat_toNat, BitVec.setWidth_eq,
        ← hvalid i hi]
    · rw [if_neg hi, hempty i (Nat.not_lt.1 hi)]
  refine Vector.ext fun i hi => ?_
  have h := hslot i
  simp only [Record.slot, Vector.getElem?_eq_getElem hi, Option.getD_some] at h
  exact h
end

end Sys2Proof.Machine
end

section
/-! PROOFS. A wire record in the buffer (spec/30_encoding.md R80 to R82, spec/47_record.md R215): where the octets of
subelements stand one after another, the framer finds them, and RECDEC decodes them in order. -/

namespace Sys2Proof.Machine

/-! ## The octets of a wire record in the buffer -/

/-- The octets of one subelement: ID, length, payload (R82). -/
def pieceOctets (x : Byte × List Byte) : List Byte := x.1 :: BitVec.ofNat 8 x.2.length :: x.2

theorem wireOctets_eq (xs : List (Byte × List Byte)) :
    wireOctets xs = [0x01, 0x00, 0x08] ++ xs.flatMap pieceOctets := rfl

/-- The subelements that the framer finds where the octets of `xs` stand from octet `c` on (R161). -/
def subsFrom : Nat → List (Byte × List Byte) → List Sub
  | _, [] => []
  | c, x :: xs => ⟨x.1, BitVec.ofNat 8 x.2.length, c + 2⟩ :: subsFrom (c + 2 + x.2.length) xs

section
variable {t : State} {c p : Nat} {o : Byte} {os ps : List Byte} {xs ys : List (Byte × List Byte)}

theorem State.Holds.append (h : t.Holds p (os ++ ps)) : t.Holds p os ∧ t.Holds (p + os.length) ps := by
  constructor
  · intro k o hk
    exact h k o (by rw [List.getElem?_append_left (List.getElem?_eq_some_iff.1 hk).1, hk])
  · intro k o hk
    rw [Nat.add_assoc]
    exact h _ o (by rw [List.getElem?_append_right (by omega), Nat.add_sub_cancel_left, hk])

theorem State.Holds.cons (h : t.Holds p (o :: os)) :
    (t.digitsOk p = true ∧ t.octet p = o) ∧ t.Holds (p + 1) os :=
  ⟨h 0 o rfl, (State.Holds.append (os := [o]) h).2⟩

theorem pieceOctets_length (x : Byte × List Byte) : (pieceOctets x).length = x.2.length + 2 := rfl

theorem subsFrom_append (c : Nat) (xs ys : List (Byte × List Byte)) : subsFrom c (xs ++ ys) =
    subsFrom c xs ++ subsFrom (c + (xs.flatMap pieceOctets).length) ys := by
  induction xs generalizing c with
  | nil => rfl
  | cons x xs ih =>
    rw [List.cons_append, subsFrom, subsFrom, ih, List.flatMap_cons, List.length_append,
      pieceOctets_length, List.cons_append, show c + (x.2.length + 2 +
        (xs.flatMap pieceOctets).length) = c + 2 + x.2.length + (xs.flatMap pieceOctets).length by omega]

/-- The framer finds the subelements whose octets are in the buffer. -/
theorem framed_subsFrom (hheld : t.Holds c (xs.flatMap pieceOctets))
    (hin : c + (xs.flatMap pieceOctets).length ≤ t.olen) (hfit : ∀ x ∈ xs, x.2.length < 256) :
    Framed t c (subsFrom c xs) (c + (xs.flatMap pieceOctets).length) := by
  induction xs generalizing c with
  | nil => rfl
  | cons x xs ih =>
    rw [List.flatMap_cons] at hheld
    rw [List.flatMap_cons, List.length_append, pieceOctets_length] at hin ⊢
    obtain ⟨hpiece, hrest⟩ := hheld.append
    obtain ⟨⟨hid, hidOctet⟩, hpiece⟩ := hpiece.cons
    obtain ⟨⟨hlen, hlenOctet⟩, -⟩ := hpiece.cons
    have hlength : (BitVec.ofNat 8 x.2.length).toNat = x.2.length :=
      toNat_ofNat_lt (hfit x List.mem_cons_self)
    rw [pieceOctets_length] at hrest
    refine ⟨hid, hlen, by rw [hidOctet, hlenOctet], by simp only [hlength]; omega, ?_⟩
    simp only [hlength]
    rw [show c + (x.2.length + 2 + (xs.flatMap pieceOctets).length) =
      c + 2 + x.2.length + (xs.flatMap pieceOctets).length by omega]
    exact ih (by rwa [show c + 2 + x.2.length = c + (x.2.length + 2) by omega]) (by omega)
      fun y hy => hfit y (List.mem_cons_of_mem x hy)
end

/-! ## Decoding the subelements -/

/-- Decoding the subelements `xs` from octet `c` on makes `r` of the record `q` and posts `es`. -/
def WireDecodes (t : State) (c : Nat) (xs : List (Byte × List Byte)) (q r : Record)
    (es : List DiagEntry) : Prop :=
  ∀ ds, (subsFrom c xs).foldl (decodeSub t) (q, ds) = (r, ds ++ es)

section
variable {t : State} {c c' : Nat} {xs ys : List (Byte × List Byte)} {q r r' : Record}
  {es fs : List DiagEntry}

theorem wireDecodes_nil (t : State) (c : Nat) (q : Record) : WireDecodes t c [] q q [] :=
  fun ds => by rw [List.append_nil]; rfl

theorem WireDecodes.append (h : WireDecodes t c xs q r es)
    (hc : c' = c + (xs.flatMap pieceOctets).length) (h' : WireDecodes t c' ys r r' fs) :
    WireDecodes t c (xs ++ ys) q r' (es ++ fs) := fun ds => by
  rw [subsFrom_append, List.foldl_append, h ds, ← hc, h', List.append_assoc]

/-- The subelements decode as RECDEC decodes them, from a cleared record. -/
theorem WireDecodes.decodeSubs (h : WireDecodes t c xs Record.cleared r es) :
    decodeSubs t (subsFrom c xs) = (r, es) := h []

/-- RECDEC of a wire record in a buffer of its size: nothing is posted but what its subelements post, and
the advisory entries. -/
theorem exec_recdec_wire (hcap : t.hlen ≤ Config.hcap) (hlen : t.hlen = 2 * (wireOctets xs).length)
    (hheld : t.Holds 0 (wireOctets xs)) (hfit : ∀ x ∈ xs, x.2.length < 256)
    (h : WireDecodes t 3 xs Record.cleared r es) :
    exec .recdec t = .next (State.answered
      { t with record := r, cur := BitVec.ofNat 32 t.olen } (es ++ decodeAdvisories r)
      (presentFlags r)) := by
  have holen : t.olen = (wireOctets xs).length := by
    rw [State.olen, hlen, Nat.mul_div_cancel_left _ (by decide)]
  have hlength : (wireOctets xs).length = 3 + (xs.flatMap pieceOctets).length := by
    rw [wireOctets_eq, List.length_append]
    rfl
  obtain ⟨hheader, hpieces⟩ := State.Holds.append (os := [0x01, 0x00, 0x08]) hheld
  have hframed : Framed t 3 (subsFrom 3 xs) t.olen := by
    rw [holen, hlength]
    exact framed_subsFrom hpieces (by rw [holen, hlength]) hfit
  have hnote {i : Nat} {want : Byte} (k : Cause)
      (hi : ([0x01, 0x00, 0x08] : List Byte)[i]? = some want) : headerNote t i want k = [] := by
    obtain ⟨hdigits, hoctet⟩ := hheader i want hi
    rw [Nat.zero_add] at hdigits hoctet
    rw [headerNote, if_neg (by simp [hdigits]), if_pos hoctet]
  have hnotes : headerNotes t = [] := by
    rw [headerNotes, oddNote, if_neg (by omega), hnote _ rfl, hnote _ rfl, hnote _ rfl]
    rfl
  rw [recdecDecodesEverySubelement.2 t _ hcap (by omega) hframed, h.decodeSubs, hnotes]
  rfl
end

/-! ## A subelement that may be absent -/

/-- The subelement with ID `id`, if there is one. -/
def part (id : Byte) (o : Option (List Byte)) : List (Byte × List Byte) := o.toList.map (id, ·)

section
variable {t : State} {c : Nat} {id : Byte} {o : Option (List Byte)} {q : Record}
  {P : List Byte → Record → List DiagEntry → Prop}

/-- What decoding an optional subelement leaves: nothing new where it is absent. -/
def Taken (P : List Byte → Record → List DiagEntry → Prop) (o : Option (List Byte)) (q r : Record)
    (es : List DiagEntry) : Prop :=
  (o = none ∧ r = q ∧ es = []) ∨ ∃ os, o = some os ∧ P os r es

/-- An optional subelement in the buffer is decoded if its payload is. -/
theorem exists_taken (hheld : t.Holds c ((part id o).flatMap pieceOctets))
    (hin : c + ((part id o).flatMap pieceOctets).length ≤ t.olen)
    (h : ∀ os, o = some os → t.Holds (c + 2) os → c + 2 + os.length ≤ t.olen → ∃ r es,
      (∀ ds, decodeSub t (q, ds) ⟨id, BitVec.ofNat 8 os.length, c + 2⟩ = (r, ds ++ es)) ∧ P os r es) :
    ∃ r es, WireDecodes t c (part id o) q r es ∧ Taken P o q r es := by
  cases o with
  | none => exact ⟨q, [], wireDecodes_nil t c q, .inl ⟨rfl, rfl, rfl⟩⟩
  | some os =>
    have hlength : ((part id (some os)).flatMap pieceOctets).length = os.length + 2 := by
      simp [part, pieceOctets]
    have hpiece : t.Holds c (id :: BitVec.ofNat 8 os.length :: os) := by
      simpa [part, pieceOctets] using hheld
    obtain ⟨r, es, hdecode, hP⟩ := h os rfl hpiece.cons.2.cons.2 (by omega)
    exact ⟨r, es, hdecode, .inr ⟨os, rfl, hP⟩⟩
end

end Sys2Proof.Machine
end

section
/-! PROOFS. The four codecs on a payload that stands in the buffer (spec/43_location.md to spec/46_bssid.md): what the
framer's walk makes of a readable subelement. -/

namespace Sys2Proof.Machine

/-! ## What each command makes of a payload in the buffer -/

section
variable {u : State} {p : Nat} {os : List Byte}

/-- The operands of a decode command that names a payload in the buffer are the payload's offset and
length. -/
theorem operands_toNat (hcap : u.hlen ≤ Config.hcap) (hin : p + os.length ≤ u.olen)
    (hfit : os.length < 256) : (BitVec.ofNat 32 p).toNat = p ∧
      (BitVec.ofNat 8 os.length).toNat = os.length :=
  ⟨toNat_ofNat_le_olen hcap (by omega), toNat_ofNat_lt hfit⟩

theorem exec_locdec_held (hcap : u.hlen ≤ Config.hcap) (hheld : u.Holds p os)
    (hin : p + os.length ≤ u.olen) (hlen : os.length = 16) : ∃ r v, LocDecoded u.record r os ∧
      exec (.locdec (BitVec.ofNat 32 p) (BitVec.ofNat 8 os.length)) u =
        .next (State.answered { u with record := r } (locDecNotes u.record os) v) := by
  obtain ⟨hpos, hlength⟩ := operands_toNat hcap hin (by omega)
  obtain ⟨hoctets, hgood⟩ := hheld.octets
  obtain ⟨-, -, hdec⟩ :=
    locdecDecodesTheLocation (BitVec.ofNat 32 p) (BitVec.ofNat 8 os.length) u
  rw [hpos, hlength] at hdec
  rw [hlen] at hoctets hgood
  obtain ⟨r, hr, hexec⟩ := ((hdec hin).2.2 hlen).2 hgood
  rw [hoctets] at hr hexec
  exact ⟨r, _, hr, hexec⟩

theorem exec_flrdec_held (hcap : u.hlen ≤ Config.hcap) (hheld : u.Holds p os)
    (hin : p + os.length ≤ u.olen) (hlen : os.length = 6) : ∃ r v, FlrDecoded u.record r os ∧
      exec (.flrdec (BitVec.ofNat 32 p) (BitVec.ofNat 8 os.length)) u =
        .next (State.answered { u with record := r }
          (duplicateNotes u.record.flrP 4 ++ uncNotes (flrCode os) 24 5) v) := by
  obtain ⟨hpos, hlength⟩ := operands_toNat hcap hin (by omega)
  obtain ⟨hoctets, hgood⟩ := hheld.octets
  obtain ⟨-, -, hdec⟩ := flrdecDecodesTheFloor (BitVec.ofNat 32 p) (BitVec.ofNat 8 os.length) u
  rw [hpos, hlength] at hdec
  obtain ⟨r, hr, hexec⟩ := ((hdec hin).2 (.inl hlen)).2 hgood
  rw [hoctets] at hr hexec
  exact ⟨r, _, hr, hexec⟩

theorem exec_usgdec_held (hcap : u.hlen ≤ Config.hcap) (hheld : u.Holds p os)
    (hin : p + os.length ≤ u.olen) (hlen : os.length = 1 ∨ os.length = 3) : ∃ v,
      exec (.usgdec (BitVec.ofNat 32 p) (BitVec.ofNat 8 os.length)) u =
        .next (State.answered { u with record := usgDecoded u.record os }
          (usgDecNotes u.record os) v) := by
  obtain ⟨hpos, hlength⟩ := operands_toNat hcap hin (by omega)
  obtain ⟨hoctets, hgood⟩ := hheld.octets
  obtain ⟨-, -, hdec⟩ := usgdecDecodesTheUsage (BitVec.ofNat 32 p) (BitVec.ofNat 8 os.length) u
  rw [hpos, hlength] at hdec
  have hexec := ((hdec hin).2 hlen).2 hgood
  rw [hoctets] at hexec
  exact ⟨_, hexec⟩

/-- What decoding the payload `os` of `n` addresses over the record `q` makes, its indicator octet
readable (R200). -/
def BssDecoded (q r : Record) (os : List Byte) (n : Nat) : Prop :=
  r = { q with bssP := 1, bssN := BitVec.ofNat 6 n, bss := r.bss, bssInd := os.headD 0 } ∧
  ∀ i, r.slot i = if i < n then
    { addr := BitVec.ofNat 48 (bigEndianOf ((os.drop (1 + 6 * i)).take 6)), valid := 1 }
    else q.slot i

/-- The first octet of a payload in the buffer. -/
theorem State.Holds.head (h : u.Holds p os) (hpos : 0 < os.length) :
    u.digitsOk p = true ∧ u.octet p = os.headD 0 := by
  cases os with
  | nil => cases hpos
  | cons o os => exact h.cons.1

variable {n : Nat}

/-- A group of six octets of a payload in the buffer is readable, and is the payload's. -/
theorem holds_group (hheld : u.Holds p os) (hlen : os.length = 1 + 6 * n) {i : Nat} (hi : i < n) :
    u.firstBad (p + 1 + 6 * i) 6 = none ∧
      u.octets (p + 1 + 6 * i) 6 = (os.drop (1 + 6 * i)).take 6 := by
  obtain ⟨hoctets, hgood⟩ := hheld.octets
  rw [firstBad_none_iff] at hgood
  constructor
  · refine (firstBad_none_iff _ _ _).2 fun k hk => ?_
    rw [show p + 1 + 6 * i + k = p + (1 + 6 * i + k) by omega]
    exact hgood _ (by omega)
  · rw [Nat.add_assoc, octets_part u (n := os.length) (by omega), hoctets]

theorem bssSlotAt_held (hheld : u.Holds p os) (hlen : os.length = 1 + 6 * n) {i : Nat}
    (hi : i < n) : bssSlotAt u p i =
      { addr := BitVec.ofNat 48 (bigEndianOf ((os.drop (1 + 6 * i)).take 6)), valid := 1 } := by
  obtain ⟨hgood, hoctets⟩ := holds_group hheld hlen hi
  rw [bssSlotAt, hgood, hoctets]

/-- A payload whose indicator is 0 or the count is reported for nothing but its ID coming twice. -/
theorem bssDecNotes_held (hheld : u.Holds p os) (hlen : os.length = 1 + 6 * n) (q : Record)
    (hhead : (os.headD 0).toNat = 0 ∨ (os.headD 0).toNat = n) :
    bssDecNotes u q p os.length = duplicateNotes q.bssP 7 := by
  obtain ⟨hdigits, hoctet⟩ := hheld.head (by omega)
  have hcount : (os.length - 1) / 6 = n := by omega
  have hresidue : (os.length - 1) % 6 = 0 := by omega
  have hslots : (List.range n).filterMap (fun i => u.firstBad (p + 1 + 6 * i) 6) = [] := by
    refine List.filterMap_eq_nil_iff.2 fun i hi => ?_
    exact (holds_group hheld hlen (List.mem_range.1 hi)).1
  have hind : ¬(u.digitsOk p ∧ u.octet p ≠ 0 ∧ (u.octet p).toNat ≠ n) := by
    rw [hoctet]
    rintro ⟨-, hne, hcount⟩
    exact hhead.elim (fun h => hne (BitVec.eq_of_toNat_eq h)) hcount
  rw [bssDecNotes, hcount, hresidue, hslots, if_pos hdigits, if_pos rfl, if_neg hind]
  simp

theorem exec_bssdec_held (hcap : u.hlen ≤ Config.hcap) (hheld : u.Holds p os)
    (hin : p + os.length ≤ u.olen) (hlen : os.length = 1 + 6 * n) (hn : n ≤ 42)
    (hhead : (os.headD 0).toNat = 0 ∨ (os.headD 0).toNat = n) :
    ∃ r v, BssDecoded u.record r os n ∧
      exec (.bssdec (BitVec.ofNat 32 p) (BitVec.ofNat 8 os.length)) u =
        .next (State.answered { u with record := r } (duplicateNotes u.record.bssP 7) v) := by
  obtain ⟨hpos, hlength⟩ := operands_toNat hcap hin (by omega)
  have hcount : (os.length - 1) / 6 = n := by omega
  obtain ⟨hdigits, hoctet⟩ := hheld.head (by omega)
  obtain ⟨-, -, hdec⟩ := bssdecDecodesTheAddresses (BitVec.ofNat 32 p) (BitVec.ofNat 8 os.length) u
  rw [hpos, hlength] at hdec
  obtain ⟨r, hr, hslots, hexec⟩ := (hdec hin).2 (by omega)
  rw [hcount, if_pos hdigits, hoctet] at hr
  rw [bssDecNotes_held hheld hlen u.record hhead] at hexec
  refine ⟨r, _, ⟨hr, fun i => ?_⟩, hexec⟩
  rw [hslots, hcount]
  split
  · next hi => exact bssSlotAt_held hheld hlen hi
  · rfl
end

end Sys2Proof.Machine
end

section
/-! PROOFS. A wire record as its four optional subelements (spec/47_record.md R217, R221): what RECDEC makes of them and
what RECENC writes, part by part. -/

namespace Sys2Proof.Machine

/-- The payloads of a wire record, each absent or there. -/
structure WireParts where
  loc : Option (List Byte)
  flr : Option (List Byte)
  usg : Option (List Byte)
  bss : Option (List Byte)

/-- The subelements in ascending ID order (R165). -/
def WireParts.list (p : WireParts) : List (Byte × List Byte) :=
  part 0 p.loc ++ part 4 p.flr ++ part 6 p.usg ++ part 7 p.bss

/-- Every payload has a length that its codec reads, and an indicator that is 0 or the count. -/
structure WireParts.Fits (p : WireParts) : Prop where
  loc : ∀ os, p.loc = some os → os.length = 16
  flr : ∀ os, p.flr = some os → os.length = 6
  usg : ∀ os, p.usg = some os → os.length = 1 ∨ os.length = 3
  bss : ∀ os, p.bss = some os → ∃ n ≤ 42, os.length = 1 + 6 * n ∧
    ((os.headD 0).toNat = 0 ∨ (os.headD 0).toNat = n)

/-- What each codec makes of its payload over the record `q` (R170, R180, R190, R200). -/
def LocTaken (q : Record) (os : List Byte) (r : Record) (es : List DiagEntry) : Prop :=
  LocDecoded q r os ∧ es = locDecNotes q os

def FlrTaken (q : Record) (os : List Byte) (r : Record) (es : List DiagEntry) : Prop :=
  FlrDecoded q r os ∧ es = duplicateNotes q.flrP 4 ++ uncNotes (flrCode os) 24 5

def UsgTaken (q : Record) (os : List Byte) (r : Record) (es : List DiagEntry) : Prop :=
  r = usgDecoded q os ∧ es = usgDecNotes q os

def BssTaken (q : Record) (os : List Byte) (r : Record) (es : List DiagEntry) : Prop :=
  ∃ n, os.length = 1 + 6 * n ∧ BssDecoded q r os n ∧ es = duplicateNotes q.bssP 7

/-- The four decoders one after another: the record `r` and the entries `es` from a cleared record. -/
def WireParts.Decoded (p : WireParts) (r : Record) (es : List DiagEntry) : Prop :=
  ∃ r1 r2 r3 e1 e2 e3 e4, es = e1 ++ e2 ++ e3 ++ e4 ∧
    Taken (LocTaken Record.cleared) p.loc Record.cleared r1 e1 ∧
    Taken (FlrTaken r1) p.flr r1 r2 e2 ∧ Taken (UsgTaken r2) p.usg r2 r3 e3 ∧
    Taken (BssTaken r3) p.bss r3 r e4

section
variable {t : State} {p : WireParts} {id : Byte} {o : Option (List Byte)}

theorem mem_part {x : Byte × List Byte} : x ∈ part id o ↔ x.1 = id ∧ o = some x.2 := by
  obtain ⟨k, os⟩ := x
  cases o with
  | none => simp [part]
  | some ps => simp [part, eq_comm]

theorem part_octets_length : ((part id o).flatMap pieceOctets).length =
    o.elim 0 fun os => os.length + 2 := by
  cases o with
  | none => rfl
  | some os => simp [part, pieceOctets]

/-- No payload is longer than a length octet can say (R82). -/
theorem WireParts.Fits.length_lt (h : p.Fits) {x : Byte × List Byte} (hx : x ∈ p.list) :
    x.2.length < 256 := by
  simp only [WireParts.list, List.mem_append, mem_part] at hx
  rcases hx with ((⟨-, hx⟩ | ⟨-, hx⟩) | ⟨-, hx⟩) | ⟨-, hx⟩
  · have := h.loc _ hx
    omega
  · have := h.flr _ hx
    omega
  · have := h.usg _ hx
    omega
  · obtain ⟨n, hn, hlen, -⟩ := h.bss _ hx
    omega

/-- A wire record fits the buffer (R21). -/
theorem WireParts.Fits.wireOctets_length_le (h : p.Fits) : 2 * (wireOctets p.list).length ≤ 1024 := by
  have helim {o : Option (List Byte)} {k : Nat} (ho : ∀ os, o = some os → os.length ≤ k) :
      (o.elim 0 fun os => os.length + 2) ≤ k + 2 := by
    cases o with
    | none => exact Nat.zero_le _
    | some os => exact Nat.add_le_add_right (ho os rfl) 2
  have hloc := helim fun os ho => (h.loc os ho).le
  have hflr := helim fun os ho => (h.flr os ho).le
  have husg := helim (k := 3) fun os ho => by
    have := h.usg os ho
    omega
  have hbss := helim (k := 253) fun os ho => by
    obtain ⟨n, hn, hlen, -⟩ := h.bss os ho
    omega
  simp only [wireOctets_eq, WireParts.list, List.flatMap_append, List.length_append,
    part_octets_length, List.length_cons, List.length_nil]
  omega

/-- The parts of a wire record in the buffer are decoded one after another. -/
theorem exists_decoded (hcap : t.hlen ≤ Config.hcap) (hfits : p.Fits)
    (hheld : t.Holds 3 (p.list.flatMap pieceOctets))
    (hin : 3 + (p.list.flatMap pieceOctets).length ≤ t.olen) :
    ∃ r es, WireDecodes t 3 p.list Record.cleared r es ∧ p.Decoded r es := by
  simp only [WireParts.list, List.flatMap_append, List.length_append] at hheld hin
  obtain ⟨hheld, hbss⟩ := hheld.append
  obtain ⟨hheld, husg⟩ := hheld.append
  obtain ⟨hloc, hflr⟩ := hheld.append
  simp only [List.length_append, ← Nat.add_assoc] at hin hloc hflr husg hbss
  obtain ⟨r1, e1, hdecodes1, htaken1⟩ := exists_taken (P := LocTaken Record.cleared) hloc (by omega)
    fun os ho hos hfit => by
      obtain ⟨r, v, hr, hexec⟩ := exec_locdec_held (u := { t with record := Record.cleared }) hcap
        hos hfit (hfits.loc os ho)
      exact ⟨r, _, decodeSub_of_command rfl hexec, hr, rfl⟩
  obtain ⟨r2, e2, hdecodes2, htaken2⟩ := exists_taken (P := FlrTaken r1) hflr (by omega)
    fun os ho hos hfit => by
      obtain ⟨r, v, hr, hexec⟩ := exec_flrdec_held (u := { t with record := r1 }) hcap
        hos hfit (hfits.flr os ho)
      exact ⟨r, _, decodeSub_of_command rfl hexec, hr, rfl⟩
  obtain ⟨r3, e3, hdecodes3, htaken3⟩ := exists_taken (P := UsgTaken r2) husg (by omega)
    fun os ho hos hfit => by
      obtain ⟨v, hexec⟩ := exec_usgdec_held (u := { t with record := r2 }) hcap
        hos hfit (hfits.usg os ho)
      exact ⟨_, _, decodeSub_of_command rfl hexec, rfl, rfl⟩
  obtain ⟨r4, e4, hdecodes4, htaken4⟩ := exists_taken (P := BssTaken r3) hbss (by omega)
    fun os ho hos hfit => by
      obtain ⟨n, hn, hlen, hhead⟩ := hfits.bss os ho
      obtain ⟨r, v, hr, hexec⟩ := exec_bssdec_held (u := { t with record := r3 }) hcap
        hos hfit hlen hn hhead
      exact ⟨r, _, decodeSub_of_command rfl hexec, n, hlen, hr, rfl⟩
  refine ⟨r4, _, ?_, r1, r2, r3, e1, e2, e3, e4, rfl, htaken1, htaken2, htaken3, htaken4⟩
  rw [WireParts.list]
  exact ((hdecodes1.append rfl hdecodes2).append
    (by rw [List.flatMap_append, List.length_append, ← Nat.add_assoc]) hdecodes3).append
    (by simp only [List.flatMap_append, List.length_append, ← Nat.add_assoc]) hdecodes4

/-- RECDEC of a buffer that holds a wire record. -/
theorem exists_recdec_parts (hcap : t.hlen ≤ Config.hcap) (hfits : p.Fits)
    (hlen : t.hlen = 2 * (wireOctets p.list).length) (hheld : t.Holds 0 (wireOctets p.list)) :
    ∃ r es, p.Decoded r es ∧ exec .recdec t = .next (State.answered
      { t with record := r, cur := BitVec.ofNat 32 t.olen } (es ++ decodeAdvisories r)
      (presentFlags r)) := by
  have holen : t.olen = 3 + (p.list.flatMap pieceOctets).length := by
    rw [State.olen, hlen, Nat.mul_div_cancel_left _ (by decide), wireOctets_eq, List.length_append]
    rfl
  obtain ⟨-, hpieces⟩ := State.Holds.append (os := [0x01, 0x00, 0x08]) hheld
  obtain ⟨r, es, hdecodes, hdecoded⟩ := exists_decoded hcap hfits hpieces holen.ge
  exact ⟨r, es, hdecoded, exec_recdec_wire hcap hlen hheld (fun x => hfits.length_lt) hdecodes⟩
end

/-! ## What RECENC writes -/

/-- The payloads that RECENC writes of the record `r` (R217). -/
def encoded (r : Record) (incl cfg : BitVec 8) : WireParts where
  loc := if emitLoc r incl then some (imageOctets (locImage r (cfg.getLsbD 0)).1) else none
  flr := if incl.getLsbD 1 then some (flrPayload r (cfg.getLsbD 0)).1 else none
  usg := if incl.getLsbD 2 then some (usgPayload r (usgFlag r)) else none
  bss := if incl.getLsbD 3 then some (bssPayload r (cfg.getLsbD 1)) else none

section
variable {emitted : Prop} {b : Bool} {id : Byte} {os piece : List Byte} {ds notes : List DiagEntry}

/-- A piece of the wire record is the octets of an optional subelement. -/
theorem EmittedAs.piece_eq (h : EmittedAs emitted id os ds piece notes) (hb : b = true ↔ emitted) :
    piece = (part id (if b then some os else none)).flatMap pieceOctets := by
  rcases h with ⟨hemitted, rfl, -⟩ | ⟨habsent, rfl, -⟩
  · rw [if_pos (hb.2 hemitted)]
    simp [part, pieceOctets]
  · rw [if_neg (fun h => habsent (hb.1 h))]
    rfl
end

section
variable (r : Record) (incl cfg : BitVec 8)

theorem recordOctets_eq : recordOctets r incl cfg = wireOctets (encoded r incl cfg).list := by
  rw [recordOctets, (emitLocation_emitted r incl cfg).piece_eq (emitLoc_iff r incl),
    (emitFloor_emitted r incl cfg).piece_eq Iff.rfl, (emitUsage_emitted r incl).piece_eq Iff.rfl,
    (emitBssid_emitted r incl cfg).piece_eq Iff.rfl, wireOctets_eq, WireParts.list]
  simp only [List.flatMap_append, List.append_assoc]
  rfl

variable {r incl cfg} in
theorem encoded_fits (hcount : incl.getLsbD 3 = true → r.bssN.toNat ≤ 42) :
    (encoded r incl cfg).Fits where
  loc os h := by
    simp only [encoded, Option.ite_none_right_eq_some, Option.some.injEq] at h
    rw [← h.2, imageOctets_length]
  flr os h := by
    simp only [encoded, Option.ite_none_right_eq_some, Option.some.injEq] at h
    rw [← h.2, (flrPayload_payload r _).1]
  usg os h := by
    simp only [encoded, Option.ite_none_right_eq_some, Option.some.injEq] at h
    rw [← h.2, (usgPayload_payload r).1]
    split
    · exact .inl rfl
    · exact .inr rfl
  bss os h := by
    simp only [encoded, Option.ite_none_right_eq_some, Option.some.injEq] at h
    obtain ⟨hlen, hhead, -⟩ := bssPayload_payload r (cfg.getLsbD 1)
    refine ⟨r.bssN.toNat, hcount h.1, h.2 ▸ hlen, ?_⟩
    rw [← h.2, hhead]
    split
    · exact .inr rfl
    · exact .inl rfl

/-- RECENC leaves a buffer of the size of its wire record, which it holds. -/
theorem exec_recenc_parts (s : State) (hincl : incl.toNat < 32) (hcfg : cfg.toNat < 4) :
    ∃ m c v, Stored m s 0 (hexText (wireOctets (encoded s.record incl cfg).list)) ∧
      2 * (wireOctets (encoded s.record incl cfg).list).length ≤ Config.hcap ∧
      exec (.recenc incl cfg) s = .next (State.answered
        { s with
          hex := m, hlen := 2 * (wireOctets (encoded s.record incl cfg).list).length, cur := c }
        (recordNotes s.record incl cfg) v) := by
  rw [← recordOctets_eq]
  refine ⟨_, BitVec.ofNat 32 (recordOctets s.record incl cfg).length,
    BitVec.ofNat 64 (recordOctets s.record incl cfg).length,
    stored_sized s (recordNotes s.record incl cfg) (recordOctets s.record incl cfg),
    recordOctets_fit s.record incl cfg, ?_⟩
  rw [exec_recenc, runCommand_admitted (by omega)]
  exact congrArg _ (runCommand_sized (recordNotes_room s.record incl cfg)
    (recEnc_done incl cfg s.start))
end

end Sys2Proof.Machine
end

section
/-! PROOFS. The two round trips (spec/47_record.md R221): a record on its grids through RECENC and RECDEC, and a
canonical wire record through LDHEX, RECDEC and RECENC. -/

namespace Sys2Proof.Machine

/-! ## A record on its grids (R221(c)) -/

section
variable {P : List Byte → Record → List DiagEntry → Prop} {b : Bool} {os : List Byte}
  {q r r0 : Record} {es : List DiagEntry} {incl cfg : BitVec 8}

/-- A part that a test selects is decoded if the test holds, and else nothing is. -/
theorem Taken.of_ite (h : Taken P (if b then some os else none) q r es) :
    (b = true ∧ P os r es) ∨ (b = false ∧ r = q) := by
  rcases h with ⟨hnone, hr, -⟩ | ⟨ps, hsome, hP⟩
  · cases b with
    | false => exact .inr ⟨rfl, hr⟩
    | true => cases hnone
  · cases b with
    | false => cases hsome
    | true => exact .inl ⟨rfl, Option.some.inj hsome ▸ hP⟩

/-- The selected sub-records, one codec's registers after another. -/
theorem selected_eq (r : Record) (incl : BitVec 8) (ind : Bool) : selected r incl ind =
    let q := if incl.getLsbD 0 then Record.cleared.withLocation r else Record.cleared
    let q := if incl.getLsbD 1 then q.withFloor r else q
    let q := if incl.getLsbD 2 then q.withUsage r else q
    if incl.getLsbD 3 then q.withAddresses r (if ind then r.bssN.setWidth 8 else 0) else q := rfl

/-- The addresses of a record that the wire form keeps, decoded over a record without any. -/
theorem BssDecoded.of_payload {ind : Bool} {n : Nat} {ds : List DiagEntry}
    (h : BssPayload r0 ind os ds) (hd : BssDecoded q r os n) (hn : os.length = 1 + 6 * n)
    (hvalid : ∀ i < r0.bssN.toNat, (r0.slot i).valid = 1)
    (hempty : ∀ i, r0.bssN.toNat ≤ i → r0.slot i = Slot.empty) (hq : ∀ i, q.slot i = Slot.empty) :
    r = q.withAddresses r0 (if ind then r0.bssN.setWidth 8 else 0) := by
  obtain ⟨hr, hslots⟩ := hd
  obtain ⟨hlen, hhead, -⟩ := id h
  obtain rfl : n = r0.bssN.toNat := by omega
  have hbss : r.bss = r0.bss := by
    refine slots_of_payload h hvalid hempty fun i => ?_
    rw [hslots, hq]
  have hind : os.headD 0 = if ind then r0.bssN.setWidth 8 else 0 := by
    apply BitVec.eq_of_toNat_eq
    have hlt := r0.bssN.isLt
    rw [hhead]
    cases ind with
    | false => rfl
    | true =>
      rw [if_pos rfl, if_pos rfl, BitVec.toNat_setWidth]
      omega
  rw [hr, hbss, hind, BitVec.ofNat_toNat, BitVec.setWidth_eq]
  rfl

/-- What RECDEC makes of the wire record of `r0` is the selected sub-records of `r0`. -/
theorem decoded_encoded (h : (encoded r0 incl cfg).Decoded r es)
    (hp : Preserved r0 incl (cfg.getLsbD 0)) : r = selected r0 incl (cfg.getLsbD 1) := by
  obtain ⟨r1, r2, r3, e1, e2, e3, e4, -, hloc, hflr, husg, hbss⟩ := h
  obtain ⟨ploc, pflr, pusg, pbss⟩ := hp
  have h1 : r1 = if incl.getLsbD 0 then Record.cleared.withLocation r0 else Record.cleared := by
    rcases hloc.of_ite with ⟨hemit, hdec, -⟩ | ⟨hemit, hr⟩
    · have hbit := ((emitLoc_iff r0 incl).1 hemit).1
      obtain ⟨-, hlat, hlon, halt, hlatU, hlonU, haltU⟩ := ploc hbit
      rw [if_pos hbit]
      exact LocDecoded.of_payload (locImage_payload r0 _) hdec hlat hlon halt hlatU hlonU haltU
    · have hbit : ¬incl.getLsbD 0 = true := fun hbit => by
        rw [(emitLoc_iff r0 incl).2 (ploc hbit).1] at hemit
        cases hemit
      rw [if_neg hbit, hr]
  have h2 : r2 = if incl.getLsbD 1 then r1.withFloor r0 else r1 := by
    rcases hflr.of_ite with ⟨hbit, hdec, -⟩ | ⟨hbit, hr⟩
    · obtain ⟨hfloor, hheight, hheightU⟩ := pflr hbit
      rw [if_pos hbit]
      exact FlrDecoded.of_payload (flrPayload_payload r0 _) hdec hfloor hheight hheightU
    · rw [if_neg (Bool.eq_false_iff.1 hbit), hr]
  have h3 : r3 = if incl.getLsbD 2 then r2.withUsage r0 else r2 := by
    rcases husg.of_ite with ⟨hbit, hdec, -⟩ | ⟨hbit, hr⟩
    · rw [if_pos hbit, hdec]
      exact usgDecoded_of_payload (usgPayload_payload r0) (pusg hbit)
    · rw [if_neg (Bool.eq_false_iff.1 hbit), hr]
  have hslots (i : Nat) : r3.slot i = Slot.empty := by
    have hbss : r3.bss = Record.cleared.bss := by
      rw [h3, h2, h1]
      split_ifs <;> rfl
    rw [Record.slot, hbss]
    rcases Nat.lt_or_ge i Config.bssCap with hi | hi
    · simp [Record.cleared, hi]
    · simp [Record.cleared, hi]
  have h4 : r = if incl.getLsbD 3 then
      r3.withAddresses r0 (if cfg.getLsbD 1 then r0.bssN.setWidth 8 else 0) else r3 := by
    rcases hbss.of_ite with ⟨hbit, n, hlen, hdec, -⟩ | ⟨hbit, hr⟩
    · obtain ⟨-, hvalid, hempty⟩ := pbss hbit
      rw [if_pos hbit]
      exact hdec.of_payload (bssPayload_payload r0 _) hlen hvalid hempty hslots
    · rw [if_neg (Bool.eq_false_iff.1 hbit), hr]
  rw [selected_eq, h4, h3, h2, h1]

/-- The first round trip: RECENC, then RECDEC (R221(c)). -/
theorem selected_of_recenc_recdec (s : State) (hincl : incl.toNat < 32) (hcfg : cfg.toNat < 4)
    (hp : Preserved s.record incl (cfg.getLsbD 0)) : ∃ t u,
      exec (.recenc incl cfg) s = .next t ∧ t.status = .ok ∧ exec .recdec t = .next u ∧
      u.status = .ok ∧ u.record = selected s.record incl (cfg.getLsbD 1) := by
  obtain ⟨m, c, v, hstored, hcap, hexec⟩ := exec_recenc_parts incl cfg s hincl hcfg
  obtain ⟨r, es, hdecoded, hrecdec⟩ := exists_recdec_parts (t := State.answered
      { s with
        hex := m, hlen := 2 * (wireOctets (encoded s.record incl cfg).list).length, cur := c }
      (recordNotes s.record incl cfg) v)
    hcap (encoded_fits fun hbit => (hp.2.2.2 hbit).1) rfl
    (Stored.holds (s := s) (p := 0) hstored)
  exact ⟨_, _, hexec, rfl, hrecdec, rfl, decoded_encoded hdecoded hp⟩
end

end Sys2Proof.Machine
end

section
/-! PROOFS. A canonical wire record comes back (spec/47_record.md R221(a)): it is four optional payloads in their one
form, RECDEC leaves a record that holds them, and RECENC writes what such a record holds. -/

namespace Sys2Proof.Machine

/-! ## Reports that a canonical record may cause -/

section
variable {ds es : List DiagEntry}

theorem onlyVersionOrAdvisory_nil : OnlyVersionOrAdvisory [] := nofun

theorem OnlyVersionOrAdvisory.append (hds : OnlyVersionOrAdvisory ds)
    (hes : OnlyVersionOrAdvisory es) : OnlyVersionOrAdvisory (ds ++ es) := fun e he =>
  (List.mem_append.1 he).elim (hds e) (hes e)

theorem onlyVersionOrAdvisory_advisories (r : Record) (useU useF re : Bool) :
    OnlyVersionOrAdvisory (advisories r useU useF re) := by
  intro e he
  simp only [advisories, List.mem_append, List.mem_ite_nil_right, List.mem_singleton] at he
  rcases he with ((⟨-, rfl⟩ | ⟨-, rfl⟩) | ⟨-, rfl⟩) | ⟨-, rfl⟩
  all_goals exact .inr rfl

theorem duplicateNotes_absent {flag : BitVec 1} (h : flag = 0) (id : Nat) :
    duplicateNotes flag id = [] := by
  rw [duplicateNotes, h]
  rfl

theorem uncNotes_valid {c max : Nat} (h : c ≤ max) (fld : Nat) : uncNotes c max fld = [] :=
  if_neg (Nat.not_lt.2 h)
end

/-! ## Canonical payloads (R221(a)) -/

/-- Every payload of the wire record is in the one form the encoder writes. -/
structure WireParts.Canonical (ind : Bool) (p : WireParts) : Prop where
  loc : ∀ os, p.loc = some os → os.length = 16 ∧
    bitField os 0 6 ≤ 34 ∧ bitField os 40 6 ≤ 34 ∧ bitField os 84 6 ≤ 34
  flr : ∀ os, p.flr = some os → os.length = 6 ∧ flrCode os ≤ 24
  usg : ∀ os, p.usg = some os → (os.headD 0).toNat < 8 ∧
    ((os.length = 1 ∧ (os.headD 0).getLsbD 1 = false) ∨
      (os.length = 3 ∧ (os.headD 0).getLsbD 1 = true ∧ usgExpire os ≠ 0))
  bss : ∀ os, p.bss = some os → ∃ n ≤ 42, os.length = 1 + 6 * n ∧
    (os.headD 0).toNat = if ind then n else 0

section
variable {ind : Bool} {p : WireParts} {xs : List (Byte × List Byte)} {id : Byte} {os : List Byte}

theorem WireParts.Canonical.fits (h : p.Canonical ind) : p.Fits where
  loc os ho := (h.loc os ho).1
  flr os ho := (h.flr os ho).1
  usg os ho := (h.usg os ho).2.imp And.left And.left
  bss os ho := by
    obtain ⟨n, hn, hlen, hhead⟩ := h.bss os ho
    refine ⟨n, hn, hlen, ?_⟩
    rw [hhead]
    split
    · exact .inr rfl
    · exact .inl rfl

/-- The first subelement of an ascending list is the one with the least ID, or there is none with it. -/
theorem exists_part (id : Byte) (hsorted : xs.Pairwise fun x y => x.1.toNat < y.1.toNat)
    (hlow : ∀ x ∈ xs, id.toNat ≤ x.1.toNat) : ∃ o ys, xs = part id o ++ ys ∧
      (ys.Pairwise fun x y => x.1.toNat < y.1.toNat) ∧ ∀ x ∈ ys, id.toNat < x.1.toNat := by
  cases xs with
  | nil => exact ⟨none, [], rfl, .nil, nofun⟩
  | cons x xs =>
    obtain ⟨hfirst, hrest⟩ := List.pairwise_cons.1 hsorted
    have hx := hlow x List.mem_cons_self
    by_cases hid : x.1 = id
    · subst hid
      exact ⟨some x.2, xs, rfl, hrest, hfirst⟩
    · have hlt : id.toNat < x.1.toNat :=
        lt_of_le_of_ne hx fun h => hid (BitVec.eq_of_toNat_eq h.symm)
      refine ⟨none, x :: xs, rfl, hsorted, fun y hy => ?_⟩
      rcases List.mem_cons.1 hy with rfl | hy
      · exact hlt
      · exact hlt.trans (hfirst y hy)

/-- The IDs of canonical subelements as numbers (R83). -/
theorem CanonicalPayload.id_toNat (h : CanonicalPayload ind id os) :
    id.toNat = 0 ∨ id.toNat = 4 ∨ id.toNat = 6 ∨ id.toNat = 7 := by
  rcases h with ⟨rfl, -⟩ | ⟨rfl, -⟩ | ⟨rfl, -⟩ | ⟨rfl, -⟩
  · exact .inl rfl
  · exact .inr (.inl rfl)
  · exact .inr (.inr (.inl rfl))
  · exact .inr (.inr (.inr rfl))

/-- A canonical payload with the ID of a codec has the form of that codec. -/
theorem WireParts.canonical_of_list (h : ∀ x ∈ p.list, CanonicalPayload ind x.1 x.2) :
    p.Canonical ind := by
  have hpart {id : Byte} {o : Option (List Byte)} (hsub : ∀ x ∈ part id o, x ∈ p.list) (os : List Byte)
      (ho : o = some os) : CanonicalPayload ind id os :=
    h (id, os) (hsub _ (mem_part.2 ⟨rfl, ho⟩))
  simp only [WireParts.list, List.mem_append] at hpart
  refine ⟨fun os ho => ?_, fun os ho => ?_, fun os ho => ?_, fun os ho => ?_⟩
  · rcases hpart (fun x hx => .inl (.inl (.inl hx))) os ho with
      ⟨-, hform⟩ | ⟨hid, -⟩ | ⟨hid, -⟩ | ⟨hid, -⟩
    · exact hform
    all_goals cases hid
  · rcases hpart (fun x hx => .inl (.inl (.inr hx))) os ho with
      ⟨hid, -⟩ | ⟨-, hform⟩ | ⟨hid, -⟩ | ⟨hid, -⟩
    · cases hid
    · exact hform
    all_goals cases hid
  · rcases hpart (fun x hx => .inl (.inr hx)) os ho with
      ⟨hid, -⟩ | ⟨hid, -⟩ | ⟨-, hform⟩ | ⟨hid, -⟩
    · cases hid
    · cases hid
    · exact hform
    · cases hid
  · rcases hpart (fun x hx => .inr hx) os ho with
      ⟨hid, -⟩ | ⟨hid, -⟩ | ⟨hid, -⟩ | ⟨-, hshort, n, hlen, hhead⟩
    · cases hid
    · cases hid
    · cases hid
    · exact ⟨n, by omega, hlen, hhead⟩

/-- A canonical wire record is four optional canonical payloads. -/
theorem exists_parts (h : CanonicalWire ind xs) : ∃ p : WireParts, xs = p.list ∧ p.Canonical ind := by
  obtain ⟨hsorted, hpayloads⟩ := h
  have hids : ∀ x ∈ xs, x.1.toNat = 0 ∨ x.1.toNat = 4 ∨ x.1.toNat = 6 ∨ x.1.toNat = 7 :=
    fun x hx => (hpayloads x hx).id_toNat
  obtain ⟨loc, ys, hxs, hsorted, habove⟩ := exists_part 0 hsorted fun x _ => Nat.zero_le _
  have hids : ∀ x ∈ ys, x.1.toNat = 4 ∨ x.1.toNat = 6 ∨ x.1.toNat = 7 := fun x hx =>
    (hids x (hxs ▸ List.mem_append_right _ hx)).resolve_left (habove x hx).ne'
  obtain ⟨flr, zs, rfl, hsorted, habove⟩ := exists_part 4 hsorted fun x hx => by
    have := hids x hx
    show 4 ≤ x.1.toNat
    omega
  have hids : ∀ x ∈ zs, x.1.toNat = 6 ∨ x.1.toNat = 7 := fun x hx =>
    (hids x (List.mem_append_right _ hx)).resolve_left (habove x hx).ne'
  obtain ⟨usg, ws, rfl, hsorted, habove⟩ := exists_part 6 hsorted fun x hx => by
    have := hids x hx
    show 6 ≤ x.1.toNat
    omega
  have hids : ∀ x ∈ ws, x.1.toNat = 7 := fun x hx =>
    (hids x (List.mem_append_right _ hx)).resolve_left (habove x hx).ne'
  obtain ⟨bss, us, rfl, -, habove⟩ := exists_part 7 hsorted fun x hx => (hids x hx).ge
  have hnone : us = [] := List.eq_nil_iff_forall_not_mem.2 fun x hx =>
    absurd (hids x (List.mem_append_right _ hx)) (habove x hx).ne'
  have hlist : xs = (⟨loc, flr, usg, bss⟩ : WireParts).list := by
    simp only [hxs, hnone, WireParts.list, List.append_assoc, List.append_nil]
  exact ⟨_, hlist, WireParts.canonical_of_list (hlist ▸ hpayloads)⟩
end

/-! ## What RECDEC leaves of canonical parts -/

/-- A part is there exactly where its present flag is set, and then the record holds it. -/
def Present (flag : BitVec 1) (o : Option (List Byte)) (P : List Byte → Prop) : Prop :=
  (o = none ∧ flag = 0) ∨ ∃ os, o = some os ∧ flag = 1 ∧ P os

/-- The slots in use are the addresses of the payload. -/
def AddressesHeld (r : Record) (os : List Byte) : Prop :=
  ∃ n, os.length = 1 + 6 * n ∧ BssHeld r os n

/-- The record `r` holds the parts of a wire record, and no others are present. -/
structure WireParts.Agrees (p : WireParts) (r : Record) : Prop where
  loc : Present r.geoP p.loc (LocHeld r)
  flr : Present r.flrP p.flr (FlrHeld r)
  usg : Present r.usgP p.usg (UsgHeld r)
  bss : Present r.bssP p.bss (AddressesHeld r)

/-- The record is as it was but for what the codec `f` writes. -/
def Changed (f : Record → Record → Record) (q r : Record) : Prop := r = q ∨ r = f q r

section
variable {ind : Bool} {p : WireParts} {q r : Record} {es : List DiagEntry}
  {o : Option (List Byte)} {f : Record → Record → Record}

/-- What a codec does not write stays as it was. -/
theorem Changed.keeps {α : Sort*} (h : Changed f q r) (g : Record → α) (hg : ∀ q r, g (f q r) = g q) :
    g r = g q := by
  rcases h with rfl | h
  · rfl
  · rw [h, hg]

theorem locTaken_held (h : Taken (LocTaken q) o q r es) (hflag : q.geoP = 0)
    (hcodes : ∀ os, o = some os → os.length = 16 ∧
      bitField os 0 6 ≤ 34 ∧ bitField os 40 6 ≤ 34 ∧ bitField os 84 6 ≤ 34) :
    Present r.geoP o (LocHeld r) ∧ Changed Record.withLocation q r ∧ OnlyVersionOrAdvisory es := by
  rcases h with ⟨rfl, rfl, rfl⟩ | ⟨os, rfl, hdec, rfl⟩
  · exact ⟨.inl ⟨rfl, hflag⟩, .inl rfl, onlyVersionOrAdvisory_nil⟩
  · refine ⟨.inr ⟨os, rfl, congrArg Record.geoP hdec.eq_withLocation, hdec.held⟩,
      .inr hdec.eq_withLocation, ?_⟩
    obtain ⟨-, hlat, hlon, halt⟩ := hcodes os rfl
    rw [locDecNotes, duplicateNotes_absent hflag, uncNotes_valid hlat, uncNotes_valid hlon,
      uncNotes_valid halt]
    intro e he
    simp only [List.nil_append] at he
    split at he
    · cases he
    · exact .inl (by rw [List.mem_singleton.1 he])

theorem flrTaken_held (h : Taken (FlrTaken q) o q r es) (hflag : q.flrP = 0)
    (hcodes : ∀ os, o = some os → os.length = 6 ∧ flrCode os ≤ 24) :
    Present r.flrP o (FlrHeld r) ∧ Changed Record.withFloor q r ∧ OnlyVersionOrAdvisory es := by
  rcases h with ⟨rfl, rfl, rfl⟩ | ⟨os, rfl, hdec, rfl⟩
  · exact ⟨.inl ⟨rfl, hflag⟩, .inl rfl, onlyVersionOrAdvisory_nil⟩
  · refine ⟨.inr ⟨os, rfl, congrArg Record.flrP hdec.eq_withFloor, hdec.held⟩,
      .inr hdec.eq_withFloor, ?_⟩
    rw [duplicateNotes_absent hflag, uncNotes_valid (hcodes os rfl).2]
    exact onlyVersionOrAdvisory_nil

theorem usgTaken_held (h : Taken (UsgTaken q) o q r es) (hflag : q.usgP = 0)
    (hforms : ∀ os, o = some os → (os.headD 0).toNat < 8 ∧
      ((os.length = 1 ∧ (os.headD 0).getLsbD 1 = false) ∨
        (os.length = 3 ∧ (os.headD 0).getLsbD 1 = true ∧ usgExpire os ≠ 0))) :
    Present r.usgP o (UsgHeld r) ∧ Changed Record.withUsage q r ∧ OnlyVersionOrAdvisory es := by
  rcases h with ⟨rfl, rfl, rfl⟩ | ⟨os, rfl, rfl, rfl⟩
  · exact ⟨.inl ⟨rfl, hflag⟩, .inl rfl, onlyVersionOrAdvisory_nil⟩
  · refine ⟨.inr ⟨os, rfl, rfl, usgDecoded_held q os⟩, .inr rfl, ?_⟩
    rw [usgDecNotes, duplicateNotes_absent hflag]
    rcases (hforms os rfl).2 with ⟨hlen, hbit⟩ | ⟨hlen, hbit, hnonzero⟩
    · rw [hlen, hbit, if_pos (show false = decide (1 = 3) by decide),
        if_neg (fun h => absurd h.1 (by decide))]
      exact onlyVersionOrAdvisory_nil
    · rw [hlen, hbit, if_pos (show true = decide (3 = 3) by decide), if_neg (fun h => hnonzero h.2)]
      exact onlyVersionOrAdvisory_nil

theorem bssTaken_held (h : Taken (BssTaken q) o q r es) (hflag : q.bssP = 0) :
    Present r.bssP o (AddressesHeld r) ∧ Changed (fun q r => q.withAddresses r r.bssInd) q r ∧
      OnlyVersionOrAdvisory es := by
  rcases h with ⟨rfl, rfl, rfl⟩ | ⟨os, rfl, n, hlen, ⟨hr, hslots⟩, rfl⟩
  · exact ⟨.inl ⟨rfl, hflag⟩, .inl rfl, onlyVersionOrAdvisory_nil⟩
  · have hcount : r.bssN = BitVec.ofNat 6 n := congrArg Record.bssN hr
    have hind : r.bssInd = os.headD 0 := congrArg Record.bssInd hr
    refine ⟨.inr ⟨os, rfl, congrArg Record.bssP hr, n, hlen, hcount, fun i hi => ?_⟩, .inr ?_, ?_⟩
    · rw [hslots, if_pos hi]
    · show r = q.withAddresses r r.bssInd
      rw [Record.withAddresses, hcount, hind]
      exact hr
    · rw [duplicateNotes_absent hflag]
      exact onlyVersionOrAdvisory_nil

/-- RECDEC of canonical parts leaves a record that holds them, and reports the version at most. -/
theorem WireParts.Decoded.agrees (h : p.Decoded r es) (hc : p.Canonical ind) :
    p.Agrees r ∧ OnlyVersionOrAdvisory es := by
  obtain ⟨r1, r2, r3, e1, e2, e3, e4, rfl, hloc, hflr, husg, hbss⟩ := h
  obtain ⟨ploc, c1, n1⟩ := locTaken_held hloc rfl hc.loc
  obtain ⟨pflr, c2, n2⟩ := flrTaken_held hflr (c1.keeps Record.flrP fun _ _ => rfl) hc.flr
  have husgP : r2.usgP = 0 :=
    (c2.keeps Record.usgP fun _ _ => rfl).trans (c1.keeps Record.usgP fun _ _ => rfl)
  obtain ⟨pusg, c3, n3⟩ := usgTaken_held husg husgP hc.usg
  have hbssP : r3.bssP = 0 := (c3.keeps Record.bssP fun _ _ => rfl).trans
    ((c2.keeps Record.bssP fun _ _ => rfl).trans (c1.keeps Record.bssP fun _ _ => rfl))
  obtain ⟨pbss, c4, n4⟩ := bssTaken_held hbss hbssP
  refine ⟨⟨?_, ?_, ?_, pbss⟩, ((n1.append n2).append n3).append n4⟩
  · let g : Record → Prop := fun r => Present r.geoP p.loc (LocHeld r)
    exact ((c4.keeps g fun _ _ => rfl).trans
      ((c3.keeps g fun _ _ => rfl).trans (c2.keeps g fun _ _ => rfl))).mpr ploc
  · let g : Record → Prop := fun r => Present r.flrP p.flr (FlrHeld r)
    exact ((c4.keeps g fun _ _ => rfl).trans (c3.keeps g fun _ _ => rfl)).mpr pflr
  · exact (c4.keeps (fun r => Present r.usgP p.usg (UsgHeld r)) fun _ _ => rfl).mpr pusg
end

/-! ## What RECENC writes of a record that holds canonical parts -/

section
variable {emitted : Prop} {b ind : Bool} {flag : BitVec 1} {id : Byte} {os piece : List Byte}
  {ds notes : List DiagEntry} {o : Option (List Byte)} {P : List Byte → Prop}
  {p : WireParts} {r : Record} {incl cfg : BitVec 8}

/-- A subelement is emitted as the part that the record holds, if its test is the present flag. -/
theorem EmittedAs.of_present (h : EmittedAs emitted id os ds piece notes) (hb : b = true ↔ emitted)
    (hflag : b = true ↔ flag = 1) (hpresent : Present flag o P)
    (hP : ∀ ps, o = some ps → P ps → os = ps ∧ OnlyVersionOrAdvisory ds) :
    (if b then some os else none) = o ∧ OnlyVersionOrAdvisory notes := by
  rcases hpresent with ⟨rfl, hzero⟩ | ⟨ps, rfl, hone, hheld⟩
  · have hoff : ¬b = true := fun hon => absurd ((hflag.1 hon).symm.trans hzero) (by decide)
    rcases h with ⟨hemitted, -⟩ | ⟨-, -, rfl⟩
    · exact absurd (hb.2 hemitted) hoff
    · exact ⟨if_neg hoff, onlyVersionOrAdvisory_nil⟩
  · obtain ⟨rfl, hds⟩ := hP ps rfl hheld
    have hon := hflag.2 hone
    rcases h with ⟨-, -, rfl⟩ | ⟨habsent, -⟩
    · exact ⟨if_pos hon, hds⟩
    · exact absurd (hb.1 hon) habsent

/-- The bits of incl select the present sub-records and force the location (R221(a)). -/
structure SelectsPresent (incl : BitVec 8) (r : Record) : Prop where
  geo : incl.getLsbD 0 = true ↔ r.geoP = 1
  flr : incl.getLsbD 1 = true ↔ r.flrP = 1
  usg : incl.getLsbD 2 = true ↔ r.usgP = 1
  bss : incl.getLsbD 3 = true ↔ r.bssP = 1
  force : incl.getLsbD 4 = true

/-- RECENC of a record that holds canonical parts writes these parts, and reports the version at
most. -/
theorem WireParts.Agrees.encoded (h : p.Agrees r) (hc : p.Canonical ind)
    (hsel : SelectsPresent incl r) (hzs : cfg.getLsbD 0 = false) (hind : cfg.getLsbD 1 = ind) :
    encoded r incl cfg = p ∧ OnlyVersionOrAdvisory (recordNotes r incl cfg) := by
  have hemit : emitLoc r incl = true ↔ r.geoP = 1 := by
    rw [emitLoc_iff, ← hsel.geo]
    exact ⟨And.left, fun hbit => ⟨hbit, .inr (.inr (.inr hsel.force))⟩⟩
  obtain ⟨hloc, nloc⟩ := (emitLocation_emitted r incl cfg).of_present (emitLoc_iff r incl) hemit h.loc
    fun ps hps hheld => by
      obtain ⟨hlen, hlat, hlon, halt⟩ := hc.loc ps hps
      have hpayload := locImage_payload r (cfg.getLsbD 0)
      rw [hzs] at hpayload ⊢
      obtain ⟨hos, hds⟩ := hpayload.of_held hheld hlen hlat hlon halt
      exact ⟨hos, fun e he => .inl (hds e he)⟩
  obtain ⟨hflr, nflr⟩ := (emitFloor_emitted r incl cfg).of_present Iff.rfl hsel.flr h.flr
    fun ps hps hheld => by
      obtain ⟨hlen, hcode⟩ := hc.flr ps hps
      have hpayload := flrPayload_payload r (cfg.getLsbD 0)
      rw [hzs] at hpayload ⊢
      obtain ⟨hos, hds⟩ := hpayload.of_held hheld hlen hcode
      exact ⟨hos, hds ▸ onlyVersionOrAdvisory_nil⟩
  obtain ⟨husg, nusg⟩ := (emitUsage_emitted r incl).of_present Iff.rfl hsel.usg h.usg
    fun ps hps hheld => by
      obtain ⟨hflags, hform⟩ := hc.usg ps hps
      obtain ⟨hos, hds⟩ := (usgPayload_payload r).of_held hheld hflags hform
      exact ⟨hos, hds ▸ onlyVersionOrAdvisory_nil⟩
  obtain ⟨hbss, nbss⟩ := (emitBssid_emitted r incl cfg).of_present Iff.rfl hsel.bss h.bss
    fun ps hps ⟨n, hlen, hheld⟩ => by
      obtain ⟨m, hm, hlen', hhead⟩ := hc.bss ps hps
      obtain rfl : m = n := by omega
      obtain ⟨hos, hds⟩ := (bssPayload_payload r (cfg.getLsbD 1)).of_held hheld hlen hm
        (by rw [hhead, hind])
      exact ⟨hos, hds ▸ onlyVersionOrAdvisory_nil⟩
  constructor
  · rw [Machine.encoded, hloc, hflr, husg, hbss]
  · rw [recordNotes_eq]
    exact (((nloc.append nflr).append nusg).append nbss).append
      (onlyVersionOrAdvisory_advisories _ _ _ _)
end

/-! ## The second round trip (R221(a)) -/

/-- The mask that RECDEC answers, with FORCE_LOC, selects the present sub-records (R103, R215). -/
theorem presentFlags_selects (r : Record) : SelectsPresent ((presentFlags r).setWidth 8 + 0x10) r ∧
    ((presentFlags r).setWidth 8 + 0x10).toNat < 32 := by
  have hbits : ∀ g f u b : BitVec 1, let incl :=
      (BitVec.ofNat 64 (g.toNat + 2 * f.toNat + 4 * u.toNat + 8 * b.toNat)).setWidth 8 + (0x10 : BitVec 8)
      (incl.getLsbD 0 = true ↔ g = 1) ∧ (incl.getLsbD 1 = true ↔ f = 1) ∧
      (incl.getLsbD 2 = true ↔ u = 1) ∧ (incl.getLsbD 3 = true ↔ b = 1) ∧
      incl.getLsbD 4 = true ∧ incl.toNat < 32 := by decide
  obtain ⟨hgeo, hflr, husg, hbss, hforce, hlt⟩ := hbits r.geoP r.flrP r.usgP r.bssP
  exact ⟨⟨hgeo, hflr, husg, hbss, hforce⟩, hlt⟩

/-- The second round trip: LDHEX, RECDEC, RECENC. -/
theorem canonicalWire_survives {ind : Bool} {p : WireParts} (s : State) (hc : p.Canonical ind) :
    ∃ t u w m,
      exec (.ldhex 0 (hexText (wireOctets p.list))) s = .next t ∧ t.status = .ok ∧
      exec .recdec t = .next u ∧ u.resp = some { status := .ok, value := m, text := none } ∧
      exec (.recenc (m.setWidth 8 + 0x10) (if ind then 2 else 0)) u = .next w ∧ w.status = .ok ∧
      w.hlen = (hexText (wireOctets p.list)).length ∧
      Stored w.hex u 0 (hexText (wireOctets p.list)) ∧ OnlyVersionOrAdvisory (u.diag ++ w.diag) := by
  have hsize : (hexText (wireOctets p.list)).length ≤ 1024 := by
    rw [hexText_length]
    exact hc.fits.wireOctets_length_le
  obtain ⟨h, hstored, hload⟩ := (ldhexStoresTheText 0 (hexText (wireOctets p.list)) s).2.2.2 rfl hsize
  obtain ⟨r, es, hdecoded, hrecdec⟩ := exists_recdec_parts (p := p) (t := State.answered
      { s with hex := h, hlen := (hexText (wireOctets p.list)).length } [] 0)
    hsize hc.fits (hexText_length _) (Stored.holds (s := s) (p := 0) hstored)
  obtain ⟨u, hu, rfl, hdiag, hresp⟩ : ∃ u, exec .recdec _ = .next u ∧ u.record = r ∧
      u.diag = es ++ decodeAdvisories r ∧
      u.resp = some { status := .ok, value := presentFlags r, text := none } :=
    ⟨_, hrecdec, rfl, rfl, rfl⟩
  obtain ⟨hagrees, hes⟩ := hdecoded.agrees hc
  obtain ⟨hsel, hincl⟩ := presentFlags_selects u.record
  have hcfg : ∀ ind : Bool, ((if ind then 2 else 0 : BitVec 8).toNat < 4) ∧
      (if ind then 2 else 0 : BitVec 8).getLsbD 0 = false ∧
      (if ind then 2 else 0 : BitVec 8).getLsbD 1 = ind := by decide
  obtain ⟨hlt, hzs, hind⟩ := hcfg ind
  obtain ⟨hparts, hnotes⟩ := hagrees.encoded hc hsel hzs hind
  obtain ⟨m, c, v, hwritten, -, hrecenc⟩ := exec_recenc_parts _ _ u hincl hlt
  rw [hparts] at hwritten hrecenc
  refine ⟨_, u, _, _, hload, rfl, hu, hresp, hrecenc, rfl, (hexText_length _).symm, hwritten, ?_⟩
  rw [hdiag]
  exact (hes.append (onlyVersionOrAdvisory_advisories _ _ _ _)).append hnotes

/-- Settles O59: the two round trips, the second over the four optional parts of a canonical record. -/
theorem recordSurvivesEncodeAndDecode : Obligations.RecordSurvivesEncodeAndDecode := by
  refine ⟨fun b1 b2 s hincl hcfg hp => selected_of_recenc_recdec s hincl hcfg hp, fun ind xs s h => ?_⟩
  obtain ⟨p, rfl, hc⟩ := exists_parts h
  exact canonicalWire_survives s hc

end Sys2Proof.Machine
end
